-- ==== Sys2Proof/Word.lean ====
section
/-! DEFINITION. The word types of the block (00_scope.md R8, R10): a bus word or address is 32 bits,
a byte is 8 bits, and every value is unsigned. -/

namespace Sys2Proof

/-- A 32-bit bus word, also a bus address (20_memory.md R35). -/
abbrev Word := BitVec 32

/-- One byte of RAM (10_state.md R31). -/
abbrev Byte := BitVec 8

/-- A DMA channel number as a command's CH field holds it (30_encoding.md R53). -/
abbrev ChanNo := BitVec 4

/-- `UINT32_MAX` of 00_scope.md R10. -/
abbrev uint32Max : Word := 0xFFFFFFFF#32

end Sys2Proof
end

