-- ==== Sys2Proof/Syntax.lean ====
section
/-! DEFINITION. The commands of EC-IF 1, one constructor for each row of spec/opcode_table.json
(30_encoding.md R54), and the lines of the host program notation (30_encoding.md R59). -/

namespace Sys2Proof

/-- The edge polarity: POL = 0 is Rising, 1 is Falling (10_state.md R18). -/
inductive Polarity where
  | rising
  | falling
deriving DecidableEq, Repr

/-- The commands. Each operand has the width of its field in the command word (30_encoding.md R52,
R53), so every value of an operand is one the encoding admits. -/
inductive Instr where
  /-- 0x01 BUS_RD, format A. -/
  | busRd (addr : Word)
  /-- 0x02 BUS_WR, format AV. -/
  | busWr (addr value : Word)
  /-- 0x03 EN_MASK, format M. -/
  | enMask (mask : BitVec 2)
  /-- 0x10 EC_CONFIGURE, format P. -/
  | ecConfigure (pin : BitVec 8) (pol : Polarity)
  /-- 0x11 EC_RESET, format N. -/
  | ecReset
  /-- 0x12 EC_SET_ENABLED, format B. -/
  | ecSetEnabled (b : Bool)
  /-- 0x13 EC_READ, format N. -/
  | ecRead
  /-- 0x14 EC_SET_WRAP, format H. -/
  | ecSetWrap (imm : BitVec 16)
  /-- 0x15 EC_GET_TAG, format N. -/
  | ecGetTag
  /-- 0x20 GT_CONFIGURE, format T. -/
  | gtConfigure (pin prescale : BitVec 8) (period : Word)
  /-- 0x21 GT_RESET, format N. -/
  | gtReset
  /-- 0x22 GT_SET_ENABLED, format B. -/
  | gtSetEnabled (b : Bool)
  /-- 0x23 GT_READ, format N. -/
  | gtRead
  /-- 0x24 GT_GET_TAG, format N. -/
  | gtGetTag
  /-- 0x30 CX_INIT, format C. -/
  | cxInit (ch : ChanNo)
  /-- 0x31 CX_START, format N. -/
  | cxStart
  /-- 0x32 CX_VALUE, format N. -/
  | cxValue
  /-- 0x33 CX_STOP, format N. -/
  | cxStop
  /-- 0x40 GC_INIT, format C. -/
  | gcInit (ch : ChanNo)
  /-- 0x41 GC_START, format N. -/
  | gcStart
  /-- 0x42 GC_IS_BUSY, format N. -/
  | gcIsBusy
  /-- 0x43 GC_READ, format N. -/
  | gcRead
  /-- 0x44 GC_POLL_OVERFLOW, format N. -/
  | gcPollOverflow
  /-- 0x50 TS_INIT, format S. -/
  | tsInit (ch : ChanNo) (base cap : Word)
  /-- 0x51 TS_START, format N. -/
  | tsStart
  /-- 0x52 TS_STOP, format N. -/
  | tsStop
  /-- 0x53 TS_CAPTURED, format N. -/
  | tsCaptured
  /-- 0x54 TS_PERIOD, format N. -/
  | tsPeriod
deriving DecidableEq, Repr

/-- The host operations of 30_encoding.md R59. A label is the index of the line it names. -/
inductive HostOp where
  /-- `B L`. -/
  | b (target : Nat)
  /-- `BZ L`: branch when `last.value` is 0. -/
  | bz (target : Nat)
  /-- `BNZ L`: branch when `last.value` is not 0. -/
  | bnz (target : Nat)
  /-- `BLT L, k`: branch when `last.value < k`. -/
  | blt (target : Nat) (k : Word)
  /-- `BERR L`: branch when `last.status` is not 0. -/
  | berr (target : Nat)
  /-- `MARK`: `t0 <- last.value`. -/
  | mark
  /-- `BTO L, d`: branch when `(last.value - t0) mod 2^32 >= d`. R59 gives `d` no width: that it has
  32 bits, here and in GC_WAIT_TO and TS_WAIT_TO, is the model's (DESIGN CHOICE, log entry 21, safe). -/
  | bto (target : Nat) (d : Word)
  /-- `SETST s`: `last.status <- s`. -/
  | setst (status : BitVec 8)
  /-- `HALT`: the program ends. -/
  | halt
deriving DecidableEq, Repr

/-- One line of a host program (30_encoding.md R59): a command, as the words handed to the block, or a
host operation. -/
inductive HostLine where
  | command (words : List Word)
  | op (o : HostOp)
deriving DecidableEq, Repr

/-- The line index a host operation may branch to, where it has one (30_encoding.md R59). -/
def HostOp.target? : HostOp → Option Nat
  | .b t | .bz t | .bnz t | .blt t _ | .berr t | .bto t _ => some t
  | .mark | .setst _ | .halt => none

end Sys2Proof
end

