-- ==== Sys2Proof/WellFormed.lean ====
section
/-! DEFINITION. Well-formed terms. A command's operands have the widths of their fields, and an operand
value that a field can hold but the command refuses is a legal encoding (30_encoding.md R57), so every
Instr is well formed: the Instr check names each constructor and asks nothing more. The checks that
can fail are those on a host program (30_encoding.md R51, R59). -/

namespace Sys2Proof

/-- Every command term is well formed: its operand types are its fields' widths (30_encoding.md R53,
R57). -/
def Instr.wellFormed : Instr → Bool
  | .busRd _ => true
  | .busWr _ _ => true
  | .enMask _ => true
  | .ecConfigure _ _ => true
  | .ecReset => true
  | .ecSetEnabled _ => true
  | .ecRead => true
  | .ecSetWrap _ => true
  | .ecGetTag => true
  | .gtConfigure _ _ _ => true
  | .gtReset => true
  | .gtSetEnabled _ => true
  | .gtRead => true
  | .gtGetTag => true
  | .cxInit _ => true
  | .cxStart => true
  | .cxValue => true
  | .cxStop => true
  | .gcInit _ => true
  | .gcStart => true
  | .gcIsBusy => true
  | .gcRead => true
  | .gcPollOverflow => true
  | .tsInit _ _ _ => true
  | .tsStart => true
  | .tsStop => true
  | .tsCaptured => true
  | .tsPeriod => true

/-- A command line holds one, two or three words (30_encoding.md R51). -/
def wordsWellFormed (ws : List Word) : Bool :=
  1 ≤ ws.length && ws.length ≤ 3

/-- A label names a line of the program, or the end just after its last line (30_encoding.md R59,
R60: a pseudo-instruction's `Ld` may be that end). -/
def targetWellFormed (n : Nat) (o : HostOp) : Bool :=
  match o.target? with
  | some t => t ≤ n
  | none => true

/-- The check of one line of a program of `n` lines. -/
def HostLine.wellFormed (n : Nat) : HostLine → Bool
  | .command ws => wordsWellFormed ws
  | .op o => targetWellFormed n o

/-- The check of a whole host program (30_encoding.md R59). -/
def programWellFormed (prog : List HostLine) : Bool :=
  prog.all (HostLine.wellFormed prog.length)

end Sys2Proof
end

