-- ==== Sys2Proof/Decode.lean ====
section
/-! DEFINITION. The command encoding (30_encoding.md R51 to R58): the formats, the opcode map, a total
decoder that rejects by name, and the encoder written from the same tables. -/

namespace Sys2Proof

/-- The ten formats of 30_encoding.md R52. -/
inductive Format where
  | N | B | M | H | P | C | T | A | AV | S
deriving DecidableEq, Repr

/-- How many words a command of the format has (R52). -/
def Format.words : Format → Nat
  | .N | .B | .M | .H | .P | .C => 1
  | .T | .A => 2
  | .AV | .S => 3

/-- The bits of word 0 that hold an operand (R52); the bits 23:0 that are not among them are
reserved. -/
def Format.operandMask : Format → Word
  | .N | .A | .AV => 0x00000000#32
  | .B => 0x00000001#32
  | .M => 0x00000003#32
  | .H => 0x0000FFFF#32
  | .P => 0x000001FF#32
  | .C | .S => 0x0000000F#32
  | .T => 0x0000FFFF#32

/-- `reserved_mask(f)` of R56. -/
def Format.reservedMask (f : Format) : Word :=
  0x00FFFFFF#32 &&& ~~~ f.operandMask

/-- The words a command is read from: word 0 and the two words after it, of which a format reads as
many as it has. -/
structure RawWords where
  w0 : Word
  w1 : Word
  w2 : Word
deriving DecidableEq, Repr

/-- Field `B` of format B (R53). -/
def fieldB (w : Word) : Bool := w.getLsbD 0

/-- Field `MASK` of format M. -/
def fieldMask (w : Word) : BitVec 2 := w.extractLsb' 0 2

/-- Field `IMM16` of format H. -/
def fieldImm16 (w : Word) : BitVec 16 := w.extractLsb' 0 16

/-- Field `PIN` of formats P and T. -/
def fieldPin (w : Word) : BitVec 8 := w.extractLsb' 0 8

/-- Field `PRESCALE` of format T. -/
def fieldPrescale (w : Word) : BitVec 8 := w.extractLsb' 8 8

/-- Field `CH` of formats C and S. -/
def fieldCh (w : Word) : ChanNo := w.extractLsb' 0 4

/-- The polarity a bit stands for: 0 Rising, 1 Falling (R53). -/
def Polarity.ofBit : Bool → Polarity
  | false => .rising
  | true => .falling

/-- The bit that stands for a polarity (R53). -/
def Polarity.bit : Polarity → Bool
  | .rising => false
  | .falling => true

/-- Field `POL` of format P. -/
def fieldPol (w : Word) : Polarity := Polarity.ofBit (w.getLsbD 8)

/-- One row of the opcode map (R54). -/
structure OpcodeRow where
  opcode : BitVec 8
  format : Format
  build : RawWords → Instr

/-- The opcode map's rows of the bus, EC and GT groups (R54, R55). -/
def leafRows : List OpcodeRow := [
  ⟨0x01#8, .A, fun r => .busRd r.w1⟩,
  ⟨0x02#8, .AV, fun r => .busWr r.w1 r.w2⟩,
  ⟨0x03#8, .M, fun r => .enMask (fieldMask r.w0)⟩,
  ⟨0x10#8, .P, fun r => .ecConfigure (fieldPin r.w0) (fieldPol r.w0)⟩,
  ⟨0x11#8, .N, fun _ => .ecReset⟩,
  ⟨0x12#8, .B, fun r => .ecSetEnabled (fieldB r.w0)⟩,
  ⟨0x13#8, .N, fun _ => .ecRead⟩,
  ⟨0x14#8, .H, fun r => .ecSetWrap (fieldImm16 r.w0)⟩,
  ⟨0x15#8, .N, fun _ => .ecGetTag⟩,
  ⟨0x20#8, .T, fun r => .gtConfigure (fieldPin r.w0) (fieldPrescale r.w0) r.w1⟩,
  ⟨0x21#8, .N, fun _ => .gtReset⟩,
  ⟨0x22#8, .B, fun r => .gtSetEnabled (fieldB r.w0)⟩,
  ⟨0x23#8, .N, fun _ => .gtRead⟩,
  ⟨0x24#8, .N, fun _ => .gtGetTag⟩]

/-- The opcode map's rows of the CX, GC and TS groups (R54, R55). -/
def compositeRows : List OpcodeRow := [
  ⟨0x30#8, .C, fun r => .cxInit (fieldCh r.w0)⟩,
  ⟨0x31#8, .N, fun _ => .cxStart⟩,
  ⟨0x32#8, .N, fun _ => .cxValue⟩,
  ⟨0x33#8, .N, fun _ => .cxStop⟩,
  ⟨0x40#8, .C, fun r => .gcInit (fieldCh r.w0)⟩,
  ⟨0x41#8, .N, fun _ => .gcStart⟩,
  ⟨0x42#8, .N, fun _ => .gcIsBusy⟩,
  ⟨0x43#8, .N, fun _ => .gcRead⟩,
  ⟨0x44#8, .N, fun _ => .gcPollOverflow⟩,
  ⟨0x50#8, .S, fun r => .tsInit (fieldCh r.w0) r.w1 r.w2⟩,
  ⟨0x51#8, .N, fun _ => .tsStart⟩,
  ⟨0x52#8, .N, fun _ => .tsStop⟩,
  ⟨0x53#8, .N, fun _ => .tsCaptured⟩,
  ⟨0x54#8, .N, fun _ => .tsPeriod⟩]

/-- The opcode map (R54). -/
def opcodeMap : List OpcodeRow := leafRows ++ compositeRows

/-- The row of an opcode; `none` is a reserved opcode (R57). -/
def opcodeRow (opc : BitVec 8) : Option OpcodeRow :=
  opcodeMap.find? (fun r => r.opcode == opc)

/-- `OPC`, bits 31:24 of word 0 (R51). -/
def opcodeOf (w0 : Word) : BitVec 8 := w0.extractLsb' 24 8

/-- Why a command word is illegal (R56, R57). -/
inductive IllegalReason where
  /-- The opcode is not in the map. -/
  | reservedOpcode
  /-- A reserved field of word 0 is not zero. -/
  | reservedField
deriving DecidableEq, Repr

/-- What the decoder reads from a line's words. -/
inductive Decoded where
  /-- A command and how many words it has. -/
  | command (i : Instr) (len : Nat)
  /-- `Illegal, length len` of R56. -/
  | illegal (why : IllegalReason) (len : Nat)
  /-- The host handed fewer words than the opcode asks for: not a command at all (log entry 12). -/
  | truncated
deriving DecidableEq, Repr

/-- The decoder of R56. Words past the command's length are not read (log entry 13). -/
def decode : List Word → Decoded
  | [] => .truncated
  | w0 :: ext =>
    match opcodeRow (opcodeOf w0) with
    | none => .illegal .reservedOpcode 1
    | some row =>
      if w0 &&& row.format.reservedMask ≠ 0#32 then
        .illegal .reservedField row.format.words
      else if ext.length + 1 < row.format.words then
        .truncated
      else
        .command (row.build ⟨w0, ext.getD 0 0#32, ext.getD 1 0#32⟩) row.format.words

/-- The command a line's words decode to, where they do. -/
def decodeInstr (ws : List Word) : Option Instr :=
  match decode ws with
  | .command i _ => some i
  | _ => none

/-- Bits `32 k + 31 : 32 k` of a number, as a word. -/
def tableWord (w k : Nat) : Word := BitVec.ofNat 32 (w / 2 ^ (32 * k))

/-- The command read from an opcode-table word of `nbits` bits, every higher bit 0: word 0 is bits
31:0, word 1 bits 63:32, word 2 bits 95:64. -/
def decodeTableWord (nbits w : Nat) : Option Instr :=
  let v := w % 2 ^ nbits
  decodeInstr [tableWord v 0, tableWord v 1, tableWord v 2]

/-! ### The encoder -/

/-- Word 0 from the opcode and bits 23:0 (R51). -/
def word0 (opc : BitVec 8) (low : BitVec 24) : Word := opc ++ low

/-- Word 0 of format N, A or AV. -/
def word0N (opc : BitVec 8) : Word := word0 opc 0#24

/-- Word 0 of format B. -/
def word0B (opc : BitVec 8) (b : Bool) : Word := word0 opc (0#23 ++ BitVec.ofBool b)

/-- Word 0 of format M. -/
def word0M (opc : BitVec 8) (mask : BitVec 2) : Word := word0 opc (0#22 ++ mask)

/-- Word 0 of format H. -/
def word0H (opc : BitVec 8) (imm : BitVec 16) : Word := word0 opc (0#8 ++ imm)

/-- Word 0 of format P. -/
def word0P (opc : BitVec 8) (pol : Polarity) (pin : BitVec 8) : Word :=
  word0 opc (0#15 ++ (BitVec.ofBool pol.bit ++ pin))

/-- Word 0 of format C or S. -/
def word0C (opc : BitVec 8) (ch : ChanNo) : Word := word0 opc (0#20 ++ ch)

/-- Word 0 of format T. -/
def word0T (opc : BitVec 8) (prescale pin : BitVec 8) : Word :=
  word0 opc (0#8 ++ (prescale ++ pin))

/-- The words of a command (R51 to R54). -/
def encode : Instr → List Word
  | .busRd addr => [word0N 0x01#8, addr]
  | .busWr addr value => [word0N 0x02#8, addr, value]
  | .enMask mask => [word0M 0x03#8 mask]
  | .ecConfigure pin pol => [word0P 0x10#8 pol pin]
  | .ecReset => [word0N 0x11#8]
  | .ecSetEnabled b => [word0B 0x12#8 b]
  | .ecRead => [word0N 0x13#8]
  | .ecSetWrap imm => [word0H 0x14#8 imm]
  | .ecGetTag => [word0N 0x15#8]
  | .gtConfigure pin prescale period => [word0T 0x20#8 prescale pin, period]
  | .gtReset => [word0N 0x21#8]
  | .gtSetEnabled b => [word0B 0x22#8 b]
  | .gtRead => [word0N 0x23#8]
  | .gtGetTag => [word0N 0x24#8]
  | .cxInit ch => [word0C 0x30#8 ch]
  | .cxStart => [word0N 0x31#8]
  | .cxValue => [word0N 0x32#8]
  | .cxStop => [word0N 0x33#8]
  | .gcInit ch => [word0C 0x40#8 ch]
  | .gcStart => [word0N 0x41#8]
  | .gcIsBusy => [word0N 0x42#8]
  | .gcRead => [word0N 0x43#8]
  | .gcPollOverflow => [word0N 0x44#8]
  | .tsInit ch base cap => [word0C 0x50#8 ch, base, cap]
  | .tsStart => [word0N 0x51#8]
  | .tsStop => [word0N 0x52#8]
  | .tsCaptured => [word0N 0x53#8]
  | .tsPeriod => [word0N 0x54#8]

end Sys2Proof
end

