-- ==== Sys2Proof/Config.lean ====
section
/-! DEFINITION. What the spec leaves to the implementation: the parameters of 00_scope.md R8, which
the model takes as an argument (they are a field of State, `params`), and what RAM holds at launch. -/

namespace Sys2Proof.Machine

/-- The parameters of 00_scope.md R8. -/
structure Params where
  /-- `PIN_COUNT`, the number of input pins. -/
  pinCount : Nat
  /-- `EDGE_PIN_PARITY`, the parity of the pins an EdgeCounter can use. -/
  edgePinParity : Nat
  /-- `DMA_CHANNELS`, the number of DMA channels. -/
  dmaChannels : Nat
  /-- `BLOCK_BASE`, the bus address of the register window. -/
  blockBase : Word
  /-- `RAM_BASE`, the first RAM byte's address. -/
  ramBase : Word
  /-- `RAM_SIZE`, in bytes. -/
  ramSize : Nat
  /-- `CLOCK_ADDR`, the bus address of the microsecond clock. -/
  clockAddr : Word
  /-- `PENDING_LIMIT`; `none` is `unbounded`. -/
  pendingLimit : Option Nat
  /-- `INPUT_CLOCK_HZ`; no step reads it (70_reset_and_hazards.md R155). A whole number of Hz is a
  DESIGN CHOICE: the spec says only that it is positive (log entry 22; unsafe for a claim about seconds,
  safe otherwise). -/
  inputClockHz : Nat
deriving DecidableEq, Repr

/-- The legal values of 00_scope.md R8 and the regions of 20_memory.md R36, which must not overlap.
`ram_in_bus` is DEDUCED from 20_memory.md R35: a bus address has 32 bits (log entry 18, safe). -/
structure Params.Legal (p : Params) : Prop where
  pinCount_pos : 1 ≤ p.pinCount
  pinCount_le : p.pinCount ≤ 255
  parity_lt : p.edgePinParity < 2
  dmaChannels_pos : 1 ≤ p.dmaChannels
  dmaChannels_le : p.dmaChannels ≤ 16
  blockBase_aligned : p.blockBase.toNat % 0x1000 = 0
  ramSize_aligned : p.ramSize % 4 = 0
  ramSize_pos : 4 ≤ p.ramSize
  ram_in_bus : p.ramBase.toNat + p.ramSize ≤ 2 ^ 32
  clock_aligned : p.clockAddr.toNat % 4 = 0
  ram_block : p.ramBase.toNat + p.ramSize ≤ p.blockBase.toNat ∨
    p.blockBase.toNat + 0x1000 ≤ p.ramBase.toNat
  ram_clock : p.ramBase.toNat + p.ramSize ≤ p.clockAddr.toNat ∨
    p.clockAddr.toNat + 4 ≤ p.ramBase.toNat
  block_clock : p.blockBase.toNat + 0x1000 ≤ p.clockAddr.toNat ∨
    p.clockAddr.toNat + 4 ≤ p.blockBase.toNat
  limit_pos : ∀ n, p.pendingLimit = some n → 1 ≤ n
  inputClock_pos : 1 ≤ p.inputClockHz

/-- The values 95_test_vectors.md uses (00_scope.md R8, last column). The spec calls them examples:
DESIGN CHOICE for the reset state alone, unsafe (log entry 1). -/
def Params.testValues : Params where
  pinCount := 30
  edgePinParity := 1
  dmaChannels := 4
  blockBase := 0x40000000#32
  ramBase := 0x20000000#32
  ramSize := 0x1000
  clockAddr := 0x40010000#32
  pendingLimit := none
  inputClockHz := 125000000

/-- What a RAM byte that the memory does not list reads as. The RAM's contents at launch are a launch
input (70_reset_and_hazards.md R136). DESIGN CHOICE, unsafe for the reset state (log entry 4): a
launch with other contents is a State whose memory lists them. -/
def ramAtLaunch : Byte := 0#8

end Sys2Proof.Machine
end

