-- ==== Sys2Proof/Machine/State.lean ====
section
/-! DEFINITION. The state of the block and of its control thread as plain data (10_state.md), and the
state right after reset (70_reset_and_hazards.md R135). -/

namespace Sys2Proof.Machine

/-- The model faults of 60_exceptions.md R121. -/
inductive Fault where
  /-- A channel accepts a request while it already holds PENDING_LIMIT requests (40_bus_dma.md R68).
  Raised by an `edge` or `gt_tick` step. Safe: the spec says a run that reaches it is no run of the
  hardware. -/
  | dreqOverrun
  /-- A transfer's destination is DMA_ABORT or a DMA channel register (40_bus_dma.md R69). Raised by a
  `transfer` step. Safe, for the same reason. -/
  | dmaRegisterTarget
deriving DecidableEq, Repr

/-- What the model has no meaning for. -/
inductive Refusal where
  /-- A command that has no meaning yet. Raised by a refused arm of `exec`; none is left. Safe. -/
  | notModelled (mnemonic : String)
  /-- A line of the host program holds fewer words than its opcode asks for, so it is no command
  (30_encoding.md R51). Raised by the control thread's step. Safe (log entry 12). -/
  | truncatedCommand
deriving DecidableEq, Repr

/-- The EdgeCounter's registers (10_state.md R18). -/
structure EdgeCounter where
  /-- EC_CTRL.EN. -/
  en : Bool
  /-- EC_CTRL.POL. -/
  pol : Polarity
  /-- EC_CTR.CTR. -/
  ctr : BitVec 16
  /-- EC_WRAP.WRAP. -/
  wrap : BitVec 16
  /-- EC_PIN.PIN; 0xFF is no pin. -/
  pin : BitVec 8
deriving DecidableEq, Repr

/-- The GateTimer's registers (10_state.md R22). -/
structure GateTimer where
  /-- GT_CTRL.EN. -/
  en : Bool
  /-- GT_CTRL.PH_CORRECT. -/
  phCorrect : Bool
  /-- GT_CTRL.DIR, true when counting down. -/
  dir : Bool
  /-- GT_CTR.CTR. -/
  ctr : BitVec 16
  /-- GT_WRAP.WRAP. -/
  wrap : BitVec 16
  /-- GT_PRESCALE.PRESCALE. -/
  prescale : BitVec 8
  /-- GT_PIN.PIN; 0xFF is no pin. -/
  pin : BitVec 8
deriving DecidableEq, Repr

/-- One DMA channel's registers (10_state.md R26). -/
structure DmaChannel where
  /-- READ_ADDR, the live source address. -/
  readAddr : Word
  /-- WRITE_ADDR, the live destination address. -/
  writeAddr : Word
  /-- COUNT, the live remaining count. -/
  count : Word
  /-- RELOAD, what a trigger copies into COUNT. -/
  reload : Word
  /-- CTRL.EN. -/
  en : Bool
  /-- CTRL.SIZE, true for 32-bit transfers. -/
  size : Bool
  /-- CTRL.INCR_READ. -/
  incrRead : Bool
  /-- CTRL.INCR_WRITE. -/
  incrWrite : Bool
  /-- CTRL.TREQ, the trigger source's tag. -/
  treq : BitVec 6
  /-- CTRL.BUSY, a sequence is in flight (R28). -/
  busy : Bool
  /-- CTRL.ERR, a transfer hit a bus error. -/
  err : Bool
  /-- PENDING, accepted requests not yet served. -/
  pending : Nat
deriving DecidableEq, Repr

/-- One component's part of BIND (10_state.md R24): its channel and whether it is initialised. -/
structure Binding where
  ch : ChanNo
  bound : Bool
deriving DecidableEq, Repr

/-- GC_STATE (10_state.md R24, R25). -/
inductive GcState where
  | idle
  | armed
  | running
  | expired
deriving DecidableEq, Repr

/-- A command's result record (00_scope.md R12). -/
structure Result where
  status : BitVec 8
  value : Word
  flag : Bool
deriving DecidableEq, Repr

/-- The status codes a command can end with (60_exceptions.md R114). Code 4, TimeoutError, is the
host's alone. -/
inductive Status where
  | ok
  | invalidPin
  | periodOutOfRange
  | insufficientSamples
  | timeout
  | illegalCommand
  | invalidArgument
  | channelInUse
  | notInitialised
  | busError
deriving DecidableEq, Repr

/-- One turn of the interleaving (20_memory.md R47): whose atomic step is next, and every choice that
step leaves open. DESIGN CHOICE (log entries 5 and 6, safe): the spec admits every order and every
choice, and so does the schedule, which is an arbitrary list. -/
inductive Turn where
  /-- The control thread's next micro-step or next line. -/
  | control
  /-- The signal source's `edge(pin)`; bit `ch` of `accepts` is what a paused channel `ch` chooses when
  this step's event reaches it (40_bus_dma.md R68). -/
  | edge (pin : BitVec 8) (accepts : BitVec 16)
  /-- The GateTimer's `gt_tick`; `accepts` as in `edge`. -/
  | tick (accepts : BitVec 16)
  /-- Channel `ch`'s `transfer`. -/
  | transfer (ch : ChanNo)
  /-- The microsecond clock's step. -/
  | clock
deriving DecidableEq, Repr

/-- A start command that has taken some of its micro-steps and not all: the micro-step it takes next,
with the values the command read when it began (00_scope.md R11, 20_memory.md R47, R49). -/
inductive InFlight where
  /-- CX_START before its arming step (42_counter_extender.md R85). -/
  | cxArm (cx : ChanNo)
  /-- GC_START before s2 (44_gate_controller.md R100). -/
  | gcAbort (gc : ChanNo)
  /-- GC_START before s3. -/
  | gcZero (gc : ChanNo)
  /-- GC_START before s4. -/
  | gcArm (gc : ChanNo)
  /-- GC_START before s5. -/
  | gcEnable
  /-- TS_START before it zeroes slot `i` (45_timestamp_capture.md R107). -/
  | tsZero (ts : ChanNo) (base cap : Word) (i : Nat)
  /-- TS_START before it zeroes the count. -/
  | tsReset (ts : ChanNo) (base cap : Word)
  /-- TS_START before its abort. -/
  | tsAbort (ts : ChanNo) (base cap : Word)
  /-- TS_START before its re-arm. -/
  | tsArm (ts : ChanNo) (base cap : Word)
  /-- TS_START before it enables the counter. -/
  | tsEnable
deriving DecidableEq, Repr

/-- RAM (10_state.md R31) as the bytes that differ from `ramAtLaunch`, by bus address, addresses
strictly rising. -/
abbrev Memory := List Host.Cell

/-- The whole machine. -/
structure State where
  /-- The parameters of 00_scope.md R8; the model's own field, which no step changes. -/
  params : Params
  /-- The EdgeCounter (10_state.md R18). -/
  ec : EdgeCounter
  /-- The GateTimer (10_state.md R22). -/
  gt : GateTimer
  /-- CX_SCRATCH (10_state.md R24). -/
  cxScratch : Word
  /-- GC_STOPVAL (10_state.md R24). -/
  gcStopval : Word
  /-- GC_STATE (10_state.md R24, R25). -/
  gcState : GcState
  /-- GC_OVF_TALLY (10_state.md R24). -/
  gcOvfTally : Word
  /-- GC_PREV_SAMPLE.PREV (10_state.md R24). -/
  gcPrevSample : BitVec 16
  /-- BIND.CX_CH and BIND.CX_BOUND (10_state.md R24). -/
  cx : Binding
  /-- BIND.GC_CH and BIND.GC_BOUND. -/
  gc : Binding
  /-- BIND.TS_CH and BIND.TS_BOUND. -/
  ts : Binding
  /-- TS_BASE (10_state.md R24). -/
  tsBase : Word
  /-- TS_CAPACITY (10_state.md R24). -/
  tsCapacity : Word
  /-- The DMA channels (10_state.md R26); those at or above DMA_CHANNELS do not exist and stay as they
  are (log entry 16). -/
  dma : Vector DmaChannel 16
  /-- CLOCK (10_state.md R29). -/
  clock : Word
  /-- Bit `p` is `level[p]` (10_state.md R30); bits at or above PIN_COUNT are no pins. -/
  levels : BitVec 256
  /-- RAM (10_state.md R31). -/
  mem : Memory
  /-- The fault mark (10_state.md R33, 60_exceptions.md R121). -/
  faultMark : Option Fault
  /-- The host program (30_encoding.md R59). -/
  program : List HostLine
  /-- The index of the next line (10_state.md R17). -/
  pc : Nat
  /-- The last command's result record (30_encoding.md R59). -/
  last : Result
  /-- The mark `t0` (30_encoding.md R59). -/
  t0 : Word
  /-- The command the control thread is in the middle of, at its next micro-step (20_memory.md R47,
  60_exceptions.md R129); `none` between commands. -/
  inFlight : Option InFlight
  /-- The turns still to come; the model's own field. When none is left, the control thread goes on
  alone (log entry 5). -/
  schedule : List Turn
deriving DecidableEq, Repr

/-- A channel after reset (70_reset_and_hazards.md R135). -/
def DmaChannel.atReset : DmaChannel where
  readAddr := 0#32
  writeAddr := 0#32
  count := 0#32
  reload := 0#32
  en := false
  size := false
  incrRead := false
  incrWrite := false
  treq := 0#6
  busy := false
  err := false
  pending := 0

/-- The machine after reset with its launch inputs (70_reset_and_hazards.md R135, R136). `last` and
`t0` have no value in the spec before a first command: DESIGN CHOICE 0, unsafe (log entry 10). No
program is loaded, no command is in flight and no turn is waiting (log entries 5, 8 and 9). -/
def State.launch (p : Params) (clock : Word) (levels : BitVec 256) (ram : Memory) : State where
  params := p
  ec := ⟨false, .rising, 0#16, 0xFFFF#16, 0xFF#8⟩
  gt := ⟨false, false, false, 0#16, 0xFFFF#16, 1#8, 0xFF#8⟩
  cxScratch := 0#32
  gcStopval := 0#32
  gcState := .idle
  gcOvfTally := 0#32
  gcPrevSample := 0#16
  cx := ⟨0#4, false⟩
  gc := ⟨0#4, false⟩
  ts := ⟨0#4, false⟩
  tsBase := 0#32
  tsCapacity := 0#32
  dma := Vector.replicate 16 DmaChannel.atReset
  clock := clock
  levels := levels
  mem := ram
  faultMark := none
  program := []
  pc := 0
  last := ⟨0#8, 0#32, false⟩
  t0 := 0#32
  inFlight := none
  schedule := []

/-- The machine right after reset. The launch inputs are a clock of 0, every pin low and RAM of zeros,
and the parameters are the test values: DESIGN CHOICE, unsafe (log entries 1 to 4). -/
def State.reset : State :=
  State.launch Params.testValues 0#32 0#256 []

end Sys2Proof.Machine
end

