-- ==== Sys2Proof/Machine/Ops.lean ====
section
/-! DEFINITION. The named operations over memory and registers: RAM, result records, the DMA
channel actions, the register map and the bus (20_memory.md, 40_bus_dma.md). -/

namespace Sys2Proof.Machine

/-! ### RAM -/

/-- The byte at an address. -/
def Memory.read : Memory → Nat → Byte
  | [], _ => ramAtLaunch
  | (k, b) :: m, a => if k = a then b else Memory.read m a

/-- Write one byte, keeping the canonical form. -/
def Memory.write : Memory → Nat → Byte → Memory
  | [], a, v => if v = ramAtLaunch then [] else [(a, v)]
  | (k, b) :: m, a, v =>
    if a < k then
      if v = ramAtLaunch then (k, b) :: m else (a, v) :: (k, b) :: m
    else if a = k then
      if v = ramAtLaunch then m else (a, v) :: m
    else (k, b) :: Memory.write m a v

/-- Every listed address is at or above `lo`, addresses strictly rise, and no entry is what an unlisted
address reads as. -/
def Memory.wfFrom : Nat → Memory → Bool
  | _, [] => true
  | lo, (k, b) :: m => decide (lo ≤ k) && b != ramAtLaunch && Memory.wfFrom (k + 1) m

/-- The canonical form of RAM. -/
def Memory.wf (m : Memory) : Bool := Memory.wfFrom 0 m

/-- A 32-bit little-endian read (20_memory.md R38, R40). -/
def Memory.read32 (m : Memory) (a : Nat) : Word :=
  m.read (a + 3) ++ m.read (a + 2) ++ m.read (a + 1) ++ m.read a

/-- A 32-bit little-endian write (20_memory.md R39, R40). -/
def Memory.write32 (m : Memory) (a : Nat) (v : Word) : Memory :=
  (((m.write a (v.extractLsb' 0 8)).write (a + 1) (v.extractLsb' 8 8)).write
    (a + 2) (v.extractLsb' 16 8)).write (a + 3) (v.extractLsb' 24 8)

/-! ### The end of a command -/

/-- The status codes of 60_exceptions.md R114. -/
def Status.code : Status → BitVec 8
  | .ok => 0#8
  | .invalidPin => 1#8
  | .periodOutOfRange => 2#8
  | .insufficientSamples => 3#8
  | .timeout => 4#8
  | .illegalCommand => 5#8
  | .invalidArgument => 6#8
  | .channelInUse => 7#8
  | .notInitialised => 8#8
  | .busError => 9#8

/-- `return (OK, value, flag)` (00_scope.md R11, R12). -/
def State.ret (s : State) (value : Word) (flag : Bool) : State :=
  { s with last := ⟨Status.ok.code, value, flag⟩ }

/-- `fail S`: the command ends with status `S`, value 0 and flag 0, and nothing else changes
(00_scope.md R11, R12; 60_exceptions.md R114, R118). It is what this block has in place of a trap
(60_exceptions.md R124): there is no saved state and no handler. -/
def State.fail (s : State) (st : Status) : State :=
  { s with last := ⟨st.code, 0#32, false⟩ }

/-! ### DMA channels -/

/-- Channel `ch`. -/
def State.chan (s : State) (ch : ChanNo) : DmaChannel :=
  s.dma[ch.toNat]'ch.isLt

/-- Put `c` in the place of channel `ch`. -/
def State.setChan (s : State) (ch : ChanNo) (c : DmaChannel) : State :=
  { s with dma := s.dma.set ch.toNat c ch.isLt }

/-- `trigger(ch)` of 40_bus_dma.md R65. -/
def DmaChannel.trigger (c : DmaChannel) : DmaChannel :=
  if c.en = false then c
  else if c.busy = true then c
  else if c.reload = 0#32 then { c with count := c.reload }
  else { c with count := c.reload, busy := true, pending := 0 }

/-- `abort(ch)` of 40_bus_dma.md R66. -/
def DmaChannel.abort (c : DmaChannel) : DmaChannel :=
  { c with busy := false, pending := 0, err := false }

/-- A write of TRANS_COUNT_TRIG: RELOAD, then the trigger (40_bus_dma.md R64). -/
def DmaChannel.writeTrig (c : DmaChannel) (v : Word) : DmaChannel :=
  DmaChannel.trigger { c with reload := v }

/-- CTRL.EN <- 1, then a TRANS_COUNT_TRIG write, as the three start commands arm their channel
(42_counter_extender.md R85, 44_gate_controller.md R100, 45_timestamp_capture.md R107). -/
def DmaChannel.arm (c : DmaChannel) (v : Word) : DmaChannel :=
  DmaChannel.writeTrig { c with en := true } v

/-- A failed transfer ends the sequence and sets ERR (40_bus_dma.md R70). -/
def DmaChannel.busFail (c : DmaChannel) : DmaChannel :=
  { c with err := true, busy := false, pending := 0 }

/-- How many bytes a transfer moves (40_bus_dma.md R69). -/
def DmaChannel.stride (c : DmaChannel) : Word :=
  if c.size then 4#32 else 1#32

/-- A served request: increments, COUNT and PENDING, and the end of the sequence at zero
(40_bus_dma.md R69). COUNT is at least 1 here in every state a run reaches. -/
def DmaChannel.served (c : DmaChannel) : DmaChannel :=
  let left := c.count - 1#32
  { c with
    readAddr := if c.incrRead then c.readAddr + c.stride else c.readAddr
    writeAddr := if c.incrWrite then c.writeAddr + c.stride else c.writeAddr
    count := left
    busy := if left = 0#32 then false else c.busy
    pending := if left = 0#32 then 0 else c.pending - 1 }

/-- CTRL.{EN, SIZE, INCR_READ, INCR_WRITE, TREQ} <- {0, 1, 0, iw, tag}, as the three init commands
write it; BUSY, ERR, COUNT and PENDING stay (42_counter_extender.md R84, 44_gate_controller.md R99,
45_timestamp_capture.md R106). -/
def DmaChannel.bindTo (c : DmaChannel) (src dst : Word) (iw : Bool) (tag : BitVec 6) :
    DmaChannel :=
  { c with
    readAddr := src, writeAddr := dst
    en := false, size := true, incrRead := false, incrWrite := iw, treq := tag }

/-- The trigger tag of the EdgeCounter (40_bus_dma.md R67). -/
def ecTag : BitVec 6 := 0#6

/-- The trigger tag of the GateTimer (40_bus_dma.md R67). -/
def gtTag : BitVec 6 := 1#6

/-! ### The register map -/

/-- The registers of one DMA channel (10_state.md R26). -/
inductive DmaReg where
  | readAddr
  | writeAddr
  | transCount
  | ctrl
  | transCountTrig
  | pending
  | reload
deriving DecidableEq, Repr

/-- The registers of the block window (10_state.md R18, R22, R24, R26). -/
inductive Reg where
  | ecCtrl
  | ecCtr
  | ecWrap
  | ecPin
  | gtCtrl
  | gtCtr
  | gtWrap
  | gtPrescale
  | gtPin
  | enMask
  | cxScratch
  | gcStopval
  | gcState
  | gcOvfTally
  | gcPrevSample
  | dmaAbort
  | bind
  | tsBase
  | tsCapacity
  | dma (ch : ChanNo) (r : DmaReg)
deriving DecidableEq, Repr

/-- A channel register's offset in its channel (10_state.md R26). -/
def DmaReg.offset : DmaReg → Nat
  | .readAddr => 0x00
  | .writeAddr => 0x04
  | .transCount => 0x08
  | .ctrl => 0x0C
  | .transCountTrig => 0x10
  | .pending => 0x14
  | .reload => 0x18

/-- A register's offset from BLOCK_BASE (10_state.md R18, R22, R24, R26). -/
def Reg.offset : Reg → Nat
  | .ecCtrl => 0x000
  | .ecCtr => 0x004
  | .ecWrap => 0x008
  | .ecPin => 0x00C
  | .gtCtrl => 0x010
  | .gtCtr => 0x014
  | .gtWrap => 0x018
  | .gtPrescale => 0x01C
  | .gtPin => 0x020
  | .enMask => 0x024
  | .cxScratch => 0x028
  | .gcStopval => 0x02C
  | .gcState => 0x030
  | .gcOvfTally => 0x034
  | .gcPrevSample => 0x038
  | .dmaAbort => 0x03C
  | .bind => 0x040
  | .tsBase => 0x044
  | .tsCapacity => 0x048
  | .dma ch r => 0x100 + 0x20 * ch.toNat + r.offset

/-- The registers below offset 0x100. -/
def plainRegs : List Reg :=
  [.ecCtrl, .ecCtr, .ecWrap, .ecPin, .gtCtrl, .gtCtr, .gtWrap, .gtPrescale, .gtPin, .enMask,
    .cxScratch, .gcStopval, .gcState, .gcOvfTally, .gcPrevSample, .dmaAbort, .bind, .tsBase,
    .tsCapacity]

/-- The registers of a channel. -/
def dmaRegs : List DmaReg :=
  [.readAddr, .writeAddr, .transCount, .ctrl, .transCountTrig, .pending, .reload]

/-- `ch < DMA_CHANNELS`: the channel exists (10_state.md R26). -/
def Params.hasChannel (p : Params) (ch : ChanNo) : Bool :=
  decide (ch.toNat < p.dmaChannels)

/-- The register at an offset of the window; `none` is a gap (`is_register` of 20_memory.md R37). -/
def Params.regAt (p : Params) (off : Nat) : Option Reg :=
  if off < 0x100 then plainRegs.find? (fun r => r.offset == off)
  else
    let n := (off - 0x100) / 0x20
    if n < 16 ∧ p.hasChannel (BitVec.ofNat 4 n) = true then
      (dmaRegs.find? (fun r => r.offset == (off - 0x100) % 0x20)).map (Reg.dma (BitVec.ofNat 4 n))
    else none

/-- The bus address of a register (20_memory.md R36). -/
def Params.regAddr (p : Params) (r : Reg) : Word :=
  p.blockBase + BitVec.ofNat 32 r.offset

/-- The codes of GC_STATE (10_state.md R24). -/
def GcState.code : GcState → BitVec 2
  | .idle => 0#2
  | .armed => 1#2
  | .running => 2#2
  | .expired => 3#2

/-- EC_CTRL as it reads (10_state.md R18). -/
def EdgeCounter.ctrlWord (c : EdgeCounter) : Word :=
  0#30 ++ (BitVec.ofBool (c.pol.bit) ++ BitVec.ofBool c.en)

/-- GT_CTRL as it reads (10_state.md R22). -/
def GateTimer.ctrlWord (c : GateTimer) : Word :=
  0#29 ++ (BitVec.ofBool c.dir ++ (BitVec.ofBool c.phCorrect ++ BitVec.ofBool c.en))

/-- CTRL of a channel as it reads (10_state.md R26): EN 0, SIZE 1, INCR_READ 2, INCR_WRITE 3,
TREQ 9:4, BUSY 24, ERR 29. -/
def DmaChannel.ctrlWord (c : DmaChannel) : Word :=
  0#2 ++ (BitVec.ofBool c.err ++ (0#4 ++ (BitVec.ofBool c.busy ++ (0#14 ++ (c.treq ++
    (BitVec.ofBool c.incrWrite ++ (BitVec.ofBool c.incrRead ++ (BitVec.ofBool c.size ++
      BitVec.ofBool c.en))))))))

/-- A write of CTRL (40_bus_dma.md R64): BUSY, ERR, COUNT and PENDING stay. -/
def DmaChannel.writeCtrl (c : DmaChannel) (v : Word) : DmaChannel :=
  { c with
    en := v.getLsbD 0, size := v.getLsbD 1, incrRead := v.getLsbD 2, incrWrite := v.getLsbD 3
    treq := v.extractLsb' 4 6 }

/-- BIND as it reads (10_state.md R24). -/
def State.bindWord (s : State) : Word :=
  0#11 ++ (BitVec.ofBool s.ts.bound ++ (s.ts.ch ++ (0#3 ++ (BitVec.ofBool s.gc.bound ++ (s.gc.ch ++
    (0#3 ++ (BitVec.ofBool s.cx.bound ++ s.cx.ch)))))))

/-- A channel register's read value (10_state.md R26, 20_memory.md R38). -/
def DmaChannel.readReg (c : DmaChannel) : DmaReg → Word
  | .readAddr => c.readAddr
  | .writeAddr => c.writeAddr
  | .transCount => c.count
  | .ctrl => c.ctrlWord
  | .transCountTrig => c.count
  | .pending => BitVec.ofNat 32 (min c.pending 0xFFFFFFFF)
  | .reload => c.reload

/-- A channel register's write action (40_bus_dma.md R64). -/
def DmaChannel.writeReg (c : DmaChannel) (r : DmaReg) (v : Word) : DmaChannel :=
  match r with
  | .readAddr => { c with readAddr := v }
  | .writeAddr => { c with writeAddr := v }
  | .transCount => { c with reload := v }
  | .ctrl => c.writeCtrl v
  | .transCountTrig => c.writeTrig v
  | .pending => c
  | .reload => c

/-- A register's read value (10_state.md R18, R22, R24, R26; 20_memory.md R38). A read changes
nothing (20_memory.md R43). -/
def State.regRead (s : State) : Reg → Word
  | .ecCtrl => s.ec.ctrlWord
  | .ecCtr => s.ec.ctr.setWidth 32
  | .ecWrap => s.ec.wrap.setWidth 32
  | .ecPin => s.ec.pin.setWidth 32
  | .gtCtrl => s.gt.ctrlWord
  | .gtCtr => s.gt.ctr.setWidth 32
  | .gtWrap => s.gt.wrap.setWidth 32
  | .gtPrescale => s.gt.prescale.setWidth 32
  | .gtPin => s.gt.pin.setWidth 32
  | .enMask => 0#30 ++ (BitVec.ofBool s.gt.en ++ BitVec.ofBool s.ec.en)
  | .cxScratch => s.cxScratch
  | .gcStopval => s.gcStopval
  | .gcState => s.gcState.code.setWidth 32
  | .gcOvfTally => s.gcOvfTally
  | .gcPrevSample => s.gcPrevSample.setWidth 32
  | .dmaAbort => 0#32
  | .bind => s.bindWord
  | .tsBase => s.tsBase
  | .tsCapacity => s.tsCapacity
  | .dma ch r => (s.chan ch).readReg r

/-- Write both enables in one step (40_bus_dma.md R63, R64). -/
def State.setEnables (s : State) (ecEn gtEn : Bool) : State :=
  { s with ec := { s.ec with en := ecEn }, gt := { s.gt with en := gtEn } }

/-- A write of DMA_ABORT: abort every existing channel whose bit is 1 (40_bus_dma.md R64). -/
def State.abortMask (s : State) (v : Word) : State :=
  { s with
    dma := Vector.ofFn fun i : Fin 16 =>
      if v.getLsbD i.val = true ∧ i.val < s.params.dmaChannels then s.dma[i].abort
      else s.dma[i] }

/-- The write action of each register (40_bus_dma.md R64), whoever the writer is. Reserved bits and
read-only registers are not written. -/
def State.regWrite (s : State) (r : Reg) (v : Word) : State :=
  match r with
  | .ecCtrl => { s with ec := { s.ec with en := v.getLsbD 0, pol := Polarity.ofBit (v.getLsbD 1) } }
  | .ecCtr => { s with ec := { s.ec with ctr := v.extractLsb' 0 16 } }
  | .ecWrap => { s with ec := { s.ec with wrap := v.extractLsb' 0 16 } }
  | .ecPin => s
  | .gtCtrl => { s with gt := { s.gt with en := v.getLsbD 0, phCorrect := v.getLsbD 1 } }
  | .gtCtr => { s with gt := { s.gt with ctr := v.extractLsb' 0 16 } }
  | .gtWrap => { s with gt := { s.gt with wrap := v.extractLsb' 0 16 } }
  | .gtPrescale => s
  | .gtPin => s
  | .enMask => s.setEnables (v.getLsbD 0) (v.getLsbD 1)
  | .cxScratch => { s with cxScratch := v }
  | .gcStopval => { s with gcStopval := v }
  | .gcState => s
  | .gcOvfTally => s
  | .gcPrevSample => s
  | .dmaAbort => s.abortMask v
  | .bind => s
  | .tsBase => s
  | .tsCapacity => s
  | .dma ch r => s.setChan ch ((s.chan ch).writeReg r v)

/-! ### The bus -/

/-- The two access sizes, 1 and 4 bytes (20_memory.md R37, R42). -/
inductive Size where
  | byte
  | word
deriving DecidableEq, Repr

/-- `n` of 20_memory.md R37. -/
def Size.bytes : Size → Nat
  | .byte => 1
  | .word => 4

/-- What a bus access reaches (20_memory.md R36). -/
inductive Target where
  | ram (a : Nat)
  | reg (r : Reg)
  | clock
deriving DecidableEq, Repr

/-- What an access of a size at an address reaches; `none` is a bus error. It is `access_ok` of
20_memory.md R37, whose rule never asks whether the access reads or writes, with the region it
finds. -/
def Params.resolve (p : Params) (a : Word) (z : Size) : Option Target :=
  if p.ramBase.toNat ≤ a.toNat ∧ a.toNat + z.bytes ≤ p.ramBase.toNat + p.ramSize then
    if z = .byte ∨ a.toNat % 4 = 0 then some (.ram a.toNat) else none
  else if p.blockBase.toNat ≤ a.toNat ∧ a.toNat < p.blockBase.toNat + 0x1000 then
    if z = .word ∧ a.toNat % 4 = 0 then
      (p.regAt (a.toNat - p.blockBase.toNat)).map Target.reg
    else none
  else if a = p.clockAddr then
    if z = .word then some .clock else none
  else none

/-- `access_ok(a, n, kind)` of 20_memory.md R37. -/
def Params.accessOk (p : Params) (a : Word) (z : Size) : Bool :=
  (p.resolve a z).isSome

/-- The value at a target (20_memory.md R38); a byte is zero-extended. -/
def State.readTarget (s : State) (z : Size) : Target → Word
  | .ram a =>
    match z with
    | .byte => (s.mem.read a).setWidth 32
    | .word => s.mem.read32 a
  | .reg r => s.regRead r
  | .clock => s.clock

/-- A write at a target (20_memory.md R39); a write of the clock is ignored. -/
def State.writeTarget (s : State) (z : Size) (v : Word) : Target → State
  | .ram a =>
    match z with
    | .byte => { s with mem := s.mem.write a (v.extractLsb' 0 8) }
    | .word => { s with mem := s.mem.write32 a v }
  | .reg r => s.regWrite r v
  | .clock => s

/-- `MemRead(a, n)` of 20_memory.md R38; `none` is a bus error. -/
def State.memRead (s : State) (a : Word) (z : Size) : Option Word :=
  (s.params.resolve a z).map (s.readTarget z)

/-- `MemWrite(a, n, v)` of 20_memory.md R39; `none` is a bus error. -/
def State.memWrite (s : State) (a : Word) (z : Size) (v : Word) : Option State :=
  (s.params.resolve a z).map (s.writeTarget z v)

end Sys2Proof.Machine
end

