-- ==== Sys2Proof/Machine/Agents.lean ====
section
/-! DEFINITION. The agents that step by themselves (60_exceptions.md R129): the signal source with the
EdgeCounter, the GateTimer, the DMA channels and the microsecond clock. -/

namespace Sys2Proof.Machine

/-! ### Trigger events -/

/-- The channel numbers a command word can name. -/
def allChannels : List ChanNo :=
  [0#4, 1#4, 2#4, 3#4, 4#4, 5#4, 6#4, 7#4, 8#4, 9#4, 10#4, 11#4, 12#4, 13#4, 14#4, 15#4]

/-- The channel accepts an event of this tag (40_bus_dma.md R68): it is busy, and it is enabled or,
while paused, chooses to accept. -/
def DmaChannel.takes (c : DmaChannel) (tag : BitVec 6) (accepts : Bool) : Bool :=
  c.treq == tag && c.busy && (c.en || accepts)

/-- The channel already holds PENDING_LIMIT requests (40_bus_dma.md R68). -/
def Params.limitReached (p : Params) (c : DmaChannel) : Bool :=
  p.pendingLimit == some c.pending

/-- `deliver(ch)` of 40_bus_dma.md R68 where no overrun comes. -/
def DmaChannel.deliver (c : DmaChannel) (tag : BitVec 6) (accepts : Bool) : DmaChannel :=
  if c.takes tag accepts then { c with pending := c.pending + 1 } else c

/-- An event of this tag makes some channel overrun (40_bus_dma.md R68). -/
def State.overruns (s : State) (tag : BitVec 6) (accepts : BitVec 16) : Bool :=
  allChannels.any fun ch =>
    s.params.hasChannel ch && (s.chan ch).takes tag (accepts.getLsbD ch.toNat) &&
      s.params.limitReached (s.chan ch)

/-- `emit EVENT(tag)`: delivered in the same atomic step to every existing channel (40_bus_dma.md R68,
60_exceptions.md R119). -/
def State.emit (s : State) (tag : BitVec 6) (accepts : BitVec 16) : Except Fault State :=
  if s.overruns tag accepts then .error .dreqOverrun
  else .ok { s with
    dma := Vector.ofFn fun i : Fin 16 =>
      if i.val < s.params.dmaChannels then s.dma[i].deliver tag (accepts.getLsbD i.val)
      else s.dma[i] }

/-! ### The signal source and the EdgeCounter -/

/-- `level[p]` (10_state.md R30). -/
def State.level (s : State) (p : BitVec 8) : Bool := s.levels.getLsbD p.toNat

/-- `level[p] <- 1 - level[p]` (41_edge_counter.md R75). -/
def State.toggle (s : State) (p : BitVec 8) : State :=
  { s with levels := s.levels ^^^ BitVec.twoPow 256 p.toNat }

/-- A toggle of pin `p` is an edge the EdgeCounter counts (41_edge_counter.md R75): the pin is the
configured one, counting is enabled, and the direction is the selected one. The level is the one
before the toggle, so a rising edge starts from 0. -/
def State.qualifies (s : State) (p : BitVec 8) : Bool :=
  p == s.ec.pin && s.ec.en && (s.level p == s.ec.pol.bit)

/-- The count at the wrap limit: the next counted edge is a trigger event (41_edge_counter.md R76). -/
def EdgeCounter.atWrap (c : EdgeCounter) : Bool := c.ctr == c.wrap

/-- `count_edge()` of 41_edge_counter.md R76, less its event. -/
def EdgeCounter.countEdge (c : EdgeCounter) : EdgeCounter :=
  { c with ctr := if c.atWrap then 0#16 else c.ctr + 1#16 }

/-- `edge(p)` of 41_edge_counter.md R75, with `count_edge()` and its event (R76). -/
def State.edge (s : State) (p : BitVec 8) (accepts : BitVec 16) : Except Fault State :=
  let s' := s.toggle p
  if s.qualifies p then
    let s'' := { s' with ec := s.ec.countEdge }
    if s.ec.atWrap then s''.emit ecTag accepts else .ok s''
  else .ok s'

/-! ### The GateTimer -/

/-- The tick emits the expiry event (43_gate_timer.md R89). -/
def GateTimer.expires (c : GateTimer) : Bool :=
  if c.phCorrect then c.dir && c.ctr == 0#16 else c.ctr == c.wrap

/-- `gt_tick` of 43_gate_timer.md R89, less its event. -/
def GateTimer.tick (c : GateTimer) : GateTimer :=
  if c.phCorrect = false then
    if c.ctr = c.wrap then { c with ctr := 0#16 } else { c with ctr := c.ctr + 1#16 }
  else if c.dir = false then
    if c.ctr = c.wrap then { c with dir := true } else { c with ctr := c.ctr + 1#16 }
  else
    if c.ctr = 0#16 then { c with dir := false } else { c with ctr := c.ctr - 1#16 }

/-- `gt_tick` with its event (43_gate_timer.md R89). -/
def State.gtTick (s : State) (accepts : BitVec 16) : Except Fault State :=
  let s' := { s with gt := s.gt.tick }
  if s.gt.expires then s'.emit gtTag accepts else .ok s'

/-! ### The DMA channels -/

/-- `dma_register(a)` of 40_bus_dma.md R69: DMA_ABORT or a channel register's place. -/
def Params.dmaRegister (p : Params) (a : Word) : Bool :=
  a == p.regAddr .dmaAbort ||
    (decide (p.blockBase.toNat + 0x100 ≤ a.toNat) && decide (a.toNat ≤ p.blockBase.toNat + 0xFFF))

/-- The size of a channel's transfers (40_bus_dma.md R69). -/
def DmaChannel.accessSize (c : DmaChannel) : Size :=
  if c.size then .word else .byte

/-- `transfer(ch)` of 40_bus_dma.md R69 and R70. -/
def State.transfer (s : State) (ch : ChanNo) : Except Fault State :=
  let c := s.chan ch
  if s.params.dmaRegister c.writeAddr then .error .dmaRegisterTarget
  else
    match s.memRead c.readAddr c.accessSize with
    | none => .ok (s.setChan ch c.busFail)
    | some v =>
      match s.memWrite c.writeAddr c.accessSize v with
      | none => .ok (s.setChan ch c.busFail)
      | some s' => .ok (s'.setChan ch c.served)

/-! ### The clock -/

/-- The clock step (40_bus_dma.md R72). -/
def State.clockStep (s : State) : State :=
  { s with clock := s.clock + 1#32 }

/-! ### One turn of an agent -/

/-- The agent of a turn may step (60_exceptions.md R129). A control turn is no autonomous agent's. -/
def State.agentEnabled (s : State) : Turn → Bool
  | .control => false
  | .edge p _ => decide (p.toNat < s.params.pinCount)
  | .tick _ => s.gt.en
  | .transfer ch =>
    s.params.hasChannel ch && (s.chan ch).en && (s.chan ch).busy && decide (0 < (s.chan ch).pending)
  | .clock => true

/-- The atomic step of a turn's agent. -/
def State.agentAct (s : State) : Turn → Except Fault State
  | .control => .ok s
  | .edge p accepts => s.edge p accepts
  | .tick accepts => s.gtTick accepts
  | .transfer ch => s.transfer ch
  | .clock => .ok s.clockStep

/-- Take one turn: the step if its agent is enabled, nothing otherwise (DESIGN CHOICE, log entry 7,
safe). A model fault sets the fault mark and leaves the rest (60_exceptions.md R121; DESIGN CHOICE,
log entry 14, safe). -/
def State.agentStep (s : State) (t : Turn) : State :=
  if s.agentEnabled t then
    match s.agentAct t with
    | .ok s' => s'
    | .error f => { s with faultMark := some f }
  else s

/-- Take turns one after another; none is taken after a model fault (60_exceptions.md R121). -/
def State.runTurns : List Turn → State → State
  | [], s => s
  | t :: ts, s => if s.faultMark.isSome then s else State.runTurns ts (s.agentStep t)

end Sys2Proof.Machine
end

