-- ==== Sys2Proof/Machine/Operands.lean ====
section
/-! DEFINITION. The checks a command makes on its operands, and the values it derives from them
(30_encoding.md R53, 60_exceptions.md R117, R122, 43_gate_timer.md R91). Operands are unsigned, and
none is scaled (R53): a check reads an operand as the number its bits are. -/

namespace Sys2Proof.Machine

/-- The pin check of EC_CONFIGURE: in range and of the edge-counting parity (41_edge_counter.md R77). -/
def Params.ecPinOk (p : Params) (pin : BitVec 8) : Bool :=
  decide (pin.toNat < p.pinCount) && pin.toNat % 2 == p.edgePinParity

/-- The pin check of GT_CONFIGURE: in range, with no parity rule (43_gate_timer.md R92). -/
def Params.gtPinOk (p : Params) (pin : BitVec 8) : Bool :=
  decide (pin.toNat < p.pinCount)

/-- The three components that bind a channel (10_state.md R24). -/
inductive Component where
  | cx
  | gc
  | ts
deriving DecidableEq, Repr

/-- A component's part of BIND. -/
def State.binding (s : State) : Component → Binding
  | .cx => s.cx
  | .gc => s.gc
  | .ts => s.ts

/-- Component `c` owns channel `ch` (60_exceptions.md R122). -/
def State.owns (s : State) (c : Component) (ch : ChanNo) : Bool :=
  (s.binding c).bound && (s.binding c).ch == ch

/-- Another component than `c` owns `ch`: an init of `c` on `ch` then fails with ChannelInUse
(60_exceptions.md R122). -/
def State.ownedByOther (s : State) (c : Component) (ch : ChanNo) : Bool :=
  [Component.cx, .gc, .ts].any fun d => d != c && s.owns d ch

/-- The buffer check of TS_INIT: not empty, aligned, and inside RAM, all exact
(45_timestamp_capture.md R106). -/
def Params.bufferOk (p : Params) (base cap : Word) : Bool :=
  cap.toNat != 0 && base.toNat % 4 == 0 && decide (p.ramBase.toNat ≤ base.toNat) &&
    decide (base.toNat + 4 * cap.toNat ≤ p.ramBase.toNat + p.ramSize)

/-- `derive(PRESCALE, PERIOD)` of 43_gate_timer.md R91, for a nonzero prescale: PH_CORRECT and WRAP,
or `none` for PeriodOutOfRangeError. -/
def derivePeriod (prescale period : Nat) : Option (Bool × BitVec 16) :=
  let ticks := period / prescale
  if ticks = 0 ∨ 131072 < ticks then none
  else if ticks ≤ 65536 then some (false, BitVec.ofNat 16 (ticks - 1))
  else some (true, BitVec.ofNat 16 (ticks / 2 - 1))

/-- `PRESCALE * (WRAP + 1) * (PH_CORRECT + 1)` in input-clock cycles (43_gate_timer.md R90, R92). -/
def periodCycles (prescale : Nat) (ph : Bool) (wrap : BitVec 16) : Nat :=
  prescale * (wrap.toNat + 1) * (ph.toNat + 1)

/-- `(r <= TS_CAPACITY) ? TS_CAPACITY - r : 0` (45_timestamp_capture.md R109, R110). -/
def capturedCount (cap r : Word) : Word :=
  if r.toNat ≤ cap.toNat then cap - r else 0#32

end Sys2Proof.Machine
end

