-- ==== Sys2Proof/Machine/Flags.lean ====
section
/-! DEFINITION. The result flags a program can observe (10_state.md R32). The block has no condition
codes; BUSY and ERR are channel fields (Machine/Ops.lean). -/

namespace Sys2Proof.Machine

/-- `saturated` of CX_VALUE, from the remaining count (42_counter_extender.md R86). -/
def saturatedFlag (remaining : Word) : Bool := remaining == 0#32

/-- The OverflowHint of GC_POLL_OVERFLOW, from the tally (44_gate_controller.md R103). -/
def overflowHint (tally : Word) : Bool := tally != 0#32

/-- `valid` of GC_READ: the state is Expired (44_gate_controller.md R102). -/
def validFlag (g : GcState) : Bool := g == .expired

/-- The flag of GT_READ is DIR (43_gate_timer.md R95). -/
def dirFlag (c : GateTimer) : Bool := c.dir

/-- The flag of TS_PERIOD: the frequency of 45_timestamp_capture.md R111 is defined (R110). -/
def frequencyFlag (sum : Nat) : Bool := sum != 0

end Sys2Proof.Machine
end

