-- ==== Sys2Proof/Machine/Bus.lean ====
section
/-! DEFINITION. The bus and shared commands (40_bus_dma.md R61 to R63). -/

namespace Sys2Proof.Machine

/-- BUS_RD (40_bus_dma.md R61). -/
def execBusRd (addr : Word) (s : State) : Host.Outcome State Fault Refusal :=
  match s.memRead addr .word with
  | none => .next (s.fail .busError)
  | some v => .next (s.ret v false)

/-- BUS_WR (40_bus_dma.md R62). -/
def execBusWr (addr value : Word) (s : State) : Host.Outcome State Fault Refusal :=
  match s.memWrite addr .word value with
  | none => .next (s.fail .busError)
  | some s' => .next (s'.ret 0#32 false)

/-- EN_MASK (40_bus_dma.md R63): both enables in one atomic step. -/
def execEnMask (mask : BitVec 2) (s : State) : Host.Outcome State Fault Refusal :=
  .next ((s.setEnables (mask.getLsbD 0) (mask.getLsbD 1)).ret 0#32 false)

end Sys2Proof.Machine
end

