-- ==== Sys2Proof/Machine/CounterExtender.lean ====
section
/-! DEFINITION. The CounterExtender commands (42_counter_extender.md R84 to R87). -/

namespace Sys2Proof.Machine

/-- The step of CX_INIT (42_counter_extender.md R84). -/
def State.bindCx (s : State) (ch : ChanNo) : State :=
  let a := s.params.regAddr .cxScratch
  { s.setChan ch ((s.chan ch).bindTo a a false ecTag) with
    ec := { s.ec with wrap := 0#16, ctr := 0#16 }, cx := ⟨ch, true⟩ }

/-- CX_INIT (42_counter_extender.md R84). -/
def execCxInit (ch : ChanNo) (s : State) : Host.Outcome State Fault Refusal :=
  if s.params.hasChannel ch = false then .next (s.fail .invalidArgument)
  else if s.ownedByOther .cx ch then .next (s.fail .channelInUse)
  else .next ((s.bindCx ch).ret 0#32 false)

/-- The first micro-step of CX_START, the abort (42_counter_extender.md R85). -/
def State.cxAbortStep (s : State) (cx : ChanNo) : State :=
  { s.setChan cx (s.chan cx).abort with inFlight := some (.cxArm cx) }

/-- The last micro-step of CX_START, the enable and the trigger (42_counter_extender.md R85). -/
def State.cxArmStep (s : State) (cx : ChanNo) : State :=
  State.ret { s.setChan cx ((s.chan cx).arm uint32Max) with inFlight := none } 0#32 false

/-- CX_START (42_counter_extender.md R85): its check and its first micro-step, with the other one left
in flight (20_memory.md R47; DEDUCED, log entry 8, safe). -/
def execCxStart (s : State) : Host.Outcome State Fault Refusal :=
  if s.cx.bound = false then .next (s.fail .notInitialised)
  else .next (s.cxAbortStep s.cx.ch)

/-- CX_VALUE (42_counter_extender.md R86). -/
def execCxValue (s : State) : Host.Outcome State Fault Refusal :=
  if s.cx.bound = false then .next (s.fail .notInitialised)
  else
    let r := (s.chan s.cx.ch).count
    .next (s.ret (uint32Max - r) (saturatedFlag r))

/-- CX_STOP (42_counter_extender.md R87): it never fails on state, and before CX_INIT changes
nothing. -/
def execCxStop (s : State) : Host.Outcome State Fault Refusal :=
  if s.cx.bound then
    .next ((s.setChan s.cx.ch { s.chan s.cx.ch with en := false }).ret 0#32 false)
  else .next (s.ret 0#32 false)

end Sys2Proof.Machine
end

