-- ==== Sys2Proof/Machine/EdgeCounter.lean ====
section
/-! DEFINITION. The EdgeCounter commands (41_edge_counter.md R77 to R82), each one atomic step
(R83). -/

namespace Sys2Proof.Machine

/-- EC_CONFIGURE (41_edge_counter.md R77). -/
def execEcConfigure (pin : BitVec 8) (pol : Polarity) (s : State) :
    Host.Outcome State Fault Refusal :=
  if s.params.ecPinOk pin then
    .next ({ s with ec := ⟨false, pol, 0#16, 0xFFFF#16, pin⟩ }.ret 0#32 false)
  else .next (s.fail .invalidPin)

/-- EC_RESET (41_edge_counter.md R78). -/
def execEcReset (s : State) : Host.Outcome State Fault Refusal :=
  .next ({ s with ec := { s.ec with ctr := 0#16 } }.ret 0#32 false)

/-- EC_SET_ENABLED (41_edge_counter.md R79). -/
def execEcSetEnabled (b : Bool) (s : State) : Host.Outcome State Fault Refusal :=
  .next ({ s with ec := { s.ec with en := b } }.ret 0#32 false)

/-- EC_READ (41_edge_counter.md R80). -/
def execEcRead (s : State) : Host.Outcome State Fault Refusal :=
  .next (s.ret (s.ec.ctr.setWidth 32) false)

/-- EC_SET_WRAP (41_edge_counter.md R81). -/
def execEcSetWrap (imm : BitVec 16) (s : State) : Host.Outcome State Fault Refusal :=
  .next ({ s with ec := { s.ec with wrap := imm } }.ret 0#32 false)

/-- EC_GET_TAG (41_edge_counter.md R82, 40_bus_dma.md R67). -/
def execEcGetTag (s : State) : Host.Outcome State Fault Refusal :=
  .next (s.ret (ecTag.setWidth 32) false)

end Sys2Proof.Machine
end

