-- ==== Sys2Proof/Machine/GateController.lean ====
section
/-! DEFINITION. The GateController commands (44_gate_controller.md R98 to R103). -/

namespace Sys2Proof.Machine

/-- The step of GC_INIT (44_gate_controller.md R99): the stop value is EC_CTRL with EN cleared. -/
def State.bindGc (s : State) (ch : ChanNo) : State :=
  let c := (s.chan ch).bindTo (s.params.regAddr .gcStopval) (s.params.regAddr .ecCtrl) false gtTag
  { s.setChan ch { c with reload := 1#32 } with
    gcStopval := s.ec.ctrlWord &&& 0xFFFFFFFE#32, gc := ⟨ch, true⟩, gcState := .armed }

/-- GC_INIT (44_gate_controller.md R99). -/
def execGcInit (ch : ChanNo) (s : State) : Host.Outcome State Fault Refusal :=
  if s.params.hasChannel ch = false then .next (s.fail .invalidArgument)
  else if s.ownedByOther .gc ch then .next (s.fail .channelInUse)
  else .next ((s.bindGc ch).ret 0#32 false)

/-- s1 of GC_START, stop both (44_gate_controller.md R100). -/
def State.gcStopStep (s : State) (gc : ChanNo) : State :=
  { s.setEnables false false with inFlight := some (.gcAbort gc) }

/-- s2 of GC_START, the abort (44_gate_controller.md R100). -/
def State.gcAbortStep (s : State) (gc : ChanNo) : State :=
  { s.setChan gc (s.chan gc).abort with inFlight := some (.gcZero gc) }

/-- s3 of GC_START, zero the counts, the sample and the tally (44_gate_controller.md R100). -/
def State.gcZeroStep (s : State) (gc : ChanNo) : State :=
  { s with
    ec := { s.ec with ctr := 0#16 }, gt := { s.gt with ctr := 0#16, dir := false }
    gcPrevSample := 0#16, gcOvfTally := 0#32, inFlight := some (.gcArm gc) }

/-- s4 of GC_START, arm a one-transfer gate (44_gate_controller.md R100). -/
def State.gcArmStep (s : State) (gc : ChanNo) : State :=
  { s.setChan gc ((s.chan gc).arm 1#32) with inFlight := some .gcEnable }

/-- s5 of GC_START, enable both (44_gate_controller.md R100). -/
def State.gcEnableStep (s : State) : State :=
  State.ret { s.setEnables true true with gcState := .running, inFlight := none } 0#32 false

/-- GC_START (44_gate_controller.md R100): its check and s1, with s2 to s5 left in flight (20_memory.md
R47; DEDUCED, log entry 8, safe). -/
def execGcStart (s : State) : Host.Outcome State Fault Refusal :=
  if s.gcState = .idle then .next (s.fail .notInitialised)
  else .next (s.gcStopStep s.gc.ch)

/-- GC_IS_BUSY (44_gate_controller.md R101): the poll makes the transition to Expired (R98). -/
def execGcIsBusy (s : State) : Host.Outcome State Fault Refusal :=
  if s.gcState = .idle then .next (s.fail .notInitialised)
  else
    let b := (s.chan s.gc.ch).busy
    let g := if b = false ∧ s.gcState = .running then GcState.expired else s.gcState
    .next ({ s with gcState := g }.ret ((BitVec.ofBool b).setWidth 32) false)

/-- GC_READ (44_gate_controller.md R102). -/
def execGcRead (s : State) : Host.Outcome State Fault Refusal :=
  if s.gcState = .idle then .next (s.fail .notInitialised)
  else .next (s.ret (s.ec.ctr.setWidth 32) (validFlag s.gcState))

/-- `min(tally + 1, UINT32_MAX)` (44_gate_controller.md R103). -/
def tallyUp (tally : Word) : Word :=
  if tally = uint32Max then uint32Max else tally + 1#32

/-- GC_POLL_OVERFLOW (44_gate_controller.md R103). -/
def execGcPollOverflow (s : State) : Host.Outcome State Fault Refusal :=
  if s.gcState = .idle then .next (s.fail .notInitialised)
  else
    let tally := if s.ec.ctr.toNat < s.gcPrevSample.toNat then tallyUp s.gcOvfTally else s.gcOvfTally
    .next ({ s with gcOvfTally := tally, gcPrevSample := s.ec.ctr }.ret tally (overflowHint tally))

end Sys2Proof.Machine
end

