-- ==== Sys2Proof/Machine/GateTimer.lean ====
section
/-! DEFINITION. The GateTimer commands (43_gate_timer.md R92 to R96) and the period of the timed
refinement (70_reset_and_hazards.md R155). -/

namespace Sys2Proof.Machine

/-- The step of GT_CONFIGURE: stopped, zeroed, counting up (43_gate_timer.md R92). -/
def State.configureGt (s : State) (pin prescale : BitVec 8) (ph : Bool) (wrap : BitVec 16) : State :=
  { s with gt := ⟨false, ph, false, 0#16, wrap, prescale, pin⟩ }

/-- GT_CONFIGURE (43_gate_timer.md R92); its checks in the order of 60_exceptions.md R117. -/
def execGtConfigure (pin prescale : BitVec 8) (period : Word) (s : State) :
    Host.Outcome State Fault Refusal :=
  if s.params.gtPinOk pin = false then .next (s.fail .invalidPin)
  else if prescale = 0#8 then .next (s.fail .invalidArgument)
  else
    match derivePeriod prescale.toNat period.toNat with
    | none => .next (s.fail .periodOutOfRange)
    | some (ph, wrap) =>
      .next ((s.configureGt pin prescale ph wrap).ret
        (BitVec.ofNat 32 (periodCycles prescale.toNat ph wrap)) false)

/-- GT_RESET (43_gate_timer.md R93). -/
def execGtReset (s : State) : Host.Outcome State Fault Refusal :=
  .next ({ s with gt := { s.gt with ctr := 0#16, dir := false } }.ret 0#32 false)

/-- GT_SET_ENABLED (43_gate_timer.md R94). -/
def execGtSetEnabled (b : Bool) (s : State) : Host.Outcome State Fault Refusal :=
  .next ({ s with gt := { s.gt with en := b } }.ret 0#32 false)

/-- GT_READ (43_gate_timer.md R95). -/
def execGtRead (s : State) : Host.Outcome State Fault Refusal :=
  .next (s.ret (s.gt.ctr.setWidth 32) (dirFlag s.gt))

/-- GT_GET_TAG (43_gate_timer.md R96, 40_bus_dma.md R67). -/
def execGtGetTag (s : State) : Host.Outcome State Fault Refusal :=
  .next (s.ret (gtTag.setWidth 32) false)

/-- The configured period in input-clock cycles (43_gate_timer.md R90). -/
def GateTimer.gatePeriodCycles (c : GateTimer) : Nat :=
  periodCycles c.prescale.toNat c.phCorrect c.wrap

/-- The gate time in seconds, `PRESCALE × (WRAP + 1) × (PH_CORRECT + 1) / INPUT_CLOCK_HZ`
(70_reset_and_hazards.md R155), for a frequency of a whole number of Hz (log entry 22). No step reads
it. -/
def State.gateSeconds (s : State) : ℚ :=
  (s.gt.gatePeriodCycles : ℚ) / (s.params.inputClockHz : ℚ)

end Sys2Proof.Machine
end

