-- ==== Sys2Proof/Machine/TimestampCapture.lean ====
section
/-! DEFINITION. The EdgeTimestampCapture commands (45_timestamp_capture.md R106 to R110) and the
frequency function (R111). -/

namespace Sys2Proof.Machine

/-- The step of TS_INIT (45_timestamp_capture.md R106). -/
def State.bindTs (s : State) (ch : ChanNo) (base cap : Word) : State :=
  let c := (s.chan ch).bindTo s.params.clockAddr base true ecTag
  { s.setChan ch { c with reload := cap } with
    ec := { s.ec with wrap := 0#16 }, tsBase := base, tsCapacity := cap, ts := ⟨ch, true⟩ }

/-- TS_INIT (45_timestamp_capture.md R106); its checks in the order of 60_exceptions.md R117. -/
def execTsInit (ch : ChanNo) (base cap : Word) (s : State) : Host.Outcome State Fault Refusal :=
  if s.params.hasChannel ch = false then .next (s.fail .invalidArgument)
  else if s.ownedByOther .ts ch then .next (s.fail .channelInUse)
  else if s.params.bufferOk base cap = false then .next (s.fail .invalidArgument)
  else .next ((s.bindTs ch base cap).ret 0#32 false)

/-- The bus address of slot `i` of a buffer: `base + 4 * i`. -/
def slotAddr (base : Word) (i : Nat) : Word :=
  base + BitVec.ofNat 32 (4 * i)

/-- Zero one slot of the buffer. TS_INIT checked the buffer, so the write cannot fail
(45_timestamp_capture.md R107); outside that, nothing is written (DEDUCED, log entry 17, safe). -/
def State.zeroSlot (base : Word) (i : Nat) (s : State) : State :=
  (s.memWrite (slotAddr base i) .word 0#32).getD s

/-- The micro-step of TS_START that zeroes slot `i` (45_timestamp_capture.md R107). -/
def State.tsZeroStep (s : State) (ts : ChanNo) (base cap : Word) (i : Nat) : State :=
  { State.zeroSlot base i s with
    inFlight :=
      some (if i + 1 < cap.toNat then .tsZero ts base cap (i + 1) else .tsReset ts base cap) }

/-- The micro-step of TS_START that zeroes the count. -/
def State.tsResetStep (s : State) (ts : ChanNo) (base cap : Word) : State :=
  { s with ec := { s.ec with ctr := 0#16 }, inFlight := some (.tsAbort ts base cap) }

/-- The abort of TS_START. -/
def State.tsAbortStep (s : State) (ts : ChanNo) (base cap : Word) : State :=
  { s.setChan ts (s.chan ts).abort with inFlight := some (.tsArm ts base cap) }

/-- The re-arm of TS_START. -/
def State.tsArmStep (s : State) (ts : ChanNo) (base cap : Word) : State :=
  { s.setChan ts (DmaChannel.arm { s.chan ts with writeAddr := base } cap) with
    inFlight := some .tsEnable }

/-- The last micro-step of TS_START, the enable. -/
def State.tsEnableStep (s : State) : State :=
  State.ret { s with ec := { s.ec with en := true }, inFlight := none } 0#32 false

/-- TS_START (45_timestamp_capture.md R107): its check and its first micro-step, the first slot, or the
count where the buffer has no slot, with the others left in flight (20_memory.md R47; DEDUCED, log
entry 8, safe). -/
def execTsStart (s : State) : Host.Outcome State Fault Refusal :=
  if s.ts.bound = false then .next (s.fail .notInitialised)
  else if s.tsCapacity = 0#32 then .next (s.tsResetStep s.ts.ch s.tsBase s.tsCapacity)
  else .next (s.tsZeroStep s.ts.ch s.tsBase s.tsCapacity 0)

/-- TS_STOP (45_timestamp_capture.md R108): it never fails on state, and before TS_INIT changes
nothing. -/
def execTsStop (s : State) : Host.Outcome State Fault Refusal :=
  if s.ts.bound then .next ({ s with ec := { s.ec with en := false } }.ret 0#32 false)
  else .next (s.ret 0#32 false)

/-- The captured count (45_timestamp_capture.md R109). -/
def State.captured (s : State) : Word :=
  capturedCount s.tsCapacity (s.chan s.ts.ch).count

/-- TS_CAPTURED (45_timestamp_capture.md R109). -/
def execTsCaptured (s : State) : Host.Outcome State Fault Refusal :=
  if s.ts.bound = false then .next (s.fail .notInitialised)
  else .next (s.ret s.captured false)

/-- `buf[i]` (45_timestamp_capture.md): the word of slot `i`. A bound buffer lies in RAM, so the read
cannot fail; outside that it is 0 (DEDUCED, log entry 17, safe). -/
def State.slot (s : State) (i : Nat) : Word :=
  (s.memRead (slotAddr s.tsBase i) .word).getD 0#32

/-- The exact sum of `(buf[i] - buf[i-1]) mod 2^32` for `i` in `1..n` (45_timestamp_capture.md
R110). -/
def State.intervalSum (s : State) : Nat → Nat
  | 0 => 0
  | n + 1 => s.intervalSum n + (s.slot (n + 1) - s.slot n).toNat

/-- TS_PERIOD (45_timestamp_capture.md R110): one atomic step over COUNT and the buffer. -/
def execTsPeriod (s : State) : Host.Outcome State Fault Refusal :=
  if s.ts.bound = false then .next (s.fail .notInitialised)
  else
    let c := s.captured.toNat
    if c < 2 then .next (s.fail .insufficientSamples)
    else
      let sum := s.intervalSum (c - 1)
      .next (s.ret (BitVec.ofNat 32 (sum / (c - 1))) (frequencyFlag sum))

/-- The frequency in Hz of `c` timestamps with this interval sum, an exact rational
(45_timestamp_capture.md R111). The block returns no frequency; this is for proofs and host code. -/
def frequency (c sum : Nat) : Option ℚ :=
  if c < 2 ∨ sum = 0 then none else some ((10 ^ 6 * (c - 1 : ℕ) : ℚ) / (sum : ℚ))

end Sys2Proof.Machine
end

