-- ==== Sys2Proof/Machine/Dispatch.lean ====
section
/-! DEFINITION. One arm for each command of 30_encoding.md R54, each one call of its meaning. -/

namespace Sys2Proof.Machine

def exec (i : Instr) (s : State) : Host.Outcome State Fault Refusal :=
  match i with
  | .busRd addr => Sys2Proof.Machine.execBusRd addr s
  | .busWr addr value => Sys2Proof.Machine.execBusWr addr value s
  | .enMask mask => Sys2Proof.Machine.execEnMask mask s
  | .ecConfigure pin pol => Sys2Proof.Machine.execEcConfigure pin pol s
  | .ecReset => Sys2Proof.Machine.execEcReset s
  | .ecSetEnabled b => Sys2Proof.Machine.execEcSetEnabled b s
  | .ecRead => Sys2Proof.Machine.execEcRead s
  | .ecSetWrap imm => Sys2Proof.Machine.execEcSetWrap imm s
  | .ecGetTag => Sys2Proof.Machine.execEcGetTag s
  | .gtConfigure pin prescale period => Sys2Proof.Machine.execGtConfigure pin prescale period s
  | .gtReset => Sys2Proof.Machine.execGtReset s
  | .gtSetEnabled b => Sys2Proof.Machine.execGtSetEnabled b s
  | .gtRead => Sys2Proof.Machine.execGtRead s
  | .gtGetTag => Sys2Proof.Machine.execGtGetTag s
  | .cxInit ch => Sys2Proof.Machine.execCxInit ch s
  | .cxStart => Sys2Proof.Machine.execCxStart s
  | .cxValue => Sys2Proof.Machine.execCxValue s
  | .cxStop => Sys2Proof.Machine.execCxStop s
  | .gcInit ch => Sys2Proof.Machine.execGcInit ch s
  | .gcStart => Sys2Proof.Machine.execGcStart s
  | .gcIsBusy => Sys2Proof.Machine.execGcIsBusy s
  | .gcRead => Sys2Proof.Machine.execGcRead s
  | .gcPollOverflow => Sys2Proof.Machine.execGcPollOverflow s
  | .tsInit ch base cap => Sys2Proof.Machine.execTsInit ch base cap s
  | .tsStart => Sys2Proof.Machine.execTsStart s
  | .tsStop => Sys2Proof.Machine.execTsStop s
  | .tsCaptured => Sys2Proof.Machine.execTsCaptured s
  | .tsPeriod => Sys2Proof.Machine.execTsPeriod s

end Sys2Proof.Machine
end

