-- ==== Sys2Proof/Machine/HostProgram.lean ====
section
/-! DEFINITION. The host program notation (30_encoding.md R59) and its pseudo-instructions (R60). -/

namespace Sys2Proof.Machine

/-- The line the control thread runs next; `none` when `pc` has passed the last line
(30_encoding.md R59). -/
def State.fetch (s : State) : Option HostLine := s.program[s.pc]?

/-- The next line: `pc` advances by 1 (10_state.md R17). -/
def State.nextLine (s : State) : State := { s with pc := s.pc + 1 }

/-- Go to a label when the condition holds, to the next line otherwise (30_encoding.md R59). -/
def State.branchIf (s : State) (cond : Bool) (target : Nat) : State :=
  if cond then { s with pc := target } else s.nextLine

/-- The host operations of 30_encoding.md R59. HALT ends the program: the control thread stays on the
line and runs nothing more (DEDUCED, log entry 11, safe). -/
def State.hostOp (s : State) : HostOp → State
  | .b t => { s with pc := t }
  | .bz t => s.branchIf (s.last.value == 0#32) t
  | .bnz t => s.branchIf (s.last.value != 0#32) t
  | .blt t k => s.branchIf (decide (s.last.value.toNat < k.toNat)) t
  | .berr t => s.branchIf (s.last.status != 0#8) t
  | .mark => { s with t0 := s.last.value }.nextLine
  | .bto t d => s.branchIf (decide (d.toNat ≤ (s.last.value - s.t0).toNat)) t
  | .setst st => { s with last := { s.last with status := st } }.nextLine
  | .halt => s

/-- A command as a line. -/
def commandLine (i : Instr) : HostLine := .command (encode i)

/-- `GC_WAIT` placed at line `at_` (30_encoding.md R60). -/
def gcWait (at_ : Nat) : List HostLine :=
  [commandLine .gcIsBusy, .op (.bnz at_)]

/-- `GC_WAIT_TO d, Lx` placed at line `at_` (30_encoding.md R60); `d` is BTO's, of 32 bits (log entry
21). -/
def gcWaitTo (p : Params) (at_ : Nat) (d : Word) (lx : Nat) : List HostLine :=
  [commandLine (.busRd p.clockAddr),
    .op .mark,
    commandLine .gcIsBusy,
    .op (.bz (at_ + 9)),
    commandLine (.busRd p.clockAddr),
    .op (.bto (at_ + 7) d),
    .op (.b (at_ + 2)),
    .op (.setst Status.timeout.code),
    .op (.b lx)]

/-- `TS_WAIT_TO n, d, Lx` placed at line `at_` (30_encoding.md R60); `d` is BTO's, of 32 bits (log entry
21). -/
def tsWaitTo (p : Params) (at_ : Nat) (n d : Word) (lx : Nat) : List HostLine :=
  [commandLine (.busRd p.clockAddr),
    .op .mark,
    commandLine .tsCaptured,
    .op (.blt (at_ + 5) n),
    .op (.b (at_ + 10)),
    commandLine (.busRd p.clockAddr),
    .op (.bto (at_ + 8) d),
    .op (.b (at_ + 2)),
    .op (.setst Status.timeout.code),
    .op (.b lx)]

/-- `DMA_DRAIN ch` placed at line `at_` (30_encoding.md R60). -/
def dmaDrain (p : Params) (at_ : Nat) (ch : ChanNo) : List HostLine :=
  [commandLine (.busRd (p.regAddr (.dma ch .pending))), .op (.bnz at_)]

end Sys2Proof.Machine
end

