-- ==== Sys2Proof/Machine/Control.lean ====
section
/-! DEFINITION. The control thread's turn: the next micro-step of the command in flight, or fetching
and running one line of the host program (10_state.md R17, 30_encoding.md R56, R59); and what a turn of
the whole machine is. -/

namespace Sys2Proof.Machine

/-- Run a command line's words: the command, or status IllegalCommand and nothing else
(30_encoding.md R56). -/
def runWords (ws : List Word) (s : State) : Host.Outcome State Fault Refusal :=
  match decode ws with
  | .command i _ => exec i s.nextLine
  | .illegal _ _ => .next (s.nextLine.fail .illegalCommand)
  | .truncated => .refused .truncatedCommand

/-- The next micro-step of the command in flight (42_counter_extender.md R85, 44_gate_controller.md
R100, 45_timestamp_capture.md R107). -/
def State.microStep (s : State) : InFlight → State
  | .cxArm cx => s.cxArmStep cx
  | .gcAbort gc => s.gcAbortStep gc
  | .gcZero gc => s.gcZeroStep gc
  | .gcArm gc => s.gcArmStep gc
  | .gcEnable => s.gcEnableStep
  | .tsZero ts base cap i => s.tsZeroStep ts base cap i
  | .tsReset ts base cap => s.tsResetStep ts base cap
  | .tsAbort ts base cap => s.tsAbortStep ts base cap
  | .tsArm ts base cap => s.tsArmStep ts base cap
  | .tsEnable => s.tsEnableStep

/-- One line of the host program. A control thread whose program has ended does nothing
(60_exceptions.md R129: the host may stop issuing). -/
def lineStep (s : State) : Host.Outcome State Fault Refusal :=
  match s.fetch with
  | none => .next s
  | some (.op o) => .next (s.hostOp o)
  | some (.command ws) => runWords ws s

/-- The control thread's step: the next micro-step of its command, or the first step of the next line
(60_exceptions.md R129). -/
def controlStep (s : State) : Host.Outcome State Fault Refusal :=
  match s.inFlight with
  | some m => .next (s.microStep m)
  | none => lineStep s

/-- Take the next scheduled turn, one atomic step; the control thread's where none is scheduled
(20_memory.md R47; log entry 5). -/
def turnStep (s : State) : Host.Outcome State Fault Refusal :=
  match s.schedule with
  | [] => controlStep s
  | t :: ts =>
    if t = .control then controlStep { s with schedule := ts }
    else .next (State.agentStep { s with schedule := ts } t)

/-- The word stored by `withFetchWord`: the three words of a line, word 0 from bits 31:0. -/
def tableLine (nbits w : Nat) : HostLine :=
  .command [tableWord (w % 2 ^ nbits) 0, tableWord (w % 2 ^ nbits) 1, tableWord (w % 2 ^ nbits) 2]

end Sys2Proof.Machine
end

