-- ==== Sys2Proof/Machine/Step.lean ====
section
/-! DEFINITION. One step of the machine, and how a command is placed where the next step runs it. -/

namespace Sys2Proof.Machine

/-- One step: one micro-step of the control thread or one step of another agent (20_memory.md R47). A
machine in `Faulted(F)` takes none: the step answers the fault (60_exceptions.md R121). -/
def step (s : State) : Host.Outcome State Fault Refusal :=
  match s.faultMark with
  | some f => .fault f
  | none => turnStep s

/-- Make the host program the one command of these bits, with no other command in flight, and give the
control thread the next turn (log entry 9). -/
def State.withFetchWord (s : State) (nbits w : Nat) : State :=
  { s with
    program := [tableLine nbits w], pc := 0, inFlight := none
    schedule := .control :: s.schedule }

end Sys2Proof.Machine
end

