-- ==== Sys2Proof/Safety.lean ====
section
/-! DEFINITION. What holds in every state a run reaches, what an instruction may leave changed, and
which runs are runs of the hardware, in the words the claims use. -/

namespace Sys2Proof.Machine

/-! ### The invariant -/

/-- A channel's fields agree (10_state.md R27, 40_bus_dma.md R69): an idle channel holds no request, a
busy one has at least one transfer left, and PENDING is within PENDING_LIMIT. -/
structure ChannelOk (p : Params) (c : DmaChannel) : Prop where
  idle_pending : c.busy = false → c.pending = 0
  busy_count : c.busy = true → c.count ≠ 0#32
  within_limit : ∀ n, p.pendingLimit = some n → c.pending ≤ n

/-- The values a command in flight holds are those of its component, which no micro-step and no agent
changes (42_counter_extender.md R85, 44_gate_controller.md R100, 45_timestamp_capture.md R107). -/
def InFlight.Ok (s : State) : InFlight → Prop
  | .cxArm cx => s.cx = ⟨cx, true⟩
  | .gcAbort gc => s.gc = ⟨gc, true⟩
  | .gcZero gc => s.gc = ⟨gc, true⟩
  | .gcArm gc => s.gc = ⟨gc, true⟩
  | .gcEnable => s.gc.bound = true
  | .tsZero ts base cap i =>
    s.ts = ⟨ts, true⟩ ∧ base = s.tsBase ∧ cap = s.tsCapacity ∧ i < cap.toNat
  | .tsReset ts base cap => s.ts = ⟨ts, true⟩ ∧ base = s.tsBase ∧ cap = s.tsCapacity
  | .tsAbort ts base cap => s.ts = ⟨ts, true⟩ ∧ base = s.tsBase ∧ cap = s.tsCapacity
  | .tsArm ts base cap => s.ts = ⟨ts, true⟩ ∧ base = s.tsBase ∧ cap = s.tsCapacity
  | .tsEnable => s.ts.bound = true

/-- What every step keeps, from every state that has it. -/
structure StateOk (s : State) : Prop where
  /-- The parameters are legal (00_scope.md R8). -/
  params_legal : s.params.Legal
  /-- 10_state.md R27. -/
  channels_ok : ∀ ch, ChannelOk s.params (s.chan ch)
  /-- A channel at or above DMA_CHANNELS does not exist, and its place is as at reset. -/
  absent_at_reset : ∀ ch, s.params.hasChannel ch = false → s.chan ch = DmaChannel.atReset
  /-- A bound component's channel exists (10_state.md R24). -/
  bound_exists : ∀ c, (s.binding c).bound = true → s.params.hasChannel (s.binding c).ch = true
  /-- No two components share a channel (60_exceptions.md R122). -/
  exclusive : ∀ c d ch, s.owns c ch = true → s.owns d ch = true → c = d
  /-- 10_state.md R25. -/
  gc_bound : s.gc.bound = true ↔ s.gcState ≠ .idle
  /-- 10_state.md R20. -/
  ec_pin : s.ec.pin = 0xFF#8 ∨ s.params.ecPinOk s.ec.pin = true
  /-- 43_gate_timer.md R92. -/
  gt_pin : s.gt.pin = 0xFF#8 ∨ s.params.gtPinOk s.gt.pin = true
  /-- 10_state.md R23. -/
  gt_prescale : s.gt.prescale ≠ 0#8
  /-- A bound TS buffer is a legal one (45_timestamp_capture.md R106). -/
  ts_buffer : s.ts.bound = true → s.params.bufferOk s.tsBase s.tsCapacity = true
  /-- A command in flight is one its component started. -/
  in_flight : ∀ m, s.inFlight = some m → m.Ok s
  /-- RAM keeps its canonical form. -/
  mem_wf : s.mem.wf = true
  /-- Only RAM's own addresses hold bytes (20_memory.md R36). -/
  mem_in_ram : ∀ a, s.mem.read a ≠ ramAtLaunch →
    s.params.ramBase.toNat ≤ a ∧ a < s.params.ramBase.toNat + s.params.ramSize

/-! ### The registers that exist -/

/-- The register exists: a channel's register does where the channel does (10_state.md R26). -/
def Params.hasReg (p : Params) : Reg → Bool
  | .dma ch _ => p.hasChannel ch
  | _ => true

/-- The read value of a channel's register from the channel's fields (10_state.md R26, 20_memory.md
R38): both count registers show the live COUNT, PENDING saturates at UINT32_MAX. -/
def DmaChannel.shows (c : DmaChannel) : DmaReg → Nat
  | .readAddr => c.readAddr.toNat
  | .writeAddr => c.writeAddr.toNat
  | .transCount => c.count.toNat
  | .ctrl =>
    c.en.toNat + 2 * c.size.toNat + 4 * c.incrRead.toNat + 8 * c.incrWrite.toNat +
      16 * c.treq.toNat + 2 ^ 24 * c.busy.toNat + 2 ^ 29 * c.err.toNat
  | .transCountTrig => c.count.toNat
  | .pending => min c.pending (2 ^ 32 - 1)
  | .reload => c.reload.toNat

/-- The read value of a register from the fields of State, each at its place with reserved bits 0
(10_state.md R18, R22, R24, R26; 20_memory.md R38). -/
def State.shows (s : State) : Reg → Nat
  | .ecCtrl => s.ec.en.toNat + (match s.ec.pol with | .rising => 0 | .falling => 2)
  | .ecCtr => s.ec.ctr.toNat
  | .ecWrap => s.ec.wrap.toNat
  | .ecPin => s.ec.pin.toNat
  | .gtCtrl => s.gt.en.toNat + 2 * s.gt.phCorrect.toNat + 4 * s.gt.dir.toNat
  | .gtCtr => s.gt.ctr.toNat
  | .gtWrap => s.gt.wrap.toNat
  | .gtPrescale => s.gt.prescale.toNat
  | .gtPin => s.gt.pin.toNat
  | .enMask => s.ec.en.toNat + 2 * s.gt.en.toNat
  | .cxScratch => s.cxScratch.toNat
  | .gcStopval => s.gcStopval.toNat
  | .gcState => match s.gcState with | .idle => 0 | .armed => 1 | .running => 2 | .expired => 3
  | .gcOvfTally => s.gcOvfTally.toNat
  | .gcPrevSample => s.gcPrevSample.toNat
  | .dmaAbort => 0
  | .bind =>
    s.cx.ch.toNat + 2 ^ 4 * s.cx.bound.toNat + 2 ^ 8 * s.gc.ch.toNat + 2 ^ 12 * s.gc.bound.toNat +
      2 ^ 16 * s.ts.ch.toNat + 2 ^ 20 * s.ts.bound.toNat
  | .tsBase => s.tsBase.toNat
  | .tsCapacity => s.tsCapacity.toNat
  | .dma ch r => (s.chan ch).shows r

/-! ### Frames -/

/-- From `s` to `t` every register outside `rs` reads as before, every byte of RAM that is not
`stored` reads as before, the clock, the pins, the fault mark, the parameters, the host program, `pc`,
`t0` and the command in flight are as before, and `k` turns of the schedule have been taken. PENDING is
compared exactly, beyond the 32 bits a read shows. -/
structure Frame (rs : List Reg) (stored : Nat → Prop) (k : Nat) (s t : State) : Prop where
  regs : ∀ r, r ∉ rs → t.regRead r = s.regRead r
  pending : ∀ ch, Reg.dma ch .pending ∉ rs → (t.chan ch).pending = (s.chan ch).pending
  ram : ∀ a, ¬ stored a → t.mem.read a = s.mem.read a
  clock : t.clock = s.clock
  levels : t.levels = s.levels
  faultMark : t.faultMark = s.faultMark
  params : t.params = s.params
  program : t.program = s.program
  pc : t.pc = s.pc
  t0 : t.t0 = s.t0
  inFlight : t.inFlight = s.inFlight
  schedule : t.schedule = s.schedule.drop k

/-- No byte of RAM is stored to. -/
def noBytes : Nat → Prop := fun _ => False

/-- The bytes of a word stored at an address. -/
def wordBytes (a : Nat) : Nat → Prop := fun x => a ≤ x ∧ x < a + 4

/-- The bytes of a buffer of `cap` slots. -/
def bufferBytes (base cap : Word) : Nat → Prop :=
  fun x => base.toNat ≤ x ∧ x < base.toNat + 4 * cap.toNat

/-- The result record of a command that succeeds (00_scope.md R12). -/
def okResult (value : Word) (flag : Bool) : Result := ⟨0#8, value, flag⟩

/-- The command answers a next state that has the property, and stores nothing but what the frame
allows. -/
def Completes (i : Instr) (s : State) (rs : List Reg) (k : Nat) (P : State → Prop) : Prop :=
  ∃ t, exec i s = .next t ∧ Frame rs noBytes k s t ∧ P t

/-- The command answers a next state in which the result record has this status, value 0 and flag 0,
and nothing else has changed (60_exceptions.md R114, R118). -/
def Fails (i : Instr) (s : State) (code : BitVec 8) : Prop :=
  exec i s = .next { s with last := ⟨code, 0#32, false⟩ }

/-- The bits of a register that a write sets (10_state.md R18, R22, R24, R26); for the registers whose
write is another action, none. -/
def writtenBits : Reg → Word
  | .ecCtrl => 0x00000003#32
  | .ecCtr => 0x0000FFFF#32
  | .ecWrap => 0x0000FFFF#32
  | .gtCtrl => 0x00000003#32
  | .gtCtr => 0x0000FFFF#32
  | .gtWrap => 0x0000FFFF#32
  | .enMask => 0x00000003#32
  | .cxScratch => 0xFFFFFFFF#32
  | .gcStopval => 0xFFFFFFFF#32
  | .dma _ .readAddr => 0xFFFFFFFF#32
  | .dma _ .writeAddr => 0xFFFFFFFF#32
  | .dma _ .ctrl => 0x000003FF#32
  | _ => 0x00000000#32

/-- The registers that read the same bits as the one written: EC_CTRL.EN and GT_CTRL.EN are also EN_MASK
(10_state.md R24), and a TRANS_COUNT write shows in RELOAD (10_state.md R26). -/
def alsoWritten : Reg → List Reg
  | .ecCtrl => [.enMask]
  | .gtCtrl => [.enMask]
  | .enMask => [.ecCtrl, .gtCtrl]
  | .dma ch .transCount => [.dma ch .reload]
  | _ => []

/-- All seven registers of a channel. -/
def channelRegs (ch : ChanNo) : List Reg := dmaRegs.map (Reg.dma ch)

/-- The next `k` scheduled turns are the control thread's: no other agent steps in them. -/
def Quiet (k : Nat) (s : State) : Prop := ∀ t ∈ s.schedule.take k, t = Turn.control

/-- These words are Illegal: they end with status IllegalCommand (code 5) and change nothing but the
host's `pc`, and so does the machine's step at a line that holds them (30_encoding.md R56). -/
def EndsIllegal (ws : List Word) : Prop :=
  (∀ s : State, runWords ws s = .next { s with pc := s.pc + 1, last := ⟨5#8, 0#32, false⟩ }) ∧
  (∀ s : State, s.faultMark = none → Quiet 1 s → s.inFlight = none →
    s.fetch = some (.command ws) →
    step s = .next { s with
      pc := s.pc + 1, last := ⟨5#8, 0#32, false⟩, schedule := s.schedule.drop 1 })

/-- A command word of this opcode with a nonzero bit among `reserved` decodes to Illegal, ends with
status IllegalCommand (code 5) and changes nothing but the host's `pc` (30_encoding.md R56). -/
def ReservedIllegal (opc : BitVec 8) (reserved : Word) : Prop :=
  ∀ (w0 : Word) (ext : List Word), opcodeOf w0 = opc → w0 &&& reserved ≠ 0#32 →
    (∃ n, decode (w0 :: ext) = .illegal .reservedField n) ∧
    ∀ s : State,
      runWords (w0 :: ext) s = .next { s with pc := s.pc + 1, last := ⟨5#8, 0#32, false⟩ }

/-! ### Commands in flight (20_memory.md R47) -/

/-- Step until no command is in flight, at most `n` times: the other agents' scheduled turns fall where
the schedule has them. A model fault stops it (60_exceptions.md R121). -/
def State.finish : Nat → State → Host.Outcome State Fault Refusal
  | 0, s => .next s
  | n + 1, s =>
    match s.inFlight with
    | none => .next s
    | some _ =>
      match step s with
      | .next t => State.finish n t
      | .fault f => .fault f
      | .refused r => .refused r

/-- However the other agents' turns fall among the `k` micro-steps left, the command in flight ends in a
state that has the property, unless a model fault stops the machine. -/
def Ends (k : Nat) (s : State) (P : State → Prop) : Prop :=
  match State.finish (s.schedule.length + k) s with
  | .next u => u.inFlight = none ∧ u.last = ⟨0#8, 0#32, false⟩ ∧ P u
  | .fault _ => True
  | .refused _ => False

/-! ### Events (40_bus_dma.md R68) -/

/-- An event of the tag reaches channel `ch`, which accepts it: it exists, its TREQ is the tag, it is
busy, and it is enabled or chooses to accept while paused. -/
def Accepts (tag : BitVec 6) (accepts : BitVec 16) (s : State) (ch : ChanNo) : Prop :=
  ch.toNat < s.params.dmaChannels ∧ (s.chan ch).treq = tag ∧ (s.chan ch).busy = true ∧
    ((s.chan ch).en = true ∨ accepts.getLsbD ch.toNat = true)

/-- Some channel that accepts the event already holds PENDING_LIMIT requests. -/
def WouldOverrun (tag : BitVec 6) (accepts : BitVec 16) (s : State) : Prop :=
  ∃ ch, Accepts tag accepts s ch ∧ s.params.pendingLimit = some (s.chan ch).pending

/-- The channels of `t` are those of `s` with one request more in each channel that accepts the
event. -/
def Delivered (tag : BitVec 6) (accepts : BitVec 16) (s t : State) : Prop :=
  ∀ ch, (Accepts tag accepts s ch →
      t.chan ch = { s.chan ch with pending := (s.chan ch).pending + 1 }) ∧
    (¬ Accepts tag accepts s ch → t.chan ch = s.chan ch)

/-! ### Runs of the agents -/

/-- No turn of the list is the control thread's. -/
def AgentsOnly (ts : List Turn) : Prop := Turn.control ∉ ts

/-- The turn is an edge that the EdgeCounter counts (41_edge_counter.md R75). -/
def State.countsEdge (s : State) : Turn → Bool
  | .edge p _ => decide (p.toNat < s.params.pinCount) && s.qualifies p
  | _ => false

/-- The turn makes the EdgeCounter emit its trigger event (41_edge_counter.md R76). -/
def State.emitsEc (s : State) (t : Turn) : Bool := s.countsEdge t && s.ec.atWrap

/-- The turn is a tick of an enabled GateTimer (43_gate_timer.md R89). -/
def State.ticks (s : State) : Turn → Bool
  | .tick _ => s.gt.en
  | _ => false

/-- The turn makes the GateTimer emit its expiry event (43_gate_timer.md R89). -/
def State.emitsGt (s : State) (t : Turn) : Bool := s.ticks t && s.gt.expires

/-- The turn is a transfer of channel `ch` that is enabled (40_bus_dma.md R69). -/
def State.transfers (s : State) (ch : ChanNo) : Turn → Bool
  | .transfer c => c == ch && s.agentEnabled (.transfer c)
  | _ => false

/-- How many turns of a run have a property, each judged in the state it is taken in. -/
def countTurns (P : State → Turn → Bool) : List Turn → State → Nat
  | [], _ => 0
  | t :: ts, s => (if P s t then 1 else 0) + countTurns P ts (s.agentStep t)

/-- The clock values at the transfers of channel `ch` in a run, oldest first. -/
def transferClocks (ch : ChanNo) : List Turn → State → List Word
  | [], _ => []
  | t :: ts, s =>
    (if s.transfers ch t then [s.clock] else []) ++ transferClocks ch ts (s.agentStep t)

/-! ### Fair runs (60_exceptions.md R129) -/

/-- The fair agents: the GateTimer, each DMA channel and the clock (60_exceptions.md R129). -/
def Turn.fair : Turn → Bool
  | .control => false
  | .edge _ _ => false
  | .tick _ => true
  | .transfer _ => true
  | .clock => true

/-- Two turns are the same agent's. -/
def Turn.sameAgent : Turn → Turn → Bool
  | .control, .control => true
  | .edge _ _, .edge _ _ => true
  | .tick _, .tick _ => true
  | .transfer a, .transfer b => a == b
  | .clock, .clock => true
  | _, _ => false

/-- An infinite run: at each point the environment offers one turn, and the machine takes it. -/
def IsRun (st : Nat → State) (turn : Nat → Turn) : Prop :=
  ∀ n, (st n).schedule = [] ∧ step { st n with schedule := [turn n] } = .next (st (n + 1))

/-- Weak fairness (60_exceptions.md R129): a fair agent that stays enabled steps eventually. Fairness is
a predicate over runs and no part of the step (log entry 15). -/
def WeaklyFair (st : Nat → State) (turn : Nat → Turn) : Prop :=
  ∀ a : Turn, a.fair = true → ∀ n, (∀ m, n ≤ m → (st m).agentEnabled a = true) →
    ∃ m, n ≤ m ∧ Turn.sameAgent a (turn m) = true

/-- A run of the hardware never reaches a model fault (60_exceptions.md R121). -/
def HardwareRun (st : Nat → State) : Prop := ∀ n, (st n).faultMark = none

end Sys2Proof.Machine
end

