-- ==== Sys2Proof/Certificates/Slice0/Obligations.lean ====
section
/-! DEFINITION. The statements about the model, each with the rule of spec/ it comes from. -/

open Sys2Proof Sys2Proof.Machine

/-! ### Encoding (30_encoding.md) -/

/-- Decoding the words of a well-formed command gives it back, for every command and every value of
its operands (30_encoding.md R52 to R54, R56). -/
def Obligations.DecodeOfEncodeIsTheCommand : Prop :=
  ∀ i : Instr, i.wellFormed = true → decode (encode i) = .command i (encode i).length

/-- The words a command was decoded from are its encoding: no bit of them is ignored (30_encoding.md
R52, R56). -/
def Obligations.EncodeOfDecodeIsTheWords : Prop :=
  ∀ (ws : List Word) (i : Instr) (n : Nat), decode ws = .command i n →
    encode i = ws.take n ∧ n ≤ ws.length

/-- Commands are one to three words long, the opcode alone decides the length, and a reserved opcode
is one word long (30_encoding.md R58). -/
def Obligations.OpcodeAloneDecidesTheLength : Prop :=
  (∀ (ws : List Word) (i : Instr) (n : Nat), decode ws = .command i n → 1 ≤ n ∧ n ≤ 3) ∧
  (∀ (u w : Word) (e f : List Word) (i j : Instr) (m n : Nat), opcodeOf u = opcodeOf w →
    decode (u :: e) = .command i m → decode (w :: f) = .command j n → m = n) ∧
  (∀ (u w : Word) (e f : List Word) (i : Instr) (r : IllegalReason) (m n : Nat),
    opcodeOf u = opcodeOf w →
    decode (u :: e) = .command i m → decode (w :: f) = .illegal r n → m = n) ∧
  (∀ (w : Word) (e : List Word) (n : Nat), decode (w :: e) = .illegal .reservedOpcode n → n = 1)

/-- The reserved opcodes are the ranges of 30_encoding.md R57, and each decodes to Illegal, length
1. -/
def Obligations.ReservedOpcodesAreTheListedRanges : Prop :=
  ∀ (w : Word) (e : List Word), decode (w :: e) = .illegal .reservedOpcode 1 ↔
    ((opcodeOf w).toNat = 0x00 ∨ (0x04 ≤ (opcodeOf w).toNat ∧ (opcodeOf w).toNat ≤ 0x0F) ∨
      (0x16 ≤ (opcodeOf w).toNat ∧ (opcodeOf w).toNat ≤ 0x1F) ∨
      (0x25 ≤ (opcodeOf w).toNat ∧ (opcodeOf w).toNat ≤ 0x2F) ∨
      (0x34 ≤ (opcodeOf w).toNat ∧ (opcodeOf w).toNat ≤ 0x3F) ∨
      (0x45 ≤ (opcodeOf w).toNat ∧ (opcodeOf w).toNat ≤ 0x4F) ∨ 0x55 ≤ (opcodeOf w).toNat)

/-- Words written out in the spec decode to the commands they stand for (30_encoding.md R54;
95_test_vectors.md V-E10, V-T13, V-S10, P4). -/
def Obligations.WordsOfTheSpecDecode : Prop :=
  decodeInstr [0x10000103#32] = some (.ecConfigure 3#8 .falling) ∧
  decodeInstr [0x2000FA02#32, 0x01DCD650#32] = some (.gtConfigure 2#8 250#8 31250000#32) ∧
  decodeInstr [0x50000002#32, 0x20000000#32, 0x00000009#32] =
    some (.tsInit 2#4 0x20000000#32 9#32) ∧
  decodeInstr [0x02000000#32, 0x40000160#32, 0x40000028#32] =
    some (.busWr 0x40000160#32 0x40000028#32) ∧
  decodeInstr [0x30000000#32] = some (.cxInit 0#4) ∧
  decodeInstr [0x40000001#32] = some (.gcInit 1#4) ∧
  decodeInstr [0x03000002#32] = some (.enMask 2#2)

/-- Words that decode to Illegal end with status IllegalCommand, code 5, and change no state of the
block; the machine's step at a line that holds them moves the host to the next line and does no more
(30_encoding.md R56, 60_exceptions.md R114; the turn taken from the schedule is the model's choice, log
entry 5). -/
def Obligations.IllegalWordsChangeNothing : Prop :=
  ∀ (ws : List Word) (r : IllegalReason) (n : Nat), decode ws = .illegal r n → EndsIllegal ws

/-! ### Steps -/

/-- When the control thread has the turn, no command is in flight and the line at `pc` decodes to a
well-formed command, the step is that command's meaning at the state with `pc` on the next line and the
control turn taken; with a command in flight the step is its next micro-step, and no line is fetched;
past the last line it does nothing (10_state.md R17, 20_memory.md R47, 30_encoding.md R59,
60_exceptions.md R129). The schedule is the model's choice, log entry 5; that a command's check and its
first micro-step are one step is log entry 8, the idle control thread log entry 11, and the refusal of a
line with too few words log entry 12. -/
def Obligations.StepRunsTheDecodedCommand : Prop :=
  (∀ (s : State) (ws : List Word) (i : Instr) (n : Nat), s.faultMark = none → Quiet 1 s →
    s.inFlight = none → s.fetch = some (.command ws) → decode ws = .command i n →
    i.wellFormed = true →
    step s = exec i { s with pc := s.pc + 1, schedule := s.schedule.drop 1 }) ∧
  (∀ (s : State) (m : InFlight), s.faultMark = none → Quiet 1 s → s.inFlight = some m →
    step s = .next (State.microStep { s with schedule := s.schedule.drop 1 } m)) ∧
  (∀ s : State, s.faultMark = none → Quiet 1 s → s.inFlight = none → s.program.length ≤ s.pc →
    step s = .next { s with schedule := s.schedule.drop 1 }) ∧
  (∀ (s : State) (ws : List Word), s.faultMark = none → Quiet 1 s → s.inFlight = none →
    s.fetch = some (.command ws) → decode ws = .truncated → step s = .refused .truncatedCommand)

/-- When another agent has the turn, the step is that agent's atomic step (20_memory.md R47). -/
def Obligations.StepTakesTheScheduledTurn : Prop :=
  ∀ (s : State) (t : Turn) (ts : List Turn), s.faultMark = none → s.schedule = t :: ts →
    t ≠ .control → step s = .next (State.agentStep { s with schedule := ts } t)

/-- After a model fault no agent takes another step (60_exceptions.md R121). -/
def Obligations.FaultedMachineTakesNoStep : Prop :=
  (∀ (s : State) (f : Fault), s.faultMark = some f → step s = .fault f) ∧
  (∀ (s : State) (f : Fault) (ts : List Turn), s.faultMark = some f → State.runTurns ts s = s)

/-- What each host operation does to `pc`, `t0` and `last`, and that it changes nothing else
(30_encoding.md R59). -/
def Obligations.HostOperationsActOnTheHostAlone : Prop :=
  ∀ (s : State) (o : HostOp), s.faultMark = none → Quiet 1 s → s.inFlight = none →
    s.fetch = some (.op o) → ∃ t, step s = .next t ∧
      t = { s with pc := t.pc, t0 := t.t0, last := t.last, schedule := s.schedule.drop 1 } ∧
      (match o with
        | .b l => t.pc = l ∧ t.t0 = s.t0 ∧ t.last = s.last
        | .bz l => t.pc = (if s.last.value = 0#32 then l else s.pc + 1) ∧ t.t0 = s.t0 ∧ t.last = s.last
        | .bnz l =>
          t.pc = (if s.last.value = 0#32 then s.pc + 1 else l) ∧ t.t0 = s.t0 ∧ t.last = s.last
        | .blt l k =>
          t.pc = (if s.last.value.toNat < k.toNat then l else s.pc + 1) ∧ t.t0 = s.t0 ∧
            t.last = s.last
        | .berr l =>
          t.pc = (if s.last.status = 0#8 then s.pc + 1 else l) ∧ t.t0 = s.t0 ∧ t.last = s.last
        | .mark => t.pc = s.pc + 1 ∧ t.t0 = s.last.value ∧ t.last = s.last
        | .bto l d =>
          t.pc = (if d.toNat ≤ (s.last.value.toNat + 2 ^ 32 - s.t0.toNat) % 2 ^ 32 then l
            else s.pc + 1) ∧ t.t0 = s.t0 ∧ t.last = s.last
        | .setst st =>
          t.pc = s.pc + 1 ∧ t.t0 = s.t0 ∧ t.last = ⟨st, s.last.value, s.last.flag⟩
        | .halt => t.pc = s.pc ∧ t.t0 = s.t0 ∧ t.last = s.last)

/-! ### The bus (20_memory.md, 40_bus_dma.md) -/

/-- `access_ok` holds exactly for a byte or an aligned word inside RAM, an aligned word at a
register's offset, and the clock's word (20_memory.md R37). -/
def Obligations.AccessIsOkExactlyInTheMappedRegions : Prop :=
  ∀ (p : Params) (a : Word) (z : Size), p.Legal →
    (p.accessOk a z = true ↔
      (p.ramBase.toNat ≤ a.toNat ∧ a.toNat + z.bytes ≤ p.ramBase.toNat + p.ramSize ∧
        (z = .byte ∨ a.toNat % 4 = 0)) ∨
      (z = .word ∧ ∃ off, a.toNat = p.blockBase.toNat + off ∧
        ((off % 4 = 0 ∧ off ≤ 0x048) ∨
          ∃ ch k, ch < p.dmaChannels ∧ k ∈ [0x00, 0x04, 0x08, 0x0C, 0x10, 0x14, 0x18] ∧
            off = 0x100 + 0x20 * ch + k)) ∨
      (z = .word ∧ a = p.clockAddr))

/-- BUS_RD returns the register's read value, each field at its place, the RAM word little-endian, or
the clock, and changes nothing else; an access that is not ok ends with BusError, code 9 (40_bus_dma.md
R61; 10_state.md R18, R22, R24, R26; 20_memory.md R38): TRANS_COUNT and TRANS_COUNT_TRIG show the live
COUNT, DMA_ABORT shows 0 and PENDING saturates at UINT32_MAX. Its words are those of the opcode map,
and a word 0 with a nonzero reserved field ends with IllegalCommand (30_encoding.md R52 to R56). -/
def Obligations.BusRdReturnsTheWord : Prop :=
  (∀ addr : Word, decode [0x01000000#32, addr] = .command (.busRd addr) 2) ∧
  ReservedIllegal 0x01#8 0x00FFFFFF#32 ∧
  ∀ (s : State) (a : Word), s.params.Legal →
    (s.params.accessOk a .word = false → Fails (.busRd a) s 9#8) ∧
    (∀ r, s.params.hasReg r = true → a = s.params.blockBase + BitVec.ofNat 32 r.offset →
      Completes (.busRd a) s [] 0 fun t =>
        t.last = okResult (s.regRead r) false ∧ t.last.value.toNat = s.shows r) ∧
    (a = s.params.clockAddr →
      Completes (.busRd a) s [] 0 fun t => t.last = okResult s.clock false) ∧
    (s.params.ramBase.toNat ≤ a.toNat → a.toNat + 4 ≤ s.params.ramBase.toNat + s.params.ramSize →
      a.toNat % 4 = 0 →
      Completes (.busRd a) s [] 0 fun t =>
        t.last.status = 0#8 ∧ t.last.flag = false ∧
        t.last.value.toNat = (s.mem.read a.toNat).toNat + 2 ^ 8 * (s.mem.read (a.toNat + 1)).toNat +
          2 ^ 16 * (s.mem.read (a.toNat + 2)).toNat + 2 ^ 24 * (s.mem.read (a.toNat + 3)).toNat)

/-- BUS_WR of a RAM word stores its four bytes, the least significant first, and no other byte, and
a BUS_RD of it then returns it; a BUS_WR of the clock is ignored; an access that is not ok ends with
BusError, code 9, and stores nothing (40_bus_dma.md R62, 20_memory.md R39, R40). Its words are those
of the opcode map, and a word 0 with a nonzero reserved field ends with IllegalCommand
(30_encoding.md R52 to R56). -/
def Obligations.BusWrStoresTheWord : Prop :=
  (∀ addr value : Word, decode [0x02000000#32, addr, value] = .command (.busWr addr value) 3) ∧
  ReservedIllegal 0x02#8 0x00FFFFFF#32 ∧
  ∀ (s : State) (a v : Word), s.params.Legal → s.mem.wf = true →
    (s.params.accessOk a .word = false → Fails (.busWr a v) s 9#8) ∧
    (a = s.params.clockAddr →
      Completes (.busWr a v) s [] 0 fun t => t.last = okResult 0#32 false) ∧
    (s.params.ramBase.toNat ≤ a.toNat → a.toNat + 4 ≤ s.params.ramBase.toNat + s.params.ramSize →
      a.toNat % 4 = 0 →
      ∃ t, exec (.busWr a v) s = .next t ∧ Frame [] (wordBytes a.toNat) 0 s t ∧
        t.last = okResult 0#32 false ∧
        (∀ i, i < 4 → (t.mem.read (a.toNat + i)).toNat = v.toNat / 2 ^ (8 * i) % 2 ^ 8) ∧
        exec (.busRd a) t = .next { t with last := okResult v false })

/-- Each register's write action, through BUS_WR: the bits named for it are set and its other bits
keep their values, the registers that alias it follow, read-only registers ignore the write,
TRANS_COUNT sets RELOAD, TRANS_COUNT_TRIG sets RELOAD and triggers, DMA_ABORT aborts the existing
channels of its mask; and nothing else changes (40_bus_dma.md R64). -/
def Obligations.RegisterWriteActions : Prop :=
  ∀ (s : State) (r : Reg) (v : Word), s.params.Legal → s.params.hasReg r = true →
    match r with
    | .dmaAbort =>
      ∃ t, exec (.busWr (s.params.regAddr r) v) s = .next t ∧
        t = { s with dma := t.dma, last := okResult 0#32 false } ∧
        ∀ ch, t.chan ch =
          if v.getLsbD ch.toNat = true ∧ ch.toNat < s.params.dmaChannels then (s.chan ch).abort
          else s.chan ch
    | .dma ch .transCountTrig =>
      Completes (.busWr (s.params.regAddr r) v) s (channelRegs ch) 0 fun t =>
        t.last = okResult 0#32 false ∧
          t.chan ch = DmaChannel.trigger { s.chan ch with reload := v }
    | .dma ch .transCount =>
      Completes (.busWr (s.params.regAddr r) v) s [.dma ch .reload] 0 fun t =>
        t.last = okResult 0#32 false ∧ t.regRead (.dma ch .reload) = v
    | .enMask =>
      Completes (.busWr (s.params.regAddr r) v) s [.enMask, .ecCtrl, .gtCtrl] 0 fun t =>
        t.last = okResult 0#32 false ∧ t.ec.en = v.getLsbD 0 ∧ t.gt.en = v.getLsbD 1 ∧
          t.ec.pol = s.ec.pol ∧ t.gt.phCorrect = s.gt.phCorrect ∧ t.gt.dir = s.gt.dir
    | r =>
      Completes (.busWr (s.params.regAddr r) v) s (r :: alsoWritten r) 0 fun t =>
        t.last = okResult 0#32 false ∧
          t.regRead r = (v &&& writtenBits r) ||| (s.regRead r &&& ~~~ writtenBits r) ∧
          t.regRead .enMask =
            (t.regRead .ecCtrl &&& 0x1#32) ||| ((t.regRead .gtCtrl &&& 0x1#32) <<< 1)

/-- EN_MASK writes both enables and nothing else (40_bus_dma.md R63). Its words are those of the
opcode map, and a word 0 with a nonzero reserved field ends with IllegalCommand (30_encoding.md R52
to R56). -/
def Obligations.EnMaskSetsBothEnables : Prop :=
  (∀ m : BitVec 2, decode [0x03000000#32 ||| m.setWidth 32] = .command (.enMask m) 1) ∧
  ReservedIllegal 0x03#8 0x00FFFFFC#32 ∧
  ∀ (s : State) (m : BitVec 2),
    Completes (.enMask m) s [.ecCtrl, .gtCtrl, .enMask] 0 fun t =>
      t.last = okResult 0#32 false ∧ t.ec.en = m.getLsbD 0 ∧ t.gt.en = m.getLsbD 1 ∧
        t.ec.pol = s.ec.pol ∧ t.gt.phCorrect = s.gt.phCorrect ∧ t.gt.dir = s.gt.dir ∧
        t.regRead .enMask = m.setWidth 32

/-! ### Triggers and aborts (40_bus_dma.md) -/

/-- A TRANS_COUNT_TRIG write starts a fresh sequence only on an enabled channel that is not busy
(40_bus_dma.md R65). -/
def Obligations.TriggerStartsOnlyAnEnabledIdleChannel : Prop :=
  ∀ (s : State) (ch : ChanNo) (v : Word), s.params.Legal → s.params.hasChannel ch = true →
    Completes (.busWr (s.params.regAddr (.dma ch .transCountTrig)) v) s (channelRegs ch) 0 fun t =>
      t.last = okResult 0#32 false ∧
      ((s.chan ch).en = false → t.chan ch = { s.chan ch with reload := v }) ∧
      ((s.chan ch).busy = true → t.chan ch = { s.chan ch with reload := v }) ∧
      ((s.chan ch).en = true → (s.chan ch).busy = false → v = 0#32 →
        t.chan ch = { s.chan ch with reload := v, count := 0#32 }) ∧
      ((s.chan ch).en = true → (s.chan ch).busy = false → v ≠ 0#32 →
        t.chan ch = { s.chan ch with reload := v, count := v, busy := true, pending := 0 })

/-- An abort clears BUSY, PENDING and ERR of each existing channel of the mask and keeps everything
else; whatever the other agents do afterwards, the channel stays so; a trigger of the enabled
channel then starts fresh (40_bus_dma.md R66). -/
def Obligations.AbortEndsTheSequenceAndKeepsTheRest : Prop :=
  ∀ (s : State) (m : Word), s.params.Legal →
    ∃ t, exec (.busWr (s.params.regAddr .dmaAbort) m) s = .next t ∧
      t = { s with dma := t.dma, last := okResult 0#32 false } ∧
      (∀ ch, s.params.hasChannel ch = true → m.getLsbD ch.toNat = true →
        t.chan ch = { s.chan ch with busy := false, pending := 0, err := false } ∧
        (∀ ts, AgentsOnly ts → (State.runTurns ts t).chan ch = t.chan ch ∧
          (State.runTurns ts t).agentEnabled (.transfer ch) = false) ∧
        ∀ v : Word, v ≠ 0#32 → (s.chan ch).en = true →
          ∃ u, exec (.busWr (t.params.regAddr (.dma ch .transCountTrig)) v) t = .next u ∧
            (u.chan ch).count = v ∧ (u.chan ch).busy = true) ∧
      (∀ ch, s.params.hasChannel ch = false ∨ m.getLsbD ch.toNat = false →
        t.chan ch = s.chan ch)

/-- A re-arm of a busy channel without an abort leaves the old count going on; after an abort it
starts fresh (40_bus_dma.md R73). -/
def Obligations.ReArmWithoutAbortResumesTheStaleCount : Prop :=
  ∀ (s : State) (ch : ChanNo) (y : Word), s.params.Legal → s.params.hasChannel ch = true →
    (s.chan ch).en = true → (s.chan ch).busy = true →
    (∃ t, exec (.busWr (s.params.regAddr (.dma ch .transCountTrig)) y) s = .next t ∧
      (t.chan ch).count = (s.chan ch).count ∧ (t.chan ch).reload = y) ∧
    (y ≠ 0#32 → ∀ m : Word, m.getLsbD ch.toNat = true →
      ∃ u t, exec (.busWr (s.params.regAddr .dmaAbort) m) s = .next u ∧
        exec (.busWr (u.params.regAddr (.dma ch .transCountTrig)) y) u = .next t ∧
        (t.chan ch).count = y ∧ (t.chan ch).busy = true)

/-! ### EdgeCounter commands (41_edge_counter.md) -/

/-- EC_CONFIGURE selects pin and polarity and leaves the counter stopped, zeroed and wrapping at
0xFFFF; an illegal pin ends with InvalidPinError, code 1, and changes nothing (41_edge_counter.md
R77). Its words are those of the opcode map, and a word 0 with a nonzero reserved field ends with
IllegalCommand (30_encoding.md R52 to R56). -/
def Obligations.EcConfigureSelectsPinAndPolarity : Prop :=
  (∀ (pin : BitVec 8) (pol : Polarity),
    decode [0x10000000#32 ||| (match pol with | .rising => 0x000#32 | .falling => 0x100#32) |||
      pin.setWidth 32] = .command (.ecConfigure pin pol) 1) ∧
  ReservedIllegal 0x10#8 0x00FFFE00#32 ∧
  ∀ (s : State) (pin : BitVec 8) (pol : Polarity),
    (pin.toNat < s.params.pinCount ∧ pin.toNat % 2 = s.params.edgePinParity →
      Completes (.ecConfigure pin pol) s [.ecPin, .ecCtrl, .enMask, .ecWrap, .ecCtr] 0 fun t =>
        t.last = okResult 0#32 false ∧ t.regRead .ecPin = pin.setWidth 32 ∧
          t.regRead .ecCtrl = (match pol with | .rising => 0x0#32 | .falling => 0x2#32) ∧
          t.regRead .enMask = s.regRead .enMask &&& 0x2#32 ∧
          t.regRead .ecWrap = 0xFFFF#32 ∧ t.regRead .ecCtr = 0#32) ∧
    (¬ (pin.toNat < s.params.pinCount ∧ pin.toNat % 2 = s.params.edgePinParity) →
      Fails (.ecConfigure pin pol) s 1#8)

/-- EC_RESET zeroes the count and nothing else (41_edge_counter.md R78). Its words are those of the
opcode map, and a word 0 with a nonzero reserved field ends with IllegalCommand (30_encoding.md R52
to R56). -/
def Obligations.EcResetZeroesTheCount : Prop :=
  decode [0x11000000#32] = .command .ecReset 1 ∧
  ReservedIllegal 0x11#8 0x00FFFFFF#32 ∧
  ∀ s : State, Completes .ecReset s [.ecCtr] 0 fun t =>
    t.last = okResult 0#32 false ∧ t.regRead .ecCtr = 0#32

/-- EC_SET_ENABLED and EC_SET_WRAP write EC_CTRL.EN and EC_WRAP and nothing else (41_edge_counter.md
R79, R81). Their words are those of the opcode map, and a word 0 with a nonzero reserved field ends
with IllegalCommand (30_encoding.md R52 to R56). -/
def Obligations.EcSetEnabledAndSetWrapWriteTheirField : Prop :=
  (∀ b : Bool, decode [if b then 0x12000001#32 else 0x12000000#32] = .command (.ecSetEnabled b) 1) ∧
  ReservedIllegal 0x12#8 0x00FFFFFE#32 ∧
  (∀ w : BitVec 16, decode [0x14000000#32 ||| w.setWidth 32] = .command (.ecSetWrap w) 1) ∧
  ReservedIllegal 0x14#8 0x00FF0000#32 ∧
  (∀ (s : State) (b : Bool), Completes (.ecSetEnabled b) s [.ecCtrl, .enMask] 0 fun t =>
    t.last = okResult 0#32 false ∧ t.ec.en = b ∧ t.ec.pol = s.ec.pol ∧ t.gt.en = s.gt.en) ∧
  (∀ (s : State) (w : BitVec 16), Completes (.ecSetWrap w) s [.ecWrap] 0 fun t =>
    t.last = okResult 0#32 false ∧ t.regRead .ecWrap = w.setWidth 32)

/-- EC_READ returns the count and EC_GET_TAG returns 0, and neither changes any state of the block
(41_edge_counter.md R80, R82). Their words are those of the opcode map, and a word 0 with a nonzero
reserved field ends with IllegalCommand (30_encoding.md R52 to R56). -/
def Obligations.EcReadAndGetTagReturnAndChangeNothing : Prop :=
  decode [0x13000000#32] = .command .ecRead 1 ∧
  ReservedIllegal 0x13#8 0x00FFFFFF#32 ∧
  decode [0x15000000#32] = .command .ecGetTag 1 ∧
  ReservedIllegal 0x15#8 0x00FFFFFF#32 ∧
  (∀ s : State, Completes .ecRead s [] 0 fun t =>
    t.last.status = 0#8 ∧ t.last.value.toNat = s.ec.ctr.toNat ∧ t.last.flag = false) ∧
  (∀ s : State, Completes .ecGetTag s [] 0 fun t => t.last = okResult 0#32 false)

/-! ### GateTimer commands (43_gate_timer.md) -/

/-- GT_CONFIGURE derives the mode and the limit from the period and leaves the timer stopped at 0,
counting up; its three failures come in order and change nothing (43_gate_timer.md R92). Its words
are those of the opcode map, and a word 0 with a nonzero reserved field ends with IllegalCommand
(30_encoding.md R52 to R56). -/
def Obligations.GtConfigureDerivesTheGate : Prop :=
  (∀ (pin prescale : BitVec 8) (period : Word),
    decode [0x20000000#32 ||| (prescale.setWidth 32 <<< 8) ||| pin.setWidth 32, period] =
      .command (.gtConfigure pin prescale period) 2) ∧
  ReservedIllegal 0x20#8 0x00FF0000#32 ∧
  ∀ (s : State) (pin prescale : BitVec 8) (period : Word),
    (s.params.pinCount ≤ pin.toNat → Fails (.gtConfigure pin prescale period) s 1#8) ∧
    (pin.toNat < s.params.pinCount → prescale = 0#8 →
      Fails (.gtConfigure pin prescale period) s 6#8) ∧
    (pin.toNat < s.params.pinCount → prescale ≠ 0#8 →
      (period.toNat < prescale.toNat ∨ 131073 * prescale.toNat ≤ period.toNat) →
      Fails (.gtConfigure pin prescale period) s 2#8) ∧
    (pin.toNat < s.params.pinCount → prescale ≠ 0#8 → prescale.toNat ≤ period.toNat →
      period.toNat < 131073 * prescale.toNat →
      Completes (.gtConfigure pin prescale period) s
        [.gtPin, .gtPrescale, .gtCtrl, .enMask, .gtWrap, .gtCtr] 0 fun t =>
        t.last.status = 0#8 ∧ t.last.flag = false ∧ t.gt.pin = pin ∧ t.gt.prescale = prescale ∧
        t.gt.en = false ∧ t.gt.dir = false ∧ t.gt.ctr = 0#16 ∧
        (t.gt.phCorrect = true ↔ 65537 * prescale.toNat ≤ period.toNat) ∧
        (t.gt.phCorrect = false → t.gt.wrap.toNat + 1 = period.toNat / prescale.toNat) ∧
        (t.gt.phCorrect = true → t.gt.wrap.toNat + 1 = period.toNat / prescale.toNat / 2) ∧
        t.last.value.toNat =
          prescale.toNat * (t.gt.wrap.toNat + 1) * (if t.gt.phCorrect then 2 else 1))

/-- The period obtained is at most the period asked for, and falls short of it by less than PRESCALE
cycles in plain mode and by less than 2 × PRESCALE in phase-correct mode; a period is refused
exactly outside 1 to 131072 ticks (43_gate_timer.md R91). -/
def Obligations.DerivedPeriodIsJustBelowTheRequest : Prop :=
  ∀ (prescale period : Nat), 1 ≤ prescale → prescale ≤ 255 →
    (derivePeriod prescale period = none ↔
      period / prescale = 0 ∨ 131072 < period / prescale) ∧
    (∀ ph wrap, derivePeriod prescale period = some (ph, wrap) →
      (ph = true ↔ 65536 < period / prescale) ∧
      wrap.toNat = (if ph then period / prescale / 2 - 1 else period / prescale - 1) ∧
      periodCycles prescale ph wrap ≤ period ∧
      period < periodCycles prescale ph wrap + prescale * (if ph then 2 else 1))

/-- GT_RESET zeroes the count and the direction, GT_SET_ENABLED writes the enable, and neither
changes anything else (43_gate_timer.md R93, R94). Their words are those of the opcode map, and a
word 0 with a nonzero reserved field ends with IllegalCommand (30_encoding.md R52 to R56). -/
def Obligations.GtResetAndSetEnabledWriteTheirFields : Prop :=
  decode [0x21000000#32] = .command .gtReset 1 ∧
  ReservedIllegal 0x21#8 0x00FFFFFF#32 ∧
  (∀ b : Bool, decode [if b then 0x22000001#32 else 0x22000000#32] = .command (.gtSetEnabled b) 1) ∧
  ReservedIllegal 0x22#8 0x00FFFFFE#32 ∧
  (∀ s : State, Completes .gtReset s [.gtCtr, .gtCtrl] 0 fun t =>
    t.last = okResult 0#32 false ∧ t.gt.ctr = 0#16 ∧ t.gt.dir = false ∧ t.gt.en = s.gt.en ∧
      t.gt.phCorrect = s.gt.phCorrect) ∧
  (∀ (s : State) (b : Bool), Completes (.gtSetEnabled b) s [.gtCtrl, .enMask] 0 fun t =>
    t.last = okResult 0#32 false ∧ t.gt.en = b ∧ t.gt.phCorrect = s.gt.phCorrect ∧
      t.gt.dir = s.gt.dir ∧ t.ec.en = s.ec.en)

/-- GT_READ returns the count with DIR as its flag, GT_GET_TAG returns 1, and neither changes any
state of the block (43_gate_timer.md R95, R96). Their words are those of the opcode map, and a word
0 with a nonzero reserved field ends with IllegalCommand (30_encoding.md R52 to R56). -/
def Obligations.GtReadAndGetTagReturnAndChangeNothing : Prop :=
  decode [0x23000000#32] = .command .gtRead 1 ∧
  ReservedIllegal 0x23#8 0x00FFFFFF#32 ∧
  decode [0x24000000#32] = .command .gtGetTag 1 ∧
  ReservedIllegal 0x24#8 0x00FFFFFF#32 ∧
  (∀ s : State, Completes .gtRead s [] 0 fun t =>
    t.last.status = 0#8 ∧ t.last.value.toNat = s.gt.ctr.toNat ∧ t.last.flag = s.gt.dir) ∧
  (∀ s : State, Completes .gtGetTag s [] 0 fun t => t.last = okResult 1#32 false)

/-! ### CounterExtender commands (42_counter_extender.md) -/

/-- CX_INIT binds the channel to the scratch word and the EC's events and makes every edge a
trigger; a channel that does not exist ends with code 6, one another component owns with code 7, in
that order (42_counter_extender.md R84). Its words are those of the opcode map, and a word 0 with a
nonzero reserved field ends with IllegalCommand (30_encoding.md R52 to R56). -/
def Obligations.CxInitBindsTheChannel : Prop :=
  (∀ ch : ChanNo, decode [0x30000000#32 ||| ch.setWidth 32] = .command (.cxInit ch) 1) ∧
  ReservedIllegal 0x30#8 0x00FFFFF0#32 ∧
  ∀ (s : State) (ch : ChanNo),
    (s.params.dmaChannels ≤ ch.toNat → Fails (.cxInit ch) s 6#8) ∧
    (ch.toNat < s.params.dmaChannels →
      (s.gc.bound = true ∧ s.gc.ch = ch) ∨ (s.ts.bound = true ∧ s.ts.ch = ch) →
      Fails (.cxInit ch) s 7#8) ∧
    (ch.toNat < s.params.dmaChannels → ¬ (s.gc.bound = true ∧ s.gc.ch = ch) →
      ¬ (s.ts.bound = true ∧ s.ts.ch = ch) →
      Completes (.cxInit ch) s
        [.ecWrap, .ecCtr, .dma ch .readAddr, .dma ch .writeAddr, .dma ch .ctrl, .bind] 0 fun t =>
        t.last = okResult 0#32 false ∧ t.regRead .ecWrap = 0#32 ∧ t.regRead .ecCtr = 0#32 ∧
        t.regRead (.dma ch .readAddr) = s.params.blockBase + 0x028#32 ∧
        t.regRead (.dma ch .writeAddr) = s.params.blockBase + 0x028#32 ∧
        t.regRead (.dma ch .ctrl) = (s.regRead (.dma ch .ctrl) &&& 0x21000000#32) ||| 0x2#32 ∧
        t.regRead .bind =
          (s.regRead .bind &&& 0xFFFFFFE0#32) ||| 0x10#32 ||| ch.setWidth 32)

/-- CX_START takes its first micro-step, the abort, and leaves the other one in flight; with no other
agent's step between the two, it ends with OK and the channel armed with UINT32_MAX; before CX_INIT it
ends with NotInitialised, code 8 (42_counter_extender.md R85, 20_memory.md R47; log entry 8). Its words
are those of the opcode map, and a word 0 with a nonzero reserved field ends with IllegalCommand
(30_encoding.md R52 to R56). -/
def Obligations.CxStartAbortsAndArmsTheChannel : Prop :=
  decode [0x31000000#32] = .command .cxStart 1 ∧
  ReservedIllegal 0x31#8 0x00FFFFFF#32 ∧
  (∀ s : State, s.cx.bound = false → Fails .cxStart s 8#8) ∧
  (∀ s : State, s.cx.bound = true →
    exec .cxStart s = .next { s.setChan s.cx.ch
      { s.chan s.cx.ch with busy := false, pending := 0, err := false } with
      inFlight := some (.cxArm s.cx.ch) }) ∧
  (∀ s : State, s.cx.bound = true → s.faultMark = none → s.inFlight = none → Quiet 1 s →
    ∃ t u, exec .cxStart s = .next t ∧ State.finish 1 t = .next u ∧
      Frame (channelRegs s.cx.ch) noBytes 1 s u ∧ u.last = okResult 0#32 false ∧
      u.chan s.cx.ch = { s.chan s.cx.ch with
        en := true, busy := true, pending := 0, err := false, count := 0xFFFFFFFF#32
        reload := 0xFFFFFFFF#32 })

/-- CX_VALUE returns UINT32_MAX less the remaining count, its flag says that nothing remains, and it
changes nothing; before CX_INIT it ends with NotInitialised, code 8 (42_counter_extender.md R86).
Its words are those of the opcode map, and a word 0 with a nonzero reserved field ends with
IllegalCommand (30_encoding.md R52 to R56). -/
def Obligations.CxValueReturnsTheExtendedCount : Prop :=
  decode [0x32000000#32] = .command .cxValue 1 ∧
  ReservedIllegal 0x32#8 0x00FFFFFF#32 ∧
  (∀ s : State, s.cx.bound = false → Fails .cxValue s 8#8) ∧
  (∀ s : State, s.cx.bound = true →
    Completes .cxValue s [] 0 fun t =>
      t.last.status = 0#8 ∧
      t.last.value.toNat = 4294967295 - (s.chan s.cx.ch).count.toNat ∧
      (t.last.flag = true ↔ (s.chan s.cx.ch).count.toNat = 0))

/-- CX_STOP clears the channel's enable and nothing else, and CX_VALUE returns what it returned
before, whatever the other agents do in between; before CX_INIT it changes nothing and still returns
OK (42_counter_extender.md R87). Its words are those of the opcode map, and a word 0 with a nonzero
reserved field ends with IllegalCommand (30_encoding.md R52 to R56). -/
def Obligations.CxStopPausesTheChannel : Prop :=
  decode [0x33000000#32] = .command .cxStop 1 ∧
  ReservedIllegal 0x33#8 0x00FFFFFF#32 ∧
  (∀ s : State, s.cx.bound = false → Completes .cxStop s [] 0 fun t =>
    t.last = okResult 0#32 false) ∧
  (∀ s : State, s.cx.bound = true →
    Completes .cxStop s [.dma s.cx.ch .ctrl] 0 fun t =>
      t.last = okResult 0#32 false ∧ t.chan s.cx.ch = { s.chan s.cx.ch with en := false } ∧
      (s.params.Legal → ∀ ts, AgentsOnly ts →
        ∃ u w, exec .cxValue s = .next u ∧ exec .cxValue (State.runTurns ts t) = .next w ∧
          w.last = u.last))

/-! ### GateController commands (44_gate_controller.md) -/

/-- GC_INIT captures EC_CTRL with EN cleared, binds the channel to the timer's expiry with one
transfer from the stop value to EC_CTRL, and arms the state; its two failures come in order
(44_gate_controller.md R99). Its words are those of the opcode map, and a word 0 with a nonzero
reserved field ends with IllegalCommand (30_encoding.md R52 to R56). -/
def Obligations.GcInitCapturesTheStopValue : Prop :=
  (∀ ch : ChanNo, decode [0x40000000#32 ||| ch.setWidth 32] = .command (.gcInit ch) 1) ∧
  ReservedIllegal 0x40#8 0x00FFFFF0#32 ∧
  ∀ (s : State) (ch : ChanNo),
    (s.params.dmaChannels ≤ ch.toNat → Fails (.gcInit ch) s 6#8) ∧
    (ch.toNat < s.params.dmaChannels →
      (s.cx.bound = true ∧ s.cx.ch = ch) ∨ (s.ts.bound = true ∧ s.ts.ch = ch) →
      Fails (.gcInit ch) s 7#8) ∧
    (ch.toNat < s.params.dmaChannels → ¬ (s.cx.bound = true ∧ s.cx.ch = ch) →
      ¬ (s.ts.bound = true ∧ s.ts.ch = ch) →
      Completes (.gcInit ch) s
        [.gcStopval, .dma ch .readAddr, .dma ch .writeAddr, .dma ch .ctrl, .dma ch .reload, .bind,
          .gcState] 0 fun t =>
        t.last = okResult 0#32 false ∧
        t.regRead .gcStopval = s.regRead .ecCtrl &&& 0xFFFFFFFE#32 ∧
        t.regRead (.dma ch .readAddr) = s.params.blockBase + 0x02C#32 ∧
        t.regRead (.dma ch .writeAddr) = s.params.blockBase ∧
        t.regRead (.dma ch .ctrl) = (s.regRead (.dma ch .ctrl) &&& 0x21000000#32) ||| 0x12#32 ∧
        t.regRead (.dma ch .reload) = 1#32 ∧ t.regRead .gcState = 1#32 ∧
        t.regRead .bind =
          (s.regRead .bind &&& 0xFFFFE0FF#32) ||| 0x1000#32 ||| (ch.setWidth 32 <<< 8))

/-- GC_START takes its first micro-step, which stops both counters, and leaves the others in flight; with
no other agent's step between its five micro-steps it aborts and arms the gate channel with one
transfer, zeroes both counters, the tally and the sample, and ends with OK, both enables 1 and the state
Running; before GC_INIT it ends with NotInitialised, code 8 (44_gate_controller.md R100, 20_memory.md
R47; log entry 8). Its words are those of the opcode map, and a word 0 with a nonzero reserved field
ends with IllegalCommand (30_encoding.md R52 to R56). -/
def Obligations.GcStartOpensTheGate : Prop :=
  decode [0x41000000#32] = .command .gcStart 1 ∧
  ReservedIllegal 0x41#8 0x00FFFFFF#32 ∧
  (∀ s : State, s.gcState = .idle → Fails .gcStart s 8#8) ∧
  (∀ s : State, s.gcState ≠ .idle →
    exec .gcStart s = .next { s with
      ec := { s.ec with en := false }, gt := { s.gt with en := false }
      inFlight := some (.gcAbort s.gc.ch) }) ∧
  (∀ s : State, s.gcState ≠ .idle → s.faultMark = none → s.inFlight = none → Quiet 4 s →
    ∃ t u, exec .gcStart s = .next t ∧ State.finish 4 t = .next u ∧
      Frame (channelRegs s.gc.ch ++
        [.ecCtrl, .gtCtrl, .enMask, .ecCtr, .gtCtr, .gcPrevSample, .gcOvfTally, .gcState])
        noBytes 4 s u ∧
      u.last = okResult 0#32 false ∧
      u.chan s.gc.ch = { s.chan s.gc.ch with
        en := true, busy := true, pending := 0, err := false, count := 1#32, reload := 1#32 } ∧
      u.ec = { s.ec with en := true, ctr := 0#16 } ∧
      u.gt = { s.gt with en := true, ctr := 0#16, dir := false } ∧
      u.regRead .gcPrevSample = 0#32 ∧ u.regRead .gcOvfTally = 0#32 ∧ u.regRead .gcState = 2#32)

/-- GC_IS_BUSY returns the channel's BUSY and moves Running to Expired when it is 0; before GC_INIT
it ends with NotInitialised, code 8 (44_gate_controller.md R101). Its words are those of the opcode
map, and a word 0 with a nonzero reserved field ends with IllegalCommand (30_encoding.md R52 to
R56). -/
def Obligations.GcIsBusyPollsTheGateChannel : Prop :=
  decode [0x42000000#32] = .command .gcIsBusy 1 ∧
  ReservedIllegal 0x42#8 0x00FFFFFF#32 ∧
  (∀ s : State, s.gcState = .idle → Fails .gcIsBusy s 8#8) ∧
  (∀ s : State, s.gcState ≠ .idle →
    Completes .gcIsBusy s [.gcState] 0 fun t =>
      t.last.status = 0#8 ∧ t.last.flag = false ∧
      t.last.value = (if (s.chan s.gc.ch).busy then 1#32 else 0#32) ∧
      t.regRead .gcState =
        (if (s.chan s.gc.ch).busy = false ∧ s.regRead .gcState = 2#32 then 3#32
          else s.regRead .gcState))

/-- GC_READ returns the count, its flag says that the state is Expired, and it changes nothing;
before GC_INIT it ends with NotInitialised, code 8 (44_gate_controller.md R102). Its words are those
of the opcode map, and a word 0 with a nonzero reserved field ends with IllegalCommand
(30_encoding.md R52 to R56). -/
def Obligations.GcReadReturnsTheGatedCount : Prop :=
  decode [0x43000000#32] = .command .gcRead 1 ∧
  ReservedIllegal 0x43#8 0x00FFFFFF#32 ∧
  (∀ s : State, s.gcState = .idle → Fails .gcRead s 8#8) ∧
  (∀ s : State, s.gcState ≠ .idle →
    Completes .gcRead s [] 0 fun t =>
      t.last.status = 0#8 ∧ t.last.value.toNat = s.ec.ctr.toNat ∧
      (t.last.flag = true ↔ s.regRead .gcState = 3#32))

/-- GC_POLL_OVERFLOW adds one to the tally, saturating, when the count is below the previous sample,
keeps the count as the sample, and returns the tally with the hint; before GC_INIT it ends with
NotInitialised, code 8 (44_gate_controller.md R103). Its words are those of the opcode map, and a
word 0 with a nonzero reserved field ends with IllegalCommand (30_encoding.md R52 to R56). -/
def Obligations.GcPollOverflowSamplesTheCount : Prop :=
  decode [0x44000000#32] = .command .gcPollOverflow 1 ∧
  ReservedIllegal 0x44#8 0x00FFFFFF#32 ∧
  (∀ s : State, s.gcState = .idle → Fails .gcPollOverflow s 8#8) ∧
  (∀ s : State, s.gcState ≠ .idle →
    Completes .gcPollOverflow s [.gcOvfTally, .gcPrevSample] 0 fun t =>
      t.regRead .gcPrevSample = s.regRead .ecCtr ∧
      (t.regRead .gcOvfTally).toNat =
        (if s.ec.ctr.toNat < s.gcPrevSample.toNat then min (s.gcOvfTally.toNat + 1) 4294967295
          else s.gcOvfTally.toNat) ∧
      t.last.status = 0#8 ∧ t.last.value = t.regRead .gcOvfTally ∧
      (t.last.flag = true ↔ 0 < (t.regRead .gcOvfTally).toNat))

/-- GC_INIT, the last micro-step of GC_START and GC_IS_BUSY make their transitions, and in a step of the
machine nothing else changes GC_STATE; the last micro-step of GC_START is never taken in Idle
(44_gate_controller.md R98, R100; that a command in flight is a micro-step of its own is log entry
8). -/
def Obligations.OnlyTheTableChangesGcState : Prop :=
  (∀ (s t : State) (ch : ChanNo), exec (.gcInit ch) s = .next t → t.last.status = 0#8 →
    t.gcState = .armed) ∧
  (∀ s : State, s.faultMark = none → Quiet 1 s → s.inFlight = some .gcEnable →
    ∃ t, step s = .next t ∧ t.gcState = .running ∧ t.inFlight = none ∧
      t.last = okResult 0#32 false) ∧
  (∀ s t : State, s.gcState = .running → (s.chan s.gc.ch).busy = false →
    exec .gcIsBusy s = .next t → t.gcState = .expired) ∧
  (∀ s t : State, step s = .next t → t.gcState ≠ s.gcState →
    (s.inFlight = some .gcEnable ∧ t.gcState = .running ∧ (StateOk s → s.gcState ≠ .idle)) ∨
    (s.inFlight = none ∧ ∃ ws i n, s.fetch = some (.command ws) ∧ decode ws = .command i n ∧
      ((∃ ch, i = .gcInit ch ∧ t.gcState = .armed) ∨
        (i = .gcIsBusy ∧ s.gcState = .running ∧ (s.chan s.gc.ch).busy = false ∧
          t.gcState = .expired))))

/-! ### EdgeTimestampCapture commands (45_timestamp_capture.md) -/

/-- TS_INIT makes every edge a trigger and binds a channel that copies the clock into the buffer;
its three failures come in order (45_timestamp_capture.md R106). Its words are those of the opcode
map, and a word 0 with a nonzero reserved field ends with IllegalCommand (30_encoding.md R52 to
R56). -/
def Obligations.TsInitBindsTheBuffer : Prop :=
  (∀ (ch : ChanNo) (base cap : Word),
    decode [0x50000000#32 ||| ch.setWidth 32, base, cap] = .command (.tsInit ch base cap) 3) ∧
  ReservedIllegal 0x50#8 0x00FFFFF0#32 ∧
  ∀ (s : State) (ch : ChanNo) (base cap : Word),
    (s.params.dmaChannels ≤ ch.toNat → Fails (.tsInit ch base cap) s 6#8) ∧
    (ch.toNat < s.params.dmaChannels →
      (s.cx.bound = true ∧ s.cx.ch = ch) ∨ (s.gc.bound = true ∧ s.gc.ch = ch) →
      Fails (.tsInit ch base cap) s 7#8) ∧
    (ch.toNat < s.params.dmaChannels → ¬ (s.cx.bound = true ∧ s.cx.ch = ch) →
      ¬ (s.gc.bound = true ∧ s.gc.ch = ch) →
      (cap = 0#32 ∨ base.toNat % 4 ≠ 0 ∨ base.toNat < s.params.ramBase.toNat ∨
        s.params.ramBase.toNat + s.params.ramSize < base.toNat + 4 * cap.toNat) →
      Fails (.tsInit ch base cap) s 6#8) ∧
    (ch.toNat < s.params.dmaChannels → ¬ (s.cx.bound = true ∧ s.cx.ch = ch) →
      ¬ (s.gc.bound = true ∧ s.gc.ch = ch) →
      cap ≠ 0#32 → base.toNat % 4 = 0 → s.params.ramBase.toNat ≤ base.toNat →
      base.toNat + 4 * cap.toNat ≤ s.params.ramBase.toNat + s.params.ramSize →
      Completes (.tsInit ch base cap) s
        [.ecWrap, .dma ch .readAddr, .dma ch .writeAddr, .dma ch .ctrl, .dma ch .reload, .tsBase,
          .tsCapacity, .bind] 0 fun t =>
        t.last = okResult 0#32 false ∧ t.regRead .ecWrap = 0#32 ∧
        t.regRead (.dma ch .readAddr) = s.params.clockAddr ∧
        t.regRead (.dma ch .writeAddr) = base ∧
        t.regRead (.dma ch .ctrl) = (s.regRead (.dma ch .ctrl) &&& 0x21000000#32) ||| 0xA#32 ∧
        t.regRead (.dma ch .reload) = cap ∧ t.regRead .tsBase = base ∧
        t.regRead .tsCapacity = cap ∧
        t.regRead .bind =
          (s.regRead .bind &&& 0xFFE0FFFF#32) ||| 0x100000#32 ||| (ch.setWidth 32 <<< 16))

/-- TS_START takes its first micro-step, the zeroing of the first slot, and leaves the others in flight;
with no other agent's step between its micro-steps it zeroes the buffer and the count, aborts and
re-arms the channel at the buffer's base, enables the counter and ends with OK; before TS_INIT it ends
with NotInitialised, code 8 (45_timestamp_capture.md R107, 20_memory.md R47; log entry 8). Its words are
those of the opcode map, and a word 0 with a nonzero reserved field ends with IllegalCommand
(30_encoding.md R52 to R56). -/
def Obligations.TsStartZeroesAndArmsTheBuffer : Prop :=
  decode [0x51000000#32] = .command .tsStart 1 ∧
  ReservedIllegal 0x51#8 0x00FFFFFF#32 ∧
  (∀ s : State, s.ts.bound = false → Fails .tsStart s 8#8) ∧
  (∀ s : State, s.ts.bound = true → StateOk s →
    ∃ t, exec .tsStart s = .next t ∧ t = { s with mem := t.mem, inFlight := t.inFlight } ∧
      t.inFlight ≠ none ∧
      (∀ a, t.mem.read a =
        if s.tsBase.toNat ≤ a ∧ a < s.tsBase.toNat + 4 then 0#8 else s.mem.read a)) ∧
  (∀ s : State, s.ts.bound = true → s.faultMark = none → s.inFlight = none → StateOk s →
    Quiet (s.tsCapacity.toNat + 3) s →
    ∃ t u, exec .tsStart s = .next t ∧ State.finish (s.tsCapacity.toNat + 3) t = .next u ∧
      Frame (channelRegs s.ts.ch ++ [.ecCtr, .ecCtrl, .enMask])
        (bufferBytes s.tsBase s.tsCapacity) (s.tsCapacity.toNat + 3) s u ∧
      u.last = okResult 0#32 false ∧
      (∀ a, bufferBytes s.tsBase s.tsCapacity a → u.mem.read a = 0#8) ∧
      u.chan s.ts.ch = { s.chan s.ts.ch with
        writeAddr := s.tsBase, en := true, busy := true, pending := 0, err := false
        count := s.tsCapacity, reload := s.tsCapacity } ∧
      u.ec = { s.ec with ctr := 0#16, en := true } ∧ u.gt.en = s.gt.en)

/-- TS_STOP clears EC_CTRL.EN and touches no DMA state; before TS_INIT it changes nothing and still
returns OK (45_timestamp_capture.md R108). Its words are those of the opcode map, and a word 0 with
a nonzero reserved field ends with IllegalCommand (30_encoding.md R52 to R56). -/
def Obligations.TsStopDisablesTheCounter : Prop :=
  decode [0x52000000#32] = .command .tsStop 1 ∧
  ReservedIllegal 0x52#8 0x00FFFFFF#32 ∧
  (∀ s : State, s.ts.bound = false → Completes .tsStop s [] 0 fun t =>
    t.last = okResult 0#32 false) ∧
  (∀ s : State, s.ts.bound = true → Completes .tsStop s [.ecCtrl, .enMask] 0 fun t =>
    t.last = okResult 0#32 false ∧ t.ec = { s.ec with en := false } ∧ t.gt.en = s.gt.en ∧
      t.dma = s.dma)

/-- TS_CAPTURED returns the capacity less the remaining count, or 0 when more than the capacity
remains, and changes nothing; before TS_INIT it ends with NotInitialised, code 8
(45_timestamp_capture.md R109). Its words are those of the opcode map, and a word 0 with a nonzero
reserved field ends with IllegalCommand (30_encoding.md R52 to R56). -/
def Obligations.TsCapturedReturnsTheSlotsWritten : Prop :=
  decode [0x53000000#32] = .command .tsCaptured 1 ∧
  ReservedIllegal 0x53#8 0x00FFFFFF#32 ∧
  (∀ s : State, s.ts.bound = false → Fails .tsCaptured s 8#8) ∧
  (∀ s : State, s.ts.bound = true → Completes .tsCaptured s [] 0 fun t =>
    t.last.status = 0#8 ∧ t.last.flag = false ∧
    t.last.value.toNat = s.tsCapacity.toNat - (s.chan s.ts.ch).count.toNat)

/-- TS_PERIOD returns the mean of the captured intervals, each modulo 2^32, rounded down, and its
flag says that their sum is not zero; fewer than two captures end with InsufficientSamplesError,
code 3, and before TS_INIT NotInitialised, code 8; it changes nothing (45_timestamp_capture.md
R110). Its words are those of the opcode map, and a word 0 with a nonzero reserved field ends with
IllegalCommand (30_encoding.md R52 to R56). -/
def Obligations.TsPeriodReturnsTheMeanInterval : Prop :=
  decode [0x54000000#32] = .command .tsPeriod 1 ∧
  ReservedIllegal 0x54#8 0x00FFFFFF#32 ∧
  (∀ s : State, s.ts.bound = false → Fails .tsPeriod s 8#8) ∧
  (∀ s : State, s.ts.bound = true →
    s.tsCapacity.toNat < (s.chan s.ts.ch).count.toNat + 2 → Fails .tsPeriod s 3#8) ∧
  (∀ (s : State) (c sum : Nat), s.ts.bound = true → StateOk s →
    c = s.tsCapacity.toNat - (s.chan s.ts.ch).count.toNat → 2 ≤ c →
    sum = ∑ i ∈ Finset.range (c - 1),
      ((s.mem.read32 (s.tsBase.toNat + 4 * (i + 1))).toNat + 2 ^ 32 -
        (s.mem.read32 (s.tsBase.toNat + 4 * i)).toNat) % 2 ^ 32 →
    Completes .tsPeriod s [] 0 fun t =>
      t.last.status = 0#8 ∧ t.last.value.toNat = sum / (c - 1) ∧ (t.last.flag = true ↔ 0 < sum))

/-! ### Errors (60_exceptions.md) -/

/-- A command that fails has changed nothing but the result record, whose value and flag are 0, and
its status is one of the codes a command can return (60_exceptions.md R114, R118). A command that has
taken its first micro-step and has others left has written no result record, and the micro-step that
ends it ends it with OK: that the record comes with the last micro-step is log entry 8. -/
def Obligations.FailedCommandsChangeNothing : Prop :=
  (∀ (i : Instr) (s t : State), s.inFlight = none → exec i s = .next t →
    (t.inFlight = none → t.last.status ∈ [0#8, 1#8, 2#8, 3#8, 6#8, 7#8, 8#8, 9#8] ∧
      (t.last.status ≠ 0#8 → t = { s with last := ⟨t.last.status, 0#32, false⟩ })) ∧
    (t.inFlight ≠ none → t.last = s.last)) ∧
  (∀ (s t : State), s.inFlight ≠ none → step s = .next t →
    (t.inFlight ≠ none → t.last = s.last) ∧ (t.inFlight = none → t.last = okResult 0#32 false))

/-- Every command answers a next state, in every state of the block: no command ends in a fault or a
refusal. For a start command that is the state after its first micro-step, with the others left in
flight (60_exceptions.md R114, R116, 20_memory.md R47; log entry 8). A start command that a model fault
then stops stays in flight and writes no result record, which is the model's choice, log entry 14, and
not R114's. -/
def Obligations.EveryCommandAnswersANextState : Prop :=
  ∀ (i : Instr) (s : State), ∃ t, exec i s = .next t

/-! ### The agents -/

/-- An edge toggles its pin's level and no other; the EdgeCounter counts it exactly when the pin is
the configured one, counting is enabled and the direction is the selected one; at the wrap limit the
count returns to 0 and the EC event reaches the channels (41_edge_counter.md R75, R76). That the step
which raises the fault DreqOverrun changes nothing but the fault mark is the model's choice, log entry
14. -/
def Obligations.EdgeTogglesAndCounts : Prop :=
  ∀ (s t : State) (p : BitVec 8) (acc : BitVec 16) (counted : Prop),
    p.toNat < s.params.pinCount → t = s.agentStep (.edge p acc) →
    (counted ↔ p = s.ec.pin ∧ s.ec.en = true ∧
      ((s.level p = false ∧ s.ec.pol = .rising) ∨ (s.level p = true ∧ s.ec.pol = .falling))) →
    (¬ (counted ∧ s.ec.ctr = s.ec.wrap ∧ WouldOverrun 0#6 acc s) →
      t.level p = !(s.level p) ∧ (∀ q, q ≠ p → t.level q = s.level q) ∧
      t = { s with levels := t.levels, ec := t.ec, dma := t.dma }) ∧
    (¬ counted → t.ec = s.ec ∧ t.dma = s.dma) ∧
    (counted → s.ec.ctr ≠ s.ec.wrap →
      t.ec = { s.ec with ctr := s.ec.ctr + 1#16 } ∧ t.dma = s.dma) ∧
    (counted → s.ec.ctr = s.ec.wrap → ¬ WouldOverrun 0#6 acc s →
      t.ec = { s.ec with ctr := 0#16 } ∧ Delivered 0#6 acc s t) ∧
    (counted → s.ec.ctr = s.ec.wrap → WouldOverrun 0#6 acc s →
      t = { s with faultMark := some .dreqOverrun })

/-- The GateTimer's tick is enabled exactly when EN is 1; one tick in plain and in phase-correct
mode, and the expiry event it emits (43_gate_timer.md R89). That the step which raises the fault
DreqOverrun changes nothing but the fault mark is the model's choice, log entry 14. -/
def Obligations.GateTimerTicks : Prop :=
  (∀ (s : State) (acc : BitVec 16), s.agentEnabled (.tick acc) = s.gt.en) ∧
  ∀ (s t : State) (acc : BitVec 16) (g : GateTimer) (expiry : Prop),
    g = s.gt → s.gt.en = true → t = s.agentStep (.tick acc) →
    (expiry ↔ (g.phCorrect = false ∧ g.ctr = g.wrap) ∨
      (g.phCorrect = true ∧ g.dir = true ∧ g.ctr = 0#16)) →
    (expiry → WouldOverrun 1#6 acc s → t = { s with faultMark := some .dreqOverrun }) ∧
    (expiry → ¬ WouldOverrun 1#6 acc s →
      Delivered 1#6 acc s t ∧ t = { s with gt := t.gt, dma := t.dma }) ∧
    (¬ expiry → t = { s with gt := t.gt }) ∧
    (¬ (expiry ∧ WouldOverrun 1#6 acc s) →
      (g.phCorrect = false → g.ctr = g.wrap → t.gt = { g with ctr := 0#16 }) ∧
      (g.phCorrect = false → g.ctr ≠ g.wrap → t.gt = { g with ctr := g.ctr + 1#16 }) ∧
      (g.phCorrect = true → g.dir = false → g.ctr = g.wrap → t.gt = { g with dir := true }) ∧
      (g.phCorrect = true → g.dir = false → g.ctr ≠ g.wrap →
        t.gt = { g with ctr := g.ctr + 1#16 }) ∧
      (g.phCorrect = true → g.dir = true → g.ctr = 0#16 → t.gt = { g with dir := false }) ∧
      (g.phCorrect = true → g.dir = true → g.ctr ≠ 0#16 → t.gt = { g with ctr := g.ctr - 1#16 }))

/-- From CTR = 0 and DIR = 0, tick `n`, counting from 1, emits an expiry event exactly when `(WRAP +
1) × (PH_CORRECT + 1)` divides `n`; in input-clock cycles the period is PRESCALE times that
(43_gate_timer.md R90). -/
def Obligations.ExpiryComesEveryPeriod : Prop :=
  ∀ (g : GateTimer) (period : Nat), g.ctr = 0#16 → g.dir = false →
    period = (g.wrap.toNat + 1) * (if g.phCorrect then 2 else 1) →
    (∀ n, (GateTimer.tick^[n] g).expires = true ↔ period ∣ n + 1) ∧
    g.gatePeriodCycles = g.prescale.toNat * period

/-- From any of its register values a GateTimer expires within 2^18 ticks (60_exceptions.md R130).
-/
def Obligations.EveryGateTimerExpiresWithinBound : Prop :=
  ∀ g : GateTimer, ∃ n, n < 2 ^ 18 ∧ (GateTimer.tick^[n] g).expires = true

/-- An event adds one request to each channel that accepts it and changes nothing else, or is the
fault DreqOverrun where such a channel is full; a paused channel may accept it or not, and both are
admitted; an idle channel loses it (40_bus_dma.md R68). -/
def Obligations.EventsReachTheirChannels : Prop :=
  (∀ (s : State) (tag : BitVec 6) (acc : BitVec 16),
    (WouldOverrun tag acc s → s.emit tag acc = .error .dreqOverrun) ∧
    (¬ WouldOverrun tag acc s →
      ∃ t, s.emit tag acc = .ok t ∧ Delivered tag acc s t ∧ t = { s with dma := t.dma })) ∧
  (∀ (s : State) (ch : ChanNo) (tag : BitVec 6), ch.toNat < s.params.dmaChannels →
    (s.chan ch).treq = tag → (s.chan ch).busy = true → (s.chan ch).en = false →
    s.params.pendingLimit = none →
    (∃ acc t, s.emit tag acc = .ok t ∧ (t.chan ch).pending = (s.chan ch).pending + 1) ∧
    (∃ acc t, s.emit tag acc = .ok t ∧ t.chan ch = s.chan ch)) ∧
  (∀ (s t : State) (ch : ChanNo) (tag : BitVec 6) (acc : BitVec 16), s.emit tag acc = .ok t →
    ((s.chan ch).busy = false ∨ (s.chan ch).treq ≠ tag) → t.chan ch = s.chan ch)

/-- A channel's transfer is enabled exactly when EN, BUSY and a pending request are there. One
transfer of an enabled channel, whose COUNT is not 0 while it is busy: into a DMA register it is the
fault DmaRegisterTarget; with an access that is not ok it sets ERR and ends the sequence with neither
read nor write; otherwise it moves the value and updates the addresses, COUNT, PENDING and BUSY. A
32-bit transfer moves what a BUS_RD of the source returns, as a BUS_WR of the destination would; an
8-bit transfer stores the source's byte at the destination, and no other byte of RAM changes
(40_bus_dma.md R69, R70, 20_memory.md R38 to R40). That the step which raises the fault changes nothing
but the fault mark is the model's choice, log entry 14. -/
def Obligations.TransferServesOneRequest : Prop :=
  (∀ (s : State) (ch : ChanNo), s.agentEnabled (.transfer ch) = true ↔
    ch.toNat < s.params.dmaChannels ∧ (s.chan ch).en = true ∧ (s.chan ch).busy = true ∧
      0 < (s.chan ch).pending) ∧
  ∀ (s : State) (ch : ChanNo) (c : DmaChannel) (z : Size) (intoDma : Prop), c = s.chan ch →
    s.params.Legal → s.mem.wf = true → c.count ≠ 0#32 →
    s.agentEnabled (.transfer ch) = true →
    z = (if c.size then Size.word else Size.byte) →
    (intoDma ↔ c.writeAddr.toNat = s.params.blockBase.toNat + 0x03C ∨
      (s.params.blockBase.toNat + 0x100 ≤ c.writeAddr.toNat ∧
        c.writeAddr.toNat ≤ s.params.blockBase.toNat + 0xFFF)) →
    (intoDma → s.agentStep (.transfer ch) = { s with faultMark := some .dmaRegisterTarget }) ∧
    (¬ intoDma →
      s.params.accessOk c.readAddr z = false ∨ s.params.accessOk c.writeAddr z = false →
      s.agentStep (.transfer ch) =
        s.setChan ch { c with err := true, busy := false, pending := 0 }) ∧
    (¬ intoDma → s.params.accessOk c.readAddr z = true → s.params.accessOk c.writeAddr z = true →
      ∃ v u, s.memRead c.readAddr z = some v ∧ s.memWrite c.writeAddr z v = some u ∧
        s.agentStep (.transfer ch) = u.setChan ch { c with
          readAddr := c.readAddr + (if c.incrRead then BitVec.ofNat 32 z.bytes else 0#32)
          writeAddr := c.writeAddr + (if c.incrWrite then BitVec.ofNat 32 z.bytes else 0#32)
          count := c.count - 1#32
          pending := if c.count = 1#32 then 0 else c.pending - 1
          busy := if c.count = 1#32 then false else true } ∧
        (∀ d, u.chan d = s.chan d) ∧
        (z = .word →
          exec (.busRd c.readAddr) s = .next { s with last := okResult v false } ∧
          exec (.busWr c.writeAddr v) s = .next { u with last := okResult 0#32 false }) ∧
        (z = .byte → u = { s with mem := u.mem } ∧
          ∀ a, u.mem.read a =
            if a = c.writeAddr.toNat then s.mem.read c.readAddr.toNat else s.mem.read a))

/-- The clock step adds 1 to CLOCK modulo 2^32 and changes nothing else; no other agent's step, no
command and no micro-step changes CLOCK, so a step of the machine whose turn is not the clock's keeps it
(40_bus_dma.md R72). -/
def Obligations.OnlyTheClockStepChangesTheClock : Prop :=
  (∀ s : State, ∃ t, s.agentStep .clock = t ∧ t.clock.toNat = (s.clock.toNat + 1) % 2 ^ 32 ∧
    t = { s with clock := t.clock }) ∧
  (∀ (s : State) (a : Turn), a ≠ .clock → (s.agentStep a).clock = s.clock) ∧
  (∀ (i : Instr) (s t : State), exec i s = .next t → t.clock = s.clock) ∧
  (∀ (s : State) (m : InFlight), (s.microStep m).clock = s.clock) ∧
  (∀ s t : State, s.schedule.head? ≠ some .clock → step s = .next t → t.clock = s.clock)

/-! ### The laws of the three modes -/

/-- Take a channel bound and enabled as CX_INIT and CX_START leave it, with `c` transfers left, and
any run of the other agents without a model fault in which the EC emits `n` events and no accepted
request is left unserved. Then CX_VALUE returns UINT32_MAX - `c` + `n` up to `n` = `c`, with its
flag exactly at `n` = `c`, and UINT32_MAX with the flag for every larger `n`. With `c` = UINT32_MAX,
as CX_START leaves it, it returns `n`: the extension law, for runs with no command among the turns
(42_counter_extender.md R88). -/
def Obligations.ExtendedCountIsTheNumberOfEvents : Prop :=
  ∀ (s t : State) (ch : ChanNo) (ts : List Turn) (c n : Nat), s.params.Legal →
    s.params.hasChannel ch = true → s.cx = ⟨ch, true⟩ →
    (s.chan ch).en = true → (s.chan ch).busy = true → (s.chan ch).count.toNat = c → 1 ≤ c →
    (s.chan ch).pending = 0 → (s.chan ch).treq = 0#6 → (s.chan ch).size = true →
    (s.chan ch).incrRead = false → (s.chan ch).incrWrite = false →
    (s.chan ch).readAddr = s.params.regAddr .cxScratch →
    (s.chan ch).writeAddr = s.params.regAddr .cxScratch →
    AgentsOnly ts → t = State.runTurns ts s → t.faultMark = none →
    n = countTurns State.emitsEc ts s → (t.chan ch).pending = 0 →
    (n ≤ c → exec .cxValue t =
      .next { t with last := okResult (BitVec.ofNat 32 (4294967295 - c + n)) (n == c) }) ∧
    (c ≤ n → exec .cxValue t = .next { t with last := okResult 0xFFFFFFFF#32 true })

/-- Take a gate as GC_START's last step leaves it, with EC_WRAP = 0xFFFF and no other channel in
flight, and any run of the other agents without a model fault. Before the period's last tick the
gate channel holds no request and the counter runs. Once the period has passed, the channel's next
transfer writes the stop value and so stops the counter; the count is then the number of edges
counted up to that transfer modulo 65536, and no later turn changes it: the gate law, for runs with no
command among the turns and no other channel busy (44_gate_controller.md R104). -/
def Obligations.GateCountsTheEdgesOfOnePeriod : Prop :=
  ∀ (s : State) (gc : ChanNo) (period : Nat), s.params.Legal → s.params.hasChannel gc = true →
    (s.chan gc).en = true → (s.chan gc).busy = true → (s.chan gc).count = 1#32 →
    (s.chan gc).pending = 0 → (s.chan gc).treq = 1#6 → (s.chan gc).size = true →
    (s.chan gc).incrRead = false → (s.chan gc).incrWrite = false →
    (s.chan gc).readAddr = s.params.regAddr .gcStopval →
    (s.chan gc).writeAddr = s.params.regAddr .ecCtrl →
    s.gcStopval.getLsbD 0 = false → s.gt.en = true → s.gt.ctr = 0#16 → s.gt.dir = false →
    s.ec.en = true → s.ec.ctr = 0#16 → s.ec.wrap = 0xFFFF#16 →
    (∀ d, d ≠ gc → (s.chan d).busy = false) →
    period = (s.gt.wrap.toNat + 1) * (if s.gt.phCorrect then 2 else 1) →
    (∀ (pre : List Turn) (t : State), AgentsOnly pre → t = State.runTurns pre s →
      t.faultMark = none → countTurns State.ticks pre s < period →
      (t.chan gc).busy = true ∧ (t.chan gc).pending = 0 ∧ t.ec.en = true ∧
        t.ec.ctr = BitVec.ofNat 16 (countTurns State.countsEdge pre s)) ∧
    (∀ (pre post : List Turn) (t u : State), AgentsOnly pre → AgentsOnly post →
      Turn.transfer gc ∉ pre → u = State.runTurns pre s → period ≤ countTurns State.ticks pre s →
      t = State.runTurns (pre ++ Turn.transfer gc :: post) s → t.faultMark = none →
      1 ≤ (u.chan gc).pending ∧ (t.chan gc).busy = false ∧ t.ec.en = false ∧
        t.ec.pol = Polarity.ofBit (s.gcStopval.getLsbD 1) ∧
        t.ec.ctr = BitVec.ofNat 16 (countTurns State.countsEdge pre s))

/-- Take a capture as TS_START's re-arm step leaves it, with EC_WRAP = 0, EC_CTR = 0, a zeroed
buffer and no other channel in flight, and any run of the other agents without a model fault. The
slots hold the clock values of the transfers in order, the later slots still 0; COUNT and
TS_CAPTURED count them; at the capacity the channel is idle and nothing more is written; each
transfer serves one counted edge: the capture law, for runs with no command among the turns and no
other channel busy (45_timestamp_capture.md R112). -/
def Obligations.CaptureHoldsTheClockOfEachTransfer : Prop :=
  ∀ (s t : State) (ch : ChanNo) (ts : List Turn) (clocks : List Word), s.params.Legal →
    s.mem.wf = true → s.params.hasChannel ch = true → s.ts = ⟨ch, true⟩ →
    s.params.bufferOk s.tsBase s.tsCapacity = true →
    (s.chan ch).en = true → (s.chan ch).busy = true → (s.chan ch).count = s.tsCapacity →
    (s.chan ch).pending = 0 → (s.chan ch).treq = 0#6 → (s.chan ch).size = true →
    (s.chan ch).incrRead = false → (s.chan ch).incrWrite = true →
    (s.chan ch).readAddr = s.params.clockAddr → (s.chan ch).writeAddr = s.tsBase →
    (∀ a, bufferBytes s.tsBase s.tsCapacity a → s.mem.read a = 0#8) →
    s.ec.wrap = 0#16 → s.ec.ctr = 0#16 → (∀ d, d ≠ ch → (s.chan d).busy = false) →
    AgentsOnly ts → t = State.runTurns ts s → t.faultMark = none →
    clocks = transferClocks ch ts s →
    clocks.length ≤ s.tsCapacity.toNat ∧
    (t.chan ch).count.toNat = s.tsCapacity.toNat - clocks.length ∧
    exec .tsCaptured t = .next { t with last := okResult (BitVec.ofNat 32 clocks.length) false } ∧
    (∀ i, i < clocks.length → clocks[i]? = some (t.mem.read32 (s.tsBase.toNat + 4 * i))) ∧
    (∀ i, clocks.length ≤ i → i < s.tsCapacity.toNat →
      t.mem.read32 (s.tsBase.toNat + 4 * i) = 0#32) ∧
    (clocks.length = s.tsCapacity.toNat ↔ (t.chan ch).busy = false) ∧
    ((t.chan ch).busy = true →
      clocks.length + (t.chan ch).pending = countTurns State.countsEdge ts s)

/-! ### Start commands with other agents between their micro-steps -/

/-- However the other agents' steps fall between the micro-steps of a start command, the command ends with
OK, or a model fault stops the machine. CX_START leaves its channel armed afresh. GC_START leaves the
channel enabled with RELOAD 1, both enables 1, the state Running and the tally and sample 0; where no
other channel is busy and the gate channel is as GC_INIT left it, with a stop value that stops the
counter, it also leaves the channel armed afresh, with COUNT 1 and BUSY 1, and both counters 0. TS_START
leaves the counter enabled and the channel enabled with the capacity as RELOAD; where no channel is busy
and the counter is stopped, it also leaves the channel armed afresh at the buffer's base, with the
capacity as COUNT and BUSY 1, the buffer zeroed and the count 0 (42_counter_extender.md R85,
44_gate_controller.md R100, 45_timestamp_capture.md R107, 20_memory.md R47, R49; log entry 8). -/
def Obligations.InterleavedStartsEndArmed : Prop :=
  (∀ s : State, s.params.Legal → s.cx.bound = true → s.faultMark = none → s.inFlight = none →
    ∃ t, exec .cxStart s = .next t ∧ Ends 1 t fun u =>
      u.chan s.cx.ch = { s.chan s.cx.ch with
        en := true, busy := true, pending := 0, err := false, count := 0xFFFFFFFF#32
        reload := 0xFFFFFFFF#32 }) ∧
  (∀ s : State, s.params.Legal → s.gcState ≠ .idle → s.faultMark = none → s.inFlight = none →
    ∃ t, exec .gcStart s = .next t ∧ Ends 4 t fun u =>
      u.ec.en = true ∧ u.gt.en = true ∧ u.gcState = .running ∧
      u.gcOvfTally = 0#32 ∧ u.gcPrevSample = 0#16 ∧ (u.chan s.gc.ch).reload = 1#32 ∧
      (u.chan s.gc.ch).en = true ∧
      ((∀ d, d ≠ s.gc.ch → (s.chan d).busy = false) → (s.chan s.gc.ch).treq = 1#6 →
        (s.chan s.gc.ch).size = true → (s.chan s.gc.ch).incrRead = false →
        (s.chan s.gc.ch).incrWrite = false →
        (s.chan s.gc.ch).readAddr = s.params.regAddr .gcStopval →
        (s.chan s.gc.ch).writeAddr = s.params.regAddr .ecCtrl →
        s.gcStopval.getLsbD 0 = false →
        u.chan s.gc.ch = { s.chan s.gc.ch with
          en := true, busy := true, pending := 0, err := false, count := 1#32, reload := 1#32 } ∧
        u.ec.ctr = 0#16 ∧ u.gt = { s.gt with en := true, ctr := 0#16, dir := false })) ∧
  (∀ s : State, s.params.Legal → s.ts.bound = true → s.faultMark = none → s.inFlight = none →
    ∃ t, exec .tsStart s = .next t ∧ Ends (s.tsCapacity.toNat + 3) t fun u =>
      u.ec.en = true ∧ (u.chan s.ts.ch).en = true ∧ (u.chan s.ts.ch).reload = s.tsCapacity ∧
      ((∀ d, (s.chan d).busy = false) → s.ec.en = false → (s.chan s.ts.ch).treq = 0#6 →
        s.mem.wf = true → s.params.bufferOk s.tsBase s.tsCapacity = true →
        u.chan s.ts.ch = { s.chan s.ts.ch with
          writeAddr := s.tsBase, en := true, busy := true, pending := 0, err := false
          count := s.tsCapacity, reload := s.tsCapacity } ∧
        u.ec.ctr = 0#16 ∧
        (∀ a, bufferBytes s.tsBase s.tsCapacity a → u.mem.read a = 0#8)))

/-- With no other agent's step between or within them, CX_START, GC_START and TS_START twice in a row
give the same state as once (42_counter_extender.md R85, 44_gate_controller.md R100,
45_timestamp_capture.md R107; the empty schedule is log entry 5, the micro-steps log entry 8). With
other agents' steps among the micro-steps the two states may differ. -/
def Obligations.StartingTwiceIsStartingOnce : Prop :=
  (∀ s : State, s.cx.bound = true → s.faultMark = none → s.inFlight = none → s.schedule = [] →
    ∃ t u v, exec .cxStart s = .next t ∧ State.finish 1 t = .next u ∧
      exec .cxStart u = .next v ∧ State.finish 1 v = .next u) ∧
  (∀ s : State, s.gcState ≠ .idle → s.faultMark = none → s.inFlight = none → s.schedule = [] →
    ∃ t u v, exec .gcStart s = .next t ∧ State.finish 4 t = .next u ∧
      exec .gcStart u = .next v ∧ State.finish 4 v = .next u) ∧
  (∀ s : State, s.ts.bound = true → s.faultMark = none → s.inFlight = none → s.schedule = [] →
    StateOk s →
    ∃ t u v, exec .tsStart s = .next t ∧ State.finish (s.tsCapacity.toNat + 3) t = .next u ∧
      exec .tsStart u = .next v ∧ State.finish (s.tsCapacity.toNat + 3) v = .next u)

/-! ### Invariants -/

/-- Every step keeps the invariant, from every state that has it (10_state.md R20, R23, R25, R27;
60_exceptions.md R122; 45_timestamp_capture.md R106). -/
def Obligations.EveryStepKeepsTheInvariant : Prop :=
  ∀ s t : State, StateOk s → step s = .next t → StateOk t

/-- The state right after reset has the invariant, with every legal choice of the parameters, every
clock value, every level and RAM in canonical form inside its region. -/
def Obligations.LaunchHasTheInvariant : Prop :=
  StateOk State.reset ∧
  ∀ (p : Params) (clock : Word) (levels : BitVec 256) (ram : Memory), p.Legal → ram.wf = true →
    (∀ a, ram.read a ≠ ramAtLaunch →
      p.ramBase.toNat ≤ a ∧ a < p.ramBase.toNat + p.ramSize) →
    StateOk (State.launch p clock levels ram)

/-- After reset every register has the value of the list, whatever the launch inputs, and those are
what the clock, the pins and RAM hold (70_reset_and_hazards.md R135, R136); no command is in flight,
since none has been issued, which is log entry 8. -/
def Obligations.ResetLeavesTheListedValues : Prop :=
  ∀ (p : Params) (clock : Word) (levels : BitVec 256) (ram : Memory) (s : State),
    s = State.launch p clock levels ram →
    s.regRead .ecCtrl = 0#32 ∧ s.regRead .ecCtr = 0#32 ∧ s.regRead .ecWrap = 0xFFFF#32 ∧
    s.regRead .ecPin = 0xFF#32 ∧ s.regRead .gtCtrl = 0#32 ∧ s.regRead .gtCtr = 0#32 ∧
    s.regRead .gtWrap = 0xFFFF#32 ∧ s.regRead .gtPrescale = 1#32 ∧ s.regRead .gtPin = 0xFF#32 ∧
    s.regRead .enMask = 0#32 ∧ s.regRead .cxScratch = 0#32 ∧ s.regRead .gcStopval = 0#32 ∧
    s.regRead .gcState = 0#32 ∧ s.regRead .gcOvfTally = 0#32 ∧ s.regRead .gcPrevSample = 0#32 ∧
    s.regRead .bind = 0#32 ∧ s.regRead .tsBase = 0#32 ∧ s.regRead .tsCapacity = 0#32 ∧
    (∀ ch r, s.regRead (.dma ch r) = 0#32) ∧ (∀ ch, (s.chan ch).pending = 0) ∧
    s.faultMark = none ∧ s.inFlight = none ∧ s.clock = clock ∧ s.levels = levels ∧ s.mem = ram

/-- No step changes a parameter; EC_PIN changes only by a successful EC_CONFIGURE, and GT_PRESCALE
and GT_PIN only by a successful GT_CONFIGURE: no bus write and no transfer reaches them (10_state.md
R20, R23). -/
def Obligations.OnlyConfigureChangesThePins : Prop :=
  ∀ s t : State, step s = .next t →
    t.params = s.params ∧
    (t.ec.pin ≠ s.ec.pin → s.inFlight = none ∧ ∃ ws pin pol n, s.fetch = some (.command ws) ∧
      decode ws = .command (.ecConfigure pin pol) n ∧ t.ec.pin = pin ∧
      pin.toNat < s.params.pinCount ∧ pin.toNat % 2 = s.params.edgePinParity) ∧
    (t.gt.prescale ≠ s.gt.prescale ∨ t.gt.pin ≠ s.gt.pin →
      s.inFlight = none ∧ ∃ ws pin prescale period n, s.fetch = some (.command ws) ∧
        decode ws = .command (.gtConfigure pin prescale period) n ∧ t.gt.pin = pin ∧
        t.gt.prescale = prescale ∧ pin.toNat < s.params.pinCount ∧ prescale ≠ 0#8)

/-- A GateTimer that stays enabled and whose registers only its own ticks change emits an expiry
event in every weakly fair run of the hardware (60_exceptions.md R130; fairness is a predicate over runs,
log entry 15). -/
def Obligations.FairGateTimerExpires : Prop :=
  ∀ (st : Nat → State) (turn : Nat → Turn),
    IsRun st turn → WeaklyFair st turn → HardwareRun st →
    (∀ n, (st n).gt.en = true) →
    (∀ n, (∀ acc, turn n ≠ .tick acc) → (st (n + 1)).gt = (st n).gt) →
    ∃ n, (st n).emitsGt (turn n) = true
end

