-- ==== Sys2Proof/Laws/Memory.lean ====
section
/-! SUPPORT. RAM: what a read after a write gives, that every operation keeps the canonical form, and
that the canonical form makes equal memories equal data. -/

namespace Sys2Proof.Machine

@[simp] theorem Memory.read_nil (a : Nat) : Memory.read [] a = ramAtLaunch := rfl

theorem Memory.read_cons (k : Nat) (b : Byte) (m : Memory) (a : Nat) :
    Memory.read ((k, b) :: m) a = if k = a then b else Memory.read m a := rfl

/-- Below its bound a canonical memory lists nothing. -/
theorem Memory.read_below {lo : Nat} {m : Memory} (h : Memory.wfFrom lo m = true) {a : Nat}
    (ha : a < lo) : m.read a = ramAtLaunch := by
  induction m generalizing lo with
  | nil => rfl
  | cons e m ih =>
    obtain ⟨k, b⟩ := e
    simp only [Memory.wfFrom, Bool.and_eq_true, decide_eq_true_eq] at h
    rw [Memory.read_cons, if_neg (by omega)]
    exact ih h.2 (by omega)

/-- The canonical form holds for a lower bound too. -/
theorem Memory.wfFrom_mono {lo lo' : Nat} {m : Memory} (h : Memory.wfFrom lo m = true)
    (hl : lo' ≤ lo) : Memory.wfFrom lo' m = true := by
  cases m with
  | nil => rfl
  | cons e m =>
    obtain ⟨k, b⟩ := e
    simp only [Memory.wfFrom, Bool.and_eq_true, decide_eq_true_eq] at h ⊢
    exact ⟨⟨by omega, h.1.2⟩, h.2⟩

/-- A write keeps the canonical form above a bound at or below the address. -/
theorem Memory.wfFrom_write {lo : Nat} {m : Memory} (h : Memory.wfFrom lo m = true) {a : Nat}
    (ha : lo ≤ a) (v : Byte) : Memory.wfFrom lo (m.write a v) = true := by
  induction m generalizing lo with
  | nil =>
    unfold Memory.write
    split <;> simp_all [Memory.wfFrom]
  | cons e m ih =>
    obtain ⟨k, b⟩ := e
    have h' := h
    simp only [Memory.wfFrom, Bool.and_eq_true, decide_eq_true_eq, bne_iff_ne, ne_eq] at h'
    unfold Memory.write
    by_cases h1 : a < k
    · simp only [h1, if_true]
      split
      · exact h
      · rename_i hv
        simp only [Memory.wfFrom, Bool.and_eq_true, decide_eq_true_eq, bne_iff_ne, ne_eq]
        exact ⟨⟨ha, hv⟩, ⟨by omega, h'.1.2⟩, h'.2⟩
    · by_cases h2 : a = k
      · simp only [h2, lt_irrefl, if_false, if_true]
        split
        · exact Memory.wfFrom_mono h'.2 (by omega)
        · rename_i hv
          simp only [Memory.wfFrom, Bool.and_eq_true, decide_eq_true_eq, bne_iff_ne, ne_eq]
          exact ⟨⟨by omega, hv⟩, h'.2⟩
      · simp only [h1, h2, if_false, Memory.wfFrom, Bool.and_eq_true, decide_eq_true_eq,
          bne_iff_ne, ne_eq]
        exact ⟨h'.1, ih h'.2 (by omega)⟩

/-- A byte write keeps the canonical form. -/
theorem Memory.wf_write {m : Memory} (h : m.wf = true) (a : Nat) (v : Byte) :
    (m.write a v).wf = true :=
  Memory.wfFrom_write h (Nat.zero_le a) v

/-- A word write keeps the canonical form. -/
theorem Memory.wf_write32 {m : Memory} (h : m.wf = true) (a : Nat) (v : Word) :
    (m.write32 a v).wf = true := by
  unfold Memory.write32
  exact Memory.wf_write (Memory.wf_write (Memory.wf_write (Memory.wf_write h _ _) _ _) _ _) _ _

/-- A read after a write in a canonical memory: the written byte there, the old byte elsewhere. -/
theorem Memory.read_write_from {lo : Nat} {m : Memory} (h : Memory.wfFrom lo m = true) (a : Nat)
    (v : Byte) (x : Nat) : (m.write a v).read x = if x = a then v else m.read x := by
  induction m generalizing lo with
  | nil =>
    unfold Memory.write
    by_cases hv : v = ramAtLaunch
    · simp [hv]
    · simp only [hv, if_false, Memory.read_cons, Memory.read_nil, eq_comm]
  | cons e m ih =>
    obtain ⟨k, b⟩ := e
    have h' := h
    simp only [Memory.wfFrom, Bool.and_eq_true, decide_eq_true_eq] at h'
    have hbelow : ∀ y, y ≤ k → Memory.read m y = ramAtLaunch := fun y hy =>
      Memory.read_below h'.2 (by omega)
    unfold Memory.write
    by_cases h1 : a < k
    · by_cases hv : v = ramAtLaunch
      · simp only [h1, hv, if_true, Memory.read_cons]
        by_cases hx : x = a
        · subst hx
          rw [if_neg (by omega), if_pos rfl, hbelow _ (by omega)]
        · simp [hx]
      · simp only [h1, hv, if_true, if_false, Memory.read_cons, eq_comm (a := a)]
    · by_cases h2 : a = k
      · subst h2
        by_cases hv : v = ramAtLaunch
        · simp only [lt_irrefl, hv, if_true, if_false, Memory.read_cons]
          by_cases hx : x = a
          · subst hx; simp [hbelow]
          · simp [hx, Ne.symm hx]
        · simp only [lt_irrefl, hv, if_true, if_false, Memory.read_cons]
          by_cases hx : x = a
          · simp [hx]
          · simp [hx, Ne.symm hx]
      · simp only [h1, h2, if_false, Memory.read_cons, ih h'.2]
        by_cases hx : x = a
        · subst hx; simp [Ne.symm h2]
        · simp [hx]

/-- A read after a byte write. -/
theorem Memory.read_write {m : Memory} (h : m.wf = true) (a : Nat) (v : Byte) (x : Nat) :
    (m.write a v).read x = if x = a then v else m.read x :=
  Memory.read_write_from h a v x

/-- A byte read after a word write: the word's byte inside it, the old byte elsewhere. -/
theorem Memory.read_write32 {m : Memory} (h : m.wf = true) (a : Nat) (v : Word) (x : Nat) :
    (m.write32 a v).read x =
      if a ≤ x ∧ x < a + 4 then v.extractLsb' (8 * (x - a)) 8 else m.read x := by
  have h1 := Memory.wf_write h a (v.extractLsb' 0 8)
  have h2 := Memory.wf_write h1 (a + 1) (v.extractLsb' 8 8)
  have h3 := Memory.wf_write h2 (a + 2) (v.extractLsb' 16 8)
  unfold Memory.write32
  rw [Memory.read_write h3, Memory.read_write h2, Memory.read_write h1, Memory.read_write h]
  by_cases c3 : x = a + 3
  · subst c3; simp
  by_cases c2 : x = a + 2
  · subst c2; simp
  by_cases c1 : x = a + 1
  · subst c1; simp
  by_cases c0 : x = a
  · subst c0; simp
  rw [if_neg c3, if_neg c2, if_neg c1, if_neg c0, if_neg (by omega)]

/-- A word read after a word write at the same address. -/
theorem Memory.read32_write32_same {m : Memory} (h : m.wf = true) (a : Nat) (v : Word) :
    (m.write32 a v).read32 a = v := by
  have e0 : (m.write32 a v).read a = v.extractLsb' 0 8 := by simp [Memory.read_write32 h]
  have e1 : (m.write32 a v).read (a + 1) = v.extractLsb' 8 8 := by simp [Memory.read_write32 h]
  have e2 : (m.write32 a v).read (a + 2) = v.extractLsb' 16 8 := by simp [Memory.read_write32 h]
  have e3 : (m.write32 a v).read (a + 3) = v.extractLsb' 24 8 := by simp [Memory.read_write32 h]
  unfold Memory.read32
  rw [e0, e1, e2, e3]
  apply BitVec.eq_of_getLsbD_eq
  intro i hi
  simp only [BitVec.getLsbD_append, BitVec.getLsbD_extractLsb']
  split <;> rename_i g0
  · simp [g0]
  · split <;> rename_i g1
    · simp [g1]; congr 1; omega
    · split <;> rename_i g2
      · simp [g2]; congr 1; omega
      · have : i - 8 - 8 - 8 < 8 := by omega
        simp [this]; congr 1; omega

/-- A word read after a word write elsewhere. -/
theorem Memory.read32_write32_ne {m : Memory} (h : m.wf = true) {a b : Nat} (v : Word)
    (hd : b + 4 ≤ a ∨ a + 4 ≤ b) : (m.write32 a v).read32 b = m.read32 b := by
  unfold Memory.read32
  simp only [Memory.read_write32 h]
  rw [if_neg (by omega), if_neg (by omega), if_neg (by omega), if_neg (by omega)]

/-- Canonical memories that read alike are equal. -/
theorem Memory.ext_of_wfFrom {lo : Nat} {m n : Memory} (hm : Memory.wfFrom lo m = true)
    (hn : Memory.wfFrom lo n = true) (h : ∀ a, m.read a = n.read a) : m = n := by
  induction m generalizing lo n with
  | nil =>
    cases n with
    | nil => rfl
    | cons e n =>
      obtain ⟨k, b⟩ := e
      simp only [Memory.wfFrom, Bool.and_eq_true, decide_eq_true_eq, bne_iff_ne, ne_eq] at hn
      have := h k
      rw [Memory.read_cons, if_pos rfl, Memory.read_nil] at this
      exact absurd this.symm hn.1.2
  | cons e m ih =>
    obtain ⟨k, b⟩ := e
    have hm' := hm
    simp only [Memory.wfFrom, Bool.and_eq_true, decide_eq_true_eq, bne_iff_ne, ne_eq] at hm'
    cases n with
    | nil =>
      have := h k
      rw [Memory.read_cons, if_pos rfl, Memory.read_nil] at this
      exact absurd this hm'.1.2
    | cons f n =>
      obtain ⟨l, c⟩ := f
      have hn' := hn
      simp only [Memory.wfFrom, Bool.and_eq_true, decide_eq_true_eq, bne_iff_ne, ne_eq] at hn'
      have hk := h k
      have hl := h l
      rw [Memory.read_cons, if_pos rfl, Memory.read_cons] at hk
      rw [Memory.read_cons, Memory.read_cons, if_pos rfl] at hl
      have hkl : k = l := by
        by_contra hne
        rcases Nat.lt_or_gt_of_ne hne with hlt | hgt
        · rw [if_neg (by omega), Memory.read_below hn'.2 (by omega)] at hk
          exact hm'.1.2 hk
        · rw [if_neg (by omega), Memory.read_below hm'.2 (by omega)] at hl
          exact hn'.1.2 hl.symm
      subst hkl
      rw [if_pos rfl] at hk
      subst hk
      congr 1
      refine ih hm'.2 hn'.2 fun a => ?_
      by_cases ha : k = a
      · subst ha
        rw [Memory.read_below hm'.2 (by omega), Memory.read_below hn'.2 (by omega)]
      · have := h a
        rwa [Memory.read_cons, if_neg ha, Memory.read_cons, if_neg ha] at this

/-- RAM at reset has the canonical form. -/
theorem State.reset_mem_wf : State.reset.mem.wf = true := rfl

end Sys2Proof.Machine
end

