-- ==== Sys2Proof/Laws/State.lean ====
section
/-! SUPPORT. One lemma per field per named update of State, each true by rfl, so that no proof unfolds an
update; and what a channel is after each. -/

namespace Sys2Proof.Machine

/-! ### Channel updates -/

@[simp] theorem State.setChan_params (s : State) (ch : ChanNo) (c : DmaChannel) : (s.setChan ch c).params = s.params := rfl
@[simp] theorem State.setChan_ec (s : State) (ch : ChanNo) (c : DmaChannel) : (s.setChan ch c).ec = s.ec := rfl
@[simp] theorem State.setChan_gt (s : State) (ch : ChanNo) (c : DmaChannel) : (s.setChan ch c).gt = s.gt := rfl
@[simp] theorem State.setChan_cxScratch (s : State) (ch : ChanNo) (c : DmaChannel) : (s.setChan ch c).cxScratch = s.cxScratch := rfl
@[simp] theorem State.setChan_gcStopval (s : State) (ch : ChanNo) (c : DmaChannel) : (s.setChan ch c).gcStopval = s.gcStopval := rfl
@[simp] theorem State.setChan_gcState (s : State) (ch : ChanNo) (c : DmaChannel) : (s.setChan ch c).gcState = s.gcState := rfl
@[simp] theorem State.setChan_gcOvfTally (s : State) (ch : ChanNo) (c : DmaChannel) : (s.setChan ch c).gcOvfTally = s.gcOvfTally := rfl
@[simp] theorem State.setChan_gcPrevSample (s : State) (ch : ChanNo) (c : DmaChannel) : (s.setChan ch c).gcPrevSample = s.gcPrevSample := rfl
@[simp] theorem State.setChan_cx (s : State) (ch : ChanNo) (c : DmaChannel) : (s.setChan ch c).cx = s.cx := rfl
@[simp] theorem State.setChan_gc (s : State) (ch : ChanNo) (c : DmaChannel) : (s.setChan ch c).gc = s.gc := rfl
@[simp] theorem State.setChan_ts (s : State) (ch : ChanNo) (c : DmaChannel) : (s.setChan ch c).ts = s.ts := rfl
@[simp] theorem State.setChan_tsBase (s : State) (ch : ChanNo) (c : DmaChannel) : (s.setChan ch c).tsBase = s.tsBase := rfl
@[simp] theorem State.setChan_tsCapacity (s : State) (ch : ChanNo) (c : DmaChannel) : (s.setChan ch c).tsCapacity = s.tsCapacity := rfl
@[simp] theorem State.setChan_clock (s : State) (ch : ChanNo) (c : DmaChannel) : (s.setChan ch c).clock = s.clock := rfl
@[simp] theorem State.setChan_levels (s : State) (ch : ChanNo) (c : DmaChannel) : (s.setChan ch c).levels = s.levels := rfl
@[simp] theorem State.setChan_mem (s : State) (ch : ChanNo) (c : DmaChannel) : (s.setChan ch c).mem = s.mem := rfl
@[simp] theorem State.setChan_faultMark (s : State) (ch : ChanNo) (c : DmaChannel) : (s.setChan ch c).faultMark = s.faultMark := rfl
@[simp] theorem State.setChan_program (s : State) (ch : ChanNo) (c : DmaChannel) : (s.setChan ch c).program = s.program := rfl
@[simp] theorem State.setChan_pc (s : State) (ch : ChanNo) (c : DmaChannel) : (s.setChan ch c).pc = s.pc := rfl
@[simp] theorem State.setChan_last (s : State) (ch : ChanNo) (c : DmaChannel) : (s.setChan ch c).last = s.last := rfl
@[simp] theorem State.setChan_t0 (s : State) (ch : ChanNo) (c : DmaChannel) : (s.setChan ch c).t0 = s.t0 := rfl
@[simp] theorem State.setChan_inFlight (s : State) (ch : ChanNo) (c : DmaChannel) : (s.setChan ch c).inFlight = s.inFlight := rfl
@[simp] theorem State.setChan_schedule (s : State) (ch : ChanNo) (c : DmaChannel) : (s.setChan ch c).schedule = s.schedule := rfl

/-! ### Results -/

@[simp] theorem State.ret_params (s : State) (v : Word) (f : Bool) : (s.ret v f).params = s.params := rfl
@[simp] theorem State.ret_ec (s : State) (v : Word) (f : Bool) : (s.ret v f).ec = s.ec := rfl
@[simp] theorem State.ret_gt (s : State) (v : Word) (f : Bool) : (s.ret v f).gt = s.gt := rfl
@[simp] theorem State.ret_cxScratch (s : State) (v : Word) (f : Bool) : (s.ret v f).cxScratch = s.cxScratch := rfl
@[simp] theorem State.ret_gcStopval (s : State) (v : Word) (f : Bool) : (s.ret v f).gcStopval = s.gcStopval := rfl
@[simp] theorem State.ret_gcState (s : State) (v : Word) (f : Bool) : (s.ret v f).gcState = s.gcState := rfl
@[simp] theorem State.ret_gcOvfTally (s : State) (v : Word) (f : Bool) : (s.ret v f).gcOvfTally = s.gcOvfTally := rfl
@[simp] theorem State.ret_gcPrevSample (s : State) (v : Word) (f : Bool) : (s.ret v f).gcPrevSample = s.gcPrevSample := rfl
@[simp] theorem State.ret_cx (s : State) (v : Word) (f : Bool) : (s.ret v f).cx = s.cx := rfl
@[simp] theorem State.ret_gc (s : State) (v : Word) (f : Bool) : (s.ret v f).gc = s.gc := rfl
@[simp] theorem State.ret_ts (s : State) (v : Word) (f : Bool) : (s.ret v f).ts = s.ts := rfl
@[simp] theorem State.ret_tsBase (s : State) (v : Word) (f : Bool) : (s.ret v f).tsBase = s.tsBase := rfl
@[simp] theorem State.ret_tsCapacity (s : State) (v : Word) (f : Bool) : (s.ret v f).tsCapacity = s.tsCapacity := rfl
@[simp] theorem State.ret_dma (s : State) (v : Word) (f : Bool) : (s.ret v f).dma = s.dma := rfl
@[simp] theorem State.ret_clock (s : State) (v : Word) (f : Bool) : (s.ret v f).clock = s.clock := rfl
@[simp] theorem State.ret_levels (s : State) (v : Word) (f : Bool) : (s.ret v f).levels = s.levels := rfl
@[simp] theorem State.ret_mem (s : State) (v : Word) (f : Bool) : (s.ret v f).mem = s.mem := rfl
@[simp] theorem State.ret_faultMark (s : State) (v : Word) (f : Bool) : (s.ret v f).faultMark = s.faultMark := rfl
@[simp] theorem State.ret_program (s : State) (v : Word) (f : Bool) : (s.ret v f).program = s.program := rfl
@[simp] theorem State.ret_pc (s : State) (v : Word) (f : Bool) : (s.ret v f).pc = s.pc := rfl
@[simp] theorem State.ret_t0 (s : State) (v : Word) (f : Bool) : (s.ret v f).t0 = s.t0 := rfl
@[simp] theorem State.ret_inFlight (s : State) (v : Word) (f : Bool) : (s.ret v f).inFlight = s.inFlight := rfl
@[simp] theorem State.ret_schedule (s : State) (v : Word) (f : Bool) : (s.ret v f).schedule = s.schedule := rfl

/-! ### Failures -/

@[simp] theorem State.fail_params (s : State) (st : Status) : (s.fail st).params = s.params := rfl
@[simp] theorem State.fail_ec (s : State) (st : Status) : (s.fail st).ec = s.ec := rfl
@[simp] theorem State.fail_gt (s : State) (st : Status) : (s.fail st).gt = s.gt := rfl
@[simp] theorem State.fail_cxScratch (s : State) (st : Status) : (s.fail st).cxScratch = s.cxScratch := rfl
@[simp] theorem State.fail_gcStopval (s : State) (st : Status) : (s.fail st).gcStopval = s.gcStopval := rfl
@[simp] theorem State.fail_gcState (s : State) (st : Status) : (s.fail st).gcState = s.gcState := rfl
@[simp] theorem State.fail_gcOvfTally (s : State) (st : Status) : (s.fail st).gcOvfTally = s.gcOvfTally := rfl
@[simp] theorem State.fail_gcPrevSample (s : State) (st : Status) : (s.fail st).gcPrevSample = s.gcPrevSample := rfl
@[simp] theorem State.fail_cx (s : State) (st : Status) : (s.fail st).cx = s.cx := rfl
@[simp] theorem State.fail_gc (s : State) (st : Status) : (s.fail st).gc = s.gc := rfl
@[simp] theorem State.fail_ts (s : State) (st : Status) : (s.fail st).ts = s.ts := rfl
@[simp] theorem State.fail_tsBase (s : State) (st : Status) : (s.fail st).tsBase = s.tsBase := rfl
@[simp] theorem State.fail_tsCapacity (s : State) (st : Status) : (s.fail st).tsCapacity = s.tsCapacity := rfl
@[simp] theorem State.fail_dma (s : State) (st : Status) : (s.fail st).dma = s.dma := rfl
@[simp] theorem State.fail_clock (s : State) (st : Status) : (s.fail st).clock = s.clock := rfl
@[simp] theorem State.fail_levels (s : State) (st : Status) : (s.fail st).levels = s.levels := rfl
@[simp] theorem State.fail_mem (s : State) (st : Status) : (s.fail st).mem = s.mem := rfl
@[simp] theorem State.fail_faultMark (s : State) (st : Status) : (s.fail st).faultMark = s.faultMark := rfl
@[simp] theorem State.fail_program (s : State) (st : Status) : (s.fail st).program = s.program := rfl
@[simp] theorem State.fail_pc (s : State) (st : Status) : (s.fail st).pc = s.pc := rfl
@[simp] theorem State.fail_t0 (s : State) (st : Status) : (s.fail st).t0 = s.t0 := rfl
@[simp] theorem State.fail_inFlight (s : State) (st : Status) : (s.fail st).inFlight = s.inFlight := rfl
@[simp] theorem State.fail_schedule (s : State) (st : Status) : (s.fail st).schedule = s.schedule := rfl

/-! ### Enables -/

@[simp] theorem State.setEnables_params (s : State) (a b : Bool) : (s.setEnables a b).params = s.params := rfl
@[simp] theorem State.setEnables_cxScratch (s : State) (a b : Bool) : (s.setEnables a b).cxScratch = s.cxScratch := rfl
@[simp] theorem State.setEnables_gcStopval (s : State) (a b : Bool) : (s.setEnables a b).gcStopval = s.gcStopval := rfl
@[simp] theorem State.setEnables_gcState (s : State) (a b : Bool) : (s.setEnables a b).gcState = s.gcState := rfl
@[simp] theorem State.setEnables_gcOvfTally (s : State) (a b : Bool) : (s.setEnables a b).gcOvfTally = s.gcOvfTally := rfl
@[simp] theorem State.setEnables_gcPrevSample (s : State) (a b : Bool) : (s.setEnables a b).gcPrevSample = s.gcPrevSample := rfl
@[simp] theorem State.setEnables_cx (s : State) (a b : Bool) : (s.setEnables a b).cx = s.cx := rfl
@[simp] theorem State.setEnables_gc (s : State) (a b : Bool) : (s.setEnables a b).gc = s.gc := rfl
@[simp] theorem State.setEnables_ts (s : State) (a b : Bool) : (s.setEnables a b).ts = s.ts := rfl
@[simp] theorem State.setEnables_tsBase (s : State) (a b : Bool) : (s.setEnables a b).tsBase = s.tsBase := rfl
@[simp] theorem State.setEnables_tsCapacity (s : State) (a b : Bool) : (s.setEnables a b).tsCapacity = s.tsCapacity := rfl
@[simp] theorem State.setEnables_dma (s : State) (a b : Bool) : (s.setEnables a b).dma = s.dma := rfl
@[simp] theorem State.setEnables_clock (s : State) (a b : Bool) : (s.setEnables a b).clock = s.clock := rfl
@[simp] theorem State.setEnables_levels (s : State) (a b : Bool) : (s.setEnables a b).levels = s.levels := rfl
@[simp] theorem State.setEnables_mem (s : State) (a b : Bool) : (s.setEnables a b).mem = s.mem := rfl
@[simp] theorem State.setEnables_faultMark (s : State) (a b : Bool) : (s.setEnables a b).faultMark = s.faultMark := rfl
@[simp] theorem State.setEnables_program (s : State) (a b : Bool) : (s.setEnables a b).program = s.program := rfl
@[simp] theorem State.setEnables_pc (s : State) (a b : Bool) : (s.setEnables a b).pc = s.pc := rfl
@[simp] theorem State.setEnables_last (s : State) (a b : Bool) : (s.setEnables a b).last = s.last := rfl
@[simp] theorem State.setEnables_t0 (s : State) (a b : Bool) : (s.setEnables a b).t0 = s.t0 := rfl
@[simp] theorem State.setEnables_inFlight (s : State) (a b : Bool) : (s.setEnables a b).inFlight = s.inFlight := rfl
@[simp] theorem State.setEnables_schedule (s : State) (a b : Bool) : (s.setEnables a b).schedule = s.schedule := rfl

/-! ### Aborts -/

@[simp] theorem State.abortMask_params (s : State) (v : Word) : (s.abortMask v).params = s.params := rfl
@[simp] theorem State.abortMask_ec (s : State) (v : Word) : (s.abortMask v).ec = s.ec := rfl
@[simp] theorem State.abortMask_gt (s : State) (v : Word) : (s.abortMask v).gt = s.gt := rfl
@[simp] theorem State.abortMask_cxScratch (s : State) (v : Word) : (s.abortMask v).cxScratch = s.cxScratch := rfl
@[simp] theorem State.abortMask_gcStopval (s : State) (v : Word) : (s.abortMask v).gcStopval = s.gcStopval := rfl
@[simp] theorem State.abortMask_gcState (s : State) (v : Word) : (s.abortMask v).gcState = s.gcState := rfl
@[simp] theorem State.abortMask_gcOvfTally (s : State) (v : Word) : (s.abortMask v).gcOvfTally = s.gcOvfTally := rfl
@[simp] theorem State.abortMask_gcPrevSample (s : State) (v : Word) : (s.abortMask v).gcPrevSample = s.gcPrevSample := rfl
@[simp] theorem State.abortMask_cx (s : State) (v : Word) : (s.abortMask v).cx = s.cx := rfl
@[simp] theorem State.abortMask_gc (s : State) (v : Word) : (s.abortMask v).gc = s.gc := rfl
@[simp] theorem State.abortMask_ts (s : State) (v : Word) : (s.abortMask v).ts = s.ts := rfl
@[simp] theorem State.abortMask_tsBase (s : State) (v : Word) : (s.abortMask v).tsBase = s.tsBase := rfl
@[simp] theorem State.abortMask_tsCapacity (s : State) (v : Word) : (s.abortMask v).tsCapacity = s.tsCapacity := rfl
@[simp] theorem State.abortMask_clock (s : State) (v : Word) : (s.abortMask v).clock = s.clock := rfl
@[simp] theorem State.abortMask_levels (s : State) (v : Word) : (s.abortMask v).levels = s.levels := rfl
@[simp] theorem State.abortMask_mem (s : State) (v : Word) : (s.abortMask v).mem = s.mem := rfl
@[simp] theorem State.abortMask_faultMark (s : State) (v : Word) : (s.abortMask v).faultMark = s.faultMark := rfl
@[simp] theorem State.abortMask_program (s : State) (v : Word) : (s.abortMask v).program = s.program := rfl
@[simp] theorem State.abortMask_pc (s : State) (v : Word) : (s.abortMask v).pc = s.pc := rfl
@[simp] theorem State.abortMask_last (s : State) (v : Word) : (s.abortMask v).last = s.last := rfl
@[simp] theorem State.abortMask_t0 (s : State) (v : Word) : (s.abortMask v).t0 = s.t0 := rfl
@[simp] theorem State.abortMask_inFlight (s : State) (v : Word) : (s.abortMask v).inFlight = s.inFlight := rfl
@[simp] theorem State.abortMask_schedule (s : State) (v : Word) : (s.abortMask v).schedule = s.schedule := rfl

/-! ### The next line -/

@[simp] theorem State.nextLine_params (s : State) : (s.nextLine).params = s.params := rfl
@[simp] theorem State.nextLine_ec (s : State) : (s.nextLine).ec = s.ec := rfl
@[simp] theorem State.nextLine_gt (s : State) : (s.nextLine).gt = s.gt := rfl
@[simp] theorem State.nextLine_cxScratch (s : State) : (s.nextLine).cxScratch = s.cxScratch := rfl
@[simp] theorem State.nextLine_gcStopval (s : State) : (s.nextLine).gcStopval = s.gcStopval := rfl
@[simp] theorem State.nextLine_gcState (s : State) : (s.nextLine).gcState = s.gcState := rfl
@[simp] theorem State.nextLine_gcOvfTally (s : State) : (s.nextLine).gcOvfTally = s.gcOvfTally := rfl
@[simp] theorem State.nextLine_gcPrevSample (s : State) : (s.nextLine).gcPrevSample = s.gcPrevSample := rfl
@[simp] theorem State.nextLine_cx (s : State) : (s.nextLine).cx = s.cx := rfl
@[simp] theorem State.nextLine_gc (s : State) : (s.nextLine).gc = s.gc := rfl
@[simp] theorem State.nextLine_ts (s : State) : (s.nextLine).ts = s.ts := rfl
@[simp] theorem State.nextLine_tsBase (s : State) : (s.nextLine).tsBase = s.tsBase := rfl
@[simp] theorem State.nextLine_tsCapacity (s : State) : (s.nextLine).tsCapacity = s.tsCapacity := rfl
@[simp] theorem State.nextLine_dma (s : State) : (s.nextLine).dma = s.dma := rfl
@[simp] theorem State.nextLine_clock (s : State) : (s.nextLine).clock = s.clock := rfl
@[simp] theorem State.nextLine_levels (s : State) : (s.nextLine).levels = s.levels := rfl
@[simp] theorem State.nextLine_mem (s : State) : (s.nextLine).mem = s.mem := rfl
@[simp] theorem State.nextLine_faultMark (s : State) : (s.nextLine).faultMark = s.faultMark := rfl
@[simp] theorem State.nextLine_program (s : State) : (s.nextLine).program = s.program := rfl
@[simp] theorem State.nextLine_last (s : State) : (s.nextLine).last = s.last := rfl
@[simp] theorem State.nextLine_t0 (s : State) : (s.nextLine).t0 = s.t0 := rfl
@[simp] theorem State.nextLine_inFlight (s : State) : (s.nextLine).inFlight = s.inFlight := rfl
@[simp] theorem State.nextLine_schedule (s : State) : (s.nextLine).schedule = s.schedule := rfl

/-! ### Pin toggles -/

@[simp] theorem State.toggle_params (s : State) (p : BitVec 8) : (s.toggle p).params = s.params := rfl
@[simp] theorem State.toggle_ec (s : State) (p : BitVec 8) : (s.toggle p).ec = s.ec := rfl
@[simp] theorem State.toggle_gt (s : State) (p : BitVec 8) : (s.toggle p).gt = s.gt := rfl
@[simp] theorem State.toggle_cxScratch (s : State) (p : BitVec 8) : (s.toggle p).cxScratch = s.cxScratch := rfl
@[simp] theorem State.toggle_gcStopval (s : State) (p : BitVec 8) : (s.toggle p).gcStopval = s.gcStopval := rfl
@[simp] theorem State.toggle_gcState (s : State) (p : BitVec 8) : (s.toggle p).gcState = s.gcState := rfl
@[simp] theorem State.toggle_gcOvfTally (s : State) (p : BitVec 8) : (s.toggle p).gcOvfTally = s.gcOvfTally := rfl
@[simp] theorem State.toggle_gcPrevSample (s : State) (p : BitVec 8) : (s.toggle p).gcPrevSample = s.gcPrevSample := rfl
@[simp] theorem State.toggle_cx (s : State) (p : BitVec 8) : (s.toggle p).cx = s.cx := rfl
@[simp] theorem State.toggle_gc (s : State) (p : BitVec 8) : (s.toggle p).gc = s.gc := rfl
@[simp] theorem State.toggle_ts (s : State) (p : BitVec 8) : (s.toggle p).ts = s.ts := rfl
@[simp] theorem State.toggle_tsBase (s : State) (p : BitVec 8) : (s.toggle p).tsBase = s.tsBase := rfl
@[simp] theorem State.toggle_tsCapacity (s : State) (p : BitVec 8) : (s.toggle p).tsCapacity = s.tsCapacity := rfl
@[simp] theorem State.toggle_dma (s : State) (p : BitVec 8) : (s.toggle p).dma = s.dma := rfl
@[simp] theorem State.toggle_clock (s : State) (p : BitVec 8) : (s.toggle p).clock = s.clock := rfl
@[simp] theorem State.toggle_mem (s : State) (p : BitVec 8) : (s.toggle p).mem = s.mem := rfl
@[simp] theorem State.toggle_faultMark (s : State) (p : BitVec 8) : (s.toggle p).faultMark = s.faultMark := rfl
@[simp] theorem State.toggle_program (s : State) (p : BitVec 8) : (s.toggle p).program = s.program := rfl
@[simp] theorem State.toggle_pc (s : State) (p : BitVec 8) : (s.toggle p).pc = s.pc := rfl
@[simp] theorem State.toggle_last (s : State) (p : BitVec 8) : (s.toggle p).last = s.last := rfl
@[simp] theorem State.toggle_t0 (s : State) (p : BitVec 8) : (s.toggle p).t0 = s.t0 := rfl
@[simp] theorem State.toggle_inFlight (s : State) (p : BitVec 8) : (s.toggle p).inFlight = s.inFlight := rfl
@[simp] theorem State.toggle_schedule (s : State) (p : BitVec 8) : (s.toggle p).schedule = s.schedule := rfl

/-! ### The clock -/

@[simp] theorem State.clockStep_params (s : State) : (s.clockStep).params = s.params := rfl
@[simp] theorem State.clockStep_ec (s : State) : (s.clockStep).ec = s.ec := rfl
@[simp] theorem State.clockStep_gt (s : State) : (s.clockStep).gt = s.gt := rfl
@[simp] theorem State.clockStep_cxScratch (s : State) : (s.clockStep).cxScratch = s.cxScratch := rfl
@[simp] theorem State.clockStep_gcStopval (s : State) : (s.clockStep).gcStopval = s.gcStopval := rfl
@[simp] theorem State.clockStep_gcState (s : State) : (s.clockStep).gcState = s.gcState := rfl
@[simp] theorem State.clockStep_gcOvfTally (s : State) : (s.clockStep).gcOvfTally = s.gcOvfTally := rfl
@[simp] theorem State.clockStep_gcPrevSample (s : State) : (s.clockStep).gcPrevSample = s.gcPrevSample := rfl
@[simp] theorem State.clockStep_cx (s : State) : (s.clockStep).cx = s.cx := rfl
@[simp] theorem State.clockStep_gc (s : State) : (s.clockStep).gc = s.gc := rfl
@[simp] theorem State.clockStep_ts (s : State) : (s.clockStep).ts = s.ts := rfl
@[simp] theorem State.clockStep_tsBase (s : State) : (s.clockStep).tsBase = s.tsBase := rfl
@[simp] theorem State.clockStep_tsCapacity (s : State) : (s.clockStep).tsCapacity = s.tsCapacity := rfl
@[simp] theorem State.clockStep_dma (s : State) : (s.clockStep).dma = s.dma := rfl
@[simp] theorem State.clockStep_levels (s : State) : (s.clockStep).levels = s.levels := rfl
@[simp] theorem State.clockStep_mem (s : State) : (s.clockStep).mem = s.mem := rfl
@[simp] theorem State.clockStep_faultMark (s : State) : (s.clockStep).faultMark = s.faultMark := rfl
@[simp] theorem State.clockStep_program (s : State) : (s.clockStep).program = s.program := rfl
@[simp] theorem State.clockStep_pc (s : State) : (s.clockStep).pc = s.pc := rfl
@[simp] theorem State.clockStep_last (s : State) : (s.clockStep).last = s.last := rfl
@[simp] theorem State.clockStep_t0 (s : State) : (s.clockStep).t0 = s.t0 := rfl
@[simp] theorem State.clockStep_inFlight (s : State) : (s.clockStep).inFlight = s.inFlight := rfl
@[simp] theorem State.clockStep_schedule (s : State) : (s.clockStep).schedule = s.schedule := rfl

@[simp] theorem State.ret_last (s : State) (v : Word) (f : Bool) : (s.ret v f).last = ⟨0#8, v, f⟩ := rfl
@[simp] theorem State.fail_last (s : State) (st : Status) : (s.fail st).last = ⟨st.code, 0#32, false⟩ := rfl
@[simp] theorem State.setEnables_ec (s : State) (a b : Bool) : (s.setEnables a b).ec = { s.ec with en := a } := rfl
@[simp] theorem State.setEnables_gt (s : State) (a b : Bool) : (s.setEnables a b).gt = { s.gt with en := b } := rfl
@[simp] theorem State.nextLine_pc (s : State) : s.nextLine.pc = s.pc + 1 := rfl
@[simp] theorem State.clockStep_clock (s : State) : s.clockStep.clock = s.clock + 1#32 := rfl

/-! ### Channels -/

/-- A channel depends on the `dma` field alone. -/
theorem State.chan_eq_of_dma {s t : State} (h : t.dma = s.dma) (ch : ChanNo) : t.chan ch = s.chan ch := by
  unfold State.chan; simp only [h]

@[simp] theorem State.chan_setChan_self (s : State) (ch : ChanNo) (c : DmaChannel) :
    (s.setChan ch c).chan ch = c := by
  simp [State.chan, State.setChan]

theorem State.chan_setChan_ne (s : State) {ch d : ChanNo} (c : DmaChannel) (h : d ≠ ch) :
    (s.setChan ch c).chan d = s.chan d := by
  have h' : ¬ ch.toNat = d.toNat := fun e => h (BitVec.eq_of_toNat_eq e.symm)
  simp [State.chan, State.setChan, h']

theorem State.chan_setChan (s : State) (ch d : ChanNo) (c : DmaChannel) :
    (s.setChan ch c).chan d = if d = ch then c else s.chan d := by
  by_cases h : d = ch
  · subst h; simp
  · simp [h, State.chan_setChan_ne]

@[simp] theorem State.setChan_chan (s : State) (ch : ChanNo) : s.setChan ch (s.chan ch) = s := by
  simp [State.chan, State.setChan]

@[simp] theorem State.setChan_setChan (s : State) (ch : ChanNo) (c d : DmaChannel) :
    (s.setChan ch c).setChan ch d = s.setChan ch d := by
  simp [State.setChan]

@[simp] theorem State.chan_ret (s : State) (v : Word) (f : Bool) (ch : ChanNo) :
    (s.ret v f).chan ch = s.chan ch := rfl
@[simp] theorem State.chan_fail (s : State) (st : Status) (ch : ChanNo) :
    (s.fail st).chan ch = s.chan ch := rfl
@[simp] theorem State.chan_setEnables (s : State) (a b : Bool) (ch : ChanNo) :
    (s.setEnables a b).chan ch = s.chan ch := rfl
@[simp] theorem State.chan_nextLine (s : State) (ch : ChanNo) : s.nextLine.chan ch = s.chan ch := rfl
@[simp] theorem State.chan_toggle (s : State) (p : BitVec 8) (ch : ChanNo) :
    (s.toggle p).chan ch = s.chan ch := rfl
@[simp] theorem State.chan_clockStep (s : State) (ch : ChanNo) : s.clockStep.chan ch = s.chan ch := rfl

/-- What DMA_ABORT leaves in a channel (40_bus_dma.md R64, R66). -/
@[simp] theorem State.chan_abortMask (s : State) (v : Word) (ch : ChanNo) :
    (s.abortMask v).chan ch =
      if v.getLsbD ch.toNat = true ∧ ch.toNat < s.params.dmaChannels then (s.chan ch).abort
      else s.chan ch := by
  simp [State.chan, State.abortMask]

/-- A channel right after launch (70_reset_and_hazards.md R135). -/
@[simp] theorem State.chan_launch (p : Params) (c : Word) (l : BitVec 256) (m : Memory) (ch : ChanNo) :
    (State.launch p c l m).chan ch = DmaChannel.atReset := by
  simp [State.chan, State.launch]

end Sys2Proof.Machine
end

