-- ==== Sys2Proof/Laws/Bus.lean ====
section
/-! SUPPORT. The register map and the bus: where each register is, what an access reaches, and what a
register write leaves as it was. -/

namespace Sys2Proof.Machine

/-! ### The register map -/

theorem DmaReg.offset_lt (r : DmaReg) : r.offset < 0x20 := by cases r <;> decide

theorem DmaReg.offset_mod (r : DmaReg) : r.offset % 4 = 0 := by cases r <;> decide

theorem Reg.offset_mod (r : Reg) : r.offset % 4 = 0 := by
  cases r <;> simp only [Reg.offset]
  rename_i ch r
  have := r.offset_mod
  omega

theorem Reg.offset_lt (r : Reg) : r.offset < 0x300 := by
  cases r <;> simp only [Reg.offset] <;> try omega
  rename_i ch r
  have := r.offset_lt
  have := ch.isLt
  omega

theorem dmaRegs_find (r : DmaReg) : dmaRegs.find? (fun q => q.offset == r.offset) = some r := by
  cases r <;> rfl

/-- An existing register is at its offset. -/
theorem Params.regAt_offset {p : Params} {r : Reg} (h : p.hasReg r = true) :
    p.regAt r.offset = some r := by
  cases r
  case dma ch r =>
    have h1 := ch.isLt
    have h2 := r.offset_lt
    have e1 : (0x100 + 0x20 * ch.toNat + r.offset - 0x100) / 0x20 = ch.toNat := by omega
    have e2 : (0x100 + 0x20 * ch.toNat + r.offset - 0x100) % 0x20 = r.offset := by omega
    have h3 : p.hasChannel ch = true := h
    have h4 : ¬ (0x100 + 0x20 * ch.toNat + r.offset < 0x100) := by omega
    simp only [Params.regAt, Reg.offset, e1, e2, h4, if_false, BitVec.ofNat_toNat,
      BitVec.setWidth_eq, h3, and_true, show ch.toNat < 16 from h1, if_true, dmaRegs_find,
      Option.map_some]
  all_goals rfl

/-- What is at an offset is an existing register of that offset. -/
theorem Params.regAt_some {p : Params} {off : Nat} {r : Reg} (h : p.regAt off = some r) :
    r.offset = off ∧ p.hasReg r = true := by
  unfold Params.regAt at h
  split at h
  · have h1 := List.find?_some h
    have h2 := List.mem_of_find?_eq_some h
    refine ⟨by simpa using h1, ?_⟩
    fin_cases h2 <;> rfl
  · dsimp only at h
    split at h
    · rename_i hlo hn
      obtain ⟨q, hq, rfl⟩ := Option.map_eq_some_iff.mp h
      have h1 := List.find?_some hq
      have h1' : q.offset = (off - 0x100) % 0x20 := by simpa using h1
      refine ⟨?_, hn.2⟩
      have : (BitVec.ofNat 4 ((off - 0x100) / 0x20)).toNat = (off - 0x100) / 0x20 := by
        rw [BitVec.toNat_ofNat]
        exact Nat.mod_eq_of_lt hn.1
      simp only [Reg.offset, this, h1']
      omega
    · cases h

/-- A register's bus address, as a number. -/
theorem Params.regAddr_toNat {p : Params} (hp : p.Legal) (r : Reg) :
    (p.regAddr r).toNat = p.blockBase.toNat + r.offset := by
  have h1 := r.offset_lt
  have h2 := p.blockBase.isLt
  have h3 := hp.blockBase_aligned
  unfold Params.regAddr
  rw [BitVec.toNat_add, BitVec.toNat_ofNat]
  omega

/-- Distinct registers have distinct addresses. -/
theorem Reg.offset_inj {p : Params} {r q : Reg} (hr : p.hasReg r = true) (hq : p.hasReg q = true)
    (h : r.offset = q.offset) : r = q := by
  have h1 := Params.regAt_offset hr
  have h2 := Params.regAt_offset hq
  rw [h] at h1
  exact Option.some.inj (h1.symm.trans h2)

/-! ### What an access reaches -/

/-- A word access at a register's address reaches the register. -/
theorem Params.resolve_regAddr {p : Params} (hp : p.Legal) {r : Reg} (h : p.hasReg r = true) :
    p.resolve (p.regAddr r) .word = some (.reg r) := by
  have e := p.regAddr_toNat hp r
  have h1 := r.offset_lt
  have h2 := r.offset_mod
  have h3 := hp.blockBase_aligned
  have h4 := hp.ram_block
  unfold Params.resolve
  have hz : Size.word.bytes = 4 := rfl
  rw [hz, if_neg (by rw [e]; omega), if_pos (by rw [e]; omega), if_pos ⟨rfl, by rw [e]; omega⟩, e,
    Nat.add_sub_cancel_left, Params.regAt_offset h]
  rfl

/-- A word access at CLOCK_ADDR reaches the clock. -/
theorem Params.resolve_clockAddr {p : Params} (hp : p.Legal) :
    p.resolve p.clockAddr .word = some .clock := by
  have h1 := hp.ram_clock
  have h2 := hp.block_clock
  unfold Params.resolve
  have hz : Size.word.bytes = 4 := rfl
  rw [hz, if_neg (by omega), if_neg (by omega), if_pos rfl]
  rfl

/-- An aligned word inside RAM is reached. -/
theorem Params.resolve_ram_word {p : Params} {a : Word} (h1 : p.ramBase.toNat ≤ a.toNat)
    (h2 : a.toNat + 4 ≤ p.ramBase.toNat + p.ramSize) (h3 : a.toNat % 4 = 0) :
    p.resolve a .word = some (.ram a.toNat) := by
  unfold Params.resolve
  rw [if_pos ⟨h1, h2⟩, if_pos (Or.inr h3)]

/-- Everything an access can reach, with the region it was found in (20_memory.md R36, R37). -/
theorem Params.resolve_cases {p : Params} {a : Word} {z : Size} {t : Target}
    (h : p.resolve a z = some t) :
    (t = .ram a.toNat ∧ p.ramBase.toNat ≤ a.toNat ∧
      a.toNat + z.bytes ≤ p.ramBase.toNat + p.ramSize ∧ (z = .byte ∨ a.toNat % 4 = 0)) ∨
    (∃ r, t = .reg r ∧ z = .word ∧ p.hasReg r = true ∧ p.blockBase.toNat ≤ a.toNat ∧
      a.toNat = p.blockBase.toNat + r.offset) ∨
    (t = .clock ∧ a = p.clockAddr ∧ z = .word) := by
  unfold Params.resolve at h
  split at h
  · split at h
    · rename_i h1 h2
      exact .inl ⟨(Option.some.inj h).symm, h1.1, h1.2, h2⟩
    · cases h
  · split at h
    · split at h
      · rename_i h1 h2
        obtain ⟨r, hr, rfl⟩ := Option.map_eq_some_iff.mp h
        obtain ⟨e, hp⟩ := Params.regAt_some hr
        exact .inr (.inl ⟨r, rfl, h2.1, hp, h1.1, by omega⟩)
      · cases h
    · split at h
      · split at h
        · rename_i h1 h2
          exact .inr (.inr ⟨(Option.some.inj h).symm, h1, h2⟩)
        · cases h
      · cases h

/-! ### Register writes -/

/-- The fields that a register write never changes (40_bus_dma.md R64). -/
structure WriteKeeps (s t : State) : Prop where
  params : t.params = s.params
  gcState : t.gcState = s.gcState
  gcOvfTally : t.gcOvfTally = s.gcOvfTally
  gcPrevSample : t.gcPrevSample = s.gcPrevSample
  cx : t.cx = s.cx
  gc : t.gc = s.gc
  ts : t.ts = s.ts
  tsBase : t.tsBase = s.tsBase
  tsCapacity : t.tsCapacity = s.tsCapacity
  clock : t.clock = s.clock
  levels : t.levels = s.levels
  faultMark : t.faultMark = s.faultMark
  program : t.program = s.program
  pc : t.pc = s.pc
  last : t.last = s.last
  t0 : t.t0 = s.t0
  inFlight : t.inFlight = s.inFlight
  schedule : t.schedule = s.schedule
  ec_pin : t.ec.pin = s.ec.pin
  gt_pin : t.gt.pin = s.gt.pin
  gt_prescale : t.gt.prescale = s.gt.prescale
  gt_dir : t.gt.dir = s.gt.dir

theorem WriteKeeps.refl (s : State) : WriteKeeps s s := by constructor <;> rfl

/-- A register write keeps them, and RAM. -/
theorem State.regWrite_keeps (s : State) (r : Reg) (v : Word) :
    WriteKeeps s (s.regWrite r v) ∧ (s.regWrite r v).mem = s.mem := by
  cases r <;> simp only [State.regWrite]
  all_goals exact ⟨by constructor <;> simp, by simp⟩

/-- What a register write leaves in each channel. -/
theorem State.chan_regWrite (s : State) (r : Reg) (v : Word) (ch : ChanNo) :
    (s.regWrite r v).chan ch =
      match r with
      | .dmaAbort =>
        if v.getLsbD ch.toNat = true ∧ ch.toNat < s.params.dmaChannels then (s.chan ch).abort
        else s.chan ch
      | .dma c q => if ch = c then (s.chan c).writeReg q v else s.chan ch
      | _ => s.chan ch := by
  cases r
  case dmaAbort => exact State.chan_abortMask s v ch
  case dma c q => exact State.chan_setChan s c ch _
  all_goals rfl

/-- Everything a bus write can do (20_memory.md R39). -/
theorem State.memWrite_cases {s s' : State} {a : Word} {z : Size} {v : Word}
    (h : s.memWrite a z v = some s') :
    (z = .byte ∧ s' = { s with mem := s.mem.write a.toNat (v.extractLsb' 0 8) } ∧
      s.params.ramBase.toNat ≤ a.toNat ∧ a.toNat < s.params.ramBase.toNat + s.params.ramSize) ∨
    (z = .word ∧ s' = { s with mem := s.mem.write32 a.toNat v } ∧ a.toNat % 4 = 0 ∧
      s.params.ramBase.toNat ≤ a.toNat ∧
      a.toNat + 4 ≤ s.params.ramBase.toNat + s.params.ramSize) ∨
    (∃ r, z = .word ∧ s' = s.regWrite r v ∧ s.params.hasReg r = true ∧
      a.toNat = s.params.blockBase.toNat + r.offset) ∨
    (z = .word ∧ s' = s ∧ a = s.params.clockAddr) := by
  obtain ⟨t, ht, rfl⟩ := Option.map_eq_some_iff.mp h
  rcases Params.resolve_cases ht with ⟨rfl, h1, h2, h3⟩ | ⟨r, rfl, h1, h2, h3, h4⟩ | ⟨rfl, h1, h2⟩
  · cases z
    · exact .inl ⟨rfl, rfl, h1, by simp only [Size.bytes] at h2; omega⟩
    · refine .inr (.inl ⟨rfl, rfl, ?_, h1, h2⟩)
      rcases h3 with h3 | h3
      · cases h3
      · exact h3
  · exact .inr (.inr (.inl ⟨r, h1, rfl, h2, h4⟩))
  · exact .inr (.inr (.inr ⟨h2, rfl, h1⟩))

/-- A bus write keeps what a register write keeps. -/
theorem State.memWrite_keeps {s s' : State} {a : Word} {z : Size} {v : Word}
    (h : s.memWrite a z v = some s') : WriteKeeps s s' := by
  rcases State.memWrite_cases h with ⟨_, rfl, _⟩ | ⟨_, rfl, _⟩ | ⟨r, _, rfl, _⟩ | ⟨_, rfl, _⟩
  · constructor <;> rfl
  · constructor <;> rfl
  · exact (State.regWrite_keeps s r v).1
  · exact WriteKeeps.refl _

/-- A register reached through the bus is written as its write action says. -/
theorem State.memWrite_reg {s : State} (hp : s.params.Legal) {r : Reg}
    (h : s.params.hasReg r = true) (v : Word) :
    s.memWrite (s.params.regAddr r) .word v = some (s.regWrite r v) := by
  simp only [State.memWrite, Params.resolve_regAddr hp h, Option.map_some, State.writeTarget]

/-- A register reached through the bus reads as its table says. -/
theorem State.memRead_reg {s : State} (hp : s.params.Legal) {r : Reg}
    (h : s.params.hasReg r = true) :
    s.memRead (s.params.regAddr r) .word = some (s.regRead r) := by
  simp only [State.memRead, Params.resolve_regAddr hp h, Option.map_some, State.readTarget]

/-- The clock reads as CLOCK. -/
theorem State.memRead_clock {s : State} (hp : s.params.Legal) :
    s.memRead s.params.clockAddr .word = some s.clock := by
  simp only [State.memRead, Params.resolve_clockAddr hp, Option.map_some, State.readTarget]

end Sys2Proof.Machine
end

