-- ==== Sys2Proof/Laws/Agents.lean ====
section
/-! SUPPORT. What the agents' steps can do: events, edges, ticks, transfers, a turn and a run of turns. -/

namespace Sys2Proof.Machine

/-! ### Channel actions -/

/-- A fresh sequence on an enabled idle channel; anything else leaves the sequence as it was
(40_bus_dma.md R65). -/
theorem DmaChannel.trigger_cases (c : DmaChannel) :
    (c.en = true ∧ c.busy = false ∧ c.reload ≠ 0#32 ∧
      c.trigger = { c with count := c.reload, busy := true, pending := 0 }) ∨
    (c.en = true ∧ c.busy = false ∧ c.reload = 0#32 ∧ c.trigger = { c with count := 0#32 }) ∨
    ((c.en = false ∨ c.busy = true) ∧ c.trigger = c) := by
  unfold DmaChannel.trigger
  cases he : c.en <;> cases hb : c.busy <;> by_cases hr : c.reload = 0#32 <;> simp [hr]

/-- An event changes PENDING at most. -/
theorem DmaChannel.deliver_cases (c : DmaChannel) (tag : BitVec 6) (a : Bool) :
    (c.takes tag a = true ∧ c.deliver tag a = { c with pending := c.pending + 1 }) ∨
    (c.takes tag a = false ∧ c.deliver tag a = c) := by
  unfold DmaChannel.deliver
  cases h : c.takes tag a <;> simp

theorem mem_allChannels (ch : ChanNo) : ch ∈ allChannels := by
  revert ch; decide

/-! ### Events -/

/-- Everything an event can do where no channel overruns (40_bus_dma.md R68). -/
theorem State.emit_ok {s s' : State} {tag : BitVec 6} {a : BitVec 16}
    (h : s.emit tag a = .ok s') :
    (∀ ch, s'.chan ch =
      if ch.toNat < s.params.dmaChannels then (s.chan ch).deliver tag (a.getLsbD ch.toNat)
      else s.chan ch) ∧
    s' = { s with dma := s'.dma } ∧
    (∀ ch, s.params.hasChannel ch = true → (s.chan ch).takes tag (a.getLsbD ch.toNat) = true →
      s.params.limitReached (s.chan ch) = false) := by
  unfold State.emit at h
  split at h
  · cases h
  · rename_i ho
    obtain rfl := Except.ok.inj h
    refine ⟨fun ch => by simp [State.chan, -BitVec.getLsbD_eq_getElem], rfl, fun ch h1 h2 => ?_⟩
    by_contra hl
    apply ho
    unfold State.overruns
    rw [List.any_eq_true]
    exact ⟨ch, mem_allChannels ch, by simp_all⟩

/-- An event's only fault is an overrun (40_bus_dma.md R68). -/
theorem State.emit_error {s : State} {tag : BitVec 6} {a : BitVec 16} {f : Fault}
    (h : s.emit tag a = .error f) : f = .dreqOverrun := by
  unfold State.emit at h
  split at h
  · exact (Except.error.inj h).symm
  · cases h

/-- Everything an edge can do (41_edge_counter.md R75, R76). -/
theorem State.edge_ok {s s' : State} {p : BitVec 8} {a : BitVec 16} (h : s.edge p a = .ok s') :
    (s.qualifies p = false ∧ s' = s.toggle p) ∨
    (s.qualifies p = true ∧ s.ec.atWrap = false ∧
      s' = { s.toggle p with ec := s.ec.countEdge }) ∨
    (s.qualifies p = true ∧ s.ec.atWrap = true ∧
      State.emit { s.toggle p with ec := s.ec.countEdge } ecTag a = .ok s') := by
  unfold State.edge at h
  dsimp only at h
  split at h
  · rename_i hq
    split at h
    · rename_i hw
      exact .inr (.inr ⟨hq, hw, h⟩)
    · rename_i hw
      exact .inr (.inl ⟨hq, by simpa using hw, (Except.ok.inj h).symm⟩)
  · rename_i hq
    exact .inl ⟨by simpa using hq, (Except.ok.inj h).symm⟩

/-- Everything a tick can do (43_gate_timer.md R89). -/
theorem State.gtTick_ok {s s' : State} {a : BitVec 16} (h : s.gtTick a = .ok s') :
    (s.gt.expires = false ∧ s' = { s with gt := s.gt.tick }) ∨
    (s.gt.expires = true ∧ State.emit { s with gt := s.gt.tick } gtTag a = .ok s') := by
  unfold State.gtTick at h
  dsimp only at h
  split at h
  · rename_i hx
    exact .inr ⟨hx, h⟩
  · rename_i hx
    exact .inl ⟨by simpa using hx, (Except.ok.inj h).symm⟩

/-- A tick leaves the enable, the mode, the limit, the prescale and the pin. -/
theorem GateTimer.tick_keeps (c : GateTimer) :
    c.tick.en = c.en ∧ c.tick.phCorrect = c.phCorrect ∧ c.tick.wrap = c.wrap ∧
      c.tick.prescale = c.prescale ∧ c.tick.pin = c.pin := by
  unfold GateTimer.tick
  split <;> split <;> try split
  all_goals exact ⟨rfl, rfl, rfl, rfl, rfl⟩

/-- Everything a transfer can do (40_bus_dma.md R69, R70). -/
theorem State.transfer_ok {s s' : State} {ch : ChanNo} (h : s.transfer ch = .ok s') :
    s.params.dmaRegister (s.chan ch).writeAddr = false ∧
    (((s.params.resolve (s.chan ch).readAddr (s.chan ch).accessSize = none ∨
        s.params.resolve (s.chan ch).writeAddr (s.chan ch).accessSize = none) ∧
      s' = s.setChan ch (s.chan ch).busFail) ∨
    (∃ v u, s.memRead (s.chan ch).readAddr (s.chan ch).accessSize = some v ∧
      s.memWrite (s.chan ch).writeAddr (s.chan ch).accessSize v = some u ∧
      s' = u.setChan ch (s.chan ch).served)) := by
  unfold State.transfer at h
  dsimp only at h
  split at h
  · cases h
  · rename_i hd
    refine ⟨by simpa using hd, ?_⟩
    split at h
    · rename_i hr
      exact .inl ⟨.inl (by simpa [State.memRead] using hr), (Except.ok.inj h).symm⟩
    · rename_i v hr
      split at h
      · rename_i hw
        exact .inl ⟨.inr (by simpa [State.memWrite] using hw), (Except.ok.inj h).symm⟩
      · rename_i u hw
        exact .inr ⟨v, u, hr, hw, (Except.ok.inj h).symm⟩

/-- A transfer's only fault is a destination among the DMA registers (40_bus_dma.md R69). -/
theorem State.transfer_error {s : State} {ch : ChanNo} {f : Fault}
    (h : s.transfer ch = .error f) : f = .dmaRegisterTarget := by
  unfold State.transfer at h
  dsimp only at h
  split at h
  · exact (Except.error.inj h).symm
  · split at h
    · cases h
    · split at h <;> cases h

/-- A write that no DMA register takes leaves every channel (40_bus_dma.md R69). -/
theorem State.memWrite_chan {s u : State} {a : Word} {z : Size} {v : Word} (hp : s.params.Legal)
    (hd : s.params.dmaRegister a = false) (h : s.memWrite a z v = some u) (ch : ChanNo) :
    u.chan ch = s.chan ch := by
  rcases State.memWrite_cases h with ⟨_, rfl, _⟩ | ⟨_, rfl, _⟩ | ⟨r, _, rfl, hr, ha⟩ | ⟨_, rfl, _⟩
  · rfl
  · rfl
  · rw [State.chan_regWrite]
    simp only [Params.dmaRegister, Bool.or_eq_false_iff, beq_eq_false_iff_ne, ne_eq,
      Bool.and_eq_false_iff, decide_eq_false_iff_not] at hd
    have hl := r.offset_lt
    cases r
    case dmaAbort =>
      exfalso
      apply hd.1
      apply BitVec.eq_of_toNat_eq
      rw [Params.regAddr_toNat hp]
      exact ha
    case dma c q =>
      exfalso
      simp only [Reg.offset] at ha hl
      omega
    all_goals rfl
  · rfl

/-! ### One turn -/

/-- Everything one turn can do. -/
theorem State.agentStep_cases (s : State) (t : Turn) :
    (s.agentEnabled t = false ∧ s.agentStep t = s) ∨
    (s.agentEnabled t = true ∧ ∃ s', s.agentAct t = .ok s' ∧ s.agentStep t = s') ∨
    (s.agentEnabled t = true ∧ ∃ f, s.agentAct t = .error f ∧
      s.agentStep t = { s with faultMark := some f }) := by
  unfold State.agentStep
  cases he : s.agentEnabled t
  · exact .inl ⟨rfl, by simp⟩
  · right
    cases ha : s.agentAct t with
    | ok s' => exact .inl ⟨rfl, s', rfl, by simp⟩
    | error f => exact .inr ⟨rfl, f, rfl, by simp⟩

/-- The fields no agent's step changes: the parameters, the components' registers, and the control
thread's own state, the command in flight included. -/
structure AgentKeeps (s t : State) : Prop where
  params : t.params = s.params
  gcState : t.gcState = s.gcState
  gcOvfTally : t.gcOvfTally = s.gcOvfTally
  gcPrevSample : t.gcPrevSample = s.gcPrevSample
  cx : t.cx = s.cx
  gc : t.gc = s.gc
  ts : t.ts = s.ts
  tsBase : t.tsBase = s.tsBase
  tsCapacity : t.tsCapacity = s.tsCapacity
  program : t.program = s.program
  pc : t.pc = s.pc
  last : t.last = s.last
  t0 : t.t0 = s.t0
  inFlight : t.inFlight = s.inFlight
  schedule : t.schedule = s.schedule
  ec_pin : t.ec.pin = s.ec.pin
  gt_pin : t.gt.pin = s.gt.pin
  gt_prescale : t.gt.prescale = s.gt.prescale

theorem AgentKeeps.refl (s : State) : AgentKeeps s s := by constructor <;> rfl

theorem AgentKeeps.trans {s t u : State} (h : AgentKeeps s t) (h' : AgentKeeps t u) :
    AgentKeeps s u := by
  constructor
  · exact h'.params.trans h.params
  · exact h'.gcState.trans h.gcState
  · exact h'.gcOvfTally.trans h.gcOvfTally
  · exact h'.gcPrevSample.trans h.gcPrevSample
  · exact h'.cx.trans h.cx
  · exact h'.gc.trans h.gc
  · exact h'.ts.trans h.ts
  · exact h'.tsBase.trans h.tsBase
  · exact h'.tsCapacity.trans h.tsCapacity
  · exact h'.program.trans h.program
  · exact h'.pc.trans h.pc
  · exact h'.last.trans h.last
  · exact h'.t0.trans h.t0
  · exact h'.inFlight.trans h.inFlight
  · exact h'.schedule.trans h.schedule
  · exact h'.ec_pin.trans h.ec_pin
  · exact h'.gt_pin.trans h.gt_pin
  · exact h'.gt_prescale.trans h.gt_prescale

theorem State.emit_keeps {s s' : State} {tag : BitVec 6} {a : BitVec 16}
    (h : s.emit tag a = .ok s') : AgentKeeps s s' := by
  have e := (State.emit_ok h).2.1
  rw [e]
  constructor <;> rfl

/-- An agent's step keeps them. -/
theorem State.agentAct_keeps {s s' : State} {t : Turn} (h : s.agentAct t = .ok s') :
    AgentKeeps s s' := by
  cases t with
  | control => obtain rfl := Except.ok.inj h; exact AgentKeeps.refl _
  | edge p a =>
    rcases State.edge_ok h with ⟨_, rfl⟩ | ⟨_, _, rfl⟩ | ⟨_, _, he⟩
    · constructor <;> rfl
    · constructor <;> rfl
    · refine AgentKeeps.trans ?_ (State.emit_keeps he)
      constructor <;> rfl
  | tick a =>
    have hk := s.gt.tick_keeps
    have h0 : AgentKeeps s { s with gt := s.gt.tick } := by
      constructor <;> first | rfl | exact hk.2.2.2.2 | exact hk.2.2.2.1
    rcases State.gtTick_ok h with ⟨_, rfl⟩ | ⟨_, he⟩
    · exact h0
    · exact h0.trans (State.emit_keeps he)
  | transfer ch =>
    obtain ⟨_, ⟨_, rfl⟩ | ⟨v, u, _, hw, rfl⟩⟩ := State.transfer_ok h
    · constructor <;> rfl
    · have hk := State.memWrite_keeps hw
      constructor
      · exact hk.params
      · exact hk.gcState
      · exact hk.gcOvfTally
      · exact hk.gcPrevSample
      · exact hk.cx
      · exact hk.gc
      · exact hk.ts
      · exact hk.tsBase
      · exact hk.tsCapacity
      · exact hk.program
      · exact hk.pc
      · exact hk.last
      · exact hk.t0
      · exact hk.inFlight
      · exact hk.schedule
      · exact hk.ec_pin
      · exact hk.gt_pin
      · exact hk.gt_prescale
  | clock => obtain rfl := Except.ok.inj h; constructor <;> rfl

/-- A turn keeps them. -/
theorem State.agentStep_keeps (s : State) (t : Turn) : AgentKeeps s (s.agentStep t) := by
  rcases s.agentStep_cases t with ⟨_, e⟩ | ⟨_, s', h, e⟩ | ⟨_, f, _, e⟩
  · rw [e]; exact AgentKeeps.refl _
  · rw [e]; exact State.agentAct_keeps h
  · rw [e]; constructor <;> rfl

/-! ### Runs of turns -/

@[simp] theorem State.runTurns_nil (s : State) : State.runTurns [] s = s := rfl

/-- A turn of a machine without a fault mark. -/
theorem State.runTurns_cons {s : State} (h : s.faultMark = none) (t : Turn) (ts : List Turn) :
    State.runTurns (t :: ts) s = State.runTurns ts (s.agentStep t) := by
  simp [State.runTurns, h]

/-- A faulted machine takes no turn (60_exceptions.md R121). -/
theorem State.runTurns_faulted {s : State} {f : Fault} (h : s.faultMark = some f) (ts : List Turn) :
    State.runTurns ts s = s := by
  cases ts <;> simp [State.runTurns, h]

/-- Where a run ends without a fault mark, it had none at the start. -/
theorem State.faultMark_of_runTurns {s : State} {ts : List Turn}
    (h : (State.runTurns ts s).faultMark = none) : s.faultMark = none := by
  cases hf : s.faultMark with
  | none => rfl
  | some f => rw [State.runTurns_faulted hf, hf] at h; cases h

/-- Runs join. -/
theorem State.runTurns_append (ts us : List Turn) (s : State) :
    State.runTurns (ts ++ us) s = State.runTurns us (State.runTurns ts s) := by
  induction ts generalizing s with
  | nil => rfl
  | cons t ts ih =>
    cases hf : s.faultMark with
    | some f => simp [State.runTurns_faulted hf]
    | none =>
      rw [List.cons_append, State.runTurns_cons hf, State.runTurns_cons hf, ih]

/-- A run of turns keeps what each turn keeps. -/
theorem State.runTurns_keeps (ts : List Turn) (s : State) : AgentKeeps s (State.runTurns ts s) := by
  induction ts generalizing s with
  | nil => exact AgentKeeps.refl _
  | cons t ts ih =>
    cases hf : s.faultMark with
    | some f => rw [State.runTurns_faulted hf]; exact AgentKeeps.refl _
    | none => rw [State.runTurns_cons hf]; exact (s.agentStep_keeps t).trans (ih _)

/-! ### Quiet schedules -/

/-- Quiet turns stay quiet after some are taken. -/
theorem Quiet.drop {n : Nat} {s t : State} (h : Quiet (n + 1) s)
    (ht : t.schedule = s.schedule.drop 1) : Quiet n t := by
  intro x hx
  rw [ht] at hx
  apply h
  cases hs : s.schedule with
  | nil => simp [hs] at hx
  | cons y ys => simp [hs] at hx ⊢; exact .inr hx

/-- More quiet turns are quiet in fewer. -/
theorem Quiet.mono {m n : Nat} {s t : State} (h : Quiet n s) (hm : m ≤ n)
    (ht : t.schedule = s.schedule) : Quiet m t := by
  intro x hx
  rw [ht] at hx
  exact h x (List.take_subset_take_left _ hm hx)

end Sys2Proof.Machine
end

