-- ==== Sys2Proof/Laws/MicroSteps.lean ====
section
/-! SUPPORT. What each micro-step of the start commands leaves in each field of State, each true by rfl,
so that no proof unfolds one. The zeroing of a slot stands in Laws/Steps.lean. -/

namespace Sys2Proof.Machine

/-! ### `cxAbortStep` -/

@[simp] theorem State.cxAbortStep_params (s : State) (cx : ChanNo) : (s.cxAbortStep cx).params = s.params := rfl
@[simp] theorem State.cxAbortStep_ec (s : State) (cx : ChanNo) : (s.cxAbortStep cx).ec = s.ec := rfl
@[simp] theorem State.cxAbortStep_gt (s : State) (cx : ChanNo) : (s.cxAbortStep cx).gt = s.gt := rfl
@[simp] theorem State.cxAbortStep_cxScratch (s : State) (cx : ChanNo) : (s.cxAbortStep cx).cxScratch = s.cxScratch := rfl
@[simp] theorem State.cxAbortStep_gcStopval (s : State) (cx : ChanNo) : (s.cxAbortStep cx).gcStopval = s.gcStopval := rfl
@[simp] theorem State.cxAbortStep_gcState (s : State) (cx : ChanNo) : (s.cxAbortStep cx).gcState = s.gcState := rfl
@[simp] theorem State.cxAbortStep_gcOvfTally (s : State) (cx : ChanNo) : (s.cxAbortStep cx).gcOvfTally = s.gcOvfTally := rfl
@[simp] theorem State.cxAbortStep_gcPrevSample (s : State) (cx : ChanNo) : (s.cxAbortStep cx).gcPrevSample = s.gcPrevSample := rfl
@[simp] theorem State.cxAbortStep_cx (s : State) (cx : ChanNo) : (s.cxAbortStep cx).cx = s.cx := rfl
@[simp] theorem State.cxAbortStep_gc (s : State) (cx : ChanNo) : (s.cxAbortStep cx).gc = s.gc := rfl
@[simp] theorem State.cxAbortStep_ts (s : State) (cx : ChanNo) : (s.cxAbortStep cx).ts = s.ts := rfl
@[simp] theorem State.cxAbortStep_tsBase (s : State) (cx : ChanNo) : (s.cxAbortStep cx).tsBase = s.tsBase := rfl
@[simp] theorem State.cxAbortStep_tsCapacity (s : State) (cx : ChanNo) : (s.cxAbortStep cx).tsCapacity = s.tsCapacity := rfl
@[simp] theorem State.cxAbortStep_clock (s : State) (cx : ChanNo) : (s.cxAbortStep cx).clock = s.clock := rfl
@[simp] theorem State.cxAbortStep_levels (s : State) (cx : ChanNo) : (s.cxAbortStep cx).levels = s.levels := rfl
@[simp] theorem State.cxAbortStep_mem (s : State) (cx : ChanNo) : (s.cxAbortStep cx).mem = s.mem := rfl
@[simp] theorem State.cxAbortStep_faultMark (s : State) (cx : ChanNo) : (s.cxAbortStep cx).faultMark = s.faultMark := rfl
@[simp] theorem State.cxAbortStep_program (s : State) (cx : ChanNo) : (s.cxAbortStep cx).program = s.program := rfl
@[simp] theorem State.cxAbortStep_pc (s : State) (cx : ChanNo) : (s.cxAbortStep cx).pc = s.pc := rfl
@[simp] theorem State.cxAbortStep_last (s : State) (cx : ChanNo) : (s.cxAbortStep cx).last = s.last := rfl
@[simp] theorem State.cxAbortStep_t0 (s : State) (cx : ChanNo) : (s.cxAbortStep cx).t0 = s.t0 := rfl
@[simp] theorem State.cxAbortStep_inFlight (s : State) (cx : ChanNo) : (s.cxAbortStep cx).inFlight = some (.cxArm cx) := rfl
@[simp] theorem State.cxAbortStep_schedule (s : State) (cx : ChanNo) : (s.cxAbortStep cx).schedule = s.schedule := rfl
@[simp] theorem State.chan_cxAbortStep (s : State) (cx : ChanNo) (d : ChanNo) :
    (s.cxAbortStep cx).chan d = if d = cx then (s.chan cx).abort else s.chan d :=
  State.chan_setChan _ _ _ _

/-! ### `cxArmStep` -/

@[simp] theorem State.cxArmStep_params (s : State) (cx : ChanNo) : (s.cxArmStep cx).params = s.params := rfl
@[simp] theorem State.cxArmStep_ec (s : State) (cx : ChanNo) : (s.cxArmStep cx).ec = s.ec := rfl
@[simp] theorem State.cxArmStep_gt (s : State) (cx : ChanNo) : (s.cxArmStep cx).gt = s.gt := rfl
@[simp] theorem State.cxArmStep_cxScratch (s : State) (cx : ChanNo) : (s.cxArmStep cx).cxScratch = s.cxScratch := rfl
@[simp] theorem State.cxArmStep_gcStopval (s : State) (cx : ChanNo) : (s.cxArmStep cx).gcStopval = s.gcStopval := rfl
@[simp] theorem State.cxArmStep_gcState (s : State) (cx : ChanNo) : (s.cxArmStep cx).gcState = s.gcState := rfl
@[simp] theorem State.cxArmStep_gcOvfTally (s : State) (cx : ChanNo) : (s.cxArmStep cx).gcOvfTally = s.gcOvfTally := rfl
@[simp] theorem State.cxArmStep_gcPrevSample (s : State) (cx : ChanNo) : (s.cxArmStep cx).gcPrevSample = s.gcPrevSample := rfl
@[simp] theorem State.cxArmStep_cx (s : State) (cx : ChanNo) : (s.cxArmStep cx).cx = s.cx := rfl
@[simp] theorem State.cxArmStep_gc (s : State) (cx : ChanNo) : (s.cxArmStep cx).gc = s.gc := rfl
@[simp] theorem State.cxArmStep_ts (s : State) (cx : ChanNo) : (s.cxArmStep cx).ts = s.ts := rfl
@[simp] theorem State.cxArmStep_tsBase (s : State) (cx : ChanNo) : (s.cxArmStep cx).tsBase = s.tsBase := rfl
@[simp] theorem State.cxArmStep_tsCapacity (s : State) (cx : ChanNo) : (s.cxArmStep cx).tsCapacity = s.tsCapacity := rfl
@[simp] theorem State.cxArmStep_clock (s : State) (cx : ChanNo) : (s.cxArmStep cx).clock = s.clock := rfl
@[simp] theorem State.cxArmStep_levels (s : State) (cx : ChanNo) : (s.cxArmStep cx).levels = s.levels := rfl
@[simp] theorem State.cxArmStep_mem (s : State) (cx : ChanNo) : (s.cxArmStep cx).mem = s.mem := rfl
@[simp] theorem State.cxArmStep_faultMark (s : State) (cx : ChanNo) : (s.cxArmStep cx).faultMark = s.faultMark := rfl
@[simp] theorem State.cxArmStep_program (s : State) (cx : ChanNo) : (s.cxArmStep cx).program = s.program := rfl
@[simp] theorem State.cxArmStep_pc (s : State) (cx : ChanNo) : (s.cxArmStep cx).pc = s.pc := rfl
@[simp] theorem State.cxArmStep_last (s : State) (cx : ChanNo) : (s.cxArmStep cx).last = ⟨0#8, 0#32, false⟩ := rfl
@[simp] theorem State.cxArmStep_t0 (s : State) (cx : ChanNo) : (s.cxArmStep cx).t0 = s.t0 := rfl
@[simp] theorem State.cxArmStep_inFlight (s : State) (cx : ChanNo) : (s.cxArmStep cx).inFlight = none := rfl
@[simp] theorem State.cxArmStep_schedule (s : State) (cx : ChanNo) : (s.cxArmStep cx).schedule = s.schedule := rfl
@[simp] theorem State.chan_cxArmStep (s : State) (cx : ChanNo) (d : ChanNo) :
    (s.cxArmStep cx).chan d = if d = cx then (s.chan cx).arm uint32Max else s.chan d :=
  State.chan_setChan _ _ _ _

/-! ### `gcStopStep` -/

@[simp] theorem State.gcStopStep_params (s : State) (gc : ChanNo) : (s.gcStopStep gc).params = s.params := rfl
@[simp] theorem State.gcStopStep_ec (s : State) (gc : ChanNo) : (s.gcStopStep gc).ec = { s.ec with en := false } := rfl
@[simp] theorem State.gcStopStep_gt (s : State) (gc : ChanNo) : (s.gcStopStep gc).gt = { s.gt with en := false } := rfl
@[simp] theorem State.gcStopStep_cxScratch (s : State) (gc : ChanNo) : (s.gcStopStep gc).cxScratch = s.cxScratch := rfl
@[simp] theorem State.gcStopStep_gcStopval (s : State) (gc : ChanNo) : (s.gcStopStep gc).gcStopval = s.gcStopval := rfl
@[simp] theorem State.gcStopStep_gcState (s : State) (gc : ChanNo) : (s.gcStopStep gc).gcState = s.gcState := rfl
@[simp] theorem State.gcStopStep_gcOvfTally (s : State) (gc : ChanNo) : (s.gcStopStep gc).gcOvfTally = s.gcOvfTally := rfl
@[simp] theorem State.gcStopStep_gcPrevSample (s : State) (gc : ChanNo) : (s.gcStopStep gc).gcPrevSample = s.gcPrevSample := rfl
@[simp] theorem State.gcStopStep_cx (s : State) (gc : ChanNo) : (s.gcStopStep gc).cx = s.cx := rfl
@[simp] theorem State.gcStopStep_gc (s : State) (gc : ChanNo) : (s.gcStopStep gc).gc = s.gc := rfl
@[simp] theorem State.gcStopStep_ts (s : State) (gc : ChanNo) : (s.gcStopStep gc).ts = s.ts := rfl
@[simp] theorem State.gcStopStep_tsBase (s : State) (gc : ChanNo) : (s.gcStopStep gc).tsBase = s.tsBase := rfl
@[simp] theorem State.gcStopStep_tsCapacity (s : State) (gc : ChanNo) : (s.gcStopStep gc).tsCapacity = s.tsCapacity := rfl
@[simp] theorem State.gcStopStep_dma (s : State) (gc : ChanNo) : (s.gcStopStep gc).dma = s.dma := rfl
@[simp] theorem State.gcStopStep_clock (s : State) (gc : ChanNo) : (s.gcStopStep gc).clock = s.clock := rfl
@[simp] theorem State.gcStopStep_levels (s : State) (gc : ChanNo) : (s.gcStopStep gc).levels = s.levels := rfl
@[simp] theorem State.gcStopStep_mem (s : State) (gc : ChanNo) : (s.gcStopStep gc).mem = s.mem := rfl
@[simp] theorem State.gcStopStep_faultMark (s : State) (gc : ChanNo) : (s.gcStopStep gc).faultMark = s.faultMark := rfl
@[simp] theorem State.gcStopStep_program (s : State) (gc : ChanNo) : (s.gcStopStep gc).program = s.program := rfl
@[simp] theorem State.gcStopStep_pc (s : State) (gc : ChanNo) : (s.gcStopStep gc).pc = s.pc := rfl
@[simp] theorem State.gcStopStep_last (s : State) (gc : ChanNo) : (s.gcStopStep gc).last = s.last := rfl
@[simp] theorem State.gcStopStep_t0 (s : State) (gc : ChanNo) : (s.gcStopStep gc).t0 = s.t0 := rfl
@[simp] theorem State.gcStopStep_inFlight (s : State) (gc : ChanNo) : (s.gcStopStep gc).inFlight = some (.gcAbort gc) := rfl
@[simp] theorem State.gcStopStep_schedule (s : State) (gc : ChanNo) : (s.gcStopStep gc).schedule = s.schedule := rfl
@[simp] theorem State.chan_gcStopStep (s : State) (gc : ChanNo) (d : ChanNo) :
    (s.gcStopStep gc).chan d = s.chan d := rfl

/-! ### `gcAbortStep` -/

@[simp] theorem State.gcAbortStep_params (s : State) (gc : ChanNo) : (s.gcAbortStep gc).params = s.params := rfl
@[simp] theorem State.gcAbortStep_ec (s : State) (gc : ChanNo) : (s.gcAbortStep gc).ec = s.ec := rfl
@[simp] theorem State.gcAbortStep_gt (s : State) (gc : ChanNo) : (s.gcAbortStep gc).gt = s.gt := rfl
@[simp] theorem State.gcAbortStep_cxScratch (s : State) (gc : ChanNo) : (s.gcAbortStep gc).cxScratch = s.cxScratch := rfl
@[simp] theorem State.gcAbortStep_gcStopval (s : State) (gc : ChanNo) : (s.gcAbortStep gc).gcStopval = s.gcStopval := rfl
@[simp] theorem State.gcAbortStep_gcState (s : State) (gc : ChanNo) : (s.gcAbortStep gc).gcState = s.gcState := rfl
@[simp] theorem State.gcAbortStep_gcOvfTally (s : State) (gc : ChanNo) : (s.gcAbortStep gc).gcOvfTally = s.gcOvfTally := rfl
@[simp] theorem State.gcAbortStep_gcPrevSample (s : State) (gc : ChanNo) : (s.gcAbortStep gc).gcPrevSample = s.gcPrevSample := rfl
@[simp] theorem State.gcAbortStep_cx (s : State) (gc : ChanNo) : (s.gcAbortStep gc).cx = s.cx := rfl
@[simp] theorem State.gcAbortStep_gc (s : State) (gc : ChanNo) : (s.gcAbortStep gc).gc = s.gc := rfl
@[simp] theorem State.gcAbortStep_ts (s : State) (gc : ChanNo) : (s.gcAbortStep gc).ts = s.ts := rfl
@[simp] theorem State.gcAbortStep_tsBase (s : State) (gc : ChanNo) : (s.gcAbortStep gc).tsBase = s.tsBase := rfl
@[simp] theorem State.gcAbortStep_tsCapacity (s : State) (gc : ChanNo) : (s.gcAbortStep gc).tsCapacity = s.tsCapacity := rfl
@[simp] theorem State.gcAbortStep_clock (s : State) (gc : ChanNo) : (s.gcAbortStep gc).clock = s.clock := rfl
@[simp] theorem State.gcAbortStep_levels (s : State) (gc : ChanNo) : (s.gcAbortStep gc).levels = s.levels := rfl
@[simp] theorem State.gcAbortStep_mem (s : State) (gc : ChanNo) : (s.gcAbortStep gc).mem = s.mem := rfl
@[simp] theorem State.gcAbortStep_faultMark (s : State) (gc : ChanNo) : (s.gcAbortStep gc).faultMark = s.faultMark := rfl
@[simp] theorem State.gcAbortStep_program (s : State) (gc : ChanNo) : (s.gcAbortStep gc).program = s.program := rfl
@[simp] theorem State.gcAbortStep_pc (s : State) (gc : ChanNo) : (s.gcAbortStep gc).pc = s.pc := rfl
@[simp] theorem State.gcAbortStep_last (s : State) (gc : ChanNo) : (s.gcAbortStep gc).last = s.last := rfl
@[simp] theorem State.gcAbortStep_t0 (s : State) (gc : ChanNo) : (s.gcAbortStep gc).t0 = s.t0 := rfl
@[simp] theorem State.gcAbortStep_inFlight (s : State) (gc : ChanNo) : (s.gcAbortStep gc).inFlight = some (.gcZero gc) := rfl
@[simp] theorem State.gcAbortStep_schedule (s : State) (gc : ChanNo) : (s.gcAbortStep gc).schedule = s.schedule := rfl
@[simp] theorem State.chan_gcAbortStep (s : State) (gc : ChanNo) (d : ChanNo) :
    (s.gcAbortStep gc).chan d = if d = gc then (s.chan gc).abort else s.chan d :=
  State.chan_setChan _ _ _ _

/-! ### `gcZeroStep` -/

@[simp] theorem State.gcZeroStep_params (s : State) (gc : ChanNo) : (s.gcZeroStep gc).params = s.params := rfl
@[simp] theorem State.gcZeroStep_ec (s : State) (gc : ChanNo) : (s.gcZeroStep gc).ec = { s.ec with ctr := 0#16 } := rfl
@[simp] theorem State.gcZeroStep_gt (s : State) (gc : ChanNo) : (s.gcZeroStep gc).gt = { s.gt with ctr := 0#16, dir := false } := rfl
@[simp] theorem State.gcZeroStep_cxScratch (s : State) (gc : ChanNo) : (s.gcZeroStep gc).cxScratch = s.cxScratch := rfl
@[simp] theorem State.gcZeroStep_gcStopval (s : State) (gc : ChanNo) : (s.gcZeroStep gc).gcStopval = s.gcStopval := rfl
@[simp] theorem State.gcZeroStep_gcState (s : State) (gc : ChanNo) : (s.gcZeroStep gc).gcState = s.gcState := rfl
@[simp] theorem State.gcZeroStep_gcOvfTally (s : State) (gc : ChanNo) : (s.gcZeroStep gc).gcOvfTally = 0#32 := rfl
@[simp] theorem State.gcZeroStep_gcPrevSample (s : State) (gc : ChanNo) : (s.gcZeroStep gc).gcPrevSample = 0#16 := rfl
@[simp] theorem State.gcZeroStep_cx (s : State) (gc : ChanNo) : (s.gcZeroStep gc).cx = s.cx := rfl
@[simp] theorem State.gcZeroStep_gc (s : State) (gc : ChanNo) : (s.gcZeroStep gc).gc = s.gc := rfl
@[simp] theorem State.gcZeroStep_ts (s : State) (gc : ChanNo) : (s.gcZeroStep gc).ts = s.ts := rfl
@[simp] theorem State.gcZeroStep_tsBase (s : State) (gc : ChanNo) : (s.gcZeroStep gc).tsBase = s.tsBase := rfl
@[simp] theorem State.gcZeroStep_tsCapacity (s : State) (gc : ChanNo) : (s.gcZeroStep gc).tsCapacity = s.tsCapacity := rfl
@[simp] theorem State.gcZeroStep_dma (s : State) (gc : ChanNo) : (s.gcZeroStep gc).dma = s.dma := rfl
@[simp] theorem State.gcZeroStep_clock (s : State) (gc : ChanNo) : (s.gcZeroStep gc).clock = s.clock := rfl
@[simp] theorem State.gcZeroStep_levels (s : State) (gc : ChanNo) : (s.gcZeroStep gc).levels = s.levels := rfl
@[simp] theorem State.gcZeroStep_mem (s : State) (gc : ChanNo) : (s.gcZeroStep gc).mem = s.mem := rfl
@[simp] theorem State.gcZeroStep_faultMark (s : State) (gc : ChanNo) : (s.gcZeroStep gc).faultMark = s.faultMark := rfl
@[simp] theorem State.gcZeroStep_program (s : State) (gc : ChanNo) : (s.gcZeroStep gc).program = s.program := rfl
@[simp] theorem State.gcZeroStep_pc (s : State) (gc : ChanNo) : (s.gcZeroStep gc).pc = s.pc := rfl
@[simp] theorem State.gcZeroStep_last (s : State) (gc : ChanNo) : (s.gcZeroStep gc).last = s.last := rfl
@[simp] theorem State.gcZeroStep_t0 (s : State) (gc : ChanNo) : (s.gcZeroStep gc).t0 = s.t0 := rfl
@[simp] theorem State.gcZeroStep_inFlight (s : State) (gc : ChanNo) : (s.gcZeroStep gc).inFlight = some (.gcArm gc) := rfl
@[simp] theorem State.gcZeroStep_schedule (s : State) (gc : ChanNo) : (s.gcZeroStep gc).schedule = s.schedule := rfl
@[simp] theorem State.chan_gcZeroStep (s : State) (gc : ChanNo) (d : ChanNo) :
    (s.gcZeroStep gc).chan d = s.chan d := rfl

/-! ### `gcArmStep` -/

@[simp] theorem State.gcArmStep_params (s : State) (gc : ChanNo) : (s.gcArmStep gc).params = s.params := rfl
@[simp] theorem State.gcArmStep_ec (s : State) (gc : ChanNo) : (s.gcArmStep gc).ec = s.ec := rfl
@[simp] theorem State.gcArmStep_gt (s : State) (gc : ChanNo) : (s.gcArmStep gc).gt = s.gt := rfl
@[simp] theorem State.gcArmStep_cxScratch (s : State) (gc : ChanNo) : (s.gcArmStep gc).cxScratch = s.cxScratch := rfl
@[simp] theorem State.gcArmStep_gcStopval (s : State) (gc : ChanNo) : (s.gcArmStep gc).gcStopval = s.gcStopval := rfl
@[simp] theorem State.gcArmStep_gcState (s : State) (gc : ChanNo) : (s.gcArmStep gc).gcState = s.gcState := rfl
@[simp] theorem State.gcArmStep_gcOvfTally (s : State) (gc : ChanNo) : (s.gcArmStep gc).gcOvfTally = s.gcOvfTally := rfl
@[simp] theorem State.gcArmStep_gcPrevSample (s : State) (gc : ChanNo) : (s.gcArmStep gc).gcPrevSample = s.gcPrevSample := rfl
@[simp] theorem State.gcArmStep_cx (s : State) (gc : ChanNo) : (s.gcArmStep gc).cx = s.cx := rfl
@[simp] theorem State.gcArmStep_gc (s : State) (gc : ChanNo) : (s.gcArmStep gc).gc = s.gc := rfl
@[simp] theorem State.gcArmStep_ts (s : State) (gc : ChanNo) : (s.gcArmStep gc).ts = s.ts := rfl
@[simp] theorem State.gcArmStep_tsBase (s : State) (gc : ChanNo) : (s.gcArmStep gc).tsBase = s.tsBase := rfl
@[simp] theorem State.gcArmStep_tsCapacity (s : State) (gc : ChanNo) : (s.gcArmStep gc).tsCapacity = s.tsCapacity := rfl
@[simp] theorem State.gcArmStep_clock (s : State) (gc : ChanNo) : (s.gcArmStep gc).clock = s.clock := rfl
@[simp] theorem State.gcArmStep_levels (s : State) (gc : ChanNo) : (s.gcArmStep gc).levels = s.levels := rfl
@[simp] theorem State.gcArmStep_mem (s : State) (gc : ChanNo) : (s.gcArmStep gc).mem = s.mem := rfl
@[simp] theorem State.gcArmStep_faultMark (s : State) (gc : ChanNo) : (s.gcArmStep gc).faultMark = s.faultMark := rfl
@[simp] theorem State.gcArmStep_program (s : State) (gc : ChanNo) : (s.gcArmStep gc).program = s.program := rfl
@[simp] theorem State.gcArmStep_pc (s : State) (gc : ChanNo) : (s.gcArmStep gc).pc = s.pc := rfl
@[simp] theorem State.gcArmStep_last (s : State) (gc : ChanNo) : (s.gcArmStep gc).last = s.last := rfl
@[simp] theorem State.gcArmStep_t0 (s : State) (gc : ChanNo) : (s.gcArmStep gc).t0 = s.t0 := rfl
@[simp] theorem State.gcArmStep_inFlight (s : State) (gc : ChanNo) : (s.gcArmStep gc).inFlight = some .gcEnable := rfl
@[simp] theorem State.gcArmStep_schedule (s : State) (gc : ChanNo) : (s.gcArmStep gc).schedule = s.schedule := rfl
@[simp] theorem State.chan_gcArmStep (s : State) (gc : ChanNo) (d : ChanNo) :
    (s.gcArmStep gc).chan d = if d = gc then (s.chan gc).arm 1#32 else s.chan d :=
  State.chan_setChan _ _ _ _

/-! ### `gcEnableStep` -/

@[simp] theorem State.gcEnableStep_params (s : State) : s.gcEnableStep.params = s.params := rfl
@[simp] theorem State.gcEnableStep_ec (s : State) : s.gcEnableStep.ec = { s.ec with en := true } := rfl
@[simp] theorem State.gcEnableStep_gt (s : State) : s.gcEnableStep.gt = { s.gt with en := true } := rfl
@[simp] theorem State.gcEnableStep_cxScratch (s : State) : s.gcEnableStep.cxScratch = s.cxScratch := rfl
@[simp] theorem State.gcEnableStep_gcStopval (s : State) : s.gcEnableStep.gcStopval = s.gcStopval := rfl
@[simp] theorem State.gcEnableStep_gcState (s : State) : s.gcEnableStep.gcState = .running := rfl
@[simp] theorem State.gcEnableStep_gcOvfTally (s : State) : s.gcEnableStep.gcOvfTally = s.gcOvfTally := rfl
@[simp] theorem State.gcEnableStep_gcPrevSample (s : State) : s.gcEnableStep.gcPrevSample = s.gcPrevSample := rfl
@[simp] theorem State.gcEnableStep_cx (s : State) : s.gcEnableStep.cx = s.cx := rfl
@[simp] theorem State.gcEnableStep_gc (s : State) : s.gcEnableStep.gc = s.gc := rfl
@[simp] theorem State.gcEnableStep_ts (s : State) : s.gcEnableStep.ts = s.ts := rfl
@[simp] theorem State.gcEnableStep_tsBase (s : State) : s.gcEnableStep.tsBase = s.tsBase := rfl
@[simp] theorem State.gcEnableStep_tsCapacity (s : State) : s.gcEnableStep.tsCapacity = s.tsCapacity := rfl
@[simp] theorem State.gcEnableStep_dma (s : State) : s.gcEnableStep.dma = s.dma := rfl
@[simp] theorem State.gcEnableStep_clock (s : State) : s.gcEnableStep.clock = s.clock := rfl
@[simp] theorem State.gcEnableStep_levels (s : State) : s.gcEnableStep.levels = s.levels := rfl
@[simp] theorem State.gcEnableStep_mem (s : State) : s.gcEnableStep.mem = s.mem := rfl
@[simp] theorem State.gcEnableStep_faultMark (s : State) : s.gcEnableStep.faultMark = s.faultMark := rfl
@[simp] theorem State.gcEnableStep_program (s : State) : s.gcEnableStep.program = s.program := rfl
@[simp] theorem State.gcEnableStep_pc (s : State) : s.gcEnableStep.pc = s.pc := rfl
@[simp] theorem State.gcEnableStep_last (s : State) : s.gcEnableStep.last = ⟨0#8, 0#32, false⟩ := rfl
@[simp] theorem State.gcEnableStep_t0 (s : State) : s.gcEnableStep.t0 = s.t0 := rfl
@[simp] theorem State.gcEnableStep_inFlight (s : State) : s.gcEnableStep.inFlight = none := rfl
@[simp] theorem State.gcEnableStep_schedule (s : State) : s.gcEnableStep.schedule = s.schedule := rfl
@[simp] theorem State.chan_gcEnableStep (s : State) (d : ChanNo) :
    s.gcEnableStep.chan d = s.chan d := rfl

/-! ### `tsResetStep` -/

@[simp] theorem State.tsResetStep_params (s : State) (ts : ChanNo) (b c : Word) : (s.tsResetStep ts b c).params = s.params := rfl
@[simp] theorem State.tsResetStep_ec (s : State) (ts : ChanNo) (b c : Word) : (s.tsResetStep ts b c).ec = { s.ec with ctr := 0#16 } := rfl
@[simp] theorem State.tsResetStep_gt (s : State) (ts : ChanNo) (b c : Word) : (s.tsResetStep ts b c).gt = s.gt := rfl
@[simp] theorem State.tsResetStep_cxScratch (s : State) (ts : ChanNo) (b c : Word) : (s.tsResetStep ts b c).cxScratch = s.cxScratch := rfl
@[simp] theorem State.tsResetStep_gcStopval (s : State) (ts : ChanNo) (b c : Word) : (s.tsResetStep ts b c).gcStopval = s.gcStopval := rfl
@[simp] theorem State.tsResetStep_gcState (s : State) (ts : ChanNo) (b c : Word) : (s.tsResetStep ts b c).gcState = s.gcState := rfl
@[simp] theorem State.tsResetStep_gcOvfTally (s : State) (ts : ChanNo) (b c : Word) : (s.tsResetStep ts b c).gcOvfTally = s.gcOvfTally := rfl
@[simp] theorem State.tsResetStep_gcPrevSample (s : State) (ts : ChanNo) (b c : Word) : (s.tsResetStep ts b c).gcPrevSample = s.gcPrevSample := rfl
@[simp] theorem State.tsResetStep_cx (s : State) (ts : ChanNo) (b c : Word) : (s.tsResetStep ts b c).cx = s.cx := rfl
@[simp] theorem State.tsResetStep_gc (s : State) (ts : ChanNo) (b c : Word) : (s.tsResetStep ts b c).gc = s.gc := rfl
@[simp] theorem State.tsResetStep_ts (s : State) (ts : ChanNo) (b c : Word) : (s.tsResetStep ts b c).ts = s.ts := rfl
@[simp] theorem State.tsResetStep_tsBase (s : State) (ts : ChanNo) (b c : Word) : (s.tsResetStep ts b c).tsBase = s.tsBase := rfl
@[simp] theorem State.tsResetStep_tsCapacity (s : State) (ts : ChanNo) (b c : Word) : (s.tsResetStep ts b c).tsCapacity = s.tsCapacity := rfl
@[simp] theorem State.tsResetStep_dma (s : State) (ts : ChanNo) (b c : Word) : (s.tsResetStep ts b c).dma = s.dma := rfl
@[simp] theorem State.tsResetStep_clock (s : State) (ts : ChanNo) (b c : Word) : (s.tsResetStep ts b c).clock = s.clock := rfl
@[simp] theorem State.tsResetStep_levels (s : State) (ts : ChanNo) (b c : Word) : (s.tsResetStep ts b c).levels = s.levels := rfl
@[simp] theorem State.tsResetStep_mem (s : State) (ts : ChanNo) (b c : Word) : (s.tsResetStep ts b c).mem = s.mem := rfl
@[simp] theorem State.tsResetStep_faultMark (s : State) (ts : ChanNo) (b c : Word) : (s.tsResetStep ts b c).faultMark = s.faultMark := rfl
@[simp] theorem State.tsResetStep_program (s : State) (ts : ChanNo) (b c : Word) : (s.tsResetStep ts b c).program = s.program := rfl
@[simp] theorem State.tsResetStep_pc (s : State) (ts : ChanNo) (b c : Word) : (s.tsResetStep ts b c).pc = s.pc := rfl
@[simp] theorem State.tsResetStep_last (s : State) (ts : ChanNo) (b c : Word) : (s.tsResetStep ts b c).last = s.last := rfl
@[simp] theorem State.tsResetStep_t0 (s : State) (ts : ChanNo) (b c : Word) : (s.tsResetStep ts b c).t0 = s.t0 := rfl
@[simp] theorem State.tsResetStep_inFlight (s : State) (ts : ChanNo) (b c : Word) : (s.tsResetStep ts b c).inFlight = some (.tsAbort ts b c) := rfl
@[simp] theorem State.tsResetStep_schedule (s : State) (ts : ChanNo) (b c : Word) : (s.tsResetStep ts b c).schedule = s.schedule := rfl
@[simp] theorem State.chan_tsResetStep (s : State) (ts : ChanNo) (b c : Word) (d : ChanNo) :
    (s.tsResetStep ts b c).chan d = s.chan d := rfl

/-! ### `tsAbortStep` -/

@[simp] theorem State.tsAbortStep_params (s : State) (ts : ChanNo) (b c : Word) : (s.tsAbortStep ts b c).params = s.params := rfl
@[simp] theorem State.tsAbortStep_ec (s : State) (ts : ChanNo) (b c : Word) : (s.tsAbortStep ts b c).ec = s.ec := rfl
@[simp] theorem State.tsAbortStep_gt (s : State) (ts : ChanNo) (b c : Word) : (s.tsAbortStep ts b c).gt = s.gt := rfl
@[simp] theorem State.tsAbortStep_cxScratch (s : State) (ts : ChanNo) (b c : Word) : (s.tsAbortStep ts b c).cxScratch = s.cxScratch := rfl
@[simp] theorem State.tsAbortStep_gcStopval (s : State) (ts : ChanNo) (b c : Word) : (s.tsAbortStep ts b c).gcStopval = s.gcStopval := rfl
@[simp] theorem State.tsAbortStep_gcState (s : State) (ts : ChanNo) (b c : Word) : (s.tsAbortStep ts b c).gcState = s.gcState := rfl
@[simp] theorem State.tsAbortStep_gcOvfTally (s : State) (ts : ChanNo) (b c : Word) : (s.tsAbortStep ts b c).gcOvfTally = s.gcOvfTally := rfl
@[simp] theorem State.tsAbortStep_gcPrevSample (s : State) (ts : ChanNo) (b c : Word) : (s.tsAbortStep ts b c).gcPrevSample = s.gcPrevSample := rfl
@[simp] theorem State.tsAbortStep_cx (s : State) (ts : ChanNo) (b c : Word) : (s.tsAbortStep ts b c).cx = s.cx := rfl
@[simp] theorem State.tsAbortStep_gc (s : State) (ts : ChanNo) (b c : Word) : (s.tsAbortStep ts b c).gc = s.gc := rfl
@[simp] theorem State.tsAbortStep_ts (s : State) (ts : ChanNo) (b c : Word) : (s.tsAbortStep ts b c).ts = s.ts := rfl
@[simp] theorem State.tsAbortStep_tsBase (s : State) (ts : ChanNo) (b c : Word) : (s.tsAbortStep ts b c).tsBase = s.tsBase := rfl
@[simp] theorem State.tsAbortStep_tsCapacity (s : State) (ts : ChanNo) (b c : Word) : (s.tsAbortStep ts b c).tsCapacity = s.tsCapacity := rfl
@[simp] theorem State.tsAbortStep_clock (s : State) (ts : ChanNo) (b c : Word) : (s.tsAbortStep ts b c).clock = s.clock := rfl
@[simp] theorem State.tsAbortStep_levels (s : State) (ts : ChanNo) (b c : Word) : (s.tsAbortStep ts b c).levels = s.levels := rfl
@[simp] theorem State.tsAbortStep_mem (s : State) (ts : ChanNo) (b c : Word) : (s.tsAbortStep ts b c).mem = s.mem := rfl
@[simp] theorem State.tsAbortStep_faultMark (s : State) (ts : ChanNo) (b c : Word) : (s.tsAbortStep ts b c).faultMark = s.faultMark := rfl
@[simp] theorem State.tsAbortStep_program (s : State) (ts : ChanNo) (b c : Word) : (s.tsAbortStep ts b c).program = s.program := rfl
@[simp] theorem State.tsAbortStep_pc (s : State) (ts : ChanNo) (b c : Word) : (s.tsAbortStep ts b c).pc = s.pc := rfl
@[simp] theorem State.tsAbortStep_last (s : State) (ts : ChanNo) (b c : Word) : (s.tsAbortStep ts b c).last = s.last := rfl
@[simp] theorem State.tsAbortStep_t0 (s : State) (ts : ChanNo) (b c : Word) : (s.tsAbortStep ts b c).t0 = s.t0 := rfl
@[simp] theorem State.tsAbortStep_inFlight (s : State) (ts : ChanNo) (b c : Word) : (s.tsAbortStep ts b c).inFlight = some (.tsArm ts b c) := rfl
@[simp] theorem State.tsAbortStep_schedule (s : State) (ts : ChanNo) (b c : Word) : (s.tsAbortStep ts b c).schedule = s.schedule := rfl
@[simp] theorem State.chan_tsAbortStep (s : State) (ts : ChanNo) (b c : Word) (d : ChanNo) :
    (s.tsAbortStep ts b c).chan d = if d = ts then (s.chan ts).abort else s.chan d :=
  State.chan_setChan _ _ _ _

/-! ### `tsArmStep` -/

@[simp] theorem State.tsArmStep_params (s : State) (ts : ChanNo) (b c : Word) : (s.tsArmStep ts b c).params = s.params := rfl
@[simp] theorem State.tsArmStep_ec (s : State) (ts : ChanNo) (b c : Word) : (s.tsArmStep ts b c).ec = s.ec := rfl
@[simp] theorem State.tsArmStep_gt (s : State) (ts : ChanNo) (b c : Word) : (s.tsArmStep ts b c).gt = s.gt := rfl
@[simp] theorem State.tsArmStep_cxScratch (s : State) (ts : ChanNo) (b c : Word) : (s.tsArmStep ts b c).cxScratch = s.cxScratch := rfl
@[simp] theorem State.tsArmStep_gcStopval (s : State) (ts : ChanNo) (b c : Word) : (s.tsArmStep ts b c).gcStopval = s.gcStopval := rfl
@[simp] theorem State.tsArmStep_gcState (s : State) (ts : ChanNo) (b c : Word) : (s.tsArmStep ts b c).gcState = s.gcState := rfl
@[simp] theorem State.tsArmStep_gcOvfTally (s : State) (ts : ChanNo) (b c : Word) : (s.tsArmStep ts b c).gcOvfTally = s.gcOvfTally := rfl
@[simp] theorem State.tsArmStep_gcPrevSample (s : State) (ts : ChanNo) (b c : Word) : (s.tsArmStep ts b c).gcPrevSample = s.gcPrevSample := rfl
@[simp] theorem State.tsArmStep_cx (s : State) (ts : ChanNo) (b c : Word) : (s.tsArmStep ts b c).cx = s.cx := rfl
@[simp] theorem State.tsArmStep_gc (s : State) (ts : ChanNo) (b c : Word) : (s.tsArmStep ts b c).gc = s.gc := rfl
@[simp] theorem State.tsArmStep_ts (s : State) (ts : ChanNo) (b c : Word) : (s.tsArmStep ts b c).ts = s.ts := rfl
@[simp] theorem State.tsArmStep_tsBase (s : State) (ts : ChanNo) (b c : Word) : (s.tsArmStep ts b c).tsBase = s.tsBase := rfl
@[simp] theorem State.tsArmStep_tsCapacity (s : State) (ts : ChanNo) (b c : Word) : (s.tsArmStep ts b c).tsCapacity = s.tsCapacity := rfl
@[simp] theorem State.tsArmStep_clock (s : State) (ts : ChanNo) (b c : Word) : (s.tsArmStep ts b c).clock = s.clock := rfl
@[simp] theorem State.tsArmStep_levels (s : State) (ts : ChanNo) (b c : Word) : (s.tsArmStep ts b c).levels = s.levels := rfl
@[simp] theorem State.tsArmStep_mem (s : State) (ts : ChanNo) (b c : Word) : (s.tsArmStep ts b c).mem = s.mem := rfl
@[simp] theorem State.tsArmStep_faultMark (s : State) (ts : ChanNo) (b c : Word) : (s.tsArmStep ts b c).faultMark = s.faultMark := rfl
@[simp] theorem State.tsArmStep_program (s : State) (ts : ChanNo) (b c : Word) : (s.tsArmStep ts b c).program = s.program := rfl
@[simp] theorem State.tsArmStep_pc (s : State) (ts : ChanNo) (b c : Word) : (s.tsArmStep ts b c).pc = s.pc := rfl
@[simp] theorem State.tsArmStep_last (s : State) (ts : ChanNo) (b c : Word) : (s.tsArmStep ts b c).last = s.last := rfl
@[simp] theorem State.tsArmStep_t0 (s : State) (ts : ChanNo) (b c : Word) : (s.tsArmStep ts b c).t0 = s.t0 := rfl
@[simp] theorem State.tsArmStep_inFlight (s : State) (ts : ChanNo) (b c : Word) : (s.tsArmStep ts b c).inFlight = some .tsEnable := rfl
@[simp] theorem State.tsArmStep_schedule (s : State) (ts : ChanNo) (b c : Word) : (s.tsArmStep ts b c).schedule = s.schedule := rfl
@[simp] theorem State.chan_tsArmStep (s : State) (ts : ChanNo) (b c : Word) (d : ChanNo) :
    (s.tsArmStep ts b c).chan d = if d = ts then DmaChannel.arm { s.chan ts with writeAddr := b } c else s.chan d :=
  State.chan_setChan _ _ _ _

/-! ### `tsEnableStep` -/

@[simp] theorem State.tsEnableStep_params (s : State) : s.tsEnableStep.params = s.params := rfl
@[simp] theorem State.tsEnableStep_ec (s : State) : s.tsEnableStep.ec = { s.ec with en := true } := rfl
@[simp] theorem State.tsEnableStep_gt (s : State) : s.tsEnableStep.gt = s.gt := rfl
@[simp] theorem State.tsEnableStep_cxScratch (s : State) : s.tsEnableStep.cxScratch = s.cxScratch := rfl
@[simp] theorem State.tsEnableStep_gcStopval (s : State) : s.tsEnableStep.gcStopval = s.gcStopval := rfl
@[simp] theorem State.tsEnableStep_gcState (s : State) : s.tsEnableStep.gcState = s.gcState := rfl
@[simp] theorem State.tsEnableStep_gcOvfTally (s : State) : s.tsEnableStep.gcOvfTally = s.gcOvfTally := rfl
@[simp] theorem State.tsEnableStep_gcPrevSample (s : State) : s.tsEnableStep.gcPrevSample = s.gcPrevSample := rfl
@[simp] theorem State.tsEnableStep_cx (s : State) : s.tsEnableStep.cx = s.cx := rfl
@[simp] theorem State.tsEnableStep_gc (s : State) : s.tsEnableStep.gc = s.gc := rfl
@[simp] theorem State.tsEnableStep_ts (s : State) : s.tsEnableStep.ts = s.ts := rfl
@[simp] theorem State.tsEnableStep_tsBase (s : State) : s.tsEnableStep.tsBase = s.tsBase := rfl
@[simp] theorem State.tsEnableStep_tsCapacity (s : State) : s.tsEnableStep.tsCapacity = s.tsCapacity := rfl
@[simp] theorem State.tsEnableStep_dma (s : State) : s.tsEnableStep.dma = s.dma := rfl
@[simp] theorem State.tsEnableStep_clock (s : State) : s.tsEnableStep.clock = s.clock := rfl
@[simp] theorem State.tsEnableStep_levels (s : State) : s.tsEnableStep.levels = s.levels := rfl
@[simp] theorem State.tsEnableStep_mem (s : State) : s.tsEnableStep.mem = s.mem := rfl
@[simp] theorem State.tsEnableStep_faultMark (s : State) : s.tsEnableStep.faultMark = s.faultMark := rfl
@[simp] theorem State.tsEnableStep_program (s : State) : s.tsEnableStep.program = s.program := rfl
@[simp] theorem State.tsEnableStep_pc (s : State) : s.tsEnableStep.pc = s.pc := rfl
@[simp] theorem State.tsEnableStep_last (s : State) : s.tsEnableStep.last = ⟨0#8, 0#32, false⟩ := rfl
@[simp] theorem State.tsEnableStep_t0 (s : State) : s.tsEnableStep.t0 = s.t0 := rfl
@[simp] theorem State.tsEnableStep_inFlight (s : State) : s.tsEnableStep.inFlight = none := rfl
@[simp] theorem State.tsEnableStep_schedule (s : State) : s.tsEnableStep.schedule = s.schedule := rfl
@[simp] theorem State.chan_tsEnableStep (s : State) (d : ChanNo) :
    s.tsEnableStep.chan d = s.chan d := rfl

end Sys2Proof.Machine
end

