-- ==== Sys2Proof/Laws/PerInstr.lean ====
section
/-! SUPPORT. For each command: its encoding has the word count, the match and the mask of its row of the
opcode map (30_encoding.md R54). The rows below are written out from that rule's table, not from the
decoder's. -/

namespace Sys2Proof.Laws

/-! ### A word 0 and the mask of its format -/

theorem word0_mask (opc : BitVec 8) (low mask : BitVec 24) (h : low &&& mask = 0#24) :
    word0 opc low &&& (0xFF#8 ++ mask) = opc ++ 0#24 := by
  unfold word0
  rw [BitVec.and_append, h]
  congr 1
  exact BitVec.and_allOnes

theorem word0N_mask {opc : BitVec 8} :
    word0N opc &&& 0xFFFFFFFF#32 = opc ++ 0#24 :=
  word0_mask opc 0#24 0xFFFFFF#24 (by decide)

theorem word0B_mask {opc : BitVec 8} {b : Bool} :
    word0B opc b &&& 0xFFFFFFFE#32 = opc ++ 0#24 :=
  word0_mask opc _ 0xFFFFFE#24 (by cases b <;> decide)

theorem word0M_mask {opc : BitVec 8} {mask : BitVec 2} :
    word0M opc mask &&& 0xFFFFFFFC#32 = opc ++ 0#24 :=
  word0_mask opc _ 0xFFFFFC#24 (by revert mask; decide)

theorem word0H_mask {opc : BitVec 8} {imm : BitVec 16} :
    word0H opc imm &&& 0xFFFF0000#32 = opc ++ 0#24 := by
  refine word0_mask opc (0#8 ++ imm) (0xFF#8 ++ 0#16) ?_
  rw [BitVec.and_append, BitVec.and_zero, BitVec.zero_and]
  rfl

theorem word0P_mask {opc : BitVec 8} {pol : Polarity} {pin : BitVec 8} :
    word0P opc pol pin &&& 0xFFFFFE00#32 = opc ++ 0#24 := by
  refine word0_mask opc (0#15 ++ (BitVec.ofBool pol.bit ++ pin)) (0x7FFF#15 ++ (0#1 ++ 0#8)) ?_
  rw [BitVec.and_append, BitVec.and_append, BitVec.and_zero, BitVec.and_zero, BitVec.zero_and]
  rfl

theorem word0C_mask {opc : BitVec 8} {ch : ChanNo} :
    word0C opc ch &&& 0xFFFFFFF0#32 = opc ++ 0#24 :=
  word0_mask opc _ 0xFFFFF0#24 (by revert ch; decide)

theorem word0T_mask {opc : BitVec 8} {prescale pin : BitVec 8} :
    word0T opc prescale pin &&& 0xFFFF0000#32 = opc ++ 0#24 := by
  refine word0_mask opc (0#8 ++ (prescale ++ pin)) (0xFF#8 ++ (0#8 ++ 0#8)) ?_
  rw [BitVec.and_append, BitVec.and_append, BitVec.and_zero, BitVec.and_zero, BitVec.zero_and]
  rfl

/-! ### The rows of R54 -/

/-- The match, mask and word count of a row of the opcode map. -/
structure TableRow where
  matchWord : Word
  maskWord : Word
  words : Nat

/-- The row of each command, as 30_encoding.md R54 prints it. -/
def tableRow : Instr → TableRow
  | .busRd _ => ⟨0x01000000#32, 0xFFFFFFFF#32, 2⟩
  | .busWr _ _ => ⟨0x02000000#32, 0xFFFFFFFF#32, 3⟩
  | .enMask _ => ⟨0x03000000#32, 0xFFFFFFFC#32, 1⟩
  | .ecConfigure _ _ => ⟨0x10000000#32, 0xFFFFFE00#32, 1⟩
  | .ecReset => ⟨0x11000000#32, 0xFFFFFFFF#32, 1⟩
  | .ecSetEnabled _ => ⟨0x12000000#32, 0xFFFFFFFE#32, 1⟩
  | .ecRead => ⟨0x13000000#32, 0xFFFFFFFF#32, 1⟩
  | .ecSetWrap _ => ⟨0x14000000#32, 0xFFFF0000#32, 1⟩
  | .ecGetTag => ⟨0x15000000#32, 0xFFFFFFFF#32, 1⟩
  | .gtConfigure _ _ _ => ⟨0x20000000#32, 0xFFFF0000#32, 2⟩
  | .gtReset => ⟨0x21000000#32, 0xFFFFFFFF#32, 1⟩
  | .gtSetEnabled _ => ⟨0x22000000#32, 0xFFFFFFFE#32, 1⟩
  | .gtRead => ⟨0x23000000#32, 0xFFFFFFFF#32, 1⟩
  | .gtGetTag => ⟨0x24000000#32, 0xFFFFFFFF#32, 1⟩
  | .cxInit _ => ⟨0x30000000#32, 0xFFFFFFF0#32, 1⟩
  | .cxStart => ⟨0x31000000#32, 0xFFFFFFFF#32, 1⟩
  | .cxValue => ⟨0x32000000#32, 0xFFFFFFFF#32, 1⟩
  | .cxStop => ⟨0x33000000#32, 0xFFFFFFFF#32, 1⟩
  | .gcInit _ => ⟨0x40000000#32, 0xFFFFFFF0#32, 1⟩
  | .gcStart => ⟨0x41000000#32, 0xFFFFFFFF#32, 1⟩
  | .gcIsBusy => ⟨0x42000000#32, 0xFFFFFFFF#32, 1⟩
  | .gcRead => ⟨0x43000000#32, 0xFFFFFFFF#32, 1⟩
  | .gcPollOverflow => ⟨0x44000000#32, 0xFFFFFFFF#32, 1⟩
  | .tsInit _ _ _ => ⟨0x50000000#32, 0xFFFFFFF0#32, 3⟩
  | .tsStart => ⟨0x51000000#32, 0xFFFFFFFF#32, 1⟩
  | .tsStop => ⟨0x52000000#32, 0xFFFFFFFF#32, 1⟩
  | .tsCaptured => ⟨0x53000000#32, 0xFFFFFFFF#32, 1⟩
  | .tsPeriod => ⟨0x54000000#32, 0xFFFFFFFF#32, 1⟩

/-- The command's encoding is the table's: its word 0 under the row's mask is the row's match, and it
has the row's number of words. -/
def EncodesTableRow.Statement (i : Instr) : Prop :=
  ∃ w0 ext, encode i = w0 :: ext ∧ w0 &&& (tableRow i).maskWord = (tableRow i).matchWord ∧
    ext.length + 1 = (tableRow i).words

theorem EncodesTableRow.busRd (addr : Word) : EncodesTableRow.Statement (.busRd addr) :=
  ⟨_, _, rfl, word0N_mask, rfl⟩

theorem EncodesTableRow.busWr (addr value : Word) : EncodesTableRow.Statement (.busWr addr value) :=
  ⟨_, _, rfl, word0N_mask, rfl⟩

theorem EncodesTableRow.enMask (mask : BitVec 2) : EncodesTableRow.Statement (.enMask mask) :=
  ⟨_, _, rfl, word0M_mask, rfl⟩

theorem EncodesTableRow.ecConfigure (pin : BitVec 8) (pol : Polarity) : EncodesTableRow.Statement (.ecConfigure pin pol) :=
  ⟨_, _, rfl, word0P_mask, rfl⟩

theorem EncodesTableRow.ecReset : EncodesTableRow.Statement .ecReset :=
  ⟨_, _, rfl, word0N_mask, rfl⟩

theorem EncodesTableRow.ecSetEnabled (b : Bool) : EncodesTableRow.Statement (.ecSetEnabled b) :=
  ⟨_, _, rfl, word0B_mask, rfl⟩

theorem EncodesTableRow.ecRead : EncodesTableRow.Statement .ecRead :=
  ⟨_, _, rfl, word0N_mask, rfl⟩

theorem EncodesTableRow.ecSetWrap (imm : BitVec 16) : EncodesTableRow.Statement (.ecSetWrap imm) :=
  ⟨_, _, rfl, word0H_mask, rfl⟩

theorem EncodesTableRow.ecGetTag : EncodesTableRow.Statement .ecGetTag :=
  ⟨_, _, rfl, word0N_mask, rfl⟩

theorem EncodesTableRow.gtConfigure (pin prescale : BitVec 8) (period : Word) : EncodesTableRow.Statement (.gtConfigure pin prescale period) :=
  ⟨_, _, rfl, word0T_mask, rfl⟩

theorem EncodesTableRow.gtReset : EncodesTableRow.Statement .gtReset :=
  ⟨_, _, rfl, word0N_mask, rfl⟩

theorem EncodesTableRow.gtSetEnabled (b : Bool) : EncodesTableRow.Statement (.gtSetEnabled b) :=
  ⟨_, _, rfl, word0B_mask, rfl⟩

theorem EncodesTableRow.gtRead : EncodesTableRow.Statement .gtRead :=
  ⟨_, _, rfl, word0N_mask, rfl⟩

theorem EncodesTableRow.gtGetTag : EncodesTableRow.Statement .gtGetTag :=
  ⟨_, _, rfl, word0N_mask, rfl⟩

theorem EncodesTableRow.cxInit (ch : ChanNo) : EncodesTableRow.Statement (.cxInit ch) :=
  ⟨_, _, rfl, word0C_mask, rfl⟩

theorem EncodesTableRow.cxStart : EncodesTableRow.Statement .cxStart :=
  ⟨_, _, rfl, word0N_mask, rfl⟩

theorem EncodesTableRow.cxValue : EncodesTableRow.Statement .cxValue :=
  ⟨_, _, rfl, word0N_mask, rfl⟩

theorem EncodesTableRow.cxStop : EncodesTableRow.Statement .cxStop :=
  ⟨_, _, rfl, word0N_mask, rfl⟩

theorem EncodesTableRow.gcInit (ch : ChanNo) : EncodesTableRow.Statement (.gcInit ch) :=
  ⟨_, _, rfl, word0C_mask, rfl⟩

theorem EncodesTableRow.gcStart : EncodesTableRow.Statement .gcStart :=
  ⟨_, _, rfl, word0N_mask, rfl⟩

theorem EncodesTableRow.gcIsBusy : EncodesTableRow.Statement .gcIsBusy :=
  ⟨_, _, rfl, word0N_mask, rfl⟩

theorem EncodesTableRow.gcRead : EncodesTableRow.Statement .gcRead :=
  ⟨_, _, rfl, word0N_mask, rfl⟩

theorem EncodesTableRow.gcPollOverflow : EncodesTableRow.Statement .gcPollOverflow :=
  ⟨_, _, rfl, word0N_mask, rfl⟩

theorem EncodesTableRow.tsInit (ch : ChanNo) (base cap : Word) : EncodesTableRow.Statement (.tsInit ch base cap) :=
  ⟨_, _, rfl, word0C_mask, rfl⟩

theorem EncodesTableRow.tsStart : EncodesTableRow.Statement .tsStart :=
  ⟨_, _, rfl, word0N_mask, rfl⟩

theorem EncodesTableRow.tsStop : EncodesTableRow.Statement .tsStop :=
  ⟨_, _, rfl, word0N_mask, rfl⟩

theorem EncodesTableRow.tsCaptured : EncodesTableRow.Statement .tsCaptured :=
  ⟨_, _, rfl, word0N_mask, rfl⟩

theorem EncodesTableRow.tsPeriod : EncodesTableRow.Statement .tsPeriod :=
  ⟨_, _, rfl, word0N_mask, rfl⟩

end Sys2Proof.Laws
end

