-- ==== Sys2Proof/Laws/Steps.lean ====
section
/-! SUPPORT. What one step of the machine can do: the control thread's turn, a micro-step, and the end of
a command in flight. -/

namespace Sys2Proof.Machine

/-! ### Zeroing a slot -/

/-- Zeroing a slot is a bus write, or nothing where the slot is unmapped (45_timestamp_capture.md
R107). -/
theorem State.zeroSlot_cases (s : State) (base : Word) (i : Nat) :
    (s.memWrite (slotAddr base i) .word 0#32 = some (s.zeroSlot base i)) ∨
    (s.memWrite (slotAddr base i) .word 0#32 = none ∧ s.zeroSlot base i = s) := by
  unfold State.zeroSlot
  cases s.memWrite (slotAddr base i) .word 0#32 with
  | none => exact .inr ⟨rfl, rfl⟩
  | some u => exact .inl rfl

theorem State.zeroSlot_keeps (s : State) (base : Word) (i : Nat) :
    WriteKeeps s (s.zeroSlot base i) := by
  rcases s.zeroSlot_cases base i with h | ⟨_, h⟩
  · exact State.memWrite_keeps h
  · rw [h]; exact WriteKeeps.refl s

/-- The slot of a legal buffer is a word of RAM. -/
theorem State.zeroSlot_ram {s : State} {base cap : Word} {i : Nat} (hp : s.params.Legal)
    (hb : s.params.bufferOk base cap = true) (hi : i < cap.toNat) :
    (slotAddr base i).toNat = base.toNat + 4 * i ∧
      s.zeroSlot base i = { s with mem := s.mem.write32 (base.toNat + 4 * i) 0#32 } := by
  simp only [Params.bufferOk, Bool.and_eq_true, bne_iff_ne, ne_eq, beq_iff_eq,
    decide_eq_true_eq] at hb
  obtain ⟨⟨⟨_, hm⟩, hl⟩, hu⟩ := hb
  have hr := hp.ram_in_bus
  have ha : (slotAddr base i).toNat = base.toNat + 4 * i := by
    unfold slotAddr
    rw [BitVec.toNat_add, BitVec.toNat_ofNat]
    omega
  have hres := Params.resolve_ram_word (p := s.params) (a := slotAddr base i) (by omega) (by omega)
    (by omega)
  refine ⟨ha, ?_⟩
  simp only [State.zeroSlot, State.memWrite, hres, Option.map_some, State.writeTarget, ha,
    Option.getD_some]

theorem State.tsZeroStep_schedule (s : State) (ts : ChanNo) (b c : Word) (i : Nat) :
    (s.tsZeroStep ts b c i).schedule = s.schedule := (s.zeroSlot_keeps b i).schedule

theorem State.tsZeroStep_faultMark (s : State) (ts : ChanNo) (b c : Word) (i : Nat) :
    (s.tsZeroStep ts b c i).faultMark = s.faultMark := (s.zeroSlot_keeps b i).faultMark

@[simp] theorem State.tsZeroStep_inFlight (s : State) (ts : ChanNo) (b c : Word) (i : Nat) :
    (s.tsZeroStep ts b c i).inFlight =
      some (if i + 1 < c.toNat then .tsZero ts b c (i + 1) else .tsReset ts b c) := rfl

/-! ### Micro-steps -/

/-- The fields no micro-step changes: the parameters, the bindings, the buffer, the pins, the clock and
the host program. -/
structure MicroKeeps (s t : State) : Prop where
  params : t.params = s.params
  cx : t.cx = s.cx
  gc : t.gc = s.gc
  ts : t.ts = s.ts
  tsBase : t.tsBase = s.tsBase
  tsCapacity : t.tsCapacity = s.tsCapacity
  clock : t.clock = s.clock
  levels : t.levels = s.levels
  faultMark : t.faultMark = s.faultMark
  program : t.program = s.program
  pc : t.pc = s.pc
  t0 : t.t0 = s.t0
  schedule : t.schedule = s.schedule
  ec_pin : t.ec.pin = s.ec.pin
  gt_pin : t.gt.pin = s.gt.pin
  gt_prescale : t.gt.prescale = s.gt.prescale

theorem State.microStep_keeps (s : State) (m : InFlight) : MicroKeeps s (s.microStep m) := by
  cases m
  case tsZero ts base cap i =>
    have hk := s.zeroSlot_keeps base i
    exact ⟨hk.params, hk.cx, hk.gc, hk.ts, hk.tsBase, hk.tsCapacity, hk.clock, hk.levels,
      hk.faultMark, hk.program, hk.pc, hk.t0, hk.schedule, hk.ec_pin, hk.gt_pin, hk.gt_prescale⟩
  all_goals constructor <;> rfl

/-- A micro-step leads to the next one or ends the command with OK. -/
theorem State.microStep_inFlight (s : State) (m : InFlight) :
    (∃ m', (s.microStep m).inFlight = some m' ∧ (s.microStep m).last = s.last) ∨
    ((s.microStep m).inFlight = none ∧ (s.microStep m).last = okResult 0#32 false) := by
  cases m
  case cxArm cx => exact .inr ⟨rfl, rfl⟩
  case gcEnable => exact .inr ⟨rfl, rfl⟩
  case tsEnable => exact .inr ⟨rfl, rfl⟩
  case tsZero ts base cap i => exact .inl ⟨_, rfl, (s.zeroSlot_keeps base i).last⟩
  all_goals exact .inl ⟨_, rfl, rfl⟩

/-! ### One step -/

/-- The control thread has the turn when none is scheduled or the next one is its own. -/
theorem turnStep_quiet {s : State} (hq : Quiet 1 s) :
    turnStep s = controlStep { s with schedule := s.schedule.drop 1 } := by
  cases s with
  | mk params ec gt sc sv gst ov pr cx gc ts tb tc dma clock levels mem fm prog pc last t0 fl sch =>
    cases sch with
    | nil => rfl
    | cons a as =>
      have ha : a = .control := hq a (by simp)
      subst ha
      rfl

/-- Another agent has the turn otherwise. -/
theorem turnStep_agent {s : State} {a : Turn} {ts : List Turn} (hs : s.schedule = a :: ts)
    (ha : a ≠ .control) : turnStep s = .next (State.agentStep { s with schedule := ts } a) := by
  unfold turnStep
  rw [hs]
  exact if_neg ha

theorem quiet_or_agent (s : State) :
    Quiet 1 s ∨ ∃ a ts, s.schedule = a :: ts ∧ a ≠ Turn.control := by
  cases hs : s.schedule with
  | nil => exact .inl (by intro x hx; simp [hs] at hx)
  | cons a ts =>
    by_cases ha : a = .control
    · exact .inl (by intro x hx; simp [hs] at hx; rw [hx, ha])
    · exact .inr ⟨a, ts, rfl, ha⟩

theorem step_unfaulted {s : State} (h : s.faultMark = none) : step s = turnStep s := by
  unfold step
  rw [h]

/-- Everything one step of the machine can do (20_memory.md R47, 60_exceptions.md R129): another agent's
step, the next micro-step of the command in flight, or a line of the host program. -/
theorem step_cases {s t : State} (h : step s = .next t) :
    s.faultMark = none ∧
    ((∃ a ts, s.schedule = a :: ts ∧ a ≠ .control ∧
        t = State.agentStep { s with schedule := ts } a) ∨
      (Quiet 1 s ∧ ∃ m, s.inFlight = some m ∧
        t = State.microStep { s with schedule := s.schedule.drop 1 } m) ∨
      (Quiet 1 s ∧ s.inFlight = none ∧
        lineStep { s with schedule := s.schedule.drop 1 } = .next t)) := by
  have hf : s.faultMark = none := by
    cases hf : s.faultMark with
    | none => rfl
    | some f => unfold step at h; rw [hf] at h; cases h
  refine ⟨hf, ?_⟩
  rw [step_unfaulted hf] at h
  rcases quiet_or_agent s with hq | ⟨a, ts, hs, ha⟩
  · rw [turnStep_quiet hq] at h
    unfold controlStep at h
    dsimp only at h
    cases hm : s.inFlight with
    | some m => rw [hm] at h; exact .inr (.inl ⟨hq, m, rfl, (Host.Outcome.next.inj h).symm⟩)
    | none => rw [hm] at h; exact .inr (.inr ⟨hq, rfl, h⟩)
  · rw [turnStep_agent hs ha] at h
    exact .inl ⟨a, ts, hs, ha, (Host.Outcome.next.inj h).symm⟩

/-- What a line of the host program can do (30_encoding.md R56, R59). -/
theorem lineStep_cases {s t : State} (h : lineStep s = .next t) :
    (s.fetch = none ∧ t = s) ∨
    (∃ o, s.fetch = some (.op o) ∧ t = s.hostOp o) ∨
    (∃ ws i n, s.fetch = some (.command ws) ∧ decode ws = .command i n ∧
      exec i s.nextLine = .next t) ∨
    (∃ ws r n, s.fetch = some (.command ws) ∧ decode ws = .illegal r n ∧
      t = s.nextLine.fail .illegalCommand) := by
  unfold lineStep at h
  split at h
  · exact .inl ⟨by assumption, (Host.Outcome.next.inj h).symm⟩
  · exact .inr (.inl ⟨_, by assumption, (Host.Outcome.next.inj h).symm⟩)
  · unfold runWords at h
    split at h
    · exact .inr (.inr (.inl ⟨_, _, _, by assumption, by assumption, h⟩))
    · exact .inr (.inr (.inr ⟨_, _, _, by assumption, by assumption,
        (Host.Outcome.next.inj h).symm⟩))
    · cases h

/-- With the turn and a command in flight, the control thread takes that command's next micro-step. -/
theorem step_micro {s : State} {m : InFlight} (hf : s.faultMark = none) (hq : Quiet 1 s)
    (hm : s.inFlight = some m) :
    step s = .next (State.microStep { s with schedule := s.schedule.drop 1 } m) := by
  rw [step_unfaulted hf, turnStep_quiet hq]
  unfold controlStep
  dsimp only
  rw [hm]

/-- With the turn and no command in flight, the control thread runs its line. -/
theorem step_line {s : State} (hf : s.faultMark = none) (hq : Quiet 1 s) (hm : s.inFlight = none) :
    step s = lineStep { s with schedule := s.schedule.drop 1 } := by
  rw [step_unfaulted hf, turnStep_quiet hq]
  unfold controlStep
  dsimp only
  rw [hm]

/-- At another agent's turn the machine takes that agent's step. -/
theorem step_agent {s : State} {a : Turn} {ts : List Turn} (hf : s.faultMark = none)
    (hs : s.schedule = a :: ts) (ha : a ≠ .control) :
    step s = .next (State.agentStep { s with schedule := ts } a) := by
  rw [step_unfaulted hf, turnStep_agent hs ha]

/-! ### The end of a command in flight -/

@[simp] theorem State.finish_zero (s : State) : State.finish 0 s = .next s := rfl

/-- Nothing is left to finish. -/
theorem State.finish_none {s : State} (h : s.inFlight = none) (n : Nat) :
    State.finish n s = .next s := by
  cases n with
  | zero => rfl
  | succ n => simp [State.finish, h]

/-- One step towards the end of the command in flight. -/
theorem State.finish_succ {s t : State} {m : InFlight} (h : s.inFlight = some m)
    (hs : step s = .next t) (n : Nat) : State.finish (n + 1) s = State.finish n t := by
  simp [State.finish, h, hs]

/-- One undisturbed micro-step towards the end of the command in flight. -/
theorem State.finish_micro {s : State} {m : InFlight} (hf : s.faultMark = none) (hq : Quiet 1 s)
    (hm : s.inFlight = some m) (n : Nat) :
    State.finish (n + 1) s =
      State.finish n (State.microStep { s with schedule := s.schedule.drop 1 } m) :=
  State.finish_succ hm (step_micro hf hq hm) n

end Sys2Proof.Machine
end

