-- ==== Sys2Proof/Tests/Slice0.lean ====
section
/-! SUPPORT. Tests: ill-formed terms are refused; words written out from 30_encoding.md R52 to R54 decode to
their commands; one-step vectors of 95_test_vectors.md (the vector's name stands in the comment); and for
every obligation with hypotheses a state and operands that meet them. -/

namespace Sys2Proof.Tests

open Sys2Proof Sys2Proof.Machine

/-! ### Small states -/

/-- The state after a command, from a state in which it answers one. -/
def after (i : Instr) (s : State) : State :=
  match exec i s with
  | .next t => t
  | _ => s

/-- The state in which a start command with `n` micro-steps left ends. -/
def started (n : Nat) (i : Instr) (s : State) : State :=
  match State.finish n (after i s) with
  | .next t => t
  | _ => s

/-- The result record a command ends with. -/
def resultOf (i : Instr) (s : State) : Option Result :=
  match exec i s with
  | .next t => some t.last
  | _ => none

/-- The result record of the first step after reset on the words of a table row. -/
def firstResult (nbits w : Nat) : Option Result :=
  match step (State.reset.withFetchWord nbits w) with
  | .next t => some t.last
  | _ => none

/-- Reset with channel 3 replaced. -/
def withCh3 (c : DmaChannel) : State := State.reset.setChan 3#4 c

/-- EC configured on pin 3, rising. -/
def ec3 : State := after (.ecConfigure 3#8 .rising) State.reset

/-- CX bound to channel 0. -/
def cx0 : State := after (.cxInit 0#4) ec3

/-- CX running on channel 0 with the EC enabled. -/
def cxRun : State := after (.ecSetEnabled true) (started 1 .cxStart cx0)

/-- CX running with one transfer left. -/
def cxLast : State := cxRun.setChan 0#4 { cxRun.chan 0#4 with count := 1#32 }

/-- GC bound to channel 1 with a gate of one tick. -/
def gc1 : State := after (.gcInit 1#4) (after (.gtConfigure 2#8 1#8 1#32) ec3)

/-- The gate open. -/
def gcRun : State := started 4 .gcStart gc1

/-- TS bound to channel 2 with the last slot of RAM as its buffer. -/
def ts2 : State := after (.tsInit 2#4 0x20000FFC#32 1#32) ec3

/-- The capture armed. -/
def tsRun : State := started 4 .tsStart ts2

/-- A state whose host program is one line. -/
def onLine (l : HostLine) : State := { State.reset with program := [l] }

/-- At most one request may be pending. -/
def oneLimit (s : State) : State :=
  { s with params := { Params.testValues with pendingLimit := some 1 } }

/-- A counted edge, its transfer and the falling edge. -/
def oneEdge (ch : ChanNo) : List Turn := [.edge 3#8 0#16, .transfer ch, .edge 3#8 0#16]

theorem testValues_legal : Params.testValues.Legal := by
  constructor <;> decide

theorem quiet_of_nil {s : State} (h : s.schedule = []) (k : Nat) : Quiet k s := by
  intro t ht
  rw [h] at ht
  simp at ht

/-! ### Ill-formed terms are refused -/

theorem test_no_words_refused : HostLine.wellFormed 1 (.command []) = false := by decide

theorem test_four_words_refused :
    HostLine.wellFormed 1 (.command [0x11000000#32, 0#32, 0#32, 0#32]) = false := by decide

theorem test_label_past_end_refused : HostLine.wellFormed 2 (.op (.bnz 3)) = false := by decide

theorem test_program_refused :
    programWellFormed [.command [0x11000000#32], .op (.bto 3 5#32)] = false := by decide

theorem test_program_accepted :
    programWellFormed [.command [0x11000000#32], .op (.bto 2 5#32)] = true := by decide

/-! ### Words written out bit by bit -/

theorem test_decode_bus :
    decodeInstr [0b00000001000000000000000000000000#32, 0x40000004#32] = some (.busRd 0x40000004#32) ∧
    decodeInstr [0b00000010000000000000000000000000#32, 0x40000028#32, 7#32] =
      some (.busWr 0x40000028#32 7#32) ∧
    decodeInstr [0b00000011000000000000000000000010#32] = some (.enMask 2#2) := by decide

theorem test_decode_ec :
    decodeInstr [0b00010000000000000000000100000011#32] = some (.ecConfigure 3#8 .falling) ∧
    decodeInstr [0b00010001000000000000000000000000#32] = some .ecReset ∧
    decodeInstr [0b00010010000000000000000000000001#32] = some (.ecSetEnabled true) ∧
    decodeInstr [0b00010011000000000000000000000000#32] = some .ecRead ∧
    decodeInstr [0b00010100000000001000000000000001#32] = some (.ecSetWrap 0x8001#16) ∧
    decodeInstr [0b00010101000000000000000000000000#32] = some .ecGetTag := by decide

theorem test_decode_gt :
    decodeInstr [0b00100000000000001111101000000010#32, 0x01DCD650#32] =
      some (.gtConfigure 2#8 250#8 31250000#32) ∧
    decodeInstr [0b00100001000000000000000000000000#32] = some .gtReset ∧
    decodeInstr [0b00100010000000000000000000000000#32] = some (.gtSetEnabled false) ∧
    decodeInstr [0b00100011000000000000000000000000#32] = some .gtRead ∧
    decodeInstr [0b00100100000000000000000000000000#32] = some .gtGetTag := by decide

theorem test_decode_cx :
    decodeInstr [0b00110000000000000000000000001001#32] = some (.cxInit 9#4) ∧
    decodeInstr [0b00110001000000000000000000000000#32] = some .cxStart ∧
    decodeInstr [0b00110010000000000000000000000000#32] = some .cxValue ∧
    decodeInstr [0b00110011000000000000000000000000#32] = some .cxStop := by decide

theorem test_decode_gc :
    decodeInstr [0b01000000000000000000000000000001#32] = some (.gcInit 1#4) ∧
    decodeInstr [0b01000001000000000000000000000000#32] = some .gcStart ∧
    decodeInstr [0b01000010000000000000000000000000#32] = some .gcIsBusy ∧
    decodeInstr [0b01000011000000000000000000000000#32] = some .gcRead ∧
    decodeInstr [0b01000100000000000000000000000000#32] = some .gcPollOverflow := by decide

theorem test_decode_ts :
    decodeInstr [0b01010000000000000000000000000010#32, 0x20000000#32, 9#32] =
      some (.tsInit 2#4 0x20000000#32 9#32) ∧
    decodeInstr [0b01010001000000000000000000000000#32] = some .tsStart ∧
    decodeInstr [0b01010010000000000000000000000000#32] = some .tsStop ∧
    decodeInstr [0b01010011000000000000000000000000#32] = some .tsCaptured ∧
    decodeInstr [0b01010100000000000000000000000000#32] = some .tsPeriod := by decide

/-- V-E1 to V-E8. -/
theorem test_decode_illegal :
    decode [0x00000000#32] = .illegal .reservedOpcode 1 ∧
    decode [0xFF000000#32] = .illegal .reservedOpcode 1 ∧
    decode [0x11000001#32] = .illegal .reservedField 1 ∧
    decode [0x12000002#32] = .illegal .reservedField 1 ∧
    decode [0x10000203#32] = .illegal .reservedField 1 ∧
    decode [0x20010102#32, 0x00000004#32] = .illegal .reservedField 2 ∧
    decode [0x30000010#32] = .illegal .reservedField 1 ∧
    decode [0x03000004#32] = .illegal .reservedField 1 := by decide

/-- The table's numbering: word 0 is bits 31:0, word 1 bits 63:32, word 2 bits 95:64. -/
theorem test_decodeTableWord :
    decodeTableWord 96 (0x50000002 + 0x20000000 * 2 ^ 32 + 9 * 2 ^ 64) =
      some (.tsInit 2#4 0x20000000#32 9#32) ∧
    decodeTableWord 32 0x02000000 = some (.busWr 0#32 0#32) ∧
    decodeTableWord 32 0x11000001 = none := by decide

/-- The first step after reset runs the word: V-EC1, V-EC2, V-X1, V-E3. -/
theorem test_first_step :
    firstResult 32 0x10000003 = some ⟨0#8, 0#32, false⟩ ∧
    firstResult 32 0x10000004 = some ⟨1#8, 0#32, false⟩ ∧
    firstResult 32 0x32000000 = some ⟨8#8, 0#32, false⟩ ∧
    firstResult 32 0x11000001 = some ⟨5#8, 0#32, false⟩ := by decide

/-! ### Vectors of 95_test_vectors.md, one step each -/

/-- V-B1 to V-B7, V-B12, V-B13. -/
theorem test_busRd :
    resultOf (.busRd 0x40000008#32) State.reset = some ⟨0#8, 0xFFFF#32, false⟩ ∧
    resultOf (.busRd 0x4000001C#32) State.reset = some ⟨0#8, 1#32, false⟩ ∧
    resultOf (.busRd 0x40000002#32) State.reset = some ⟨9#8, 0#32, false⟩ ∧
    resultOf (.busRd 0x4000004C#32) State.reset = some ⟨9#8, 0#32, false⟩ ∧
    resultOf (.busRd 0x4000011C#32) State.reset = some ⟨9#8, 0#32, false⟩ ∧
    resultOf (.busRd 0x40000180#32) State.reset = some ⟨9#8, 0#32, false⟩ ∧
    resultOf (.busRd 0x40000178#32) State.reset = some ⟨0#8, 0#32, false⟩ ∧
    resultOf (.busRd 0x20000FFC#32) State.reset = some ⟨0#8, 0#32, false⟩ ∧
    resultOf (.busRd 0x20001000#32) State.reset = some ⟨9#8, 0#32, false⟩ := by decide

/-- V-B8, V-B9, V-B11. -/
theorem test_busWr :
    (after (.busWr 0x4000000C#32 5#32) State.reset).regRead .ecPin = 0xFF#32 ∧
    (after (.busWr 0x40000000#32 0xFFFFFFFF#32) State.reset).regRead .ecCtrl = 0x3#32 ∧
    (after (.busWr 0x40010000#32 7#32) State.reset).clock = 0#32 := by decide

/-- A stored word is little-endian (20_memory.md R40). -/
theorem test_busWr_ram :
    (after (.busWr 0x20000000#32 0x11223344#32) State.reset).mem =
      [(0x20000000, 0x44#8), (0x20000001, 0x33#8), (0x20000002, 0x22#8), (0x20000003, 0x11#8)] := by
  decide

/-- V-B15, V-B16. -/
theorem test_enMask :
    (after (.enMask 2#2) (after (.enMask 1#2) State.reset)).regRead .enMask = 2#32 := by decide

/-- V-EC1, V-EC3. -/
theorem test_ecConfigure :
    ec3.regRead .ecPin = 3#32 ∧ ec3.regRead .ecWrap = 0xFFFF#32 ∧
    resultOf (.ecConfigure 29#8 .rising) State.reset = some ⟨0#8, 0#32, false⟩ ∧
    resultOf (.ecConfigure 31#8 .rising) State.reset = some ⟨1#8, 0#32, false⟩ := by decide

/-- V-EC14, V-EC15, V-EC17. -/
theorem test_ec_commands :
    (after .ecReset { ec3 with ec := { ec3.ec with ctr := 500#16 } }).ec.ctr = 0#16 ∧
    resultOf .ecRead { ec3 with ec := { ec3.ec with ctr := 7#16 } } = some ⟨0#8, 7#32, false⟩ ∧
    (after (.ecSetWrap 4#16) { ec3 with ec := { ec3.ec with ctr := 9#16 } }).ec =
      ⟨false, .rising, 9#16, 4#16, 3#8⟩ ∧
    (after (.ecSetEnabled true) ec3).ec.en = true ∧
    resultOf .ecGetTag ec3 = some ⟨0#8, 0#32, false⟩ := by decide

/-- V-T4, V-T6, V-T9, V-T13. -/
theorem test_gtConfigure :
    resultOf (.gtConfigure 2#8 1#8 65537#32) State.reset = some ⟨0#8, 65536#32, false⟩ ∧
    resultOf (.gtConfigure 2#8 1#8 131072#32) State.reset = some ⟨0#8, 131072#32, false⟩ ∧
    resultOf (.gtConfigure 2#8 255#8 33423614#32) State.reset = some ⟨0#8, 33423360#32, false⟩ ∧
    (after (.gtConfigure 2#8 250#8 31250000#32) State.reset).gt =
      ⟨false, true, false, 0#16, 62499#16, 250#8, 2#8⟩ := by decide

/-- V-T1, V-T7, V-T10, V-T14, V-T15. -/
theorem test_gtConfigure_fails :
    resultOf (.gtConfigure 2#8 1#8 0#32) State.reset = some ⟨2#8, 0#32, false⟩ ∧
    resultOf (.gtConfigure 2#8 1#8 131073#32) State.reset = some ⟨2#8, 0#32, false⟩ ∧
    resultOf (.gtConfigure 2#8 255#8 33423615#32) State.reset = some ⟨2#8, 0#32, false⟩ ∧
    resultOf (.gtConfigure 2#8 0#8 1000#32) State.reset = some ⟨6#8, 0#32, false⟩ ∧
    resultOf (.gtConfigure 30#8 0#8 1000#32) State.reset = some ⟨1#8, 0#32, false⟩ := by decide

/-- V-T20 to V-T23. -/
theorem test_gt_commands :
    (after .gtReset { ec3 with gt := ⟨true, true, true, 100#16, 200#16, 1#8, 2#8⟩ }).gt =
      ⟨true, true, false, 0#16, 200#16, 1#8, 2#8⟩ ∧
    resultOf .gtRead { ec3 with gt := ⟨true, true, true, 5#16, 200#16, 1#8, 2#8⟩ } =
      some ⟨0#8, 5#32, true⟩ ∧
    resultOf .gtGetTag ec3 = some ⟨0#8, 1#32, false⟩ ∧
    (after (.gtSetEnabled false) { ec3 with gt := ⟨true, true, true, 5#16, 9#16, 1#8, 2#8⟩ }).gt =
      ⟨false, true, true, 5#16, 9#16, 1#8, 2#8⟩ := by decide

/-- V-X3 to V-X6, V-X11. -/
theorem test_cx :
    resultOf (.cxInit 4#4) State.reset = some ⟨6#8, 0#32, false⟩ ∧
    resultOf (.cxInit 1#4) gc1 = some ⟨7#8, 0#32, false⟩ ∧
    cx0.regRead (.dma 0#4 .readAddr) = 0x40000028#32 ∧ cx0.regRead (.dma 0#4 .ctrl) = 0x2#32 ∧
    cx0.regRead .bind = 0x10#32 ∧ (after (.cxInit 2#4) cx0).regRead .bind = 0x12#32 ∧
    (started 1 .cxStart cx0).regRead (.dma 0#4 .ctrl) = 0x01000003#32 := by decide

/-- V-X7, V-X9, and the channel of V-X10. -/
theorem test_cx_value_stop :
    resultOf .cxValue (cx0.setChan 0#4 { cx0.chan 0#4 with count := 0#32 }) =
      some ⟨0#8, 0xFFFFFFFF#32, true⟩ ∧
    resultOf .cxValue (cx0.setChan 0#4 { cx0.chan 0#4 with count := 0xFFFEEE8F#32 }) =
      some ⟨0#8, 70000#32, false⟩ ∧
    (after .cxStop cxRun).regRead (.dma 0#4 .ctrl) = 0x01000002#32 := by decide

/-- V-G3, V-G6. -/
theorem test_gc :
    (after (.gcInit 1#4) { ec3 with ec := ⟨true, .falling, 0#16, 9#16, 3#8⟩ }).gcStopval = 0x2#32 ∧
    gc1.regRead (.dma 1#4 .ctrl) = 0x12#32 ∧ gc1.regRead .bind = 0x1100#32 ∧
    gcRun.regRead (.dma 1#4 .ctrl) = 0x01000013#32 ∧ gcRun.regRead .ecCtrl = 1#32 ∧
    gcRun.regRead .gtCtrl = 1#32 ∧ gcRun.regRead .gcState = 2#32 := by decide

/-- V-G5, V-G7 to V-G14. -/
theorem test_gc_polls :
    (after .gcIsBusy gc1).gcState = .armed ∧
    resultOf .gcIsBusy gcRun = some ⟨0#8, 1#32, false⟩ ∧
    (after .gcIsBusy (gcRun.setChan 1#4 { gcRun.chan 1#4 with busy := false })).gcState = .expired ∧
    resultOf .gcRead { gc1 with gcState := .expired, ec := { gc1.ec with ctr := 25000#16 } } =
      some ⟨0#8, 25000#32, true⟩ ∧
    resultOf .gcRead { gcRun with ec := { gc1.ec with ctr := 120#16 } } =
      some ⟨0#8, 120#32, false⟩ ∧
    resultOf .gcPollOverflow
      { gcRun with gcPrevSample := 60000#16, ec := { gc1.ec with ctr := 1000#16 } } =
      some ⟨0#8, 1#32, true⟩ ∧
    resultOf .gcPollOverflow { gcRun with
      gcOvfTally := 0xFFFFFFFF#32, gcPrevSample := 9#16, ec := { gc1.ec with ctr := 3#16 } } =
      some ⟨0#8, 0xFFFFFFFF#32, true⟩ := by decide

/-- V-S3 to V-S9. -/
theorem test_tsInit_fails :
    resultOf (.tsInit 0#4 0x20000000#32 0#32) State.reset = some ⟨6#8, 0#32, false⟩ ∧
    resultOf (.tsInit 0#4 0x20000002#32 1#32) State.reset = some ⟨6#8, 0#32, false⟩ ∧
    resultOf (.tsInit 0#4 0x20000FFC#32 2#32) State.reset = some ⟨6#8, 0#32, false⟩ ∧
    resultOf (.tsInit 0#4 0x20000FFC#32 1#32) State.reset = some ⟨0#8, 0#32, false⟩ ∧
    resultOf (.tsInit 0#4 0x1FFFFFFC#32 1#32) State.reset = some ⟨6#8, 0#32, false⟩ ∧
    resultOf (.tsInit 4#4 0x20000000#32 1#32) cx0 = some ⟨6#8, 0#32, false⟩ ∧
    resultOf (.tsInit 0#4 0x20000000#32 1#32) cx0 = some ⟨7#8, 0#32, false⟩ := by decide

/-- V-S10, and TS_START and TS_STOP of 45_timestamp_capture.md R107, R108. -/
theorem test_ts :
    (after (.tsInit 2#4 0x20000000#32 9#32) State.reset).regRead (.dma 2#4 .ctrl) = 0xA#32 ∧
    (after (.tsInit 2#4 0x20000000#32 9#32) State.reset).regRead .bind = 0x00120000#32 ∧
    (after .tsStart { ts2 with mem := [(0x20000FFD, 7#8)] }).mem = [] ∧
    tsRun.regRead (.dma 2#4 .ctrl) = 0x0100000B#32 ∧ tsRun.ec.en = true ∧
    (after .tsStop tsRun).ec.en = false := by decide

/-- A full buffer of four timestamps: X1. -/
def fourStamps : State :=
  { ts2 with
    tsBase := 0x20000000#32, tsCapacity := 4#32
    mem := [(0x20000000, 0xE8#8), (0x20000001, 0x03#8), (0x20000004, 0xD0#8), (0x20000005, 0x07#8),
      (0x20000008, 0xB8#8), (0x20000009, 0x0B#8), (0x2000000C, 0xA0#8), (0x2000000D, 0x0F#8)] }

/-- A buffer of two words with `c` slots left unfilled. -/
def twoStamps (c : Word) (m : Memory) : State :=
  State.setChan { ts2 with tsBase := 0x20000000#32, tsCapacity := 2#32, mem := m } 2#4
    { ts2.chan 2#4 with count := c }

/-- X1, X2, V-S11 to V-S13, V-S15. -/
theorem test_ts_reads :
    resultOf .tsPeriod fourStamps = some ⟨0#8, 1000#32, true⟩ ∧
    resultOf .tsPeriod (twoStamps 1#32 []) = some ⟨3#8, 0#32, false⟩ ∧
    resultOf .tsPeriod (twoStamps 0#32 [(0x20000001, 0xFF#8), (0x20000002, 0xFF#8),
      (0x20000003, 0xFF#8), (0x20000005, 0x01#8)]) = some ⟨0#8, 512#32, true⟩ ∧
    resultOf .tsPeriod (twoStamps 0#32 []) = some ⟨0#8, 0#32, false⟩ ∧
    resultOf .tsCaptured (twoStamps 1#32 []) = some ⟨0#8, 1#32, false⟩ ∧
    resultOf .tsCaptured (twoStamps 5#32 []) = some ⟨0#8, 0#32, false⟩ := by decide

/-- V-D1 to V-D5: `BUS_WR 0x40000170` is channel 3's TRANS_COUNT_TRIG. -/
theorem test_trigger :
    ((after (.busWr 0x40000170#32 5#32)
      (withCh3 { DmaChannel.atReset with en := true })).chan 3#4).count = 5#32 ∧
    ((after (.busWr 0x40000170#32 10#32)
      (withCh3 { DmaChannel.atReset with en := true, busy := true, count := 3#32 })).chan 3#4).count =
      3#32 ∧
    ((after (.busWr 0x40000170#32 5#32)
      (withCh3 { DmaChannel.atReset with count := 2#32 })).chan 3#4).count = 2#32 := by decide

/-- V-D6 and V-D12. -/
theorem test_transfer :
    ((withCh3 { DmaChannel.atReset with
      en := true, busy := true, size := true, count := 4#32, pending := 1 }).agentStep
        (.transfer 3#4)).regRead (.dma 3#4 .ctrl) = 0x20000003#32 ∧
    ((withCh3 { DmaChannel.atReset with
      en := true, busy := true, count := 4#32, pending := 1, writeAddr := 0x40000110#32 }).agentStep
        (.transfer 3#4)).faultMark = some .dmaRegisterTarget := by decide

/-- V-EC6, V-EC7, V-EC11, V-D8. -/
theorem test_edge :
    ((after (.ecSetEnabled true) ec3).agentStep (.edge 3#8 0#16)).ec.ctr = 1#16 ∧
    (State.agentStep { after (.ecSetEnabled true) ec3 with levels := 8#256 } (.edge 3#8 0#16)).ec.ctr =
      0#16 ∧
    ((cxRun.agentStep (.edge 3#8 0#16)).chan 0#4).pending = 1 := by decide

/-- Each start command stays in flight between its micro-steps, with other agents' turns taken there, and
writes its result record with the last one (20_memory.md R47). -/
theorem test_inFlight :
    (after .cxStart cx0).inFlight = some (.cxArm 0#4) ∧
    (after .gcStart gc1).inFlight = some (.gcAbort 1#4) ∧
    (after .tsStart ts2).inFlight = some (.tsReset 2#4 0x20000FFC#32 1#32) ∧
    (after .tsStart { ts2 with tsBase := 0x20000FF8#32, tsCapacity := 2#32 }).inFlight =
      some (.tsZero 2#4 0x20000FF8#32 2#32 1) ∧
    (started 4 .gcStart gc1).inFlight = none ∧
    (started 2 .cxStart { cx0 with schedule := [.clock] }).clock = 1#32 ∧
    (started 2 .cxStart { cx0 with schedule := [.clock] }).inFlight = none := by decide

/-- BLT below and at its bound, BTO across a clock wrap as in P5, and SETST (30_encoding.md R59). -/
theorem test_hostOps :
    (State.hostOp { State.reset with last := ⟨0#8, 1#32, false⟩ } (.blt 9 2#32)).pc = 9 ∧
    (State.hostOp { State.reset with last := ⟨0#8, 2#32, false⟩ } (.blt 9 2#32)).pc = 1 ∧
    (State.hostOp { State.reset with last := ⟨0#8, 0x001D8480#32, false⟩, t0 := 0xFFFF0000#32 }
      (.bto 11 2000000#32)).pc = 11 ∧
    (State.reset.hostOp (.setst 4#8)).last = ⟨4#8, 0#32, false⟩ := by decide

/-! ### Witnesses: the hypotheses of each obligation can be met -/

theorem witness_DecodeOfEncodeIsTheCommand :
    Instr.wellFormed (.tsInit 0xF#4 0xFFFFFFFF#32 0xFFFFFFFF#32) = true := by decide

theorem witness_EncodeOfDecodeIsTheWords :
    decode [0x5000000F#32, 0xFFFFFFFF#32, 0#32, 7#32] =
      .command (.tsInit 0xF#4 0xFFFFFFFF#32 0#32) 3 := by decide

theorem witness_OpcodeAloneDecidesTheLength :
    decode [0x54000000#32] = .command .tsPeriod 1 ∧
    (opcodeOf 0x20000102#32 = opcodeOf 0x2000FA02#32 ∧
      decode [0x20000102#32, 4#32] = .command (.gtConfigure 2#8 1#8 4#32) 2 ∧
      decode [0x2000FA02#32, 5#32] = .command (.gtConfigure 2#8 250#8 5#32) 2) ∧
    (opcodeOf 0x20000102#32 = opcodeOf 0x20010102#32 ∧
      decode [0x20010102#32] = .illegal .reservedField 2) ∧
    decode [0x55000000#32] = .illegal .reservedOpcode 1 := by decide

/-- The reserved ranges at their ends. -/
theorem witness_ReservedOpcodesAreTheListedRanges :
    ([0x00#8, 0x04#8, 0x0F#8, 0x16#8, 0x1F#8, 0x25#8, 0x2F#8, 0x34#8, 0x3F#8, 0x45#8, 0x4F#8, 0x55#8,
      0xFF#8].all fun o => (opcodeRow o).isNone) = true ∧
    ([0x01#8, 0x03#8, 0x10#8, 0x15#8, 0x20#8, 0x24#8, 0x30#8, 0x33#8, 0x40#8, 0x44#8, 0x50#8,
      0x54#8].all fun o => (opcodeRow o).isSome) = true := by decide

theorem witness_IllegalWordsChangeNothing :
    decode [0x11000001#32] = .illegal .reservedField 1 ∧ decode [0#32] = .illegal .reservedOpcode 1 ∧
    (onLine (.command [0#32])).faultMark = none ∧ Quiet 1 (onLine (.command [0#32])) ∧
    (onLine (.command [0#32])).inFlight = none ∧
    (onLine (.command [0#32])).fetch = some (.command [0#32]) :=
  ⟨by decide, by decide, rfl, quiet_of_nil rfl 1, rfl, rfl⟩

theorem witness_ReservedIllegal :
    opcodeOf 0x11800000#32 = 0x11#8 ∧ 0x11800000#32 &&& 0x00FFFFFF#32 ≠ 0#32 := by decide

theorem witness_StepRunsTheDecodedCommand :
    ((onLine (.command [0x13000000#32])).faultMark = none ∧
      Quiet 1 (onLine (.command [0x13000000#32])) ∧
      (onLine (.command [0x13000000#32])).inFlight = none ∧
      (onLine (.command [0x13000000#32])).fetch = some (.command [0x13000000#32]) ∧
      decode [0x13000000#32] = .command .ecRead 1 ∧ Instr.ecRead.wellFormed = true) ∧
    ((after .cxStart cx0).faultMark = none ∧ Quiet 1 (after .cxStart cx0) ∧
      (after .cxStart cx0).inFlight = some (.cxArm 0#4)) ∧
    (State.reset.faultMark = none ∧ Quiet 1 State.reset ∧ State.reset.inFlight = none ∧
      State.reset.program.length ≤ State.reset.pc) ∧
    ((onLine (.command [0x01000000#32])).faultMark = none ∧
      Quiet 1 (onLine (.command [0x01000000#32])) ∧
      (onLine (.command [0x01000000#32])).inFlight = none ∧
      (onLine (.command [0x01000000#32])).fetch = some (.command [0x01000000#32]) ∧
      decode [0x01000000#32] = .truncated) :=
  ⟨⟨rfl, quiet_of_nil rfl 1, rfl, rfl, by decide, rfl⟩,
    ⟨by decide, quiet_of_nil (by decide) 1, by decide⟩,
    ⟨rfl, quiet_of_nil rfl 1, rfl, by decide⟩,
    ⟨rfl, quiet_of_nil rfl 1, rfl, rfl, by decide⟩⟩

theorem witness_StepTakesTheScheduledTurn :
    State.reset.faultMark = none ∧
    ({ State.reset with schedule := [Turn.clock] } : State).schedule = [Turn.clock] ∧
    Turn.clock ≠ .control := by decide

theorem witness_FaultedMachineTakesNoStep :
    ({ State.reset with faultMark := some .dreqOverrun } : State).faultMark = some .dreqOverrun := rfl

/-- One line of each host operation. -/
theorem witness_HostOperationsActOnTheHostAlone :
    ∀ o ∈ [HostOp.b 0, .bz 0, .bnz 0, .blt 0 5#32, .berr 0, .mark, .bto 0 5#32, .setst 4#8, .halt],
      (onLine (.op o)).faultMark = none ∧ Quiet 1 (onLine (.op o)) ∧
        (onLine (.op o)).inFlight = none ∧ (onLine (.op o)).fetch = some (.op o) :=
  fun _ _ => ⟨rfl, quiet_of_nil rfl 1, rfl, rfl⟩

/-- Both sides of each region's ends (20_memory.md R37). -/
theorem witness_AccessIsOkExactlyInTheMappedRegions :
    Params.testValues.Legal ∧
    ([0x20000000#32, 0x20000FFC#32, 0x40000000#32, 0x40000048#32, 0x40000100#32, 0x40000178#32,
      0x40010000#32].all fun a => Params.testValues.accessOk a .word) = true ∧
    ([0x1FFFFFFC#32, 0x20000FFD#32, 0x20001000#32, 0x4000004C#32, 0x400000FC#32, 0x4000011C#32,
      0x40000180#32, 0x40000FFC#32, 0x40010004#32].all fun a =>
        !Params.testValues.accessOk a .word) = true ∧
    Params.testValues.accessOk 0x20000FFF#32 .byte = true ∧
    Params.testValues.accessOk 0x40000000#32 .byte = false :=
  ⟨testValues_legal, by decide⟩

theorem witness_BusRdReturnsTheWord :
    State.reset.params.Legal ∧
    State.reset.params.accessOk 0x20001000#32 .word = false ∧
    (State.reset.params.hasReg (.dma 3#4 .reload) = true ∧
      0x40000178#32 = State.reset.params.blockBase + BitVec.ofNat 32 (Reg.dma 3#4 .reload).offset) ∧
    0x40010000#32 = State.reset.params.clockAddr ∧
    (State.reset.params.ramBase.toNat ≤ (0x20000FFC#32).toNat ∧
      (0x20000FFC#32).toNat + 4 ≤ State.reset.params.ramBase.toNat + State.reset.params.ramSize ∧
      (0x20000FFC#32).toNat % 4 = 0) :=
  ⟨testValues_legal, by decide⟩

theorem witness_BusWrStoresTheWord :
    State.reset.params.Legal ∧ State.reset.mem.wf = true ∧
    State.reset.params.accessOk 0x20000FFE#32 .word = false ∧
    0x40010000#32 = State.reset.params.clockAddr ∧
    (State.reset.params.ramBase.toNat ≤ (0x20000000#32).toNat ∧
      (0x20000000#32).toNat + 4 ≤ State.reset.params.ramBase.toNat + State.reset.params.ramSize ∧
      (0x20000000#32).toNat % 4 = 0) :=
  ⟨testValues_legal, by decide⟩

theorem witness_RegisterWriteActions :
    State.reset.params.Legal ∧
    ∀ r ∈ [Reg.ecCtrl, .bind, .dmaAbort, .enMask, .dma 3#4 .transCountTrig, .dma 3#4 .transCount,
      .dma 0#4 .ctrl], State.reset.params.hasReg r = true :=
  ⟨testValues_legal, by decide⟩

theorem witness_TriggerStartsOnlyAnEnabledIdleChannel :
    State.reset.params.Legal ∧ State.reset.params.hasChannel 3#4 = true ∧
    ((withCh3 DmaChannel.atReset).chan 3#4).en = false ∧
    ((withCh3 { DmaChannel.atReset with busy := true }).chan 3#4).busy = true ∧
    (((withCh3 { DmaChannel.atReset with en := true }).chan 3#4).en = true ∧
      ((withCh3 { DmaChannel.atReset with en := true }).chan 3#4).busy = false) ∧
    (1#32 : Word) ≠ 0#32 :=
  ⟨testValues_legal, by decide⟩

theorem witness_AbortEndsTheSequenceAndKeepsTheRest :
    (withCh3 { DmaChannel.atReset with en := true, busy := true }).params.Legal ∧
    (State.reset.params.hasChannel 3#4 = true ∧ (8#32 : Word).getLsbD (3#4).toNat = true ∧
      AgentsOnly (oneEdge 3#4) ∧ (1#32 : Word) ≠ 0#32 ∧
      ((withCh3 { DmaChannel.atReset with en := true, busy := true }).chan 3#4).en = true) ∧
    State.reset.params.hasChannel 4#4 = false ∧ (8#32 : Word).getLsbD (2#4).toNat = false :=
  ⟨testValues_legal, by unfold AgentsOnly; decide⟩

theorem witness_ReArmWithoutAbortResumesTheStaleCount :
    cxRun.params.Legal ∧ cxRun.params.hasChannel 0#4 = true ∧ (cxRun.chan 0#4).en = true ∧
    (cxRun.chan 0#4).busy = true ∧ (10#32 : Word) ≠ 0#32 ∧ (1#32 : Word).getLsbD (0#4).toNat = true :=
  ⟨testValues_legal, by decide⟩

theorem witness_EcConfigureSelectsPinAndPolarity :
    ((29#8).toNat < State.reset.params.pinCount ∧
      (29#8).toNat % 2 = State.reset.params.edgePinParity) ∧
    ¬ ((28#8).toNat < State.reset.params.pinCount ∧
      (28#8).toNat % 2 = State.reset.params.edgePinParity) ∧
    ¬ ((31#8).toNat < State.reset.params.pinCount ∧
      (31#8).toNat % 2 = State.reset.params.edgePinParity) := by decide

theorem witness_GtConfigureDerivesTheGate :
    State.reset.params.pinCount ≤ (30#8).toNat ∧ (29#8).toNat < State.reset.params.pinCount ∧
    (1#8 : BitVec 8) ≠ 0#8 ∧ (0#32).toNat < (1#8).toNat ∧
    131073 * (255#8).toNat ≤ (33423615#32).toNat ∧
    ((1#8).toNat ≤ (1#32).toNat ∧ (131072#32).toNat < 131073 * (1#8).toNat) := by decide

theorem witness_DerivedPeriodIsJustBelowTheRequest :
    1 ≤ 1 ∧ 255 ≤ 255 ∧ derivePeriod 1 65536 = some (false, 0xFFFF#16) ∧
    derivePeriod 1 65537 = some (true, 32767#16) ∧ derivePeriod 255 254 = none := by decide

theorem witness_CxInitBindsTheChannel :
    State.reset.params.dmaChannels ≤ (4#4).toNat ∧ (3#4).toNat < State.reset.params.dmaChannels ∧
    (gc1.gc.bound = true ∧ gc1.gc.ch = 1#4) ∧ (ts2.ts.bound = true ∧ ts2.ts.ch = 2#4) ∧
    ¬ (gc1.gc.bound = true ∧ gc1.gc.ch = 3#4) ∧ ¬ (gc1.ts.bound = true ∧ gc1.ts.ch = 3#4) := by decide

theorem witness_CxStartAbortsAndArmsTheChannel :
    State.reset.cx.bound = false ∧ cx0.cx.bound = true ∧ cx0.faultMark = none ∧
    cx0.inFlight = none ∧ Quiet 1 cx0 :=
  ⟨by decide, by decide, by decide, by decide, quiet_of_nil (by decide) 1⟩

theorem witness_CxValueReturnsTheExtendedCount :
    State.reset.cx.bound = false ∧ cxRun.cx.bound = true := by decide

theorem witness_CxStopPausesTheChannel :
    State.reset.cx.bound = false ∧ cxRun.cx.bound = true ∧ cxRun.params.Legal ∧
    AgentsOnly (oneEdge 0#4) :=
  ⟨by decide, by decide, testValues_legal, by unfold AgentsOnly; decide⟩

theorem witness_GcInitCapturesTheStopValue :
    State.reset.params.dmaChannels ≤ (0xF#4).toNat ∧ (0#4).toNat < State.reset.params.dmaChannels ∧
    (cx0.cx.bound = true ∧ cx0.cx.ch = 0#4) ∧ (ts2.ts.bound = true ∧ ts2.ts.ch = 2#4) ∧
    ¬ (cx0.cx.bound = true ∧ cx0.cx.ch = 3#4) ∧ ¬ (cx0.ts.bound = true ∧ cx0.ts.ch = 3#4) := by decide

theorem witness_GcStartOpensTheGate :
    State.reset.gcState = .idle ∧ gc1.gcState ≠ .idle ∧ gc1.faultMark = none ∧
    gc1.inFlight = none ∧ Quiet 4 gc1 :=
  ⟨by decide, by decide, by decide, by decide, quiet_of_nil (by decide) 4⟩

theorem witness_GcIsBusyPollsTheGateChannel :
    State.reset.gcState = .idle ∧ gc1.gcState ≠ .idle ∧ gcRun.gcState ≠ .idle := by decide

theorem witness_GcReadReturnsTheGatedCount :
    State.reset.gcState = .idle ∧ gcRun.gcState ≠ .idle := by decide

theorem witness_GcPollOverflowSamplesTheCount :
    State.reset.gcState = .idle ∧ gcRun.gcState ≠ .idle := by decide

/-- GC_START before its last micro-step. -/
def gcLast : State := { gc1 with inFlight := some .gcEnable }

theorem witness_OnlyTheTableChangesGcState :
    (exec (.gcInit 1#4) ec3 = .next (after (.gcInit 1#4) ec3) ∧
      (after (.gcInit 1#4) ec3).last.status = 0#8) ∧
    (gcLast.faultMark = none ∧ Quiet 1 gcLast ∧ gcLast.inFlight = some .gcEnable) ∧
    (∃ s, s.gcState = .running ∧ (s.chan s.gc.ch).busy = false ∧
      exec .gcIsBusy s = .next (after .gcIsBusy s)) ∧
    (∃ s t, step s = .next t ∧ t.gcState ≠ s.gcState) :=
  ⟨⟨rfl, by decide⟩, ⟨by decide, quiet_of_nil (by decide) 1, rfl⟩,
    ⟨gcRun.setChan 1#4 { gcRun.chan 1#4 with busy := false }, by decide, by decide, rfl⟩,
    ⟨gcLast, gcLast.gcEnableStep, rfl, by decide⟩⟩

theorem witness_TsInitBindsTheBuffer :
    State.reset.params.dmaChannels ≤ (4#4).toNat ∧ (3#4).toNat < State.reset.params.dmaChannels ∧
    (cx0.cx.bound = true ∧ cx0.cx.ch = 0#4) ∧ (gc1.gc.bound = true ∧ gc1.gc.ch = 1#4) ∧
    ¬ (cx0.cx.bound = true ∧ cx0.cx.ch = 3#4) ∧ ¬ (cx0.gc.bound = true ∧ cx0.gc.ch = 3#4) ∧
    (0x20000002#32).toNat % 4 ≠ 0 ∧ (0x1FFFFFFC#32).toNat < cx0.params.ramBase.toNat ∧
    cx0.params.ramBase.toNat + cx0.params.ramSize < (0x20000FFC#32).toNat + 4 * (2#32).toNat ∧
    (1#32 : Word) ≠ 0#32 ∧ (0x20000FFC#32).toNat % 4 = 0 ∧
    cx0.params.ramBase.toNat ≤ (0x20000000#32).toNat ∧
    (0x20000FFC#32).toNat + 4 * (1#32).toNat ≤ cx0.params.ramBase.toNat + cx0.params.ramSize := by
  decide

/-- A state with TS bound, a capture armed and a byte in its buffer. -/
def tsLive : State := { tsRun with mem := [(0x20000FFC, 5#8)] }

theorem tsLive_inv : StateOk tsLive where
  params_legal := testValues_legal
  channels_ok := by
    intro ch
    have h : ∀ ch, ((tsLive.chan ch).busy = false → (tsLive.chan ch).pending = 0) ∧
        ((tsLive.chan ch).busy = true → (tsLive.chan ch).count ≠ 0#32) := by decide
    exact ⟨(h ch).1, (h ch).2, fun n hn => by cases hn⟩
  absent_at_reset := by decide
  bound_exists := by intro c; cases c <;> decide
  exclusive := by
    have h : ∀ ch, tsLive.owns .cx ch = false ∧ tsLive.owns .gc ch = false := by decide
    intro c d ch hc hd
    cases c <;> cases d <;> simp_all
  gc_bound := by decide
  ec_pin := by decide
  gt_pin := by decide
  gt_prescale := by decide
  ts_buffer := by decide
  in_flight := by intro m hm; cases hm
  mem_wf := by decide
  mem_in_ram := by
    intro a ha
    have hm : tsLive.mem.read a = if 0x20000FFC = a then 5#8 else ramAtLaunch := rfl
    rw [hm] at ha
    split at ha
    · subst_vars; decide
    · exact absurd rfl ha

theorem witness_TsStartZeroesAndArmsTheBuffer :
    State.reset.ts.bound = false ∧ tsLive.ts.bound = true ∧ tsLive.faultMark = none ∧
    tsLive.inFlight = none ∧ StateOk tsLive ∧ Quiet (tsLive.tsCapacity.toNat + 3) tsLive :=
  ⟨by decide, by decide, by decide, by decide, tsLive_inv, quiet_of_nil (by decide) _⟩

theorem witness_TsStopDisablesTheCounter :
    State.reset.ts.bound = false ∧ tsRun.ts.bound = true := by decide

theorem witness_TsCapturedReturnsTheSlotsWritten :
    State.reset.ts.bound = false ∧ tsRun.ts.bound = true := by decide

theorem twoStamps_inv : StateOk (twoStamps 0#32 []) where
  params_legal := testValues_legal
  channels_ok := by
    intro ch
    have h : ∀ ch, (((twoStamps 0#32 []).chan ch).busy = false →
          ((twoStamps 0#32 []).chan ch).pending = 0) ∧
        (((twoStamps 0#32 []).chan ch).busy = true →
          ((twoStamps 0#32 []).chan ch).count ≠ 0#32) := by decide
    exact ⟨(h ch).1, (h ch).2, fun n hn => by cases hn⟩
  absent_at_reset := by decide
  bound_exists := by intro c; cases c <;> decide
  exclusive := by
    have h : ∀ ch, (twoStamps 0#32 []).owns .cx ch = false ∧
        (twoStamps 0#32 []).owns .gc ch = false := by decide
    intro c d ch hc hd
    cases c <;> cases d <;> simp_all
  gc_bound := by decide
  ec_pin := by decide
  gt_pin := by decide
  gt_prescale := by decide
  ts_buffer := by decide
  in_flight := by intro m hm; cases hm
  mem_wf := by decide
  mem_in_ram := fun _ ha => absurd rfl ha

theorem witness_TsPeriodReturnsTheMeanInterval :
    State.reset.ts.bound = false ∧
    ((twoStamps 1#32 []).ts.bound = true ∧ (twoStamps 1#32 []).tsCapacity.toNat <
      ((twoStamps 1#32 []).chan (twoStamps 1#32 []).ts.ch).count.toNat + 2) ∧
    ((twoStamps 0#32 []).ts.bound = true ∧ StateOk (twoStamps 0#32 []) ∧
      2 = (twoStamps 0#32 []).tsCapacity.toNat -
        ((twoStamps 0#32 []).chan (twoStamps 0#32 []).ts.ch).count.toNat ∧ 2 ≤ 2) :=
  ⟨by decide, by decide, by decide, twoStamps_inv, by decide, by decide⟩

theorem witness_FailedCommandsChangeNothing :
    (State.reset.inFlight = none ∧ exec .cxValue State.reset = .next (after .cxValue State.reset) ∧
      (after .cxValue State.reset).inFlight = none ∧
      (after .cxValue State.reset).last.status ≠ 0#8) ∧
    (cx0.inFlight = none ∧ exec .cxStart cx0 = .next (after .cxStart cx0) ∧
      (after .cxStart cx0).inFlight ≠ none) ∧
    (step (after .cxStart cx0) = .next (started 1 .cxStart cx0) ∧
      (started 1 .cxStart cx0).inFlight = none) ∧
    (∃ t, step (after .gcStart gc1) = .next t ∧ t.inFlight ≠ none) :=
  ⟨⟨rfl, rfl, by decide, by decide⟩, ⟨by decide, rfl, by decide⟩, ⟨rfl, by decide⟩,
    ⟨_, rfl, by decide⟩⟩

/-- A counted edge on pin 3 at the wrap limit, with a channel that is full. -/
def fullCx : State := oneLimit (cxRun.setChan 0#4 { cxRun.chan 0#4 with pending := 1 })

theorem fullCx_overruns : WouldOverrun 0#6 0#16 fullCx :=
  ⟨0#4, ⟨by decide, by decide, by decide, Or.inl (by decide)⟩, by decide⟩

theorem no_overrun {s : State} (h : s.params.pendingLimit = none) (tag : BitVec 6) (a : BitVec 16) :
    ¬ WouldOverrun tag a s := by
  rintro ⟨ch, _, hl⟩
  rw [h] at hl
  cases hl

/-- An edge on another pin, a counted edge, a counted edge at the wrap limit, and one that overruns. -/
theorem witness_EdgeTogglesAndCounts :
    ((29#8).toNat < cxRun.params.pinCount ∧ ¬ (29#8 = cxRun.ec.pin)) ∧
    ((3#8).toNat < ec3.params.pinCount ∧ (after (.ecSetEnabled true) ec3).ec.pin = 3#8 ∧
      (after (.ecSetEnabled true) ec3).ec.en = true ∧
      (after (.ecSetEnabled true) ec3).level 3#8 = false ∧
      (after (.ecSetEnabled true) ec3).ec.pol = .rising ∧
      (after (.ecSetEnabled true) ec3).ec.ctr ≠ (after (.ecSetEnabled true) ec3).ec.wrap) ∧
    (cxRun.ec.ctr = cxRun.ec.wrap ∧ cxRun.level 3#8 = false ∧ ¬ WouldOverrun 0#6 0#16 cxRun) ∧
    (fullCx.ec.ctr = fullCx.ec.wrap ∧ fullCx.level 3#8 = false ∧ fullCx.ec.en = true ∧
      WouldOverrun 0#6 0#16 fullCx) :=
  ⟨by decide, by decide, ⟨by decide, by decide, no_overrun (by decide) _ _⟩,
    by decide, by decide, by decide, fullCx_overruns⟩

/-- The gate channel full. -/
def fullGate : State := oneLimit (gcRun.setChan 1#4 { gcRun.chan 1#4 with pending := 1 })

/-- An expiry that is delivered, one that overruns, and the ticks of each kind. -/
theorem witness_GateTimerTicks :
    (gcRun.gt.en = true ∧ gcRun.gt.phCorrect = false ∧ gcRun.gt.ctr = gcRun.gt.wrap ∧
      ¬ WouldOverrun 1#6 0#16 gcRun) ∧
    (fullGate.gt.en = true ∧ fullGate.gt.ctr = fullGate.gt.wrap ∧ WouldOverrun 1#6 0#16 fullGate) ∧
    (∀ g ∈ [(⟨true, false, false, 0#16, 1#16, 1#8, 2#8⟩ : GateTimer),
        ⟨true, true, false, 1#16, 1#16, 1#8, 2#8⟩, ⟨true, true, false, 0#16, 1#16, 1#8, 2#8⟩,
        ⟨true, true, true, 0#16, 1#16, 1#8, 2#8⟩, ⟨true, true, true, 1#16, 1#16, 1#8, 2#8⟩],
      ({ gcRun with gt := g } : State).gt.en = true) :=
  ⟨⟨by decide, by decide, by decide, no_overrun (by decide) _ _⟩,
    ⟨by decide, by decide, 1#4, ⟨by decide, by decide, by decide, Or.inl (by decide)⟩, by decide⟩,
    by decide⟩

theorem witness_ExpiryComesEveryPeriod :
    gcRun.gt.ctr = 0#16 ∧ gcRun.gt.dir = false ∧
    1 = (gcRun.gt.wrap.toNat + 1) * (if gcRun.gt.phCorrect then 2 else 1) := by decide

theorem witness_EventsReachTheirChannels :
    WouldOverrun 0#6 0#16 fullCx ∧ ¬ WouldOverrun 0#6 0#16 cxRun ∧
    ((0#4).toNat < (after .cxStop cxRun).params.dmaChannels ∧
      ((after .cxStop cxRun).chan 0#4).treq = 0#6 ∧ ((after .cxStop cxRun).chan 0#4).busy = true ∧
      ((after .cxStop cxRun).chan 0#4).en = false ∧
      (after .cxStop cxRun).params.pendingLimit = none) ∧
    (cxRun.chan 1#4).busy = false ∧ (gcRun.chan 1#4).treq ≠ 0#6 :=
  ⟨fullCx_overruns, no_overrun (by decide) _ _, by decide, by decide, by decide⟩

/-- Channel 3 with one request, copying one byte. -/
def byteCopy (src dst : Word) : State :=
  withCh3 { DmaChannel.atReset with
    en := true, busy := true, count := 1#32, pending := 1, readAddr := src, writeAddr := dst }

/-- Into a DMA register (both ends of the range and DMA_ABORT), an access that is not ok, and a move. -/
theorem witness_TransferServesOneRequest :
    (byteCopy 0#32 0#32).params.Legal ∧ (byteCopy 0#32 0#32).mem.wf = true ∧
    ((byteCopy 0#32 0#32).chan 3#4).count ≠ 0#32 ∧
    (byteCopy 0x20000000#32 0x20000FFF#32).agentEnabled (.transfer 3#4) = true ∧
    (0x4000003C#32).toNat = State.reset.params.blockBase.toNat + 0x03C ∧
    (State.reset.params.blockBase.toNat + 0x100 ≤ (0x40000100#32).toNat ∧
      (0x40000FFF#32).toNat ≤ State.reset.params.blockBase.toNat + 0xFFF) ∧
    State.reset.params.accessOk 0x1FFFFFFF#32 .byte = false ∧
    State.reset.params.accessOk 0x20001000#32 .byte = false ∧
    State.reset.params.accessOk 0x20000000#32 .byte = true ∧
    State.reset.params.accessOk 0x20000FFF#32 .byte = true :=
  ⟨testValues_legal, by decide⟩

/-- A step in a state whose schedule holds a clock turn that the step does not take. -/
theorem witness_OnlyTheClockStepChangesTheClock :
    Turn.edge 3#8 0#16 ≠ .clock ∧ exec .ecRead State.reset = .next (after .ecRead State.reset) ∧
    ({ State.reset with schedule := [.control, .clock] } : State).schedule.head? ≠ some .clock ∧
    step { State.reset with schedule := [.control, .clock] } =
      .next { State.reset with schedule := [.clock] } :=
  ⟨by decide, rfl, by decide, rfl⟩

/-- Below saturation from `c` = UINT32_MAX, and the event that reaches saturation from `c` = 1. -/
theorem witness_ExtendedCountIsTheNumberOfEvents :
    (∀ s ∈ [cxRun, cxLast], s.params.hasChannel 0#4 = true ∧ s.cx = ⟨0#4, true⟩ ∧
      (s.chan 0#4).en = true ∧ (s.chan 0#4).busy = true ∧ 1 ≤ (s.chan 0#4).count.toNat ∧
      (s.chan 0#4).pending = 0 ∧ (s.chan 0#4).treq = 0#6 ∧ (s.chan 0#4).size = true ∧
      (s.chan 0#4).incrRead = false ∧ (s.chan 0#4).incrWrite = false ∧
      (s.chan 0#4).readAddr = s.params.regAddr .cxScratch ∧
      (s.chan 0#4).writeAddr = s.params.regAddr .cxScratch ∧
      (State.runTurns (oneEdge 0#4) s).faultMark = none ∧
      1 = countTurns State.emitsEc (oneEdge 0#4) s ∧
      ((State.runTurns (oneEdge 0#4) s).chan 0#4).pending = 0) ∧
    cxRun.params.Legal ∧ cxLast.params.Legal ∧ AgentsOnly (oneEdge 0#4) ∧
    (cxRun.chan 0#4).count.toNat = 4294967295 ∧ (cxLast.chan 0#4).count.toNat = 1 :=
  ⟨by decide, testValues_legal, testValues_legal, by unfold AgentsOnly; decide, by decide, by decide⟩

/-- The gate of one tick: before the tick, and after it with the gate transfer and a later edge. -/
theorem witness_GateCountsTheEdgesOfOnePeriod :
    gcRun.params.Legal ∧
    (gcRun.params.hasChannel 1#4 = true ∧ (gcRun.chan 1#4).en = true ∧ (gcRun.chan 1#4).busy = true ∧
      (gcRun.chan 1#4).count = 1#32 ∧ (gcRun.chan 1#4).pending = 0 ∧ (gcRun.chan 1#4).treq = 1#6 ∧
      (gcRun.chan 1#4).size = true ∧ (gcRun.chan 1#4).incrRead = false ∧
      (gcRun.chan 1#4).incrWrite = false ∧
      (gcRun.chan 1#4).readAddr = gcRun.params.regAddr .gcStopval ∧
      (gcRun.chan 1#4).writeAddr = gcRun.params.regAddr .ecCtrl ∧
      gcRun.gcStopval.getLsbD 0 = false ∧ gcRun.gt.en = true ∧ gcRun.gt.ctr = 0#16 ∧
      gcRun.gt.dir = false ∧ gcRun.ec.en = true ∧ gcRun.ec.ctr = 0#16 ∧ gcRun.ec.wrap = 0xFFFF#16 ∧
      (∀ d : ChanNo, d ≠ 1#4 → (gcRun.chan d).busy = false) ∧
      1 = (gcRun.gt.wrap.toNat + 1) * (if gcRun.gt.phCorrect then 2 else 1)) ∧
    (AgentsOnly [.edge 3#8 0#16] ∧
      (State.runTurns [.edge 3#8 0#16] gcRun).faultMark = none ∧
      countTurns State.ticks [.edge 3#8 0#16] gcRun < 1) ∧
    (AgentsOnly [.edge 3#8 0#16, .tick 0#16] ∧
      Turn.transfer 1#4 ∉ [Turn.edge 3#8 0#16, .tick 0#16] ∧
      1 ≤ countTurns State.ticks [.edge 3#8 0#16, .tick 0#16] gcRun ∧
      (State.runTurns ([.edge 3#8 0#16, .tick 0#16] ++ .transfer 1#4 :: oneEdge 1#4)
        gcRun).faultMark = none) :=
  ⟨testValues_legal, by decide, by unfold AgentsOnly; decide, by unfold AgentsOnly; decide⟩

theorem witness_CaptureHoldsTheClockOfEachTransfer :
    tsRun.params.Legal ∧
    (tsRun.mem.wf = true ∧ tsRun.params.hasChannel 2#4 = true ∧ tsRun.ts = ⟨2#4, true⟩ ∧
      tsRun.params.bufferOk tsRun.tsBase tsRun.tsCapacity = true ∧ (tsRun.chan 2#4).en = true ∧
      (tsRun.chan 2#4).busy = true ∧ (tsRun.chan 2#4).count = tsRun.tsCapacity ∧
      (tsRun.chan 2#4).pending = 0 ∧ (tsRun.chan 2#4).treq = 0#6 ∧ (tsRun.chan 2#4).size = true ∧
      (tsRun.chan 2#4).incrRead = false ∧ (tsRun.chan 2#4).incrWrite = true ∧
      (tsRun.chan 2#4).readAddr = tsRun.params.clockAddr ∧
      (tsRun.chan 2#4).writeAddr = tsRun.tsBase ∧ tsRun.ec.wrap = 0#16 ∧ tsRun.ec.ctr = 0#16 ∧
      (∀ d : ChanNo, d ≠ 2#4 → (tsRun.chan d).busy = false)) ∧
    (∀ a, bufferBytes tsRun.tsBase tsRun.tsCapacity a → tsRun.mem.read a = 0#8) ∧
    (AgentsOnly (Turn.clock :: oneEdge 2#4) ∧
      (State.runTurns (Turn.clock :: oneEdge 2#4) tsRun).faultMark = none ∧
      [1#32] = transferClocks 2#4 (Turn.clock :: oneEdge 2#4) tsRun ∧
      ((State.runTurns (Turn.clock :: oneEdge 2#4) tsRun).chan 2#4).busy = false) ∧
    (tsRun.chan 2#4).busy = true :=
  ⟨testValues_legal, by decide, fun _ _ => rfl, by unfold AgentsOnly; decide, by decide⟩

/-- Each start, with the further premises of GC_START and TS_START, and with other agents' turns between
its micro-steps. -/
theorem witness_InterleavedStartsEndArmed :
    (cxRun.params.Legal ∧ cxRun.cx.bound = true ∧ cxRun.faultMark = none ∧
      cxRun.inFlight = none) ∧
    (gcRun.params.Legal ∧ gcRun.gcState ≠ .idle ∧ gcRun.faultMark = none ∧
      gcRun.inFlight = none ∧ (∀ d : ChanNo, d ≠ gcRun.gc.ch → (gcRun.chan d).busy = false) ∧
      (gcRun.chan gcRun.gc.ch).treq = 1#6 ∧ (gcRun.chan gcRun.gc.ch).size = true ∧
      (gcRun.chan gcRun.gc.ch).incrRead = false ∧ (gcRun.chan gcRun.gc.ch).incrWrite = false ∧
      (gcRun.chan gcRun.gc.ch).readAddr = gcRun.params.regAddr .gcStopval ∧
      (gcRun.chan gcRun.gc.ch).writeAddr = gcRun.params.regAddr .ecCtrl ∧
      gcRun.gcStopval.getLsbD 0 = false) ∧
    (ts2.params.Legal ∧ ts2.ts.bound = true ∧ ts2.faultMark = none ∧ ts2.inFlight = none ∧
      (∀ d : ChanNo, (ts2.chan d).busy = false) ∧ ts2.ec.en = false ∧
      (ts2.chan ts2.ts.ch).treq = 0#6 ∧ ts2.mem.wf = true ∧
      ts2.params.bufferOk ts2.tsBase ts2.tsCapacity = true) ∧
    (started 5 .gcStart { gcRun with schedule := [.edge 3#8 0#16] }).inFlight = none :=
  ⟨⟨testValues_legal, by decide⟩, ⟨testValues_legal, by decide⟩, ⟨testValues_legal, by decide⟩,
    by decide⟩

theorem witness_StartingTwiceIsStartingOnce :
    (cxRun.cx.bound = true ∧ cxRun.faultMark = none ∧ cxRun.inFlight = none ∧
      cxRun.schedule = []) ∧
    (gcRun.gcState ≠ .idle ∧ gcRun.faultMark = none ∧ gcRun.inFlight = none ∧
      gcRun.schedule = []) ∧
    (tsLive.ts.bound = true ∧ tsLive.faultMark = none ∧ tsLive.inFlight = none ∧
      tsLive.schedule = []) ∧ StateOk tsLive :=
  ⟨by decide, by decide, by decide, tsLive_inv⟩

theorem witness_EveryStepKeepsTheInvariant :
    StateOk tsLive ∧ ∃ t, step tsLive = .next t :=
  ⟨tsLive_inv, tsLive, rfl⟩

theorem witness_LaunchHasTheInvariant :
    Params.testValues.Legal ∧ Memory.wf [(0x20000FFF, 1#8)] = true ∧
    (∀ a, Memory.read [(0x20000FFF, 1#8)] a ≠ ramAtLaunch →
      Params.testValues.ramBase.toNat ≤ a ∧
        a < Params.testValues.ramBase.toNat + Params.testValues.ramSize) := by
  refine ⟨testValues_legal, by decide, fun a ha => ?_⟩
  simp only [Memory.read_cons, Memory.read_nil] at ha
  split at ha
  · subst_vars; decide
  · exact absurd rfl ha

/-- A step that configures each unit. -/
theorem witness_OnlyConfigureChangesThePins :
    (∃ t, step (onLine (.command [0x10000003#32])) = .next t ∧
      t.ec.pin ≠ (onLine (.command [0x10000003#32])).ec.pin) ∧
    (∃ t, step (onLine (.command [0x20000102#32, 4#32])) = .next t ∧
      t.gt.pin ≠ (onLine (.command [0x20000102#32, 4#32])).gt.pin) :=
  ⟨⟨after (.ecConfigure 3#8 .rising) { onLine (.command [0x10000003#32]) with pc := 1 }, rfl,
      by decide⟩,
    ⟨after (.gtConfigure 2#8 1#8 4#32) { onLine (.command [0x20000102#32, 4#32]) with pc := 1 }, rfl,
      by decide⟩⟩

/-- A GateTimer that expires at every tick, in a machine whose channels are all idle. -/
def fairState (c : Word) : State :=
  { State.reset with gt := ⟨true, false, false, 0#16, 0#16, 1#8, 2#8⟩, clock := c }

/-- Ticks and clock steps in turn. -/
def fairTurn (n : Nat) : Turn := if n % 2 = 0 then .tick 0#16 else .clock

theorem fair_emit (c : Word) : (fairState c).emit gtTag 0#16 = .ok (fairState c) := by
  have ho : (fairState c).overruns gtTag 0#16 = false := by
    have h : State.reset.overruns gtTag 0#16 = false := by decide
    exact h
  have hd : (Vector.ofFn fun i : Fin 16 => if i.val < State.reset.params.dmaChannels
      then State.reset.dma[i].deliver gtTag ((0#16).getLsbD i.val) else State.reset.dma[i]) =
      State.reset.dma := by decide
  unfold State.emit
  rw [ho]
  exact congrArg (fun d => Except.ok { fairState c with dma := d }) hd

theorem fair_tick (c : Word) :
    step { fairState c with schedule := [.tick 0#16] } = .next (fairState c) := by
  have h : (fairState c).agentStep (.tick 0#16) = fairState c := by
    have e : (fairState c).agentAct (.tick 0#16) = .ok (fairState c) := fair_emit c
    have en : (fairState c).agentEnabled (.tick 0#16) = true := rfl
    simp only [State.agentStep, e, en, if_true]
  exact congrArg Host.Outcome.next h

theorem fair_clock (c : Word) :
    step { fairState c with schedule := [.clock] } = .next (fairState (c + 1#32)) := rfl

theorem fair_isRun :
    IsRun (fun n => fairState (BitVec.ofNat 32 (n / 2))) fairTurn := by
  intro n
  refine ⟨rfl, ?_⟩
  change step { fairState (BitVec.ofNat 32 (n / 2)) with schedule := [fairTurn n] } =
    .next (fairState (BitVec.ofNat 32 ((n + 1) / 2)))
  rcases Nat.mod_two_eq_zero_or_one n with h | h
  · have e : (n + 1) / 2 = n / 2 := by omega
    have ht : fairTurn n = .tick 0#16 := if_pos h
    rw [e, ht]
    exact fair_tick _
  · have e : (n + 1) / 2 = n / 2 + 1 := by omega
    have ht : fairTurn n = .clock := if_neg (by omega)
    rw [e, ht, BitVec.ofNat_add]
    exact fair_clock _

theorem fair_weaklyFair :
    WeaklyFair (fun n => fairState (BitVec.ofNat 32 (n / 2))) fairTurn := by
  intro a ha n hn
  cases a with
  | control => cases ha
  | edge p acc => cases ha
  | tick acc =>
    have ht : fairTurn (2 * n) = .tick 0#16 := if_pos (by omega)
    exact ⟨2 * n, by omega, by rw [ht]; rfl⟩
  | transfer ch =>
    have h : ∀ c ch, (fairState c).agentEnabled (.transfer ch) = false := by
      intro c ch
      simp [fairState, State.agentEnabled, State.chan, State.reset, State.launch, DmaChannel.atReset]
    have := hn n (Nat.le_refl n)
    rw [h] at this
    cases this
  | clock =>
    have ht : fairTurn (2 * n + 1) = .clock := if_neg (by omega)
    exact ⟨2 * n + 1, by omega, by rw [ht]; rfl⟩

theorem witness_FairGateTimerExpires :
    IsRun (fun n => fairState (BitVec.ofNat 32 (n / 2))) fairTurn ∧
    WeaklyFair (fun n => fairState (BitVec.ofNat 32 (n / 2))) fairTurn ∧
    HardwareRun (fun n => fairState (BitVec.ofNat 32 (n / 2))) ∧
    (∀ n : Nat, (fairState (BitVec.ofNat 32 (n / 2))).gt.en = true) ∧
    (∀ n : Nat, (∀ acc, fairTurn n ≠ .tick acc) →
      (fairState (BitVec.ofNat 32 ((n + 1) / 2))).gt = (fairState (BitVec.ofNat 32 (n / 2))).gt) :=
  ⟨fair_isRun, fair_weaklyFair, fun _ => rfl, fun _ => rfl, fun _ _ => rfl⟩

end Sys2Proof.Tests
end

