-- ==== Sys2Proof/Proofs/Launch.lean ====
section
/-! PROOFS. The state after reset has the invariant (00_scope.md R8, 70_reset_and_hazards.md R135 and
R136): no component is bound, no command is in flight and every channel is idle, so what is left to ask
is that the parameters are legal and that RAM is canonical and inside its region. -/

namespace Sys2Proof.Machine

theorem DmaChannel.atReset_ok (p : Params) : ChannelOk p DmaChannel.atReset where
  idle_pending _ := rfl
  busy_count h := absurd h Bool.false_ne_true
  within_limit n _ := Nat.zero_le n

@[simp] theorem State.bound_launch (p : Params) (clock : Word) (levels : BitVec 256) (ram : Memory)
    (c : Component) : ((State.launch p clock levels ram).binding c).bound = false := by
  cases c <;> rfl

@[simp] theorem State.owns_launch (p : Params) (clock : Word) (levels : BitVec 256) (ram : Memory)
    (c : Component) (ch : ChanNo) : (State.launch p clock levels ram).owns c ch = false := by
  simp [State.owns]

/-- Every legal launch starts in a state with the invariant; reset is one of them. -/
theorem StateOk.launch {p : Params} (clock : Word) (levels : BitVec 256) {ram : Memory}
    (hp : p.Legal) (hwf : ram.wf = true)
    (hram : ∀ a, ram.read a ≠ ramAtLaunch →
      p.ramBase.toNat ≤ a ∧ a < p.ramBase.toNat + p.ramSize) :
    StateOk (State.launch p clock levels ram) where
  params_legal := hp
  channels_ok ch := by
    rw [State.chan_launch]
    exact DmaChannel.atReset_ok p
  absent_at_reset ch _ := State.chan_launch p clock levels ram ch
  bound_exists c h := by simp at h
  exclusive c d ch h _ := by simp at h
  gc_bound := by simp [State.launch]
  ec_pin := .inl rfl
  gt_pin := .inl rfl
  gt_prescale := by simp [State.launch]
  ts_buffer h := absurd h Bool.false_ne_true
  in_flight m h := nomatch h
  mem_wf := hwf
  mem_in_ram := hram

/-- Settles O57: reset is the launch with the test parameters and an empty memory. -/
theorem launchHasTheInvariant : Obligations.LaunchHasTheInvariant := by
  unfold Obligations.LaunchHasTheInvariant
  have hreset : StateOk State.reset :=
    StateOk.launch 0#32 0#256 Tests.testValues_legal rfl fun a ha => absurd (Memory.read_nil a) ha
  exact ⟨hreset, fun _ clock levels _ hp hwf hram => StateOk.launch clock levels hp hwf hram⟩

end Sys2Proof.Machine
end

