-- ==== Sys2Proof/Proofs/Commands.lean ====
section
/-! PROOFS. What a line of the host program does: which line the control thread runs (10_state.md R17,
30_encoding.md R56, R59), and everything a command's meaning can change, said once for all commands so
that no invariant unfolds `exec` again. -/

namespace Sys2Proof.Machine

/-! ### The line at `pc` -/

theorem State.fetch_past_end {s : State} (h : s.program.length ≤ s.pc) : s.fetch = none :=
  List.getElem?_eq_none h

theorem lineStep_past_end {s : State} (h : s.fetch = none) : lineStep s = .next s := by
  unfold lineStep
  rw [h]

theorem lineStep_command {s : State} {ws : List Word} (h : s.fetch = some (.command ws)) :
    lineStep s = runWords ws s := by
  unfold lineStep
  rw [h]

theorem runWords_command {ws : List Word} {i : Instr} {n : Nat} (h : decode ws = .command i n)
    (s : State) : runWords ws s = exec i s.nextLine := by
  unfold runWords
  rw [h]

theorem runWords_truncated {ws : List Word} (h : decode ws = .truncated) (s : State) :
    runWords ws s = .refused .truncatedCommand := by
  unfold runWords
  rw [h]

/-- With the turn and no command in flight, a command line's words run on the state with the turn
taken. -/
theorem step_command_line {s : State} {ws : List Word} (hf : s.faultMark = none) (hq : Quiet 1 s)
    (hm : s.inFlight = none) (h : s.fetch = some (.command ws)) :
    step s = runWords ws { s with schedule := s.schedule.drop 1 } := by
  have h' : State.fetch { s with schedule := s.schedule.drop 1 } = some (.command ws) := h
  rw [step_line hf hq hm, lineStep_command h']

/-- Settles O7: with the turn and no command in flight the step is `lineStep`, and each clause is one of
its cases; with a command in flight it is that command's micro-step. -/
theorem stepRunsTheDecodedCommand : Obligations.StepRunsTheDecodedCommand := by
  unfold Obligations.StepRunsTheDecodedCommand
  refine ⟨?command, ?inFlight, ?pastEnd, ?truncated⟩
  case command =>
    intro s ws i n hf hq hm hfetch hdec _
    rw [step_command_line hf hq hm hfetch, runWords_command hdec]
    rfl
  case inFlight => exact fun s m hf hq hm => step_micro hf hq hm
  case pastEnd =>
    intro s hf hq hm hend
    exact (step_line hf hq hm).trans (lineStep_past_end (State.fetch_past_end hend))
  case truncated =>
    intro s ws hf hq hm hfetch hdec
    rw [step_command_line hf hq hm hfetch, runWords_truncated hdec]

/-- A branch changes `pc` at most. -/
theorem State.branchIf_eq (s : State) (cond : Bool) (l : Nat) :
    ∃ pc, s.branchIf cond l = { s with pc := pc } := by
  cases cond with
  | false => exact ⟨s.pc + 1, rfl⟩
  | true => exact ⟨l, rfl⟩

/-- A host operation changes `pc`, `t0` and the result record at most (30_encoding.md R59). -/
theorem State.hostOp_eq (s : State) (o : HostOp) :
    ∃ pc t0 last, s.hostOp o = { s with pc := pc, t0 := t0, last := last } := by
  have hbranch (cond : Bool) (l : Nat) :
      ∃ pc t0 last, s.branchIf cond l = { s with pc := pc, t0 := t0, last := last } := by
    obtain ⟨pc, h⟩ := s.branchIf_eq cond l
    exact ⟨pc, s.t0, s.last, h⟩
  cases o with
  | b l => exact ⟨l, s.t0, s.last, rfl⟩
  | bz l => exact hbranch _ l
  | bnz l => exact hbranch _ l
  | blt l k => exact hbranch _ l
  | berr l => exact hbranch _ l
  | mark => exact ⟨s.pc + 1, s.last.value, s.last, rfl⟩
  | bto l d => exact hbranch _ l
  | setst st => exact ⟨s.pc + 1, s.t0, { s.last with status := st }, rfl⟩
  | halt => exact ⟨s.pc, s.t0, s.last, rfl⟩

/-! ### Everything a command can do -/

/-- The most a command of each kind can change, with what its checks have found (60_exceptions.md R117). A
command that fails or only reads changes its result record and no more (`record`); one that writes only
the counters' counts, limits, directions and enables, or the gate's tally and sample, keeps both pins and
the prescale (`counters`). -/
inductive CommandEffect (s : State) : Instr → State → Prop
  | record {i : Instr} {r : Result} : CommandEffect s i { s with last := r }
  | counters {i : Instr} {ec : EdgeCounter} {gt : GateTimer} {tally : Word} {prev : BitVec 16}
      {r : Result} (hec : ec.pin = s.ec.pin) (hgt : gt.pin = s.gt.pin)
      (hpre : gt.prescale = s.gt.prescale) :
      CommandEffect s i
        { s with ec := ec, gt := gt, gcOvfTally := tally, gcPrevSample := prev, last := r }
  | busWr {a v : Word} {u : State} (h : s.memWrite a .word v = some u) :
      CommandEffect s (.busWr a v) (u.ret 0#32 false)
  | ecConfigure {pin : BitVec 8} {pol : Polarity} (hpin : s.params.ecPinOk pin = true) :
      CommandEffect s (.ecConfigure pin pol)
        (State.ret { s with ec := ⟨false, pol, 0#16, 0xFFFF#16, pin⟩ } 0#32 false)
  | gtConfigure {pin prescale : BitVec 8} {period value : Word} {ph : Bool} {wrap : BitVec 16}
      (hpin : s.params.gtPinOk pin = true) (hpre : prescale ≠ 0#8) :
      CommandEffect s (.gtConfigure pin prescale period)
        ((s.configureGt pin prescale ph wrap).ret value false)
  | cxInit {ch : ChanNo} (hch : s.params.hasChannel ch = true)
      (hfree : s.ownedByOther .cx ch = false) :
      CommandEffect s (.cxInit ch) ((s.bindCx ch).ret 0#32 false)
  | cxStart (hb : s.cx.bound = true) : CommandEffect s .cxStart (s.cxAbortStep s.cx.ch)
  | cxStop (hb : s.cx.bound = true) :
      CommandEffect s .cxStop
        ((s.setChan s.cx.ch { s.chan s.cx.ch with en := false }).ret 0#32 false)
  | gcInit {ch : ChanNo} (hch : s.params.hasChannel ch = true)
      (hfree : s.ownedByOther .gc ch = false) :
      CommandEffect s (.gcInit ch) ((s.bindGc ch).ret 0#32 false)
  | gcStart (hg : s.gcState ≠ .idle) : CommandEffect s .gcStart (s.gcStopStep s.gc.ch)
  | gcIsBusy {g : GcState} {value : Word} (hs : s.gcState ≠ .idle) (hg : g ≠ .idle) :
      CommandEffect s .gcIsBusy (State.ret { s with gcState := g } value false)
  | tsInit {ch : ChanNo} {base cap : Word} (hch : s.params.hasChannel ch = true)
      (hfree : s.ownedByOther .ts ch = false) (hbuf : s.params.bufferOk base cap = true) :
      CommandEffect s (.tsInit ch base cap) ((s.bindTs ch base cap).ret 0#32 false)
  | tsStartEmpty (hb : s.ts.bound = true) :
      CommandEffect s .tsStart (s.tsResetStep s.ts.ch s.tsBase s.tsCapacity)
  | tsStartSlots (hb : s.ts.bound = true) (hc : s.tsCapacity ≠ 0#32) :
      CommandEffect s .tsStart (s.tsZeroStep s.ts.ch s.tsBase s.tsCapacity 0)

section
variable {s t : State}

theorem execBusRd_effect {a : Word} (h : exec (.busRd a) s = .next t) :
    CommandEffect s (.busRd a) t := by
  simp only [exec, execBusRd] at h
  split at h <;> cases h
  · exact .record
  · exact .record

theorem execBusWr_effect {a v : Word} (h : exec (.busWr a v) s = .next t) :
    CommandEffect s (.busWr a v) t := by
  simp only [exec, execBusWr] at h
  split at h <;> cases h
  next => exact .record
  next hw => exact .busWr hw

theorem execEcConfigure_effect {pin : BitVec 8} {pol : Polarity}
    (h : exec (.ecConfigure pin pol) s = .next t) : CommandEffect s (.ecConfigure pin pol) t := by
  simp only [exec, execEcConfigure] at h
  split at h <;> cases h
  next hpin => exact .ecConfigure hpin
  next => exact .record

theorem execGtConfigure_effect {pin prescale : BitVec 8} {period : Word}
    (h : exec (.gtConfigure pin prescale period) s = .next t) :
    CommandEffect s (.gtConfigure pin prescale period) t := by
  simp only [exec, execGtConfigure] at h
  split at h
  · cases h; exact .record
  next hpin =>
    split at h
    · cases h; exact .record
    next hpre =>
      split at h <;> cases h
      · exact .record
      · exact .gtConfigure (by simpa using hpin) hpre

theorem execCxInit_effect {ch : ChanNo} (h : exec (.cxInit ch) s = .next t) :
    CommandEffect s (.cxInit ch) t := by
  simp only [exec, execCxInit] at h
  split at h
  · cases h; exact .record
  next hch =>
    split at h <;> cases h
    · exact .record
    next hfree => exact .cxInit (by simpa using hch) (by simpa using hfree)

theorem execCxStart_effect (h : exec .cxStart s = .next t) : CommandEffect s .cxStart t := by
  simp only [exec, execCxStart] at h
  split at h <;> cases h
  · exact .record
  next hb => exact .cxStart (by simpa using hb)

theorem execCxValue_effect (h : exec .cxValue s = .next t) : CommandEffect s .cxValue t := by
  simp only [exec, execCxValue] at h
  split at h <;> cases h
  · exact .record
  · exact .record

theorem execCxStop_effect (h : exec .cxStop s = .next t) : CommandEffect s .cxStop t := by
  simp only [exec, execCxStop] at h
  split at h <;> cases h
  next hb => exact .cxStop hb
  next => exact .record

theorem execGcInit_effect {ch : ChanNo} (h : exec (.gcInit ch) s = .next t) :
    CommandEffect s (.gcInit ch) t := by
  simp only [exec, execGcInit] at h
  split at h
  · cases h; exact .record
  next hch =>
    split at h <;> cases h
    · exact .record
    next hfree => exact .gcInit (by simpa using hch) (by simpa using hfree)

theorem execGcStart_effect (h : exec .gcStart s = .next t) : CommandEffect s .gcStart t := by
  simp only [exec, execGcStart] at h
  split at h <;> cases h
  · exact .record
  next hg => exact .gcStart hg

theorem execGcIsBusy_effect (h : exec .gcIsBusy s = .next t) : CommandEffect s .gcIsBusy t := by
  simp only [exec, execGcIsBusy] at h
  split at h <;> cases h
  · exact .record
  next hs =>
    refine .gcIsBusy hs ?_
    split
    · exact nofun
    · exact hs

theorem execGcRead_effect (h : exec .gcRead s = .next t) : CommandEffect s .gcRead t := by
  simp only [exec, execGcRead] at h
  split at h <;> cases h
  · exact .record
  · exact .record

theorem execGcPollOverflow_effect (h : exec .gcPollOverflow s = .next t) :
    CommandEffect s .gcPollOverflow t := by
  simp only [exec, execGcPollOverflow] at h
  split at h <;> cases h
  · exact .record
  · exact .counters rfl rfl rfl

theorem execTsInit_effect {ch : ChanNo} {base cap : Word}
    (h : exec (.tsInit ch base cap) s = .next t) : CommandEffect s (.tsInit ch base cap) t := by
  simp only [exec, execTsInit] at h
  split at h
  · cases h; exact .record
  next hch =>
    split at h
    · cases h; exact .record
    next hfree =>
      split at h <;> cases h
      · exact .record
      next hbuf =>
        exact .tsInit (by simpa using hch) (by simpa using hfree) (by simpa using hbuf)

theorem execTsStart_effect (h : exec .tsStart s = .next t) : CommandEffect s .tsStart t := by
  simp only [exec, execTsStart] at h
  split at h
  · cases h; exact .record
  next hb =>
    have hb' : s.ts.bound = true := by simpa using hb
    split at h <;> cases h
    · exact .tsStartEmpty hb'
    next hc => exact .tsStartSlots hb' hc

theorem execTsStop_effect (h : exec .tsStop s = .next t) : CommandEffect s .tsStop t := by
  simp only [exec, execTsStop] at h
  split at h <;> cases h
  · exact .counters rfl rfl rfl
  · exact .record

theorem execTsCaptured_effect (h : exec .tsCaptured s = .next t) :
    CommandEffect s .tsCaptured t := by
  simp only [exec, execTsCaptured] at h
  split at h <;> cases h
  · exact .record
  · exact .record

theorem execTsPeriod_effect (h : exec .tsPeriod s = .next t) : CommandEffect s .tsPeriod t := by
  simp only [exec, execTsPeriod] at h
  split at h
  · cases h; exact .record
  · split at h <;> cases h
    · exact .record
    · exact .record

/-- Everything a command can do (30_encoding.md R54). -/
theorem exec_effect {i : Instr} (h : exec i s = .next t) : CommandEffect s i t := by
  cases i with
  | busRd a => exact execBusRd_effect h
  | busWr a v => exact execBusWr_effect h
  | enMask mask => cases h; exact .counters rfl rfl rfl
  | ecConfigure pin pol => exact execEcConfigure_effect h
  | ecReset => cases h; exact .counters rfl rfl rfl
  | ecSetEnabled b => cases h; exact .counters rfl rfl rfl
  | ecRead => cases h; exact .record
  | ecSetWrap imm => cases h; exact .counters rfl rfl rfl
  | ecGetTag => cases h; exact .record
  | gtConfigure pin prescale period => exact execGtConfigure_effect h
  | gtReset => cases h; exact .counters rfl rfl rfl
  | gtSetEnabled b => cases h; exact .counters rfl rfl rfl
  | gtRead => cases h; exact .record
  | gtGetTag => cases h; exact .record
  | cxInit ch => exact execCxInit_effect h
  | cxStart => exact execCxStart_effect h
  | cxValue => exact execCxValue_effect h
  | cxStop => exact execCxStop_effect h
  | gcInit ch => exact execGcInit_effect h
  | gcStart => exact execGcStart_effect h
  | gcIsBusy => exact execGcIsBusy_effect h
  | gcRead => exact execGcRead_effect h
  | gcPollOverflow => exact execGcPollOverflow_effect h
  | tsInit ch base cap => exact execTsInit_effect h
  | tsStart => exact execTsStart_effect h
  | tsStop => exact execTsStop_effect h
  | tsCaptured => exact execTsCaptured_effect h
  | tsPeriod => exact execTsPeriod_effect h

end

end Sys2Proof.Machine
end

