-- ==== Sys2Proof/Proofs/Pins.lean ====
section
/-! PROOFS. The pins, the prescale and the parameters: only a successful configure command changes a pin
or the prescale, and nothing changes a parameter (10_state.md R20, R23). -/

namespace Sys2Proof.Machine

/-- The pin check of EC_CONFIGURE in the words of 41_edge_counter.md R77. -/
theorem Params.ecPinOk_iff {p : Params} {pin : BitVec 8} :
    p.ecPinOk pin = true ↔ pin.toNat < p.pinCount ∧ pin.toNat % 2 = p.edgePinParity := by
  simp [Params.ecPinOk]

/-- The pin check of GT_CONFIGURE in the words of 43_gate_timer.md R92. -/
theorem Params.gtPinOk_iff {p : Params} {pin : BitVec 8} :
    p.gtPinOk pin = true ↔ pin.toNat < p.pinCount := by
  simp [Params.gtPinOk]

/-- The parameters, both pins and the prescale are as before. -/
structure PinsKept (s t : State) : Prop where
  params : t.params = s.params
  ec_pin : t.ec.pin = s.ec.pin
  gt_pin : t.gt.pin = s.gt.pin
  gt_prescale : t.gt.prescale = s.gt.prescale

section
variable {s t : State}

theorem PinsKept.trans {u : State} (h : PinsKept s t) (h' : PinsKept t u) : PinsKept s u :=
  ⟨h'.params.trans h.params, h'.ec_pin.trans h.ec_pin, h'.gt_pin.trans h.gt_pin,
    h'.gt_prescale.trans h.gt_prescale⟩

theorem PinsKept.of_write (h : WriteKeeps s t) : PinsKept s t :=
  ⟨h.params, h.ec_pin, h.gt_pin, h.gt_prescale⟩

theorem PinsKept.of_agent (h : AgentKeeps s t) : PinsKept s t :=
  ⟨h.params, h.ec_pin, h.gt_pin, h.gt_prescale⟩

theorem PinsKept.of_micro (h : MicroKeeps s t) : PinsKept s t :=
  ⟨h.params, h.ec_pin, h.gt_pin, h.gt_prescale⟩

theorem PinsKept.of_turn {ts : List Turn} (h : PinsKept { s with schedule := ts } t) :
    PinsKept s t :=
  ⟨h.params, h.ec_pin, h.gt_pin, h.gt_prescale⟩

/-- Where nothing changed, a statement about a change has nothing to say. -/
theorem PinsKept.unchanged (h : PinsKept s t) {P Q : Prop} :
    t.params = s.params ∧ (t.ec.pin ≠ s.ec.pin → P) ∧
      (t.gt.prescale ≠ s.gt.prescale ∨ t.gt.pin ≠ s.gt.pin → Q) :=
  ⟨h.params, absurd h.ec_pin, fun hne => hne.elim (absurd h.gt_prescale) (absurd h.gt_pin)⟩

theorem State.hostOp_pinsKept (s : State) (o : HostOp) : PinsKept s (s.hostOp o) := by
  obtain ⟨pc, t0, last, e⟩ := s.hostOp_eq o
  rw [e]
  exact ⟨rfl, rfl, rfl, rfl⟩

/-- A command keeps them unless it is a configure command that passes its checks (41_edge_counter.md
R77, 43_gate_timer.md R92). -/
theorem CommandEffect.pins {i : Instr} (e : CommandEffect s i t) :
    PinsKept s t ∨
    (∃ pin pol, i = .ecConfigure pin pol ∧ s.params.ecPinOk pin = true ∧ t.params = s.params ∧
      t.ec.pin = pin ∧ t.gt = s.gt) ∨
    (∃ pin prescale period, i = .gtConfigure pin prescale period ∧ s.params.gtPinOk pin = true ∧
      prescale ≠ 0#8 ∧ t.params = s.params ∧ t.ec = s.ec ∧ t.gt.pin = pin ∧
      t.gt.prescale = prescale) := by
  cases e with
  | ecConfigure hpin => exact .inr (.inl ⟨_, _, rfl, hpin, rfl, rfl, rfl⟩)
  | gtConfigure hpin hpre =>
    exact .inr (.inr ⟨_, _, _, rfl, hpin, hpre, rfl, rfl, rfl, rfl⟩)
  | counters hec hgt hpre => exact .inl ⟨rfl, hec, hgt, hpre⟩
  | busWr hw =>
    exact .inl ((PinsKept.of_write (State.memWrite_keeps hw)).trans ⟨rfl, rfl, rfl, rfl⟩)
  | tsStartSlots _ _ =>
    exact .inl (PinsKept.of_micro (s.microStep_keeps (.tsZero s.ts.ch s.tsBase s.tsCapacity 0)))
  | _ => exact .inl ⟨rfl, rfl, rfl, rfl⟩

/-- A step keeps them, or it runs a command in a state that differs from this one in neither a pin, the
prescale nor a parameter. -/
theorem step_pins (h : step s = .next t) :
    PinsKept s t ∨
    (s.inFlight = none ∧ ∃ ws i n u, s.fetch = some (.command ws) ∧ decode ws = .command i n ∧
      PinsKept s u ∧ CommandEffect u i t) := by
  obtain ⟨_, ⟨a, ts, _, _, rfl⟩ | ⟨_, m, _, rfl⟩ | ⟨_, hm, hl⟩⟩ := step_cases h
  · exact .inl (PinsKept.of_agent (State.agentStep_keeps _ a)).of_turn
  · exact .inl (PinsKept.of_micro (State.microStep_keeps _ m)).of_turn
  · rcases lineStep_cases hl with
      ⟨_, rfl⟩ | ⟨o, _, rfl⟩ | ⟨ws, i, n, hf, hd, hx⟩ | ⟨ws, r, n, _, _, rfl⟩
    · exact .inl ⟨rfl, rfl, rfl, rfl⟩
    · exact .inl (State.hostOp_pinsKept _ o).of_turn
    · exact .inr ⟨hm, ws, i, n, State.nextLine { s with schedule := s.schedule.drop 1 }, hf, hd,
        ⟨rfl, rfl, rfl, rfl⟩, exec_effect hx⟩
    · exact .inl ⟨rfl, rfl, rfl, rfl⟩

end

/-- Settles O59: of the commands only a configure command that passes its checks changes a pin or the
prescale, and no other step does. -/
theorem onlyConfigureChangesThePins : Obligations.OnlyConfigureChangesThePins := by
  unfold Obligations.OnlyConfigureChangesThePins
  intro s t h
  rcases step_pins h with hk | ⟨hm, ws, i, n, u, hf, hd, hu, e⟩
  · exact hk.unchanged
  rcases e.pins with hk | ⟨pin, pol, rfl, hok, hp, hpin, hgt⟩ |
    ⟨pin, prescale, period, rfl, hok, hpre, hp, hec, hpin, hprescale⟩
  · exact (hu.trans hk).unchanged
  · rw [hu.params] at hok
    obtain ⟨hlt, hpar⟩ := Params.ecPinOk_iff.mp hok
    refine ⟨hp.trans hu.params, fun _ => ⟨hm, ws, pin, pol, n, hf, hd, hpin, hlt, hpar⟩, fun hne => ?_⟩
    rw [hgt] at hne
    exact hne.elim (absurd hu.gt_prescale) (absurd hu.gt_pin)
  · rw [hu.params] at hok
    refine ⟨hp.trans hu.params, fun hne => ?_, fun _ =>
      ⟨hm, ws, pin, prescale, period, n, hf, hd, hpin, hprescale, Params.gtPinOk_iff.mp hok, hpre⟩⟩
    rw [hec] at hne
    exact absurd hu.ec_pin hne

end Sys2Proof.Machine
end

