-- ==== Sys2Proof/Proofs/Invariant.lean ====
section
/-! PROOFS. Every step keeps the invariant. `StateOk` asks three kinds of things: that each channel's
fields agree, that RAM is canonical and inside its region, and that the bindings, the pins and the command
in flight fit together. So: each channel action keeps a channel's agreement, each store keeps RAM's form,
each update of State keeps `StateOk`, and a step is made of those updates. -/

namespace Sys2Proof.Machine

/-! ### A channel's agreement under each channel action -/

section
variable {p : Params} {c : DmaChannel}

/-- The agreement reads BUSY, COUNT and PENDING alone. -/
theorem ChannelOk.congr {c' : DmaChannel} (h : ChannelOk p c) (hb : c'.busy = c.busy)
    (hc : c'.count = c.count) (hp : c'.pending = c.pending) : ChannelOk p c' := by
  obtain ⟨idle, busy, limit⟩ := h
  rw [← hb, ← hp] at idle
  rw [← hb, ← hc] at busy
  rw [← hp] at limit
  exact ⟨idle, busy, limit⟩

/-- A channel with no sequence and no request agrees. -/
theorem ChannelOk.of_idle (hb : c.busy = false) (hp : c.pending = 0) : ChannelOk p c where
  idle_pending _ := hp
  busy_count h := absurd (hb.symm.trans h) Bool.false_ne_true
  within_limit n _ := hp.le.trans (Nat.zero_le n)

theorem ChannelOk.abort (p : Params) (c : DmaChannel) : ChannelOk p c.abort := .of_idle rfl rfl

theorem ChannelOk.busFail (p : Params) (c : DmaChannel) : ChannelOk p c.busFail := .of_idle rfl rfl

theorem ChannelOk.trigger (h : ChannelOk p c) : ChannelOk p c.trigger := by
  rcases c.trigger_cases with ⟨_, _, hr, e⟩ | ⟨_, hb, _, e⟩ | ⟨_, e⟩
  · rw [e]
    exact ⟨fun _ => rfl, fun _ => hr, fun n _ => Nat.zero_le n⟩
  · rw [e]
    exact .of_idle hb (h.idle_pending hb)
  · rw [e]
    exact h

theorem ChannelOk.writeTrig (h : ChannelOk p c) (v : Word) : ChannelOk p (c.writeTrig v) :=
  (h.congr (c' := { c with reload := v }) rfl rfl rfl).trigger

theorem ChannelOk.arm (h : ChannelOk p c) (v : Word) : ChannelOk p (c.arm v) :=
  (h.congr (c' := { c with en := true }) rfl rfl rfl).writeTrig v

theorem ChannelOk.writeReg (h : ChannelOk p c) (r : DmaReg) (v : Word) :
    ChannelOk p (c.writeReg r v) := by
  cases r
  case transCountTrig => exact h.writeTrig v
  all_goals exact h.congr rfl rfl rfl

theorem ChannelOk.bindTo (h : ChannelOk p c) (src dst : Word) (iw : Bool) (tag : BitVec 6) :
    ChannelOk p (c.bindTo src dst iw tag) :=
  h.congr rfl rfl rfl

/-- The last transfer of a sequence leaves the channel idle, any other a COUNT that is not 0
(40_bus_dma.md R69). -/
theorem ChannelOk.served (h : ChannelOk p c) : ChannelOk p c.served := by
  by_cases hl : c.count - 1#32 = 0#32
  · exact .of_idle (by simp [DmaChannel.served, hl]) (by simp [DmaChannel.served, hl])
  · have hb : c.served.busy = c.busy := by simp [DmaChannel.served, hl]
    have hp : c.served.pending = c.pending - 1 := by simp [DmaChannel.served, hl]
    refine ⟨fun hi => ?_, fun _ => hl, fun n hn => ?_⟩
    · rw [hp, h.idle_pending (hb ▸ hi)]
    · rw [hp]
      exact (Nat.sub_le _ _).trans (h.within_limit n hn)

/-- A request that does not overrun keeps PENDING within its limit (40_bus_dma.md R68). -/
theorem ChannelOk.deliver (h : ChannelOk p c) {tag : BitVec 6} {a : Bool}
    (hl : c.takes tag a = true → p.limitReached c = false) : ChannelOk p (c.deliver tag a) := by
  rcases c.deliver_cases tag a with ⟨ht, e⟩ | ⟨_, e⟩
  · have hb : c.busy = true := by
      simp only [DmaChannel.takes, Bool.and_eq_true] at ht
      exact ht.1.2
    have hne : p.pendingLimit ≠ some c.pending := by
      simpa [Params.limitReached] using hl ht
    rw [e]
    refine ⟨fun hi => (nomatch hb.symm.trans hi), h.busy_count,
      fun n hn => ?_⟩
    have hle := h.within_limit n hn
    have hn' : c.pending ≠ n := fun e => hne (e ▸ hn)
    change c.pending + 1 ≤ n
    omega
  · rw [e]
    exact h

end

/-! ### RAM's form under each store -/

/-- RAM is canonical and holds bytes at its own addresses only. -/
structure MemoryOk (p : Params) (m : Memory) : Prop where
  wf : m.wf = true
  in_ram : ∀ a, m.read a ≠ ramAtLaunch →
    p.ramBase.toNat ≤ a ∧ a < p.ramBase.toNat + p.ramSize

theorem StateOk.memoryOk {s : State} (h : StateOk s) : MemoryOk s.params s.mem :=
  ⟨h.mem_wf, h.mem_in_ram⟩

theorem MemoryOk.write {p : Params} {m : Memory} (h : MemoryOk p m) {a : Nat} (v : Byte)
    (hlo : p.ramBase.toNat ≤ a) (hhi : a < p.ramBase.toNat + p.ramSize) :
    MemoryOk p (m.write a v) := by
  refine ⟨Memory.wf_write h.wf a v, fun x hx => ?_⟩
  rw [Memory.read_write h.wf] at hx
  split at hx
  next e => exact e ▸ ⟨hlo, hhi⟩
  next => exact h.in_ram x hx

theorem MemoryOk.write32 {p : Params} {m : Memory} (h : MemoryOk p m) {a : Nat} (v : Word)
    (hlo : p.ramBase.toNat ≤ a) (hhi : a + 4 ≤ p.ramBase.toNat + p.ramSize) :
    MemoryOk p (m.write32 a v) := by
  refine ⟨Memory.wf_write32 h.wf a v, fun x hx => ?_⟩
  rw [Memory.read_write32 h.wf] at hx
  split at hx
  next hin => omega
  next => exact h.in_ram x hx

/-! ### The invariant under each update of State -/

/-- What the invariant reads beside the channels and RAM is as before. -/
structure SameComponents (s t : State) : Prop where
  params : t.params = s.params
  gcState : t.gcState = s.gcState
  cx : t.cx = s.cx
  gc : t.gc = s.gc
  ts : t.ts = s.ts
  tsBase : t.tsBase = s.tsBase
  tsCapacity : t.tsCapacity = s.tsCapacity
  inFlight : t.inFlight = s.inFlight
  ec_pin : t.ec.pin = s.ec.pin
  gt_pin : t.gt.pin = s.gt.pin
  gt_prescale : t.gt.prescale = s.gt.prescale

section
variable {s t : State}

theorem SameComponents.of_write (h : WriteKeeps s t) : SameComponents s t :=
  ⟨h.params, h.gcState, h.cx, h.gc, h.ts, h.tsBase, h.tsCapacity, h.inFlight, h.ec_pin, h.gt_pin,
    h.gt_prescale⟩

theorem SameComponents.binding (k : SameComponents s t) (c : Component) :
    t.binding c = s.binding c := by
  cases c
  · exact k.cx
  · exact k.gc
  · exact k.ts

theorem SameComponents.owns (k : SameComponents s t) (c : Component) (ch : ChanNo) :
    t.owns c ch = s.owns c ch := by
  unfold State.owns
  rw [k.binding]

theorem SameComponents.inFlight_ok (k : SameComponents s t) {m : InFlight} (h : m.Ok s) :
    m.Ok t := by
  cases m <;> simp only [InFlight.Ok, k.cx, k.gc, k.ts, k.tsBase, k.tsCapacity] at h ⊢ <;> exact h

/-- A channel after an update: as before, or an existing one whose fields agree. -/
def ChannelKept (s t : State) (ch : ChanNo) : Prop :=
  t.chan ch = s.chan ch ∨ (s.params.hasChannel ch = true ∧ ChannelOk s.params (t.chan ch))

/-- The update rule: the components as before, every channel kept, and RAM in its form. -/
theorem StateOk.update (h : StateOk s) (k : SameComponents s t) (hc : ∀ ch, ChannelKept s t ch)
    (hm : MemoryOk s.params t.mem) : StateOk t where
  params_legal := k.params ▸ h.params_legal
  channels_ok ch := by
    rw [k.params]
    rcases hc ch with e | ⟨_, hok⟩
    · exact e ▸ h.channels_ok ch
    · exact hok
  absent_at_reset ch habs := by
    rw [k.params] at habs
    rcases hc ch with e | ⟨hex, _⟩
    · exact e.trans (h.absent_at_reset ch habs)
    · exact absurd (habs.symm.trans hex) Bool.false_ne_true
  bound_exists c := by
    rw [k.binding, k.params]
    exact h.bound_exists c
  exclusive c d ch := by
    rw [k.owns, k.owns]
    exact h.exclusive c d ch
  gc_bound := by
    rw [k.gc, k.gcState]
    exact h.gc_bound
  ec_pin := by
    rw [k.ec_pin, k.params]
    exact h.ec_pin
  gt_pin := by
    rw [k.gt_pin, k.params]
    exact h.gt_pin
  gt_prescale := k.gt_prescale ▸ h.gt_prescale
  ts_buffer := by
    rw [k.ts, k.params, k.tsBase, k.tsCapacity]
    exact h.ts_buffer
  in_flight m hm := k.inFlight_ok (h.in_flight m (k.inFlight ▸ hm))
  mem_wf := hm.wf
  mem_in_ram := k.params ▸ hm.in_ram

/-- An update that leaves channels and RAM too. -/
theorem StateOk.frame (h : StateOk s) (k : SameComponents s t) (hd : t.dma = s.dma)
    (hm : t.mem = s.mem) : StateOk t :=
  h.update k (fun ch => .inl (State.chan_eq_of_dma hd ch)) (hm ▸ h.memoryOk)

theorem StateOk.ret (h : StateOk s) (v : Word) (f : Bool) : StateOk (s.ret v f) :=
  h.frame (by constructor <;> rfl) rfl rfl

/-- The host's own fields, the schedule and the fault mark are not the invariant's. -/
theorem StateOk.control (h : StateOk s) (pc : Nat) (t0 : Word) (last : Result) (ts : List Turn)
    (f : Option Fault) :
    StateOk { s with pc := pc, t0 := t0, last := last, schedule := ts, faultMark := f } :=
  h.frame (by constructor <;> rfl) rfl rfl

theorem StateOk.setEnables (h : StateOk s) (a b : Bool) : StateOk (s.setEnables a b) :=
  h.frame (by constructor <;> rfl) rfl rfl

theorem StateOk.setChan (h : StateOk s) {ch : ChanNo} {c : DmaChannel}
    (hex : s.params.hasChannel ch = true) (hc : ChannelOk s.params c) : StateOk (s.setChan ch c) := by
  refine h.update (by constructor <;> rfl) (fun d => ?_) h.memoryOk
  by_cases hd : d = ch
  · subst hd
    exact .inr ⟨hex, by rwa [State.chan_setChan_self]⟩
  · exact .inl (State.chan_setChan_ne s c hd)

/-- The command in flight may change to one that its component has started. -/
theorem StateOk.setInFlight (h : StateOk s) {f : Option InFlight}
    (hf : ∀ m, f = some m → m.Ok s) : StateOk { s with inFlight := f } where
  __ := h
  in_flight := hf

/-- A command in flight may end. -/
theorem StateOk.land (h : StateOk s) : StateOk { s with inFlight := none } :=
  h.setInFlight nofun

/-- A bound GateController moves between the states that are not Idle (44_gate_controller.md R98). -/
theorem StateOk.setGcState (h : StateOk s) {g : GcState} (hb : s.gc.bound = true)
    (hg : g ≠ .idle) : StateOk { s with gcState := g } where
  __ := h
  gc_bound := ⟨fun _ => hg, fun _ => hb⟩
  in_flight := h.in_flight

/-- The EdgeCounter's registers may change as long as its pin is none or one it can use. -/
theorem StateOk.setEc (h : StateOk s) {ec : EdgeCounter}
    (hpin : ec.pin = 0xFF#8 ∨ s.params.ecPinOk ec.pin = true) : StateOk { s with ec := ec } where
  __ := h
  ec_pin := hpin
  in_flight := h.in_flight

/-- The GateTimer's registers may change as long as its pin is none or one it can use, and its prescale
is not 0. -/
theorem StateOk.setGt (h : StateOk s) {gt : GateTimer}
    (hpin : gt.pin = 0xFF#8 ∨ s.params.gtPinOk gt.pin = true) (hpre : gt.prescale ≠ 0#8) :
    StateOk { s with gt := gt } where
  __ := h
  gt_pin := hpin
  gt_prescale := hpre
  in_flight := h.in_flight

end

end Sys2Proof.Machine
end

