-- ==== Sys2Proof/Proofs/StepInvariant.lean ====
section
/-! PROOFS. The invariant under a bus write, an agent's step, a micro-step, an init command and every other
command, and from these under a step of the machine (O56). -/

namespace Sys2Proof.Machine

section
variable {s t : State}

/-! ### The bus -/

/-- Only an existing channel's register changes a channel, and each keeps its agreement. -/
theorem StateOk.regWrite (h : StateOk s) {r : Reg} (hr : s.params.hasReg r = true) (v : Word) :
    StateOk (s.regWrite r v) := by
  obtain ⟨hk, hm⟩ := s.regWrite_keeps r v
  refine h.update (.of_write hk) (fun ch => ?_) (hm ▸ h.memoryOk)
  unfold ChannelKept
  rw [State.chan_regWrite]
  cases r
  case dmaAbort =>
    dsimp only
    split
    next hab => exact .inr ⟨decide_eq_true hab.2, .abort _ _⟩
    next => exact .inl rfl
  case dma c q =>
    dsimp only
    split
    next e => exact .inr ⟨e ▸ hr, (h.channels_ok c).writeReg q v⟩
    next => exact .inl rfl
  all_goals exact .inl rfl

/-- A bus write stores inside RAM, writes an existing register, or is ignored (20_memory.md R39). -/
theorem StateOk.memWrite {u : State} {a : Word} {z : Size} {v : Word} (h : StateOk s)
    (hw : s.memWrite a z v = some u) : StateOk u := by
  rcases State.memWrite_cases hw with
    ⟨_, rfl, hlo, hhi⟩ | ⟨_, rfl, _, hlo, hhi⟩ | ⟨r, _, rfl, hr, _⟩ | ⟨_, rfl, _⟩
  · exact h.update (by constructor <;> rfl) (fun _ => .inl rfl) (h.memoryOk.write _ hlo hhi)
  · exact h.update (by constructor <;> rfl) (fun _ => .inl rfl) (h.memoryOk.write32 _ hlo hhi)
  · exact h.regWrite hr v
  · exact h

theorem StateOk.zeroSlot (h : StateOk s) (base : Word) (i : Nat) : StateOk (s.zeroSlot base i) := by
  rcases s.zeroSlot_cases base i with hw | ⟨_, e⟩
  · exact h.memWrite hw
  · rw [e]
    exact h

/-! ### The agents -/

/-- An event gives each existing channel at most one request, and none over the limit (40_bus_dma.md
R68). -/
theorem StateOk.emit (h : StateOk s) {tag : BitVec 6} {a : BitVec 16} (he : s.emit tag a = .ok t) :
    StateOk t := by
  obtain ⟨hchan, hframe, hlimit⟩ := State.emit_ok he
  have hmem : t.mem = s.mem := by rw [hframe]
  refine h.update (by rw [hframe]; constructor <;> rfl) (fun ch => ?_) (hmem ▸ h.memoryOk)
  unfold ChannelKept
  rw [hchan]
  split
  next hlt =>
    have hex : s.params.hasChannel ch = true := decide_eq_true hlt
    exact .inr ⟨hex, (h.channels_ok ch).deliver (hlimit ch hex)⟩
  next => exact .inl rfl

theorem StateOk.edge (h : StateOk s) {p : BitVec 8} {a : BitVec 16} (he : s.edge p a = .ok t) :
    StateOk t := by
  have hcount : StateOk { s.toggle p with ec := s.ec.countEdge } :=
    h.frame (by constructor <;> rfl) rfl rfl
  rcases State.edge_ok he with ⟨_, rfl⟩ | ⟨_, _, rfl⟩ | ⟨_, _, he'⟩
  · exact h.frame (by constructor <;> rfl) rfl rfl
  · exact hcount
  · exact hcount.emit he'

theorem StateOk.gtTick (h : StateOk s) {a : BitVec 16} (he : s.gtTick a = .ok t) : StateOk t := by
  obtain ⟨_, _, _, hpre, hpin⟩ := s.gt.tick_keeps
  have htick : StateOk { s with gt := s.gt.tick } :=
    h.frame ⟨rfl, rfl, rfl, rfl, rfl, rfl, rfl, rfl, rfl, hpin, hpre⟩ rfl rfl
  rcases State.gtTick_ok he with ⟨_, rfl⟩ | ⟨_, he'⟩
  · exact htick
  · exact htick.emit he'

/-- A transfer's write reaches no channel, and then its own channel is served or has failed (40_bus_dma.md
R69, R70). -/
theorem StateOk.transfer (h : StateOk s) {ch : ChanNo} (hex : s.params.hasChannel ch = true)
    (he : s.transfer ch = .ok t) : StateOk t := by
  obtain ⟨hd, ⟨_, rfl⟩ | ⟨v, u, _, hw, rfl⟩⟩ := State.transfer_ok he
  · exact h.setChan hex (.busFail _ _)
  · have hu : StateOk u := h.memWrite hw
    have hp : u.params = s.params := (State.memWrite_keeps hw).params
    have hc : u.chan ch = s.chan ch := State.memWrite_chan h.params_legal hd hw ch
    exact hu.setChan (hp ▸ hex) (hc ▸ (hu.channels_ok ch).served)

theorem StateOk.agentAct (h : StateOk s) {a : Turn} (hen : s.agentEnabled a = true)
    (he : s.agentAct a = .ok t) : StateOk t := by
  cases a with
  | control => exact absurd hen Bool.false_ne_true
  | edge p acc => exact h.edge he
  | tick acc => exact h.gtTick he
  | transfer ch =>
    simp only [State.agentEnabled, Bool.and_eq_true] at hen
    exact h.transfer hen.1.1.1 he
  | clock =>
    obtain rfl := Except.ok.inj he
    exact h.frame (by constructor <;> rfl) rfl rfl

theorem StateOk.agentStep (h : StateOk s) (a : Turn) : StateOk (s.agentStep a) := by
  rcases s.agentStep_cases a with ⟨_, e⟩ | ⟨hen, s', he, e⟩ | ⟨_, f, _, e⟩ <;> rw [e]
  · exact h
  · exact h.agentAct hen he
  · exact h.control s.pc s.t0 s.last s.schedule (some f)

/-! ### Micro-steps -/

/-- A binding that is bound, with its channel. -/
theorem Binding.eq_of_bound {b : Binding} (h : b.bound = true) : b = ⟨b.ch, true⟩ := by
  obtain ⟨ch, bound⟩ := b
  exact congrArg (Binding.mk ch) h

/-- A bound component's channel exists, with the binding taken apart. -/
theorem StateOk.bound_channel (h : StateOk s) (c : Component) {ch : ChanNo}
    (hb : s.binding c = ⟨ch, true⟩) : s.params.hasChannel ch = true := by
  have hex := h.bound_exists c
  rw [hb] at hex
  exact hex rfl

/-- The first micro-step of CX_START, the abort. -/
theorem StateOk.cxAbortStep (h : StateOk s) {cx : ChanNo} (hb : s.cx = ⟨cx, true⟩) :
    StateOk (s.cxAbortStep cx) :=
  (h.setChan (h.bound_channel .cx hb) (.abort _ _)).setInFlight fun | _, rfl => hb

/-- The first micro-step of GC_START stops both counters. -/
theorem StateOk.gcStopStep (h : StateOk s) {gc : ChanNo} (hb : s.gc = ⟨gc, true⟩) :
    StateOk (s.gcStopStep gc) :=
  (h.setEnables false false).setInFlight fun | _, rfl => hb

/-- Zeroing a slot leaves the buffer bound, with the next slot inside it or the count next. -/
theorem StateOk.tsZeroStep (h : StateOk s) {ts : ChanNo} {base cap : Word} {i : Nat}
    (hok : InFlight.Ok s (.tsZero ts base cap i)) : StateOk (s.tsZeroStep ts base cap i) := by
  obtain ⟨hts, hbase, hcap, _⟩ := hok
  refine (h.zeroSlot base i).setInFlight fun m hm => ?_
  refine (SameComponents.of_write (s.zeroSlot_keeps base i)).inFlight_ok ?_
  split at hm <;> cases hm
  next hi => exact ⟨hts, hbase, hcap, hi⟩
  next => exact ⟨hts, hbase, hcap⟩

/-- Each micro-step acts on its component's own channel and leaves a next one of the same component. -/
theorem StateOk.microStep (h : StateOk s) {m : InFlight} (hok : m.Ok s) : StateOk (s.microStep m) := by
  cases m with
  | cxArm cx =>
    have hex := h.bound_channel .cx hok
    exact (h.setChan hex ((h.channels_ok cx).arm _)).land.ret _ _
  | gcAbort gc =>
    have hex := h.bound_channel .gc hok
    exact (h.setChan hex (.abort _ _)).setInFlight fun | _, rfl => hok
  | gcZero gc =>
    have hzero : StateOk { s with
        ec := { s.ec with ctr := 0#16 }, gt := { s.gt with ctr := 0#16, dir := false }
        gcPrevSample := 0#16, gcOvfTally := 0#32 } :=
      h.frame (by constructor <;> rfl) rfl rfl
    exact hzero.setInFlight fun | _, rfl => hok
  | gcArm gc =>
    have hex := h.bound_channel .gc hok
    have hb : s.gc.bound = true := congrArg Binding.bound hok
    exact (h.setChan hex ((h.channels_ok gc).arm _)).setInFlight fun | _, rfl => hb
  | gcEnable =>
    exact ((h.setEnables true true).setGcState (g := .running) hok nofun).land.ret _ _
  | tsZero ts base cap i => exact h.tsZeroStep hok
  | tsReset ts base cap =>
    have hreset : StateOk { s with ec := { s.ec with ctr := 0#16 } } :=
      h.frame (by constructor <;> rfl) rfl rfl
    exact hreset.setInFlight fun | _, rfl => hok
  | tsAbort ts base cap =>
    have hex := h.bound_channel .ts hok.1
    exact (h.setChan hex (.abort _ _)).setInFlight fun | _, rfl => hok
  | tsArm ts base cap =>
    obtain ⟨hts, _⟩ := hok
    have hex := h.bound_channel .ts hts
    have hb : s.ts.bound = true := congrArg Binding.bound hts
    have hc : ChannelOk s.params { s.chan ts with writeAddr := base } :=
      (h.channels_ok ts).congr rfl rfl rfl
    exact (h.setChan hex (hc.arm cap)).setInFlight fun | _, rfl => hb
  | tsEnable =>
    have hen : StateOk { s with ec := { s.ec with en := true } } :=
      h.frame (by constructor <;> rfl) rfl rfl
    exact hen.land.ret _ _

/-! ### Init commands -/

/-- What the three init commands have in common: component `c` is bound to `ch`, whose fields agree if
they did, and no other binding, no other channel, neither RAM nor a pin changes (42_counter_extender.md R84,
44_gate_controller.md R99, 45_timestamp_capture.md R106). -/
structure Binds (c : Component) (ch : ChanNo) (s t : State) : Prop where
  binding_self : t.binding c = ⟨ch, true⟩
  binding_ne : ∀ d, d ≠ c → t.binding d = s.binding d
  chan_self : ChannelOk s.params (s.chan ch) → ChannelOk s.params (t.chan ch)
  chan_ne : ∀ d, d ≠ ch → t.chan d = s.chan d
  params : t.params = s.params
  inFlight : t.inFlight = s.inFlight
  mem : t.mem = s.mem
  ec_pin : t.ec.pin = s.ec.pin
  gt : t.gt = s.gt

theorem State.bindCx_binds (s : State) (ch : ChanNo) : Binds .cx ch s (s.bindCx ch) where
  binding_self := rfl
  binding_ne := fun
    | .cx, hd => absurd rfl hd
    | .gc, _ => rfl
    | .ts, _ => rfl
  chan_self h := by
    have e : (s.bindCx ch).chan ch = (s.chan ch).bindTo _ _ _ _ := State.chan_setChan_self s ch _
    rw [e]
    exact h.bindTo _ _ _ _
  chan_ne d hd := State.chan_setChan_ne s _ hd
  params := rfl
  inFlight := rfl
  mem := rfl
  ec_pin := rfl
  gt := rfl

theorem State.bindGc_binds (s : State) (ch : ChanNo) : Binds .gc ch s (s.bindGc ch) where
  binding_self := rfl
  binding_ne := fun
    | .cx, _ => rfl
    | .gc, hd => absurd rfl hd
    | .ts, _ => rfl
  chan_self h := by
    have e : (s.bindGc ch).chan ch = { (s.chan ch).bindTo _ _ _ _ with reload := 1#32 } :=
      State.chan_setChan_self s ch _
    rw [e]
    exact h.congr rfl rfl rfl
  chan_ne d hd := State.chan_setChan_ne s _ hd
  params := rfl
  inFlight := rfl
  mem := rfl
  ec_pin := rfl
  gt := rfl

theorem State.bindTs_binds (s : State) (ch : ChanNo) (base cap : Word) :
    Binds .ts ch s (s.bindTs ch base cap) where
  binding_self := rfl
  binding_ne := fun
    | .cx, _ => rfl
    | .gc, _ => rfl
    | .ts, hd => absurd rfl hd
  chan_self h := by
    have e : (s.bindTs ch base cap).chan ch = { (s.chan ch).bindTo _ _ _ _ with reload := cap } :=
      State.chan_setChan_self s ch _
    rw [e]
    exact h.congr rfl rfl rfl
  chan_ne d hd := State.chan_setChan_ne s _ hd
  params := rfl
  inFlight := rfl
  mem := rfl
  ec_pin := rfl
  gt := rfl

/-- A channel that no other component owns is owned by `c` at most (60_exceptions.md R122). -/
theorem State.eq_of_owns_of_free {c d : Component} {ch : ChanNo} (hfree : s.ownedByOther c ch = false)
    (ho : s.owns d ch = true) : d = c := by
  by_contra hne
  have hd : d ∈ [Component.cx, .gc, .ts] := by cases d <;> decide
  have : s.ownedByOther c ch = true := List.any_eq_true.mpr ⟨d, hd, by simp [hne, ho]⟩
  exact absurd (this.symm.trans hfree) nofun

theorem State.owns_iff {c : Component} {ch : ChanNo} :
    s.owns c ch = true ↔ (s.binding c).bound = true ∧ (s.binding c).ch = ch := by
  simp [State.owns]

section
variable {c : Component} {ch : ChanNo}

theorem Binds.owns_self (b : Binds c ch s t) {x : ChanNo} : t.owns c x = true ↔ ch = x := by
  simp [State.owns_iff, b.binding_self]

theorem Binds.owns_ne (b : Binds c ch s t) {d : Component} (hd : d ≠ c) (x : ChanNo) :
    t.owns d x = s.owns d x := by
  unfold State.owns
  rw [b.binding_ne d hd]

/-- Binding a channel that no other component owns keeps channels apart. -/
theorem Binds.exclusive (b : Binds c ch s t) (h : StateOk s) (hfree : s.ownedByOther c ch = false)
    (d e : Component) (x : ChanNo) (hd : t.owns d x = true) (he : t.owns e x = true) : d = e := by
  by_cases hdc : d = c <;> by_cases hec : e = c
  · exact hdc.trans hec.symm
  · subst hdc
    rw [b.owns_ne hec, ← b.owns_self.mp hd] at he
    exact (State.eq_of_owns_of_free hfree he).symm
  · subst hec
    rw [b.owns_ne hdc, ← b.owns_self.mp he] at hd
    exact State.eq_of_owns_of_free hfree hd
  · rw [b.owns_ne hdc] at hd
    rw [b.owns_ne hec] at he
    exact h.exclusive d e x hd he

/-- The init rule: an existing channel that no other component owns, and what the component's own
registers must have for GC_STATE and for the buffer. -/
theorem Binds.stateOk (b : Binds c ch s t) (h : StateOk s) (hm : s.inFlight = none)
    (hex : s.params.hasChannel ch = true) (hfree : s.ownedByOther c ch = false)
    (hgc : t.gc.bound = true ↔ t.gcState ≠ .idle)
    (hts : t.ts.bound = true → s.params.bufferOk t.tsBase t.tsCapacity = true) : StateOk t where
  params_legal := b.params ▸ h.params_legal
  channels_ok d := by
    rw [b.params]
    by_cases hd : d = ch
    · subst hd
      exact b.chan_self (h.channels_ok d)
    · exact b.chan_ne d hd ▸ h.channels_ok d
  absent_at_reset d habs := by
    rw [b.params] at habs
    have hd : d ≠ ch := fun e => absurd (habs.symm.trans (e ▸ hex)) Bool.false_ne_true
    exact (b.chan_ne d hd).trans (h.absent_at_reset d habs)
  bound_exists d := by
    rw [b.params]
    by_cases hd : d = c
    · subst hd
      rw [b.binding_self]
      exact fun _ => hex
    · rw [b.binding_ne d hd]
      exact h.bound_exists d
  exclusive := b.exclusive h hfree
  gc_bound := hgc
  ec_pin := by
    rw [b.ec_pin, b.params]
    exact h.ec_pin
  gt_pin := by
    rw [b.gt, b.params]
    exact h.gt_pin
  gt_prescale := b.gt ▸ h.gt_prescale
  ts_buffer := by
    rw [b.params]
    exact hts
  in_flight m hm' := nomatch (b.inFlight.trans hm).symm.trans hm'
  mem_wf := b.mem ▸ h.mem_wf
  mem_in_ram := by
    rw [b.mem, b.params]
    exact h.mem_in_ram

end

/-! ### Commands and steps -/

/-- Every command keeps the invariant where none is in flight. -/
theorem CommandEffect.stateOk {i : Instr} (e : CommandEffect s i t) (h : StateOk s)
    (hm : s.inFlight = none) : StateOk t := by
  cases e with
  | record => exact h.control s.pc s.t0 _ s.schedule s.faultMark
  | counters hec hgt hpre =>
    exact h.frame ⟨rfl, rfl, rfl, rfl, rfl, rfl, rfl, rfl, hec, hgt, hpre⟩ rfl rfl
  | busWr hw => exact (h.memWrite hw).ret _ _
  | ecConfigure hpin => exact (h.setEc (.inr hpin)).ret _ _
  | gtConfigure hpin hpre => exact (h.setGt (.inr hpin) hpre).ret _ _
  | cxInit hex hfree =>
    exact ((s.bindCx_binds _).stateOk h hm hex hfree h.gc_bound h.ts_buffer).ret _ _
  | cxStart hb => exact h.cxAbortStep (Binding.eq_of_bound hb)
  | cxStop hb =>
    have hex := h.bound_exists .cx hb
    have hc : ChannelOk s.params { s.chan s.cx.ch with en := false } :=
      (h.channels_ok s.cx.ch).congr rfl rfl rfl
    exact (h.setChan hex hc).ret _ _
  | gcInit hex hfree =>
    have hgc : true = true ↔ GcState.armed ≠ .idle := ⟨fun _ => nofun, fun _ => rfl⟩
    exact ((s.bindGc_binds _).stateOk h hm hex hfree hgc h.ts_buffer).ret _ _
  | gcStart hg => exact h.gcStopStep (Binding.eq_of_bound (h.gc_bound.mpr hg))
  | gcIsBusy hs hg => exact (h.setGcState (h.gc_bound.mpr hs) hg).ret _ _
  | tsInit hex hfree hbuf =>
    exact ((s.bindTs_binds _ _ _).stateOk h hm hex hfree h.gc_bound fun _ => hbuf).ret _ _
  | tsStartEmpty hb =>
    exact h.microStep (m := .tsReset _ _ _) ⟨Binding.eq_of_bound hb, rfl, rfl⟩
  | tsStartSlots hb hc =>
    have hpos : 0 < s.tsCapacity.toNat :=
      Nat.pos_of_ne_zero fun e => hc (BitVec.eq_of_toNat_eq e)
    exact h.tsZeroStep ⟨Binding.eq_of_bound hb, rfl, rfl, hpos⟩

theorem StateOk.hostOp (h : StateOk s) (o : HostOp) : StateOk (s.hostOp o) := by
  obtain ⟨pc, t0, last, e⟩ := s.hostOp_eq o
  rw [e]
  exact h.control pc t0 last s.schedule s.faultMark

/-- A line of the host program keeps the invariant where no command is in flight. -/
theorem StateOk.lineStep (h : StateOk s) (hm : s.inFlight = none) (hl : lineStep s = .next t) :
    StateOk t := by
  rcases lineStep_cases hl with
    ⟨_, rfl⟩ | ⟨o, _, rfl⟩ | ⟨ws, i, n, _, _, hx⟩ | ⟨ws, r, n, _, _, rfl⟩
  · exact h
  · exact h.hostOp o
  · have hnext : StateOk s.nextLine := h.control (s.pc + 1) s.t0 s.last s.schedule s.faultMark
    exact (exec_effect hx).stateOk hnext hm
  · exact h.control (s.pc + 1) s.t0 _ s.schedule s.faultMark

end

/-- Settles O56: a step is an agent's, a micro-step or a line's, and each keeps the invariant. -/
theorem everyStepKeepsTheInvariant : Obligations.EveryStepKeepsTheInvariant := by
  unfold Obligations.EveryStepKeepsTheInvariant
  intro s t h hs
  have htaken (ts : List Turn) : StateOk { s with schedule := ts } :=
    h.control s.pc s.t0 s.last ts s.faultMark
  obtain ⟨_, ⟨a, ts, _, _, rfl⟩ | ⟨_, m, hm, rfl⟩ | ⟨_, hm, hl⟩⟩ := step_cases hs
  · exact (htaken ts).agentStep a
  · exact (htaken _).microStep ((htaken _).in_flight m hm)
  · exact (htaken (s.schedule.drop 1)).lineStep hm hl

end Sys2Proof.Machine
end

