-- ==== Sys2Proof/Proofs/MemoryMap.lean ====
section
/-! PROOFS. The memory map and the turn of another agent (20_memory.md R37, R47): which offsets of the
window hold a register, and from these which accesses are ok. -/

namespace Sys2Proof.Machine

/-! ### The offsets of the registers -/

/-- A channel's registers are its first seven words (10_state.md R26). -/
theorem DmaReg.exists_offset_iff {k : Nat} :
    (∃ r : DmaReg, r.offset = k) ↔ k ∈ [0x00, 0x04, 0x08, 0x0C, 0x10, 0x14, 0x18] := by
  constructor
  · rintro ⟨r, rfl⟩
    cases r <;> decide
  · intro hk
    have hall : ∀ k ∈ [0x00, 0x04, 0x08, 0x0C, 0x10, 0x14, 0x18],
        ∃ r ∈ dmaRegs, r.offset = k := by decide
    obtain ⟨r, _, hr⟩ := hall k hk
    exact ⟨r, hr⟩

/-- Every aligned offset up to TS_CAPACITY's is a plain register's (10_state.md R18, R22, R24). -/
theorem exists_plainReg_offset {off : Nat} (halign : off % 4 = 0) (hle : off ≤ 0x048) :
    ∃ r ∈ plainRegs, r.offset = off := by
  have hall : ∀ i < 19, ∃ r ∈ plainRegs, r.offset = 4 * i := by decide
  obtain ⟨r, hr, e⟩ := hall (off / 4) (by omega)
  exact ⟨r, hr, by omega⟩

/-- A register below the channels exists for every choice of the parameters. -/
theorem Params.hasReg_plain (p : Params) : ∀ r ∈ plainRegs, p.hasReg r = true := by
  simp [plainRegs, Params.hasReg]

/-- The offsets of the existing registers: the plain ones, then each existing channel's seven words
(10_state.md R18, R22, R24, R26). -/
theorem Params.exists_reg_offset_iff {p : Params} (hp : p.dmaChannels ≤ 16) {off : Nat} :
    (∃ r, p.hasReg r = true ∧ r.offset = off) ↔
      (off % 4 = 0 ∧ off ≤ 0x048) ∨
        ∃ ch k, ch < p.dmaChannels ∧ k ∈ [0x00, 0x04, 0x08, 0x0C, 0x10, 0x14, 0x18] ∧
          off = 0x100 + 0x20 * ch + k := by
  constructor
  · rintro ⟨r, hr, rfl⟩
    cases r
    case dma ch q =>
      exact .inr ⟨ch.toNat, q.offset, of_decide_eq_true hr, DmaReg.exists_offset_iff.mp ⟨q, rfl⟩, rfl⟩
    all_goals exact .inl (by decide)
  · rintro (⟨halign, hle⟩ | ⟨ch, k, hch, hk, rfl⟩)
    · obtain ⟨r, hr, e⟩ := exists_plainReg_offset halign hle
      exact ⟨r, p.hasReg_plain r hr, e⟩
    · obtain ⟨q, rfl⟩ := DmaReg.exists_offset_iff.mpr hk
      have hn : (BitVec.ofNat 4 ch).toNat = ch := Nat.mod_eq_of_lt (by omega)
      refine ⟨.dma (BitVec.ofNat 4 ch) q, decide_eq_true ?_, ?_⟩
      · rwa [hn]
      · simp only [Reg.offset, hn]

/-! ### What an access reaches, from its address -/

theorem Params.accessOk_iff {p : Params} {a : Word} {z : Size} :
    p.accessOk a z = true ↔ ∃ t, p.resolve a z = some t :=
  Option.isSome_iff_exists

/-- An access inside RAM is reached where it is a byte or aligned. -/
theorem Params.resolve_ram {p : Params} {a : Word} {z : Size} (hlo : p.ramBase.toNat ≤ a.toNat)
    (hhi : a.toNat + z.bytes ≤ p.ramBase.toNat + p.ramSize) (hz : z = .byte ∨ a.toNat % 4 = 0) :
    p.resolve a z = some (.ram a.toNat) := by
  unfold Params.resolve
  rw [if_pos ⟨hlo, hhi⟩, if_pos hz]

/-- Settles O11: `resolve_cases` names the three regions, each region's rule finds its target, and the
register's offset is one of the two forms that `exists_reg_offset_iff` gives. -/
theorem accessIsOkExactlyInTheMappedRegions :
    Obligations.AccessIsOkExactlyInTheMappedRegions := by
  unfold Obligations.AccessIsOkExactlyInTheMappedRegions
  intro p a z hp
  rw [Params.accessOk_iff]
  constructor
  · rintro ⟨t, ht⟩
    rcases Params.resolve_cases ht with ⟨_, hlo, hhi, hz⟩ | ⟨r, _, hz, hr, _, ha⟩ | ⟨_, ha, hz⟩
    · exact .inl ⟨hlo, hhi, hz⟩
    · have hoff := (Params.exists_reg_offset_iff hp.dmaChannels_le).mp ⟨r, hr, rfl⟩
      exact .inr (.inl ⟨hz, r.offset, ha, hoff⟩)
    · exact .inr (.inr ⟨hz, ha⟩)
  · rintro (⟨hlo, hhi, hz⟩ | ⟨rfl, off, ha, hoff⟩ | ⟨rfl, rfl⟩)
    · exact ⟨_, Params.resolve_ram hlo hhi hz⟩
    · obtain ⟨r, hr, rfl⟩ := (Params.exists_reg_offset_iff hp.dmaChannels_le).mpr hoff
      obtain rfl : a = p.regAddr r := BitVec.eq_of_toNat_eq (ha.trans (p.regAddr_toNat hp r).symm)
      exact ⟨_, Params.resolve_regAddr hp hr⟩
    · exact ⟨_, Params.resolve_clockAddr hp⟩

/-! ### The turn -/

/-- Settles O8: it is the step rule for another agent's turn. -/
theorem stepTakesTheScheduledTurn : Obligations.StepTakesTheScheduledTurn := by
  unfold Obligations.StepTakesTheScheduledTurn
  intro s t ts hfault hsched hagent
  exact step_agent hfault hsched hagent

end Sys2Proof.Machine
end

