-- ==== Sys2Proof/Proofs/Encoding.lean ====
section
/-! PROOFS. The encoding (30_encoding.md R51 to R58). In every format the operand fields of word 0 are its
lowest bits, `Format.operandBits` of them, and the bits from there to bit 23 are reserved. So word 0 is
`word0 opc (x.setWidth 24)` for the operand bits `x`, and a word whose reserved bits are zero is this
word of its own opcode and operand bits; both directions of the encoding rest on that. -/

namespace Sys2Proof

/-! ### Word 0: opcode, reserved bits, operand bits -/

/-- How many bits of word 0 hold operands (R52). -/
def Format.operandBits : Format → Nat
  | .N | .A | .AV => 0
  | .B => 1
  | .M => 2
  | .C | .S => 4
  | .P => 9
  | .H | .T => 16

/-- The reserved bits are those between the operand bits and the opcode. -/
theorem Format.getLsbD_reservedMask (f : Format) {i : Nat} (hi : i < 32) :
    f.reservedMask.getLsbD i = decide (f.operandBits ≤ i ∧ i < 24) := by
  revert i
  cases f <;> decide

theorem Format.and_reservedMask_eq_zero_iff {f : Format} {w : Word} :
    w &&& f.reservedMask = 0#32 ↔
      ∀ i, f.operandBits ≤ i → i < 24 → w.getLsbD i = false := by
  constructor
  · intro h i hlo hhi
    have hbit : (w &&& f.reservedMask).getLsbD i = false := by rw [h]; exact BitVec.getLsbD_zero
    rwa [BitVec.getLsbD_and, f.getLsbD_reservedMask (by omega), decide_eq_true ⟨hlo, hhi⟩,
      Bool.and_true] at hbit
  · intro h
    refine BitVec.eq_of_getLsbD_eq fun i hi => ?_
    rw [BitVec.getLsbD_and, f.getLsbD_reservedMask hi, BitVec.getLsbD_zero]
    by_cases hr : f.operandBits ≤ i ∧ i < 24
    · rw [h i hr.1 hr.2, Bool.false_and]
    · rw [decide_eq_false hr, Bool.and_false]

theorem getLsbD_word0 (opc : BitVec 8) (low : BitVec 24) (i : Nat) :
    (word0 opc low).getLsbD i = if i < 24 then low.getLsbD i else opc.getLsbD (i - 24) :=
  BitVec.getLsbD_append

@[simp] theorem opcodeOf_word0 (opc : BitVec 8) (low : BitVec 24) : opcodeOf (word0 opc low) = opc :=
  BitVec.extractLsb'_append_eq_left

theorem getLsbD_opcodeOf {w : Word} {i : Nat} (hlo : 24 ≤ i) (hhi : i < 32) :
    (opcodeOf w).getLsbD (i - 24) = w.getLsbD i := by
  unfold opcodeOf
  rw [BitVec.getLsbD_extractLsb', decide_eq_true (by omega), Bool.true_and, Nat.add_sub_cancel' hlo]

/-- Operand bits leave the reserved bits zero. -/
theorem word0_and_reservedMask {f : Format} (opc : BitVec 8) (x : BitVec f.operandBits) :
    word0 opc (x.setWidth 24) &&& f.reservedMask = 0#32 := by
  rw [Format.and_reservedMask_eq_zero_iff]
  intro i hlo hhi
  rw [getLsbD_word0, if_pos hhi, BitVec.getLsbD_setWidth, BitVec.getLsbD_of_ge x i hlo, Bool.and_false]

/-- A word with no reserved bit set is word 0 of its opcode and its operand bits. -/
theorem word0_opcodeOf_operand {f : Format} {w : Word} (h : w &&& f.reservedMask = 0#32) :
    word0 (opcodeOf w) ((w.extractLsb' 0 f.operandBits).setWidth 24) = w := by
  rw [Format.and_reservedMask_eq_zero_iff] at h
  refine BitVec.eq_of_getLsbD_eq fun i hi => ?_
  rw [getLsbD_word0]
  split
  next hlow =>
    rw [BitVec.getLsbD_setWidth, BitVec.getLsbD_extractLsb', decide_eq_true hlow, Bool.true_and,
      Nat.zero_add]
    by_cases hop : i < f.operandBits
    · rw [decide_eq_true hop, Bool.true_and]
    · rw [h i (Nat.le_of_not_lt hop) hlow, Bool.and_false]
  next hhigh => exact getLsbD_opcodeOf (Nat.le_of_not_lt hhigh) hi

/-! ### Word 0 of each format, from its operand bits -/

/-- Zeros above `k` bits, up to bit 23, widen them. -/
theorem zero_append_eq_setWidth {m k : Nat} (x : BitVec k) : 0#m ++ x = x.setWidth (m + k) := by
  simp [BitVec.setWidth_eq_append]

theorem word0N_eq (opc : BitVec 8) (x : BitVec 0) : word0N opc = word0 opc (x.setWidth 24) := by
  rw [BitVec.eq_nil x]
  rfl

theorem word0B_eq (opc : BitVec 8) (b : Bool) :
    word0B opc b = word0 opc ((BitVec.ofBool b).setWidth 24) :=
  congrArg (word0 opc) (zero_append_eq_setWidth _)

theorem word0M_eq (opc : BitVec 8) (mask : BitVec 2) :
    word0M opc mask = word0 opc (mask.setWidth 24) :=
  congrArg (word0 opc) (zero_append_eq_setWidth mask)

theorem word0H_eq (opc : BitVec 8) (imm : BitVec 16) :
    word0H opc imm = word0 opc (imm.setWidth 24) :=
  congrArg (word0 opc) (zero_append_eq_setWidth imm)

theorem word0P_eq (opc : BitVec 8) (pol : Polarity) (pin : BitVec 8) :
    word0P opc pol pin = word0 opc ((BitVec.ofBool pol.bit ++ pin).setWidth 24) :=
  congrArg (word0 opc) (zero_append_eq_setWidth _)

theorem word0C_eq (opc : BitVec 8) (ch : ChanNo) :
    word0C opc ch = word0 opc (ch.setWidth 24) :=
  congrArg (word0 opc) (zero_append_eq_setWidth ch)

theorem word0T_eq (opc : BitVec 8) (prescale pin : BitVec 8) :
    word0T opc prescale pin = word0 opc ((prescale ++ pin).setWidth 24) :=
  congrArg (word0 opc) (zero_append_eq_setWidth _)

/-! ### What each field reads from word 0 -/

theorem extractLsb'_word0 {k start len : Nat} (opc : BitVec 8) (x : BitVec k)
    (h : start + len ≤ 24) :
    (word0 opc (x.setWidth 24)).extractLsb' start len = x.extractLsb' start len :=
  (BitVec.extractLsb'_append_eq_of_add_le h).trans (BitVec.extractLsb'_setWidth_of_le h)

theorem Polarity.ofBit_bit (pol : Polarity) : Polarity.ofBit pol.bit = pol := by
  cases pol <;> rfl

theorem Polarity.bit_ofBit (b : Bool) : (Polarity.ofBit b).bit = b := by
  cases b <;> rfl

@[simp] theorem fieldB_word0B (opc : BitVec 8) (b : Bool) : fieldB (word0B opc b) = b := by
  unfold fieldB
  rw [word0B_eq, getLsbD_word0]
  cases b <;> rfl

@[simp] theorem fieldMask_word0M (opc : BitVec 8) (mask : BitVec 2) :
    fieldMask (word0M opc mask) = mask := by
  rw [word0M_eq]
  exact (extractLsb'_word0 opc mask (by decide)).trans BitVec.extractLsb'_eq_self

@[simp] theorem fieldImm16_word0H (opc : BitVec 8) (imm : BitVec 16) :
    fieldImm16 (word0H opc imm) = imm := by
  rw [word0H_eq]
  exact (extractLsb'_word0 opc imm (by decide)).trans BitVec.extractLsb'_eq_self

@[simp] theorem fieldPin_word0P (opc : BitVec 8) (pol : Polarity) (pin : BitVec 8) :
    fieldPin (word0P opc pol pin) = pin := by
  rw [word0P_eq]
  exact (extractLsb'_word0 opc _ (by decide)).trans BitVec.extractLsb'_append_eq_right

@[simp] theorem fieldPol_word0P (opc : BitVec 8) (pol : Polarity) (pin : BitVec 8) :
    fieldPol (word0P opc pol pin) = pol := by
  have hbit : (word0P opc pol pin).getLsbD 8 = pol.bit := by
    rw [word0P_eq, getLsbD_word0, if_pos (by decide), BitVec.getLsbD_setWidth, BitVec.getLsbD_append]
    cases pol <;> rfl
  unfold fieldPol
  rw [hbit, Polarity.ofBit_bit]

@[simp] theorem fieldCh_word0C (opc : BitVec 8) (ch : ChanNo) : fieldCh (word0C opc ch) = ch := by
  rw [word0C_eq]
  exact (extractLsb'_word0 opc ch (by decide)).trans BitVec.extractLsb'_eq_self

@[simp] theorem fieldPin_word0T (opc : BitVec 8) (prescale pin : BitVec 8) :
    fieldPin (word0T opc prescale pin) = pin := by
  rw [word0T_eq]
  exact (extractLsb'_word0 opc _ (by decide)).trans BitVec.extractLsb'_append_eq_right

@[simp] theorem fieldPrescale_word0T (opc : BitVec 8) (prescale pin : BitVec 8) :
    fieldPrescale (word0T opc prescale pin) = prescale := by
  rw [word0T_eq]
  exact (extractLsb'_word0 opc _ (by decide)).trans BitVec.extractLsb'_append_eq_left


/-! ### Word 0 of each format, from the fields of a word -/

theorem ofBool_getLsbD_eq_extractLsb' (w : Word) (i : Nat) :
    BitVec.ofBool (w.getLsbD i) = w.extractLsb' i 1 := by
  refine BitVec.eq_of_getLsbD_eq fun j hj => ?_
  obtain rfl : j = 0 := Nat.lt_one_iff.mp hj
  rw [BitVec.getLsbD_ofBool, BitVec.getLsbD_extractLsb']
  rfl

theorem word0B_fieldB (opc : BitVec 8) (w : Word) :
    word0B opc (fieldB w) = word0 opc ((w.extractLsb' 0 1).setWidth 24) := by
  unfold fieldB
  rw [word0B_eq, ofBool_getLsbD_eq_extractLsb']

theorem word0P_fields (opc : BitVec 8) (w : Word) :
    word0P opc (fieldPol w) (fieldPin w) = word0 opc ((w.extractLsb' 0 9).setWidth 24) := by
  unfold fieldPol fieldPin
  rw [word0P_eq, Polarity.bit_ofBit, ofBool_getLsbD_eq_extractLsb',
    BitVec.extractLsb'_append_extractLsb'_eq_extractLsb' (by decide)]

theorem word0T_fields (opc : BitVec 8) (w : Word) :
    word0T opc (fieldPrescale w) (fieldPin w) = word0 opc ((w.extractLsb' 0 16).setWidth 24) := by
  unfold fieldPrescale fieldPin
  rw [word0T_eq, BitVec.extractLsb'_append_extractLsb'_eq_extractLsb' (by decide)]

/-! ### What the decoder answers (R56) -/

theorem Format.words_pos (f : Format) : 1 ≤ f.words := by
  cases f <;> decide

theorem Format.words_le_three (f : Format) : f.words ≤ 3 := by
  cases f <;> decide

theorem decode_reserved_opcode {w : Word} (h : opcodeRow (opcodeOf w) = none) (e : List Word) :
    decode (w :: e) = .illegal .reservedOpcode 1 := by
  simp only [decode, h]

theorem decode_reserved_field {w : Word} {row : OpcodeRow} (h : opcodeRow (opcodeOf w) = some row)
    (hw : w &&& row.format.reservedMask ≠ 0#32) (e : List Word) :
    decode (w :: e) = .illegal .reservedField row.format.words := by
  simp only [decode, h]
  exact if_pos hw

theorem decode_too_few_words {w : Word} {row : OpcodeRow} (h : opcodeRow (opcodeOf w) = some row)
    (hw : w &&& row.format.reservedMask = 0#32) {e : List Word}
    (he : e.length + 1 < row.format.words) : decode (w :: e) = .truncated := by
  simp only [decode, h]
  exact (if_neg (not_not_intro hw)).trans (if_pos he)

theorem decode_row {w : Word} {row : OpcodeRow} (h : opcodeRow (opcodeOf w) = some row)
    (hw : w &&& row.format.reservedMask = 0#32) {e : List Word}
    (he : row.format.words ≤ e.length + 1) :
    decode (w :: e) = .command (row.build ⟨w, e.getD 0 0#32, e.getD 1 0#32⟩) row.format.words := by
  simp only [decode, h]
  exact (if_neg (not_not_intro hw)).trans (if_neg (Nat.not_lt.mpr he))

/-- Everything the decoder can answer on a line of at least one word (R56). -/
theorem decode_cases (w : Word) (e : List Word) :
    (opcodeRow (opcodeOf w) = none ∧ decode (w :: e) = .illegal .reservedOpcode 1) ∨
    ∃ row, opcodeRow (opcodeOf w) = some row ∧
      (decode (w :: e) = .illegal .reservedField row.format.words ∨
        decode (w :: e) = .truncated ∨
        w &&& row.format.reservedMask = 0#32 ∧ row.format.words ≤ e.length + 1 ∧
          decode (w :: e) =
            .command (row.build ⟨w, e.getD 0 0#32, e.getD 1 0#32⟩) row.format.words) := by
  cases hrow : opcodeRow (opcodeOf w) with
  | none => exact .inl ⟨rfl, decode_reserved_opcode hrow e⟩
  | some row =>
    refine .inr ⟨row, rfl, ?_⟩
    by_cases hw : w &&& row.format.reservedMask = 0#32
    · by_cases he : row.format.words ≤ e.length + 1
      · exact .inr (.inr ⟨hw, he, decode_row hrow hw he⟩)
      · exact .inr (.inl (decode_too_few_words hrow hw (Nat.lt_of_not_le he)))
    · exact .inl (decode_reserved_field hrow hw e)

/-- A command comes from the row of its opcode, from a word 0 with no reserved bit set and from as many
words as the row's format has. -/
theorem decode_eq_command {w : Word} {e : List Word} {i : Instr} {n : Nat}
    (h : decode (w :: e) = .command i n) :
    ∃ row, opcodeRow (opcodeOf w) = some row ∧ w &&& row.format.reservedMask = 0#32 ∧
      row.format.words ≤ e.length + 1 ∧ i = row.build ⟨w, e.getD 0 0#32, e.getD 1 0#32⟩ ∧
      n = row.format.words := by
  rcases decode_cases w e with ⟨_, hd⟩ | ⟨row, hrow, hd | hd | ⟨hw, he, hd⟩⟩
  · cases hd.symm.trans h
  · cases hd.symm.trans h
  · cases hd.symm.trans h
  · obtain ⟨rfl, rfl⟩ := Decoded.command.inj (hd.symm.trans h)
    exact ⟨row, hrow, hw, he, rfl, rfl⟩

/-- Words are illegal for their opcode, or for a reserved field of their opcode's format. -/
theorem decode_eq_illegal {w : Word} {e : List Word} {r : IllegalReason} {n : Nat}
    (h : decode (w :: e) = .illegal r n) :
    (opcodeRow (opcodeOf w) = none ∧ r = .reservedOpcode ∧ n = 1) ∨
    ∃ row, opcodeRow (opcodeOf w) = some row ∧ r = .reservedField ∧ n = row.format.words := by
  rcases decode_cases w e with ⟨hrow, hd⟩ | ⟨row, hrow, hd | hd | ⟨_, _, hd⟩⟩
  · obtain ⟨rfl, rfl⟩ := Decoded.illegal.inj (hd.symm.trans h)
    exact .inl ⟨hrow, rfl, rfl⟩
  · obtain ⟨rfl, rfl⟩ := Decoded.illegal.inj (hd.symm.trans h)
    exact .inr ⟨row, hrow, rfl, rfl⟩
  · cases hd.symm.trans h
  · cases hd.symm.trans h

theorem decode_eq_reservedOpcode_iff {w : Word} {e : List Word} {n : Nat} :
    decode (w :: e) = .illegal .reservedOpcode n ↔ opcodeRow (opcodeOf w) = none ∧ n = 1 := by
  constructor
  · intro h
    rcases decode_eq_illegal h with ⟨hrow, _, hn⟩ | ⟨_, _, hr, _⟩
    · exact ⟨hrow, hn⟩
    · cases hr
  · rintro ⟨hrow, rfl⟩
    exact decode_reserved_opcode hrow e

/-! ### Decoding an encoding, format by format -/

/-- Word 0 of a row's opcode and operand bits, with the row's number of words, decodes to the command the
row builds. -/
theorem decode_word0 {opc : BitVec 8} {f : Format} {build : RawWords → Instr}
    (h : opcodeRow opc = some ⟨opc, f, build⟩) {w : Word} {x : BitVec f.operandBits}
    (hw : w = word0 opc (x.setWidth 24)) {e : List Word} (he : f.words = e.length + 1) :
    decode (w :: e) = .command (build ⟨w, e.getD 0 0#32, e.getD 1 0#32⟩) f.words := by
  subst hw
  exact decode_row ((congrArg opcodeRow (opcodeOf_word0 opc _)).trans h)
    (word0_and_reservedMask opc x) he.le

theorem decode_formatN {opc : BitVec 8} {i : Instr}
    (h : opcodeRow opc = some ⟨opc, .N, fun _ => i⟩) : decode [word0N opc] = .command i 1 :=
  decode_word0 h (word0N_eq opc .nil) rfl

theorem decode_formatA {opc : BitVec 8} {c : Word → Instr} {addr : Word}
    (h : opcodeRow opc = some ⟨opc, .A, fun r => c r.w1⟩) :
    decode [word0N opc, addr] = .command (c addr) 2 :=
  decode_word0 h (word0N_eq opc .nil) rfl

theorem decode_formatAV {opc : BitVec 8} {c : Word → Word → Instr} {addr value : Word}
    (h : opcodeRow opc = some ⟨opc, .AV, fun r => c r.w1 r.w2⟩) :
    decode [word0N opc, addr, value] = .command (c addr value) 3 :=
  decode_word0 h (word0N_eq opc .nil) rfl

theorem decode_formatB {opc : BitVec 8} {c : Bool → Instr} {b : Bool}
    (h : opcodeRow opc = some ⟨opc, .B, fun r => c (fieldB r.w0)⟩) :
    decode [word0B opc b] = .command (c b) 1 := by
  have hd := decode_word0 h (word0B_eq opc b) (e := []) rfl
  rwa [fieldB_word0B] at hd

theorem decode_formatM {opc : BitVec 8} {c : BitVec 2 → Instr} {mask : BitVec 2}
    (h : opcodeRow opc = some ⟨opc, .M, fun r => c (fieldMask r.w0)⟩) :
    decode [word0M opc mask] = .command (c mask) 1 := by
  have hd := decode_word0 h (word0M_eq opc mask) (e := []) rfl
  rwa [fieldMask_word0M] at hd

theorem decode_formatH {opc : BitVec 8} {c : BitVec 16 → Instr} {imm : BitVec 16}
    (h : opcodeRow opc = some ⟨opc, .H, fun r => c (fieldImm16 r.w0)⟩) :
    decode [word0H opc imm] = .command (c imm) 1 := by
  have hd := decode_word0 h (word0H_eq opc imm) (e := []) rfl
  rwa [fieldImm16_word0H] at hd

theorem decode_formatP {opc : BitVec 8} {c : BitVec 8 → Polarity → Instr} {pin : BitVec 8}
    {pol : Polarity} (h : opcodeRow opc = some ⟨opc, .P, fun r => c (fieldPin r.w0) (fieldPol r.w0)⟩) :
    decode [word0P opc pol pin] = .command (c pin pol) 1 := by
  have hd := decode_word0 h (word0P_eq opc pol pin) (e := []) rfl
  rwa [fieldPin_word0P, fieldPol_word0P] at hd

theorem decode_formatC {opc : BitVec 8} {c : ChanNo → Instr} {ch : ChanNo}
    (h : opcodeRow opc = some ⟨opc, .C, fun r => c (fieldCh r.w0)⟩) :
    decode [word0C opc ch] = .command (c ch) 1 := by
  have hd := decode_word0 h (word0C_eq opc ch) (e := []) rfl
  rwa [fieldCh_word0C] at hd

theorem decode_formatT {opc : BitVec 8} {c : BitVec 8 → BitVec 8 → Word → Instr}
    {pin prescale : BitVec 8} {period : Word}
    (h : opcodeRow opc =
      some ⟨opc, .T, fun r => c (fieldPin r.w0) (fieldPrescale r.w0) r.w1⟩) :
    decode [word0T opc prescale pin, period] = .command (c pin prescale period) 2 := by
  have hd := decode_word0 h (word0T_eq opc prescale pin) (e := [period]) rfl
  rwa [fieldPin_word0T, fieldPrescale_word0T] at hd

theorem decode_formatS {opc : BitVec 8} {c : ChanNo → Word → Word → Instr} {ch : ChanNo}
    {base cap : Word}
    (h : opcodeRow opc = some ⟨opc, .S, fun r => c (fieldCh r.w0) r.w1 r.w2⟩) :
    decode [word0C opc ch, base, cap] = .command (c ch base cap) 3 := by
  have hd := decode_word0 h (word0C_eq opc ch) (e := [base, cap]) rfl
  rwa [fieldCh_word0C] at hd

/-- The decoder inverts the encoder: each command's row in the opcode map has the format its words are
built by (R54). -/
theorem decode_encode (i : Instr) : decode (encode i) = .command i (encode i).length := by
  cases i
  case ecReset | ecRead | ecGetTag | gtReset | gtRead | gtGetTag | cxStart | cxValue | cxStop
      | gcStart | gcIsBusy | gcRead | gcPollOverflow | tsStart | tsStop | tsCaptured | tsPeriod =>
    exact decode_formatN rfl
  case busRd => exact decode_formatA rfl
  case busWr => exact decode_formatAV rfl
  case ecSetEnabled | gtSetEnabled => exact decode_formatB rfl
  case enMask => exact decode_formatM rfl
  case ecSetWrap => exact decode_formatH rfl
  case ecConfigure => exact decode_formatP rfl
  case cxInit | gcInit => exact decode_formatC rfl
  case gtConfigure => exact decode_formatT rfl
  case tsInit => exact decode_formatS rfl

theorem decodeInstr_encode (i : Instr) : decodeInstr (encode i) = some i := by
  unfold decodeInstr
  rw [decode_encode]

/-! ### Encoding what was decoded -/

/-- A row of the opcode map and the encoder agree: what the row builds from raw words is encoded by the
row's opcode, the operand bits of word 0, and the raw words after it that the format has (R54). -/
def OpcodeRow.EncodesBuilt (row : OpcodeRow) : Prop :=
  ∀ r : RawWords, encode (row.build r) =
    word0 row.opcode ((r.w0.extractLsb' 0 row.format.operandBits).setWidth 24) ::
      [r.w1, r.w2].take (row.format.words - 1)

/-- Row by row, in the order of R54's table. -/
theorem leafRows_encodesBuilt : ∀ row ∈ leafRows, row.EncodesBuilt :=
  List.forall_iff_forall_mem.mp ⟨
    fun r => congrArg ([·, r.w1]) (word0N_eq _ _),
    fun r => congrArg ([·, r.w1, r.w2]) (word0N_eq _ _),
    fun _ => congrArg ([·]) (word0M_eq _ _),
    fun _ => congrArg ([·]) (word0P_fields _ _),
    fun _ => congrArg ([·]) (word0N_eq _ _),
    fun _ => congrArg ([·]) (word0B_fieldB _ _),
    fun _ => congrArg ([·]) (word0N_eq _ _),
    fun _ => congrArg ([·]) (word0H_eq _ _),
    fun _ => congrArg ([·]) (word0N_eq _ _),
    fun r => congrArg ([·, r.w1]) (word0T_fields _ _),
    fun _ => congrArg ([·]) (word0N_eq _ _),
    fun _ => congrArg ([·]) (word0B_fieldB _ _),
    fun _ => congrArg ([·]) (word0N_eq _ _),
    fun _ => congrArg ([·]) (word0N_eq _ _)⟩

/-- Row by row, in the order of R54's table. -/
theorem compositeRows_encodesBuilt : ∀ row ∈ compositeRows, row.EncodesBuilt :=
  List.forall_iff_forall_mem.mp ⟨
    fun _ => congrArg ([·]) (word0C_eq _ _),
    fun _ => congrArg ([·]) (word0N_eq _ _),
    fun _ => congrArg ([·]) (word0N_eq _ _),
    fun _ => congrArg ([·]) (word0N_eq _ _),
    fun _ => congrArg ([·]) (word0C_eq _ _),
    fun _ => congrArg ([·]) (word0N_eq _ _),
    fun _ => congrArg ([·]) (word0N_eq _ _),
    fun _ => congrArg ([·]) (word0N_eq _ _),
    fun _ => congrArg ([·]) (word0N_eq _ _),
    fun r => congrArg ([·, r.w1, r.w2]) (word0C_eq _ _),
    fun _ => congrArg ([·]) (word0N_eq _ _),
    fun _ => congrArg ([·]) (word0N_eq _ _),
    fun _ => congrArg ([·]) (word0N_eq _ _),
    fun _ => congrArg ([·]) (word0N_eq _ _)⟩

theorem opcodeMap_encodesBuilt {row : OpcodeRow} (h : row ∈ opcodeMap) : row.EncodesBuilt :=
  (List.mem_append.mp h).elim (leafRows_encodesBuilt row) (compositeRows_encodesBuilt row)

theorem opcodeRow_eq_some {opc : BitVec 8} {row : OpcodeRow} (h : opcodeRow opc = some row) :
    row ∈ opcodeMap ∧ row.opcode = opc :=
  ⟨List.mem_of_find?_eq_some h, by simpa using List.find?_some h⟩

/-- The raw words of which a format reads `k` are the line's own where the line has as many. -/
theorem take_getD_pair : ∀ {k : Nat} {e : List Word}, k ≤ 2 → k ≤ e.length →
    [e.getD 0 0#32, e.getD 1 0#32].take k = e.take k
  | 0, _, _, _ => rfl
  | 1, _ :: _, _, _ => rfl
  | 2, _ :: _ :: _, _, _ => rfl

/-- The encoder inverts the decoder, up to the words that the decoder has not read. -/
theorem encode_of_decode {w : Word} {e : List Word} {i : Instr} {n : Nat}
    (h : decode (w :: e) = .command i n) : encode i = (w :: e).take n ∧ n ≤ e.length + 1 := by
  obtain ⟨row, hrow, hw, he, rfl, rfl⟩ := decode_eq_command h
  obtain ⟨hmem, hopc⟩ := opcodeRow_eq_some hrow
  have hpos := row.format.words_pos
  have hle := row.format.words_le_three
  have hread : [e.getD 0 0#32, e.getD 1 0#32].take (row.format.words - 1) =
      e.take (row.format.words - 1) := take_getD_pair (by omega) (by omega)
  refine ⟨?_, he⟩
  rw [opcodeMap_encodesBuilt hmem, hopc, word0_opcodeOf_operand hw, hread,
    List.take_cons hpos]

/-! ### The lengths and the reserved opcodes (R57, R58) -/

/-- The opcodes of R54, as the map lists them. -/
theorem opcodeMap_opcodes : opcodeMap.map OpcodeRow.opcode =
    [0x01#8, 0x02#8, 0x03#8, 0x10#8, 0x11#8, 0x12#8, 0x13#8, 0x14#8, 0x15#8, 0x20#8, 0x21#8, 0x22#8,
      0x23#8, 0x24#8, 0x30#8, 0x31#8, 0x32#8, 0x33#8, 0x40#8, 0x41#8, 0x42#8, 0x43#8, 0x44#8, 0x50#8,
      0x51#8, 0x52#8, 0x53#8, 0x54#8] := rfl

theorem opcodeRow_eq_none_iff {opc : BitVec 8} :
    opcodeRow opc = none ↔ opc ∉ opcodeMap.map OpcodeRow.opcode := by
  simp [opcodeRow]

/-- The map's opcodes form one run for each group of commands (R55); R57's ranges are the gaps. -/
theorem mem_opcodes_iff {opc : BitVec 8} : opc ∈ opcodeMap.map OpcodeRow.opcode ↔
    (0x01 ≤ opc.toNat ∧ opc.toNat ≤ 0x03) ∨ (0x10 ≤ opc.toNat ∧ opc.toNat ≤ 0x15) ∨
      (0x20 ≤ opc.toNat ∧ opc.toNat ≤ 0x24) ∨ (0x30 ≤ opc.toNat ∧ opc.toNat ≤ 0x33) ∨
      (0x40 ≤ opc.toNat ∧ opc.toNat ≤ 0x44) ∨ (0x50 ≤ opc.toNat ∧ opc.toNat ≤ 0x54) := by
  simp only [opcodeMap_opcodes, List.mem_cons, List.not_mem_nil, or_false, ← BitVec.toNat_inj,
    BitVec.toNat_ofNat]
  omega

/-! ### The statements -/

/-- Settles O1: it is `decode_encode`, for every command, since every command is well formed. -/
theorem decodeOfEncodeIsTheCommand : Obligations.DecodeOfEncodeIsTheCommand := by
  unfold Obligations.DecodeOfEncodeIsTheCommand
  exact fun i _ => decode_encode i

/-- Settles O2: it is `encode_of_decode`; no line without words decodes to a command. -/
theorem encodeOfDecodeIsTheWords : Obligations.EncodeOfDecodeIsTheWords := by
  unfold Obligations.EncodeOfDecodeIsTheWords
  intro ws i n h
  cases ws with
  | nil => cases h
  | cons w e => exact encode_of_decode h

/-- Settles O3: the length is that of the format in the opcode's row. -/
theorem opcodeAloneDecidesTheLength : Obligations.OpcodeAloneDecidesTheLength := by
  unfold Obligations.OpcodeAloneDecidesTheLength
  refine ⟨?bounds, ?commands, ?illegal, ?reserved⟩
  case bounds =>
    intro ws i n h
    cases ws with
    | nil => cases h
    | cons w e =>
      obtain ⟨row, _, _, _, _, rfl⟩ := decode_eq_command h
      exact ⟨row.format.words_pos, row.format.words_le_three⟩
  case commands =>
    intro u w e f i j m n hopc hu hw
    obtain ⟨row, hrow, _, _, _, rfl⟩ := decode_eq_command hu
    obtain ⟨row', hrow', _, _, _, rfl⟩ := decode_eq_command hw
    obtain rfl : row = row' := Option.some.inj (hrow.symm.trans (hopc ▸ hrow'))
    rfl
  case illegal =>
    intro u w e f i r m n hopc hu hw
    obtain ⟨row, hrow, _, _, _, rfl⟩ := decode_eq_command hu
    rw [hopc] at hrow
    rcases decode_eq_illegal hw with ⟨hnone, _⟩ | ⟨row', hrow', _, rfl⟩
    · cases hnone.symm.trans hrow
    · obtain rfl : row = row' := Option.some.inj (hrow.symm.trans hrow')
      rfl
  case reserved => exact fun w e n h => (decode_eq_reservedOpcode_iff.mp h).2

/-- Settles O4: the decoder answers a reserved opcode for those outside the map, and between the map's
groups lie R57's ranges. -/
theorem reservedOpcodesAreTheListedRanges : Obligations.ReservedOpcodesAreTheListedRanges := by
  unfold Obligations.ReservedOpcodesAreTheListedRanges
  intro w e
  rw [decode_eq_reservedOpcode_iff, opcodeRow_eq_none_iff, mem_opcodes_iff]
  omega

/-- Settles O5: the words are those commands' encodings, which `decode_encode` reads back. -/
theorem wordsOfTheSpecDecode : Obligations.WordsOfTheSpecDecode := by
  unfold Obligations.WordsOfTheSpecDecode
  exact ⟨decodeInstr_encode (.ecConfigure 3#8 .falling),
    decodeInstr_encode (.gtConfigure 2#8 250#8 31250000#32),
    decodeInstr_encode (.tsInit 2#4 0x20000000#32 9#32),
    decodeInstr_encode (.busWr 0x40000160#32 0x40000028#32),
    decodeInstr_encode (.cxInit 0#4),
    decodeInstr_encode (.gcInit 1#4),
    decodeInstr_encode (.enMask 2#2)⟩

end Sys2Proof
end

