-- ==== Sys2Proof/Proofs/HostLines.lean ====
section
/-! PROOFS. Lines of the host program that run no command: words that are Illegal (30_encoding.md R56,
60_exceptions.md R114) and the host operations (30_encoding.md R59). -/

namespace Sys2Proof.Machine

/-! ### Illegal words -/

theorem runWords_illegal {ws : List Word} {r : IllegalReason} {n : Nat}
    (h : decode ws = .illegal r n) (s : State) :
    runWords ws s = .next (s.nextLine.fail .illegalCommand) := by
  unfold runWords
  rw [h]

/-- Settles O6: both clauses are the rule for Illegal words, at the machine's step after the turn is
taken. -/
theorem illegalWordsChangeNothing : Obligations.IllegalWordsChangeNothing := by
  unfold Obligations.IllegalWordsChangeNothing EndsIllegal
  intro ws r n hdec
  refine ⟨runWords_illegal hdec, ?_⟩
  intro s hf hq hm hfetch
  rw [step_command_line hf hq hm hfetch, runWords_illegal hdec]
  rfl

/-! ### Host operations -/

theorem lineStep_op {s : State} {o : HostOp} (h : s.fetch = some (.op o)) :
    lineStep s = .next (s.hostOp o) := by
  unfold lineStep
  rw [h]

/-- With the turn and no command in flight, a host operation acts on the state with the turn taken. -/
theorem step_op_line {s : State} {o : HostOp} (hf : s.faultMark = none) (hq : Quiet 1 s)
    (hm : s.inFlight = none) (h : s.fetch = some (.op o)) :
    step s = .next (State.hostOp { s with schedule := s.schedule.drop 1 } o) := by
  have h' : State.fetch { s with schedule := s.schedule.drop 1 } = some (.op o) := h
  rw [step_line hf hq hm, lineStep_op h']

@[simp] theorem State.branchIf_pc (s : State) (cond : Bool) (l : Nat) :
    (s.branchIf cond l).pc = if cond then l else s.pc + 1 := by
  cases cond <;> rfl

@[simp] theorem State.branchIf_t0 (s : State) (cond : Bool) (l : Nat) :
    (s.branchIf cond l).t0 = s.t0 := by
  cases cond <;> rfl

@[simp] theorem State.branchIf_last (s : State) (cond : Bool) (l : Nat) :
    (s.branchIf cond l).last = s.last := by
  cases cond <;> rfl

/-- A host operation leaves everything but `pc`, `t0` and the result record. -/
theorem State.hostOp_frame (s : State) (o : HostOp) :
    s.hostOp o =
      { s with pc := (s.hostOp o).pc, t0 := (s.hostOp o).t0, last := (s.hostOp o).last } := by
  obtain ⟨pc, t0, last, h⟩ := s.hostOp_eq o
  rw [h]

/-- The time since the mark, modulo 2^32, is the difference of the two words (R59). -/
theorem toNat_sub_eq (a b : Word) : (a - b).toNat = (a.toNat + 2 ^ 32 - b.toNat) % 2 ^ 32 := by
  rw [BitVec.toNat_sub]
  congr 1
  omega

/-- Settles O10: the step is the operation on the state with the turn taken, its frame is
`hostOp_frame`, and its effect is R59's for each operation. -/
theorem hostOperationsActOnTheHostAlone : Obligations.HostOperationsActOnTheHostAlone := by
  unfold Obligations.HostOperationsActOnTheHostAlone
  intro s o hf hq hm hfetch
  refine ⟨_, step_op_line hf hq hm hfetch, State.hostOp_frame _ o, ?_⟩
  cases o with
  | b l => exact ⟨rfl, rfl, rfl⟩
  | bz l => simp [State.hostOp]
  | bnz l => simp [State.hostOp]
  | blt l k => simp [State.hostOp]
  | berr l => simp [State.hostOp]
  | mark => exact ⟨rfl, rfl, rfl⟩
  | bto l d => simp [State.hostOp, toNat_sub_eq, -BitVec.toNat_sub]
  | setst st => exact ⟨rfl, rfl, rfl⟩
  | halt => exact ⟨rfl, rfl, rfl⟩

end Sys2Proof.Machine
end

