-- ==== Sys2Proof/Proofs/Registers.lean ====
section
/-! PROOFS. What a register reads and what a write of it leaves: each read value from the fields of State
(10_state.md R18, R22, R24, R26), and the register file after a write action (40_bus_dma.md R64). -/

namespace Sys2Proof.Machine

/-! ### The read value of a register, as a number -/

theorem toNat_append_eq_add {m n : Nat} (x : BitVec m) (y : BitVec n) :
    (x ++ y).toNat = x.toNat * 2 ^ n + y.toNat := by
  rw [BitVec.toNat_append, ← Nat.shiftLeft_add_eq_or_of_lt y.isLt, Nat.shiftLeft_eq]

theorem State.ecCtrlWord_toNat (s : State) : s.ec.ctrlWord.toNat = s.shows .ecCtrl := by
  simp only [EdgeCounter.ctrlWord, State.shows, toNat_append_eq_add, BitVec.toNat_ofBool,
    BitVec.toNat_ofNat]
  cases s.ec.pol with
  | rising => simp [Polarity.bit]
  | falling => simp [Polarity.bit, Nat.add_comm]

theorem GateTimer.ctrlWord_toNat (c : GateTimer) :
    c.ctrlWord.toNat = c.en.toNat + 2 * c.phCorrect.toNat + 4 * c.dir.toNat := by
  simp only [GateTimer.ctrlWord, toNat_append_eq_add, BitVec.toNat_ofBool, BitVec.toNat_ofNat]
  omega

theorem DmaChannel.ctrlWord_toNat (c : DmaChannel) :
    c.ctrlWord.toNat = c.en.toNat + 2 * c.size.toNat + 4 * c.incrRead.toNat +
      8 * c.incrWrite.toNat + 16 * c.treq.toNat + 2 ^ 24 * c.busy.toNat + 2 ^ 29 * c.err.toNat := by
  simp only [DmaChannel.ctrlWord, toNat_append_eq_add, BitVec.toNat_ofBool, BitVec.toNat_ofNat]
  omega

theorem DmaChannel.readReg_toNat (c : DmaChannel) (r : DmaReg) : (c.readReg r).toNat = c.shows r := by
  cases r
  case ctrl => exact c.ctrlWord_toNat
  case pending => exact Nat.mod_eq_of_lt (by omega)
  all_goals rfl

theorem State.bindWord_toNat (s : State) : s.bindWord.toNat = s.shows .bind := by
  simp only [State.bindWord, State.shows, toNat_append_eq_add, BitVec.toNat_ofBool, BitVec.toNat_ofNat]
  omega

/-- Each field stands at its place in the read value, and the reserved bits are 0. -/
theorem State.regRead_toNat (s : State) (r : Reg) : (s.regRead r).toNat = s.shows r := by
  cases r
  case ecCtrl => exact s.ecCtrlWord_toNat
  case gtCtrl => exact s.gt.ctrlWord_toNat
  case bind => exact s.bindWord_toNat
  case dma ch q => exact (s.chan ch).readReg_toNat q
  case enMask =>
    simp only [State.regRead, State.shows, toNat_append_eq_add, BitVec.toNat_ofBool,
      BitVec.toNat_ofNat]
    omega
  case gcState => cases h : s.gcState <;> simp [State.regRead, State.shows, GcState.code, h]
  case ecCtr | ecWrap | ecPin | gtCtr | gtWrap | gtPrescale | gtPin | gcPrevSample =>
    exact BitVec.toNat_setWidth_of_le (by decide)
  all_goals rfl

/-- A word of RAM is its four bytes, the least significant first (20_memory.md R40). -/
theorem Memory.read32_toNat (m : Memory) (a : Nat) :
    (m.read32 a).toNat = (m.read a).toNat + 2 ^ 8 * (m.read (a + 1)).toNat +
      2 ^ 16 * (m.read (a + 2)).toNat + 2 ^ 24 * (m.read (a + 3)).toNat := by
  simp only [Memory.read32, toNat_append_eq_add]
  omega

/-- EN_MASK shows both enables, each as its own control register does (10_state.md R24). -/
theorem State.regRead_enMask (s : State) : s.regRead .enMask =
    (s.regRead .ecCtrl &&& 0x1#32) ||| ((s.regRead .gtCtrl &&& 0x1#32) <<< 1) := by
  simp only [State.regRead, EdgeCounter.ctrlWord, GateTimer.ctrlWord]
  generalize s.ec.en = e, s.ec.pol.bit = p, s.gt.en = g, s.gt.phCorrect = c, s.gt.dir = d
  revert e p g c d
  decide

/-! ### The bits a write sets -/

/-- How many bits of a register, from bit 0 up, a write sets (40_bus_dma.md R64). -/
def Reg.writtenWidth : Reg → Nat
  | .ecCtrl | .gtCtrl | .enMask => 2
  | .ecCtr | .ecWrap | .gtCtr | .gtWrap => 16
  | .cxScratch | .gcStopval | .dma _ .readAddr | .dma _ .writeAddr => 32
  | .dma _ .ctrl => 10
  | _ => 0

theorem writtenBits_eq (r : Reg) : writtenBits r = (BitVec.allOnes r.writtenWidth).setWidth 32 := by
  cases r
  case dma ch q => cases q <;> rfl
  all_goals rfl

/-- A word with its lowest bits replaced by those of `v`. -/
theorem getLsbD_append_extractLsb' {m k : Nat} (hi : BitVec m) (lo : BitVec k) (v : Word) (i : Nat) :
    (hi ++ v.extractLsb' 0 k).getLsbD i = if i < k then v.getLsbD i else (hi ++ lo).getLsbD i := by
  rw [BitVec.getLsbD_append, BitVec.getLsbD_append]
  split
  next h => rw [BitVec.getLsbD_extractLsb', decide_eq_true h, Bool.true_and, Nat.zero_add]
  next => rfl

/-- GT_CTRL is what no write sets, then PH_CORRECT and EN. -/
theorem GateTimer.ctrlWord_eq_append (c : GateTimer) : c.ctrlWord =
    (0#29 ++ BitVec.ofBool c.dir) ++ (BitVec.ofBool c.phCorrect ++ BitVec.ofBool c.en) := by
  rw [← BitVec.toNat_inj, GateTimer.ctrlWord]
  simp only [toNat_append_eq_add]
  omega

/-- The bits of CTRL above TREQ, which no write sets (10_state.md R26). -/
def DmaChannel.ctrlHigh (c : DmaChannel) : BitVec 22 :=
  0#2 ++ (BitVec.ofBool c.err ++ (0#4 ++ (BitVec.ofBool c.busy ++ 0#14)))

/-- The operand bits of CTRL: TREQ, the increments, SIZE and EN (10_state.md R26). -/
def DmaChannel.ctrlLow (c : DmaChannel) : BitVec 10 :=
  c.treq ++ (BitVec.ofBool c.incrWrite ++ (BitVec.ofBool c.incrRead ++
    (BitVec.ofBool c.size ++ BitVec.ofBool c.en)))

theorem DmaChannel.ctrlWord_eq_append (c : DmaChannel) : c.ctrlWord = c.ctrlHigh ++ c.ctrlLow := by
  rw [← BitVec.toNat_inj, DmaChannel.ctrlWord, DmaChannel.ctrlHigh, DmaChannel.ctrlLow]
  simp only [toNat_append_eq_add, BitVec.toNat_ofNat]
  omega

theorem DmaChannel.ctrlLow_writeCtrl (c : DmaChannel) (v : Word) :
    (c.writeCtrl v).ctrlLow = v.extractLsb' 0 10 := by
  simp only [DmaChannel.ctrlLow, DmaChannel.writeCtrl, ofBool_getLsbD_eq_extractLsb',
    BitVec.extractLsb'_append_extractLsb'_eq_extractLsb']

/-- A channel register after a write of it, unless the write triggers: its lowest bits are the written
ones. -/
theorem DmaChannel.getLsbD_readReg_writeReg (c : DmaChannel) {q : DmaReg} (hq : q ≠ .transCountTrig)
    (ch : ChanNo) (v : Word) {i : Nat} (hi : i < 32) : ((c.writeReg q v).readReg q).getLsbD i =
      if i < (Reg.dma ch q).writtenWidth then v.getLsbD i else (c.readReg q).getLsbD i := by
  cases q
  case ctrl =>
    simp only [DmaChannel.readReg, DmaChannel.writeReg, DmaChannel.ctrlWord_eq_append,
      DmaChannel.ctrlLow_writeCtrl]
    exact getLsbD_append_extractLsb' c.ctrlHigh c.ctrlLow v i
  case transCountTrig => exact absurd rfl hq
  case readAddr | writeAddr => exact (if_pos hi).symm
  all_goals rfl

/-- A write of a register sets its lowest bits and no other bit of it (40_bus_dma.md R64). -/
theorem State.getLsbD_regRead_regWrite (s : State) {r : Reg} (hr : ∀ ch, r ≠ .dma ch .transCountTrig)
    (v : Word) {i : Nat} (hi : i < 32) : ((s.regWrite r v).regRead r).getLsbD i =
      if i < r.writtenWidth then v.getLsbD i else (s.regRead r).getLsbD i := by
  cases r
  case ecCtrl =>
    simp only [State.regRead, State.regWrite, EdgeCounter.ctrlWord, Polarity.bit_ofBit,
      ofBool_getLsbD_eq_extractLsb', BitVec.extractLsb'_append_extractLsb'_eq_extractLsb']
    exact getLsbD_append_extractLsb' 0#30 _ v i
  case gtCtrl =>
    simp only [State.regRead, State.regWrite, GateTimer.ctrlWord_eq_append,
      ofBool_getLsbD_eq_extractLsb', BitVec.extractLsb'_append_extractLsb'_eq_extractLsb']
    exact getLsbD_append_extractLsb' _ _ v i
  case enMask =>
    simp only [State.regRead, State.regWrite, State.setEnables, ofBool_getLsbD_eq_extractLsb',
      BitVec.extractLsb'_append_extractLsb'_eq_extractLsb']
    exact getLsbD_append_extractLsb' 0#30 _ v i
  case ecCtr | ecWrap | gtCtr | gtWrap =>
    simp only [State.regRead, State.regWrite, ← zero_append_eq_setWidth (m := 16)]
    exact getLsbD_append_extractLsb' 0#16 _ v i
  case cxScratch | gcStopval => exact (if_pos hi).symm
  case dma ch q =>
    have hq : q ≠ .transCountTrig := fun e => hr ch (congrArg (Reg.dma ch) e)
    simp only [State.regRead, State.regWrite, State.chan_setChan_self]
    exact (s.chan ch).getLsbD_readReg_writeReg hq ch v hi
  case dmaAbort =>
    simp only [State.regRead]
    rfl
  all_goals rfl

/-- The read value of a register after a write of it, in the words of the bits a write sets. -/
theorem State.regRead_regWrite_self (s : State) {r : Reg} (hr : ∀ ch, r ≠ .dma ch .transCountTrig)
    (v : Word) : (s.regWrite r v).regRead r =
      (v &&& writtenBits r) ||| (s.regRead r &&& ~~~ writtenBits r) := by
  refine BitVec.eq_of_getLsbD_eq fun i hi => ?_
  rw [s.getLsbD_regRead_regWrite hr v hi, writtenBits_eq]
  by_cases h : i < r.writtenWidth <;> simp [h, hi, -BitVec.getLsbD_eq_getElem]

/-! ### The registers a write leaves -/

/-- The registers whose read value a write may change, for every register but DMA_ABORT (40_bus_dma.md
R64). -/
def Reg.changed : Reg → List Reg
  | .dma ch .transCount => [.dma ch .reload]
  | .dma ch .transCountTrig => channelRegs ch
  | r => r :: alsoWritten r

theorem mem_channelRegs (ch : ChanNo) (q : DmaReg) : Reg.dma ch q ∈ channelRegs ch := by
  cases q <;> simp [channelRegs, dmaRegs]

/-- A write of a channel's register leaves the other registers of the channel. -/
theorem DmaChannel.readReg_writeReg_of_notMem (c : DmaChannel) {ch : ChanNo} {r q : DmaReg} (v : Word)
    (h : Reg.dma ch q ∉ (Reg.dma ch r).changed) : (c.writeReg r v).readReg q = c.readReg q := by
  cases r
  case transCountTrig => exact absurd (mem_channelRegs ch q) h
  case pending | reload => rfl
  case readAddr | writeAddr | transCount | ctrl =>
    cases q <;> simp [Reg.changed, alsoWritten] at h <;> rfl

/-- A register outside those changed reads as before. -/
theorem State.regRead_regWrite_of_notMem (s : State) {r q : Reg} (hr : r ≠ .dmaAbort) (v : Word)
    (h : q ∉ r.changed) : (s.regWrite r v).regRead q = s.regRead q := by
  cases r
  case dma ch k =>
    cases q
    case dma d q =>
      simp only [State.regRead, State.regWrite, State.chan_setChan]
      split
      next e => exact e ▸ (s.chan ch).readReg_writeReg_of_notMem v (e ▸ h)
      next => rfl
    all_goals rfl
  case dmaAbort => exact absurd rfl hr
  case ecCtrl | ecCtr | ecWrap | gtCtrl | gtCtr | gtWrap | enMask | cxScratch | gcStopval =>
    cases q <;> simp [Reg.changed, alsoWritten] at h <;> rfl
  all_goals rfl

/-- A write that leaves PENDING's read value leaves PENDING. -/
theorem State.pending_regWrite (s : State) {r : Reg} (hr : r ≠ .dmaAbort) (v : Word) {ch : ChanNo}
    (h : Reg.dma ch .pending ∉ r.changed) :
    ((s.regWrite r v).chan ch).pending = (s.chan ch).pending := by
  rw [State.chan_regWrite]
  cases r
  case dmaAbort => exact absurd rfl hr
  case dma d k =>
    dsimp only
    split
    next e =>
      subst e
      cases k
      case transCountTrig => exact absurd (mem_channelRegs ch .pending) h
      all_goals rfl
    next => rfl
  all_goals rfl

/-! ### Frames -/

theorem Frame.setLast {rs : List Reg} {stored : Nat → Prop} {k : Nat} {s t : State}
    (h : Frame rs stored k s t) (r : Result) : Frame rs stored k s { t with last := r } :=
  { h with }

/-- A frame allows what a smaller one allows. -/
theorem Frame.mono {rs rs' : List Reg} {stored : Nat → Prop} {k : Nat} {s t : State}
    (h : Frame rs stored k s t) (hrs : rs ⊆ rs') : Frame rs' stored k s t :=
  { h with
    regs := fun r hr => h.regs r fun hm => hr (hrs hm)
    pending := fun ch hch => h.pending ch fun hm => hch (hrs hm) }

/-- The result record is outside every frame. -/
theorem Frame.record (rs : List Reg) (stored : Nat → Prop) (s : State) (r : Result) :
    Frame rs stored 0 s { s with last := r } := by
  constructor <;> intros <;> rfl

/-- A register write changes nothing but the registers it changes. -/
theorem State.regWrite_frame (s : State) {r : Reg} (hr : r ≠ .dmaAbort) (v : Word) :
    Frame r.changed noBytes 0 s (s.regWrite r v) := by
  obtain ⟨hk, hm⟩ := s.regWrite_keeps r v
  exact {
    regs := fun q hq => s.regRead_regWrite_of_notMem hr v hq
    pending := fun ch hch => s.pending_regWrite hr v hch
    ram := fun a _ => by rw [hm]
    clock := hk.clock
    levels := hk.levels
    faultMark := hk.faultMark
    params := hk.params
    program := hk.program
    pc := hk.pc
    t0 := hk.t0
    inFlight := hk.inFlight
    schedule := hk.schedule }

end Sys2Proof.Machine
end

