-- ==== Sys2Proof/Proofs/BusCommands.lean ====
section
/-! PROOFS. The bus commands (40_bus_dma.md R61 to R63): what BUS_RD and BUS_WR answer on each region of the
memory map, and EN_MASK, which is a write of its register. -/

namespace Sys2Proof.Machine

/-! ### Words with a reserved bit set -/

/-- A word 0 with a reserved bit set, for every opcode of the map (30_encoding.md R56). -/
theorem reservedIllegal_of_row {opc : BitVec 8} {row : OpcodeRow} {reserved : Word}
    (hrow : opcodeRow opc = some row) (hm : row.format.reservedMask = reserved) :
    ReservedIllegal opc reserved := by
  rintro w e rfl hw
  have hdec := decode_reserved_field hrow (hm ▸ hw) e
  exact ⟨⟨_, hdec⟩, runWords_illegal hdec⟩

/-! ### What the two commands answer -/

section
variable {s u : State} {a v : Word}

theorem Params.resolve_of_not_accessOk {p : Params} {z : Size} (h : p.accessOk a z = false) :
    p.resolve a z = none :=
  Option.isNone_iff_eq_none.mp (Option.isSome_eq_false_iff.mp h)

theorem State.memRead_of_not_accessOk {z : Size} (h : s.params.accessOk a z = false) :
    s.memRead a z = none :=
  Option.map_eq_none_iff.mpr (Params.resolve_of_not_accessOk h)

theorem State.memWrite_of_not_accessOk {z : Size} (h : s.params.accessOk a z = false) :
    s.memWrite a z v = none :=
  Option.map_eq_none_iff.mpr (Params.resolve_of_not_accessOk h)

theorem exec_busRd_of_read (h : s.memRead a .word = some v) :
    exec (.busRd a) s = .next { s with last := okResult v false } := by
  simp only [exec, execBusRd, h]
  rfl

theorem exec_busWr_of_write (h : s.memWrite a .word v = some u) :
    exec (.busWr a v) s = .next { u with last := okResult 0#32 false } := by
  simp only [exec, execBusWr, h]
  rfl

theorem busRd_fails (h : s.params.accessOk a .word = false) : Fails (.busRd a) s 9#8 := by
  simp only [Fails, exec, execBusRd, State.memRead_of_not_accessOk h]
  rfl

theorem busWr_fails (h : s.params.accessOk a .word = false) : Fails (.busWr a v) s 9#8 := by
  simp only [Fails, exec, execBusWr, State.memWrite_of_not_accessOk h]
  rfl

/-- A BUS_RD that reads changes its result record alone. -/
theorem busRd_completes {P : State → Prop} (h : s.memRead a .word = some v)
    (hP : P { s with last := okResult v false }) : Completes (.busRd a) s [] 0 P :=
  ⟨_, exec_busRd_of_read h, .record [] noBytes s _, hP⟩

theorem State.memRead_ram_word (hlo : s.params.ramBase.toNat ≤ a.toNat)
    (hhi : a.toNat + 4 ≤ s.params.ramBase.toNat + s.params.ramSize) (halign : a.toNat % 4 = 0) :
    s.memRead a .word = some (s.mem.read32 a.toNat) := by
  simp only [State.memRead, Params.resolve_ram_word hlo hhi halign, Option.map_some, State.readTarget]

theorem exec_busRd_of_ram (hlo : s.params.ramBase.toNat ≤ a.toNat)
    (hhi : a.toNat + 4 ≤ s.params.ramBase.toNat + s.params.ramSize) (halign : a.toNat % 4 = 0)
    (hm : s.mem.read32 a.toNat = v) :
    exec (.busRd a) s = .next { s with last := okResult v false } :=
  exec_busRd_of_read (hm ▸ State.memRead_ram_word hlo hhi halign)

theorem State.memWrite_ram_word (hlo : s.params.ramBase.toNat ≤ a.toNat)
    (hhi : a.toNat + 4 ≤ s.params.ramBase.toNat + s.params.ramSize) (halign : a.toNat % 4 = 0) :
    s.memWrite a .word v = some { s with mem := s.mem.write32 a.toNat v } := by
  simp only [State.memWrite, Params.resolve_ram_word hlo hhi halign, Option.map_some,
    State.writeTarget]

/-- A write of the clock is ignored (20_memory.md R39). -/
theorem State.memWrite_clock (hp : s.params.Legal) : s.memWrite s.params.clockAddr .word v = some s := by
  simp only [State.memWrite, Params.resolve_clockAddr hp, Option.map_some, State.writeTarget]

end

/-! ### BUS_RD -/

/-- Settles O12: each region's access reads its target, and the command returns what was read. -/
theorem busRdReturnsTheWord : Obligations.BusRdReturnsTheWord := by
  unfold Obligations.BusRdReturnsTheWord
  refine ⟨fun addr => decode_encode (.busRd addr), reservedIllegal_of_row rfl rfl, ?_⟩
  intro s a hp
  refine ⟨busRd_fails, ?register, ?clock, ?ram⟩
  case register =>
    rintro r hr rfl
    exact busRd_completes (State.memRead_reg hp hr) ⟨rfl, s.regRead_toNat r⟩
  case clock =>
    rintro rfl
    exact busRd_completes (State.memRead_clock hp) rfl
  case ram =>
    intro hlo hhi halign
    exact busRd_completes (State.memRead_ram_word hlo hhi halign)
      ⟨rfl, rfl, s.mem.read32_toNat a.toNat⟩

/-! ### BUS_WR of RAM and of the clock -/

/-- A word stored changes its four bytes alone. -/
theorem State.write32_frame {s : State} (hwf : s.mem.wf = true) (a : Nat) (v : Word) :
    Frame [] (wordBytes a) 0 s { s with mem := s.mem.write32 a v } where
  regs _ _ := rfl
  pending _ _ := rfl
  ram x hx := (Memory.read_write32 hwf a v x).trans (if_neg hx)
  clock := rfl
  levels := rfl
  faultMark := rfl
  params := rfl
  program := rfl
  pc := rfl
  t0 := rfl
  inFlight := rfl
  schedule := rfl

/-- The bytes of a word stored, the least significant first (20_memory.md R40). -/
theorem Memory.read_write32_byte {m : Memory} (hwf : m.wf = true) (a : Nat) (v : Word) {i : Nat}
    (hi : i < 4) : ((m.write32 a v).read (a + i)).toNat = v.toNat / 2 ^ (8 * i) % 2 ^ 8 := by
  rw [Memory.read_write32 hwf, if_pos (by omega), Nat.add_sub_cancel_left, BitVec.extractLsb'_toNat,
    Nat.shiftRight_eq_div_pow]

/-- Settles O13: the write stores by `write32`, whose bytes and frame are those of the word, and the read
after it finds the word in the memory written. -/
theorem busWrStoresTheWord : Obligations.BusWrStoresTheWord := by
  unfold Obligations.BusWrStoresTheWord
  refine ⟨fun addr value => decode_encode (.busWr addr value), reservedIllegal_of_row rfl rfl, ?_⟩
  intro s a v hp hwf
  refine ⟨busWr_fails, ?clock, ?ram⟩
  case clock =>
    rintro rfl
    exact ⟨_, exec_busWr_of_write (State.memWrite_clock hp), .record [] noBytes s _, rfl⟩
  case ram =>
    intro hlo hhi halign
    refine ⟨_, exec_busWr_of_write (State.memWrite_ram_word hlo hhi halign),
      (State.write32_frame hwf a.toNat v).setLast _, rfl,
      fun i hi => Memory.read_write32_byte hwf a.toNat v hi, ?_⟩
    exact exec_busRd_of_ram hlo hhi halign (Memory.read32_write32_same hwf a.toNat v)

/-! ### EN_MASK -/

theorem word0M_enMask (m : BitVec 2) : 0x03000000#32 ||| m.setWidth 32 = word0M 0x03#8 m := by
  revert m
  decide

theorem enableBits_append (m : BitVec 2) :
    0#30 ++ (BitVec.ofBool (m.getLsbD 1) ++ BitVec.ofBool (m.getLsbD 0)) = m.setWidth 32 := by
  revert m
  decide

/-- The enables of a mask are set as a write of the EN_MASK register sets them. -/
theorem State.setEnables_eq_regWrite (s : State) (m : BitVec 2) :
    s.setEnables (m.getLsbD 0) (m.getLsbD 1) = s.regWrite .enMask (m.setWidth 32) := by
  simp [State.regWrite, -BitVec.getLsbD_eq_getElem]

/-- Settles O15: the command is a write of the register, so its frame is that write's. -/
theorem enMaskSetsBothEnables : Obligations.EnMaskSetsBothEnables := by
  unfold Obligations.EnMaskSetsBothEnables
  refine ⟨fun m => ?_, reservedIllegal_of_row rfl rfl, fun s m => ?_⟩
  · rw [word0M_enMask]
    exact decode_encode (.enMask m)
  · have hframe : Frame (Reg.changed .enMask) noBytes 0 s
        (s.setEnables (m.getLsbD 0) (m.getLsbD 1)) :=
      s.setEnables_eq_regWrite m ▸ s.regWrite_frame (by decide) _
    refine ⟨_, rfl, ?_, rfl, rfl, rfl, rfl, rfl, rfl, ?_⟩
    · exact (hframe.mono (by simp [Reg.changed, alsoWritten])).setLast _
    · exact enableBits_append m

end Sys2Proof.Machine
end

