-- ==== Sys2Proof/Proofs/RegisterWrites.lean ====
section
/-! PROOFS. Register writes through the bus (40_bus_dma.md R64 to R66, R73): each register's write action,
the trigger of TRANS_COUNT_TRIG and the abort of DMA_ABORT, and that an aborted channel rests until it is
triggered again. -/

namespace Sys2Proof.Machine

/-! ### BUS_WR of a register -/

section
variable {s : State} {r : Reg} {ch : ChanNo} {v : Word}

theorem exec_busWr_regAddr (hp : s.params.Legal) (hr : s.params.hasReg r = true) (v : Word) :
    exec (.busWr (s.params.regAddr r) v) s =
      .next { s.regWrite r v with last := okResult 0#32 false } :=
  exec_busWr_of_write (State.memWrite_reg hp hr v)

theorem busWr_regAddr_completes {P : State → Prop} (hp : s.params.Legal)
    (hr : s.params.hasReg r = true) (hne : r ≠ .dmaAbort)
    (hP : P { s.regWrite r v with last := okResult 0#32 false }) :
    Completes (.busWr (s.params.regAddr r) v) s r.changed 0 P :=
  ⟨_, exec_busWr_regAddr hp hr v, (s.regWrite_frame hne v).setLast _, hP⟩

/-- A write whose action is to set bits: those bits, the enables that show them, and nothing else. -/
theorem busWr_sets_writtenBits (hp : s.params.Legal) (hr : s.params.hasReg r = true)
    (hne : r ≠ .dmaAbort) (hnt : ∀ ch, r ≠ .dma ch .transCountTrig) :
    Completes (.busWr (s.params.regAddr r) v) s r.changed 0 fun t =>
      t.last = okResult 0#32 false ∧
        t.regRead r = (v &&& writtenBits r) ||| (s.regRead r &&& ~~~ writtenBits r) ∧
        t.regRead .enMask =
          (t.regRead .ecCtrl &&& 0x1#32) ||| ((t.regRead .gtCtrl &&& 0x1#32) <<< 1) :=
  busWr_regAddr_completes hp hr hne
    ⟨rfl, s.regRead_regWrite_self hnt v, State.regRead_enMask _⟩

/-- What a TRANS_COUNT_TRIG write leaves in its channel. -/
theorem State.chan_regWrite_trig (s : State) (ch : ChanNo) (v : Word) :
    (s.regWrite (.dma ch .transCountTrig) v).chan ch =
      DmaChannel.trigger { s.chan ch with reload := v } :=
  s.chan_setChan_self ch _

theorem State.readReg_regWrite_transCount (s : State) (ch : ChanNo) (v : Word) :
    (s.regWrite (.dma ch .transCount) v).regRead (.dma ch .reload) = v :=
  congrArg DmaChannel.reload (s.chan_setChan_self ch _)

theorem State.abortMask_eq (s : State) (v : Word) : ∃ d, s.abortMask v = { s with dma := d } :=
  ⟨_, rfl⟩

/-- DMA_ABORT aborts the existing channels of its mask and changes nothing else. -/
theorem exec_busWr_dmaAbort (hp : s.params.Legal) (v : Word) :
    ∃ t, exec (.busWr (s.params.regAddr .dmaAbort) v) s = .next t ∧
      t = { s with dma := t.dma, last := okResult 0#32 false } ∧
      ∀ ch, t.chan ch =
        if v.getLsbD ch.toNat = true ∧ ch.toNat < s.params.dmaChannels then (s.chan ch).abort
        else s.chan ch := by
  obtain ⟨d, hd⟩ := s.abortMask_eq v
  have hw : s.regWrite .dmaAbort v = { s with dma := d } := hd
  have hchan := s.chan_abortMask v
  rw [hd] at hchan
  refine ⟨{ s with dma := d, last := okResult 0#32 false }, ?_, rfl, hchan⟩
  rw [exec_busWr_regAddr (r := .dmaAbort) hp rfl v, hw]

/-- Settles O14: DMA_ABORT, the two count registers and EN_MASK have their own actions; every other write
sets the bits named for its register. -/
theorem registerWriteActions : Obligations.RegisterWriteActions := by
  unfold Obligations.RegisterWriteActions
  intro s r v hp hr
  cases r
  case dmaAbort => exact exec_busWr_dmaAbort hp v
  case enMask => exact busWr_regAddr_completes hp hr nofun ⟨rfl, rfl, rfl, rfl, rfl, rfl⟩
  case dma ch q =>
    cases q
    case transCount =>
      exact busWr_regAddr_completes hp hr nofun ⟨rfl, s.readReg_regWrite_transCount ch v⟩
    case transCountTrig =>
      exact busWr_regAddr_completes hp hr nofun ⟨rfl, s.chan_regWrite_trig ch v⟩
    all_goals exact busWr_sets_writtenBits hp hr nofun nofun
  all_goals exact busWr_sets_writtenBits hp hr nofun nofun

/-! ### The trigger -/

section
variable {c : DmaChannel}

theorem DmaChannel.trigger_of_disabled (h : c.en = false) : c.trigger = c := by
  simp [DmaChannel.trigger, h]

theorem DmaChannel.trigger_of_busy (h : c.busy = true) : c.trigger = c := by
  simp [DmaChannel.trigger, h]

/-- A sequence of no transfers ends as it starts. -/
theorem DmaChannel.trigger_of_reload_zero (he : c.en = true) (hb : c.busy = false)
    (hr : c.reload = 0#32) : c.trigger = { c with count := 0#32 } := by
  simp [DmaChannel.trigger, he, hb, hr]

theorem DmaChannel.trigger_fresh (he : c.en = true) (hb : c.busy = false) (hr : c.reload ≠ 0#32) :
    c.trigger = { c with count := c.reload, busy := true, pending := 0 } := by
  simp [DmaChannel.trigger, he, hb, hr]

end

/-- Settles O16: the four cases are those of the trigger, on the channel with RELOAD written. -/
theorem triggerStartsOnlyAnEnabledIdleChannel :
    Obligations.TriggerStartsOnlyAnEnabledIdleChannel := by
  unfold Obligations.TriggerStartsOnlyAnEnabledIdleChannel
  intro s ch v hp hch
  have htrig := s.chan_regWrite_trig ch v
  exact busWr_regAddr_completes hp hch nofun ⟨rfl,
    fun he => htrig.trans (DmaChannel.trigger_of_disabled he),
    fun hb => htrig.trans (DmaChannel.trigger_of_busy hb),
    fun he hb hv => htrig.trans (DmaChannel.trigger_of_reload_zero he hb hv),
    fun he hb hv => htrig.trans (DmaChannel.trigger_fresh he hb hv)⟩

/-- A TRANS_COUNT_TRIG write of an enabled idle channel starts a sequence of the written length. -/
theorem busWr_trig_starts (hp : s.params.Legal) (hch : s.params.hasChannel ch = true)
    (he : (s.chan ch).en = true) (hb : (s.chan ch).busy = false) (hv : v ≠ 0#32) :
    ∃ u, exec (.busWr (s.params.regAddr (.dma ch .transCountTrig)) v) s = .next u ∧
      (u.chan ch).count = v ∧ (u.chan ch).busy = true := by
  have hfresh := (s.chan_regWrite_trig ch v).trans (DmaChannel.trigger_fresh he hb hv)
  exact ⟨_, exec_busWr_regAddr (r := .dma ch .transCountTrig) hp hch v,
    congrArg DmaChannel.count hfresh, congrArg DmaChannel.busy hfresh⟩

/-- An aborted channel is idle and as enabled as before, so a trigger starts a fresh sequence. -/
theorem busWr_trig_starts_after_abort {t : State} (hp : t.params.Legal)
    (hch : t.params.hasChannel ch = true) (habort : t.chan ch = (s.chan ch).abort)
    (he : (s.chan ch).en = true) (hv : v ≠ 0#32) :
    ∃ u, exec (.busWr (t.params.regAddr (.dma ch .transCountTrig)) v) t = .next u ∧
      (u.chan ch).count = v ∧ (u.chan ch).busy = true := by
  refine busWr_trig_starts hp hch ?_ ?_ hv
  · rw [habort]
    exact he
  · rw [habort]
    rfl

/-! ### An idle channel rests under the agents -/

theorem DmaChannel.takes_eq_false {c : DmaChannel} {tag : BitVec 6} (a : Bool)
    (h : c.busy = false ∨ c.treq ≠ tag) : c.takes tag a = false := by
  rcases h with h | h <;> simp [DmaChannel.takes, h]

/-- A channel that does not accept the event is left as it is. -/
theorem State.emit_chan_of_not_takes {t : State} {tag : BitVec 6} {a : BitVec 16}
    (he : s.emit tag a = .ok t) (h : (s.chan ch).takes tag (a.getLsbD ch.toNat) = false) :
    t.chan ch = s.chan ch := by
  obtain ⟨hchan, _⟩ := State.emit_ok he
  rw [hchan, DmaChannel.deliver, h, if_neg Bool.false_ne_true, ite_self]

theorem State.emit_chan_of_idle {t : State} {tag : BitVec 6} {a : BitVec 16}
    (he : s.emit tag a = .ok t) (h : (s.chan ch).busy = false) : t.chan ch = s.chan ch :=
  State.emit_chan_of_not_takes he (DmaChannel.takes_eq_false _ (.inl h))

theorem State.not_agentEnabled_of_idle (h : (s.chan ch).busy = false) :
    s.agentEnabled (.transfer ch) = false := by
  simp [State.agentEnabled, h]

/-- Another channel's transfer leaves the channel. -/
theorem State.transfer_chan_ne {t : State} {d : ChanNo} (hp : s.params.Legal)
    (ht : s.transfer d = .ok t) (hne : ch ≠ d) : t.chan ch = s.chan ch := by
  obtain ⟨hd, ⟨_, rfl⟩ | ⟨w, u, _, hw, rfl⟩⟩ := State.transfer_ok ht
  · exact s.chan_setChan_ne _ hne
  · exact (u.chan_setChan_ne _ hne).trans (State.memWrite_chan hp hd hw ch)

theorem State.agentAct_chan_of_idle {t : State} {a : Turn} (hp : s.params.Legal)
    (hb : (s.chan ch).busy = false) (hen : s.agentEnabled a = true) (ha : s.agentAct a = .ok t) :
    t.chan ch = s.chan ch := by
  cases a with
  | control => cases hen
  | edge p acc =>
    rcases State.edge_ok ha with ⟨_, rfl⟩ | ⟨_, _, rfl⟩ | ⟨_, _, he⟩
    · rfl
    · rfl
    · exact State.emit_chan_of_idle (s := { s.toggle p with ec := s.ec.countEdge }) he hb
  | tick acc =>
    rcases State.gtTick_ok ha with ⟨_, rfl⟩ | ⟨_, he⟩
    · rfl
    · exact State.emit_chan_of_idle (s := { s with gt := s.gt.tick }) he hb
  | transfer d =>
    refine State.transfer_chan_ne hp ha ?_
    rintro rfl
    exact Bool.false_ne_true ((State.not_agentEnabled_of_idle hb).symm.trans hen)
  | clock => cases ha; rfl

/-- No agent's turn changes an idle channel (40_bus_dma.md R66, R68). -/
theorem State.agentStep_chan_of_idle (hp : s.params.Legal) (hb : (s.chan ch).busy = false) (a : Turn) :
    (s.agentStep a).chan ch = s.chan ch := by
  rcases s.agentStep_cases a with ⟨_, e⟩ | ⟨hen, t, ha, e⟩ | ⟨_, f, _, e⟩
  · rw [e]
  · rw [e]
    exact State.agentAct_chan_of_idle hp hb hen ha
  · rw [e]
    rfl

theorem State.runTurns_chan_of_idle (hp : s.params.Legal) (hb : (s.chan ch).busy = false)
    (ts : List Turn) : (State.runTurns ts s).chan ch = s.chan ch := by
  induction ts generalizing s with
  | nil => rfl
  | cons a ts ih =>
    cases hf : s.faultMark with
    | some f => rw [State.runTurns_faulted hf]
    | none =>
      have hstep := State.agentStep_chan_of_idle hp hb a
      rw [State.runTurns_cons hf, ih ((s.agentStep_keeps a).params ▸ hp) (hstep ▸ hb), hstep]

end

/-- Settles O17: the mask's channels are aborted, an idle channel rests under every run of the agents, and
the abort has left it ready for a trigger. -/
theorem abortEndsTheSequenceAndKeepsTheRest : Obligations.AbortEndsTheSequenceAndKeepsTheRest := by
  unfold Obligations.AbortEndsTheSequenceAndKeepsTheRest
  intro s m hp
  obtain ⟨t, hexec, ht, hchan⟩ := exec_busWr_dmaAbort hp m
  have hparams : t.params = s.params := by rw [ht]
  refine ⟨t, hexec, ht, fun ch hch hm => ?aborted, fun ch h => ?kept⟩
  case aborted =>
    have habort : t.chan ch = (s.chan ch).abort :=
      (hchan ch).trans (if_pos ⟨hm, of_decide_eq_true hch⟩)
    have hidle : (t.chan ch).busy = false := congrArg DmaChannel.busy habort
    refine ⟨habort, fun ts _ => ?_, fun v hv he =>
      busWr_trig_starts_after_abort (hparams ▸ hp) (hparams ▸ hch) habort he hv⟩
    have hrest := State.runTurns_chan_of_idle (hparams ▸ hp) hidle ts
    exact ⟨hrest, State.not_agentEnabled_of_idle (hrest ▸ hidle)⟩
  case kept =>
    refine (hchan ch).trans (if_neg ?_)
    rintro ⟨hm, hlt⟩
    rcases h with h | h
    · exact of_decide_eq_false h hlt
    · exact Bool.false_ne_true (h.symm.trans hm)

/-- Settles O18: the trigger leaves a busy channel's COUNT, and the abort makes the channel idle first. -/
theorem reArmWithoutAbortResumesTheStaleCount : Obligations.ReArmWithoutAbortResumesTheStaleCount := by
  unfold Obligations.ReArmWithoutAbortResumesTheStaleCount
  intro s ch y hp hch he hb
  refine ⟨?busy, fun hy m hm => ?aborted⟩
  case busy =>
    have hstale := (s.chan_regWrite_trig ch y).trans (DmaChannel.trigger_of_busy hb)
    exact ⟨_, exec_busWr_regAddr (r := .dma ch .transCountTrig) hp hch y,
      (congrArg DmaChannel.count hstale :), (congrArg DmaChannel.reload hstale :)⟩
  case aborted =>
    obtain ⟨u, hexec, hu, hchan⟩ := exec_busWr_dmaAbort hp m
    have hparams : u.params = s.params := by rw [hu]
    have habort : u.chan ch = (s.chan ch).abort :=
      (hchan ch).trans (if_pos ⟨hm, of_decide_eq_true hch⟩)
    obtain ⟨t, htrig⟩ :=
      busWr_trig_starts_after_abort (hparams ▸ hp) (hparams ▸ hch) habort he hy
    exact ⟨u, t, hexec, htrig⟩

end Sys2Proof.Machine
end

