-- ==== Sys2Proof/Proofs/Events.lean ====
section
/-! PROOFS. Events (40_bus_dma.md R68): the model's test for an accepting channel is `Accepts`, its test for
an overrun is `WouldOverrun`, and an event without an overrun is delivered to exactly the accepting
channels. -/

namespace Sys2Proof.Machine

section
variable {s t : State} {tag : BitVec 6} {acc : BitVec 16} {ch : ChanNo}

theorem DmaChannel.takes_iff {c : DmaChannel} {a : Bool} :
    c.takes tag a = true ↔ c.treq = tag ∧ c.busy = true ∧ (c.en = true ∨ a = true) := by
  simp [DmaChannel.takes, and_assoc]

/-- An event reaches the existing channels, and of these it is accepted by those that take it. -/
theorem accepts_iff : Accepts tag acc s ch ↔
    ch.toNat < s.params.dmaChannels ∧ (s.chan ch).takes tag (acc.getLsbD ch.toNat) = true := by
  rw [DmaChannel.takes_iff]
  rfl

theorem Params.limitReached_iff {p : Params} {c : DmaChannel} :
    p.limitReached c = true ↔ p.pendingLimit = some c.pending :=
  beq_iff_eq

theorem State.overruns_iff : s.overruns tag acc = true ↔ WouldOverrun tag acc s := by
  simp only [State.overruns, WouldOverrun, List.any_eq_true, mem_allChannels, true_and,
    Bool.and_eq_true, accepts_iff, Params.limitReached_iff, Params.hasChannel, decide_eq_true_eq]

theorem State.emit_of_overrun (h : WouldOverrun tag acc s) : s.emit tag acc = .error .dreqOverrun := by
  unfold State.emit
  exact if_pos (State.overruns_iff.mpr h)

theorem State.emit_of_not_overrun (h : ¬ WouldOverrun tag acc s) : ∃ t, s.emit tag acc = .ok t := by
  unfold State.emit
  exact ⟨_, if_neg (mt State.overruns_iff.mp h)⟩

theorem State.emit_chan_of_accepts (he : s.emit tag acc = .ok t) (h : Accepts tag acc s ch) :
    t.chan ch = { s.chan ch with pending := (s.chan ch).pending + 1 } := by
  obtain ⟨hlt, htakes⟩ := accepts_iff.mp h
  obtain ⟨hchan, _⟩ := State.emit_ok he
  rw [hchan, if_pos hlt, DmaChannel.deliver, if_pos htakes]

theorem State.emit_chan_of_not_accepts (he : s.emit tag acc = .ok t) (h : ¬ Accepts tag acc s ch) :
    t.chan ch = s.chan ch := by
  by_cases hlt : ch.toNat < s.params.dmaChannels
  · refine State.emit_chan_of_not_takes he ?_
    exact Bool.eq_false_iff.mpr fun htakes => h (accepts_iff.mpr ⟨hlt, htakes⟩)
  · obtain ⟨hchan, _⟩ := State.emit_ok he
    rw [hchan, if_neg hlt]

theorem State.emit_delivered (he : s.emit tag acc = .ok t) : Delivered tag acc s t :=
  fun _ => ⟨State.emit_chan_of_accepts he, State.emit_chan_of_not_accepts he⟩

end

/-- Settles O48: an event without an overrun is delivered as `Delivered` says; a paused channel's two
choices are the masks of ones and of zeros. -/
theorem eventsReachTheirChannels : Obligations.EventsReachTheirChannels := by
  unfold Obligations.EventsReachTheirChannels
  refine ⟨fun s tag acc => ⟨State.emit_of_overrun, fun h => ?_⟩, ?paused, ?lost⟩
  · obtain ⟨t, he⟩ := State.emit_of_not_overrun h
    obtain ⟨_, hframe, _⟩ := State.emit_ok he
    exact ⟨t, he, State.emit_delivered he, hframe⟩
  case paused =>
    intro s ch tag hlt htreq hbusy hpaused hunbounded
    have hemit (acc : BitVec 16) : ∃ t, s.emit tag acc = .ok t :=
      State.emit_of_not_overrun (Tests.no_overrun hunbounded tag acc)
    constructor
    · obtain ⟨t, he⟩ := hemit (BitVec.allOnes 16)
      have hacc : Accepts tag (BitVec.allOnes 16) s ch :=
        ⟨hlt, htreq, hbusy, .inr (BitVec.getLsbD_allOnes.trans (decide_eq_true ch.isLt))⟩
      exact ⟨_, t, he, by rw [State.emit_chan_of_accepts he hacc]⟩
    · obtain ⟨t, he⟩ := hemit 0#16
      refine ⟨_, t, he, State.emit_chan_of_not_accepts he ?_⟩
      rintro ⟨_, _, _, hen | hbit⟩
      · exact Bool.false_ne_true (hpaused.symm.trans hen)
      · exact Bool.false_ne_true (BitVec.getLsbD_zero.symm.trans hbit)
  case lost =>
    exact fun s t ch tag acc he h => State.emit_chan_of_not_takes he (DmaChannel.takes_eq_false _ h)

end Sys2Proof.Machine
end

