-- ==== Sys2Proof/Proofs/Transfers.lean ====
section
/-! PROOFS. One transfer of a channel (40_bus_dma.md R69, R70): when it is enabled, its three outcomes, and
what a byte's move leaves in RAM. -/

namespace Sys2Proof.Machine

section
variable {s u : State} {ch : ChanNo} {v : Word}

theorem State.agentEnabled_transfer_iff : s.agentEnabled (.transfer ch) = true ↔
    ch.toNat < s.params.dmaChannels ∧ (s.chan ch).en = true ∧ (s.chan ch).busy = true ∧
      0 < (s.chan ch).pending := by
  simp [State.agentEnabled, Params.hasChannel, and_assoc]

/-- The model's test is R69's: the place of DMA_ABORT, or the window from the channels' registers on. -/
theorem Params.dmaRegister_iff {p : Params} (hp : p.Legal) {a : Word} : p.dmaRegister a = true ↔
    a.toNat = p.blockBase.toNat + 0x03C ∨
      (p.blockBase.toNat + 0x100 ≤ a.toNat ∧ a.toNat ≤ p.blockBase.toNat + 0xFFF) := by
  simp only [Params.dmaRegister, Bool.or_eq_true, beq_iff_eq, Bool.and_eq_true, decide_eq_true_eq,
    ← BitVec.toNat_inj, Params.regAddr_toNat hp, Reg.offset]

theorem State.agentStep_of_act {a : Turn} {t : State} (hen : s.agentEnabled a = true)
    (ha : s.agentAct a = .ok t) : s.agentStep a = t := by
  unfold State.agentStep
  rw [if_pos hen, ha]

theorem State.agentStep_of_fault {a : Turn} {f : Fault} (hen : s.agentEnabled a = true)
    (ha : s.agentAct a = .error f) : s.agentStep a = { s with faultMark := some f } := by
  unfold State.agentStep
  rw [if_pos hen, ha]

theorem State.transfer_of_dmaRegister (h : s.params.dmaRegister (s.chan ch).writeAddr = true) :
    s.transfer ch = .error .dmaRegisterTarget := by
  unfold State.transfer
  exact if_pos h

/-- An access that is not ok ends the sequence, and nothing is moved. -/
theorem State.transfer_of_not_accessOk (hd : s.params.dmaRegister (s.chan ch).writeAddr = false)
    (h : s.params.accessOk (s.chan ch).readAddr (s.chan ch).accessSize = false ∨
      s.params.accessOk (s.chan ch).writeAddr (s.chan ch).accessSize = false) :
    s.transfer ch = .ok (s.setChan ch (s.chan ch).busFail) := by
  unfold State.transfer
  dsimp only
  rw [if_neg (by simp [hd])]
  cases hr : s.memRead (s.chan ch).readAddr (s.chan ch).accessSize with
  | none => rfl
  | some v =>
    rcases h with h | h
    · cases (State.memRead_of_not_accessOk h).symm.trans hr
    · simp only [State.memWrite_of_not_accessOk h]

theorem State.transfer_of_move (hd : s.params.dmaRegister (s.chan ch).writeAddr = false)
    (hr : s.memRead (s.chan ch).readAddr (s.chan ch).accessSize = some v)
    (hw : s.memWrite (s.chan ch).writeAddr (s.chan ch).accessSize v = some u) :
    s.transfer ch = .ok (u.setChan ch (s.chan ch).served) := by
  unfold State.transfer
  dsimp only
  rw [if_neg (by simp [hd])]
  simp only [hr, hw]

theorem State.memRead_of_accessOk {a : Word} {z : Size} (h : s.params.accessOk a z = true) :
    ∃ v, s.memRead a z = some v := by
  obtain ⟨t, ht⟩ := Params.accessOk_iff.mp h
  exact ⟨_, congrArg (Option.map (s.readTarget z)) ht⟩

theorem State.memWrite_of_accessOk {a : Word} {z : Size} (h : s.params.accessOk a z = true)
    (v : Word) : ∃ u, s.memWrite a z v = some u := by
  obtain ⟨t, ht⟩ := Params.accessOk_iff.mp h
  exact ⟨_, congrArg (Option.map (s.writeTarget z v)) ht⟩

/-- A byte access reaches RAM alone (20_memory.md R37). -/
theorem Params.resolve_byte {p : Params} {a : Word} {t : Target} (h : p.resolve a .byte = some t) :
    t = .ram a.toNat := by
  rcases Params.resolve_cases h with ⟨ht, _⟩ | ⟨_, _, hz, _⟩ | ⟨_, _, hz⟩
  · exact ht
  · cases hz
  · cases hz

theorem State.memRead_byte {a : Word} (h : s.memRead a .byte = some v) :
    v = (s.mem.read a.toNat).setWidth 32 := by
  obtain ⟨t, ht, rfl⟩ := Option.map_eq_some_iff.mp h
  rw [Params.resolve_byte ht]
  rfl

theorem State.memWrite_byte {a : Word} (h : s.memWrite a .byte v = some u) :
    u = { s with mem := s.mem.write a.toNat (v.extractLsb' 0 8) } := by
  obtain ⟨t, ht, rfl⟩ := Option.map_eq_some_iff.mp h
  rw [Params.resolve_byte ht]
  rfl

/-- A byte moved stands at the destination, and no other byte of RAM changes. -/
theorem State.mem_of_byte_move {a b : Word} (hwf : s.mem.wf = true)
    (hr : s.memRead a .byte = some v) (hw : s.memWrite b .byte v = some u) :
    u = { s with mem := u.mem } ∧
      ∀ x, u.mem.read x = if x = b.toNat then s.mem.read a.toNat else s.mem.read x := by
  obtain rfl := State.memRead_byte hr
  obtain rfl := State.memWrite_byte hw
  refine ⟨rfl, fun x => ?_⟩
  rw [Memory.read_write hwf, BitVec.extractLsb'_setWidth_of_le (by decide), BitVec.extractLsb'_eq_self]

/-- A served channel in the words of R69, where the served request leaves COUNT at 0 or not. -/
theorem DmaChannel.served_eq {c : DmaChannel} (hb : c.busy = true) : c.served =
    { c with
      readAddr := c.readAddr + (if c.incrRead then BitVec.ofNat 32 c.accessSize.bytes else 0#32)
      writeAddr := c.writeAddr + (if c.incrWrite then BitVec.ofNat 32 c.accessSize.bytes else 0#32)
      count := c.count - 1#32
      pending := if c.count = 1#32 then 0 else c.pending - 1
      busy := if c.count = 1#32 then false else true } := by
  have hstride : c.stride = BitVec.ofNat 32 c.accessSize.bytes := by
    unfold DmaChannel.stride DmaChannel.accessSize
    cases c.size <;> rfl
  have hlast : c.count - 1#32 = 0#32 ↔ c.count = 1#32 := sub_eq_zero
  simp only [DmaChannel.served, hstride, hlast, hb, add_ite, BitVec.add_zero]

end

/-- Settles O49: the three clauses are the transfer's three outcomes. -/
theorem transferServesOneRequest : Obligations.TransferServesOneRequest := by
  unfold Obligations.TransferServesOneRequest
  refine ⟨fun s ch => State.agentEnabled_transfer_iff, ?_⟩
  rintro s ch c z intoDma rfl hp hwf _ hen hz hdma
  obtain rfl : z = (s.chan ch).accessSize := hz
  rw [← Params.dmaRegister_iff hp] at hdma
  rw [hdma, Bool.not_eq_true]
  refine ⟨fun hd => State.agentStep_of_fault hen (State.transfer_of_dmaRegister hd),
    fun hd h => State.agentStep_of_act hen (State.transfer_of_not_accessOk hd h),
    fun hd hread hwrite => ?_⟩
  obtain ⟨v, hr⟩ := State.memRead_of_accessOk hread
  obtain ⟨u, hw⟩ := State.memWrite_of_accessOk hwrite v
  obtain ⟨_, _, hbusy, _⟩ := State.agentEnabled_transfer_iff.mp hen
  refine ⟨v, u, hr, hw, ?_, State.memWrite_chan hp hd hw, fun hz => ?_, fun hz => ?_⟩
  · rw [State.agentStep_of_act hen (State.transfer_of_move hd hr hw), DmaChannel.served_eq hbusy]
  · rw [hz] at hr hw
    exact ⟨exec_busRd_of_read hr, exec_busWr_of_write hw⟩
  · rw [hz] at hr hw
    exact State.mem_of_byte_move hwf hr hw

end Sys2Proof.Machine
end

