-- ==== Sys2Proof/Proofs/Clock.lean ====
section
/-! PROOFS. The clock (40_bus_dma.md R72): its own step counts, and no other step writes it. -/

namespace Sys2Proof.Machine

section
variable {s t : State}

theorem State.emit_clock {tag : BitVec 6} {acc : BitVec 16} (he : s.emit tag acc = .ok t) :
    t.clock = s.clock := by
  obtain ⟨_, hframe, _⟩ := State.emit_ok he
  rw [hframe]

theorem State.agentAct_clock {a : Turn} (hne : a ≠ .clock) (ha : s.agentAct a = .ok t) :
    t.clock = s.clock := by
  cases a with
  | control => cases ha; rfl
  | edge p acc =>
    rcases State.edge_ok ha with ⟨_, rfl⟩ | ⟨_, _, rfl⟩ | ⟨_, _, he⟩
    · rfl
    · rfl
    · exact (State.emit_clock he :)
  | tick acc =>
    rcases State.gtTick_ok ha with ⟨_, rfl⟩ | ⟨_, he⟩
    · rfl
    · exact (State.emit_clock he :)
  | transfer ch =>
    obtain ⟨_, ⟨_, rfl⟩ | ⟨v, u, _, hw, rfl⟩⟩ := State.transfer_ok ha
    · rfl
    · exact (State.memWrite_keeps hw).clock
  | clock => exact absurd rfl hne

theorem State.agentStep_clock {a : Turn} (hne : a ≠ .clock) : (s.agentStep a).clock = s.clock := by
  rcases s.agentStep_cases a with ⟨_, e⟩ | ⟨_, t, ha, e⟩ | ⟨_, f, _, e⟩
  · rw [e]
  · rw [e]
    exact State.agentAct_clock hne ha
  · rw [e]

theorem CommandEffect.clock {i : Instr} (e : CommandEffect s i t) : t.clock = s.clock := by
  cases e with
  | busWr hw => exact (State.memWrite_keeps hw).clock
  | tsStartSlots _ _ => exact (s.zeroSlot_keeps s.tsBase 0).clock
  | _ => rfl

theorem lineStep_clock (h : lineStep s = .next t) : t.clock = s.clock := by
  rcases lineStep_cases h with ⟨_, rfl⟩ | ⟨o, _, rfl⟩ | ⟨_, _, _, _, _, hx⟩ | ⟨_, _, _, _, _, rfl⟩
  · rfl
  · rw [s.hostOp_frame o]
  · exact (exec_effect hx).clock
  · rfl

end

/-- Settles O50: the clock's turn is its step; every other turn is another agent's, a micro-step or a line
of the host program. -/
theorem onlyTheClockStepChangesTheClock : Obligations.OnlyTheClockStepChangesTheClock := by
  unfold Obligations.OnlyTheClockStepChangesTheClock
  refine ⟨fun s => ⟨_, rfl, BitVec.toNat_add s.clock 1#32, rfl⟩, fun s a => State.agentStep_clock,
    fun i s t h => (exec_effect h).clock, fun s m => (s.microStep_keeps m).clock, ?_⟩
  intro s t hhead h
  obtain ⟨_, ⟨a, ts, hsched, _, rfl⟩ | ⟨_, m, _, rfl⟩ | ⟨_, _, hl⟩⟩ := step_cases h
  · refine State.agentStep_clock ?_
    rintro rfl
    exact hhead (congrArg List.head? hsched)
  · exact (State.microStep_keeps _ m).clock
  · exact (lineStep_clock hl :)

end Sys2Proof.Machine
end

