-- ==== Sys2Proof/Proofs/EdgeCounter.lean ====
section
/-! PROOFS. The EdgeCounter (41_edge_counter.md R75 to R82): what an edge of a pin does, and its six
commands, of which three are writes of one register and two change the result record alone. -/

namespace Sys2Proof.Machine

/-! ### Word 0 as the spec writes it -/

/-- Appending is shifting the upper part and joining the lower one to it. -/
theorem setWidth_append_eq_or {m k : Nat} (n : Nat) (x : BitVec m) (y : BitVec k) :
    (x ++ y).setWidth n = x.setWidth n <<< k ||| y.setWidth n := by
  refine BitVec.eq_of_getLsbD_eq fun i hi => ?_
  simp only [BitVec.getLsbD_setWidth, BitVec.getLsbD_append, BitVec.getLsbD_or,
    BitVec.getLsbD_shiftLeft]
  by_cases hik : i < k
  · simp [hi, hik]
  · have hx : i - k < n := by omega
    simp [hi, hik, hx, BitVec.getLsbD_of_ge y i (by omega)]

/-- The opcode stands in bits 31:24, the operand bits in the lowest ones (30_encoding.md R51). -/
theorem word0_eq_or {k : Nat} (hk : k ≤ 24) (opc : BitVec 8) (x : BitVec k) :
    word0 opc (x.setWidth 24) = opc.setWidth 32 <<< 24 ||| x.setWidth 32 := by
  have hx : (x.setWidth 24).setWidth 32 = x.setWidth 32 := by
    refine BitVec.eq_of_toNat_eq ?_
    rw [BitVec.toNat_setWidth_of_le (by decide), BitVec.toNat_setWidth_of_le hk,
      BitVec.toNat_setWidth_of_le (by omega)]
  have hword := setWidth_append_eq_or 32 opc (x.setWidth 24)
  rwa [BitVec.setWidth_eq, hx] at hword

theorem word0H_eq_or (opc : BitVec 8) (imm : BitVec 16) :
    word0H opc imm = opc.setWidth 32 <<< 24 ||| imm.setWidth 32 :=
  (word0H_eq opc imm).trans (word0_eq_or (by decide) opc imm)

theorem word0P_eq_or (opc : BitVec 8) (pol : Polarity) (pin : BitVec 8) : word0P opc pol pin =
    opc.setWidth 32 <<< 24 ||| (BitVec.ofBool pol.bit).setWidth 32 <<< 8 ||| pin.setWidth 32 := by
  rw [word0P_eq, word0_eq_or (by decide), setWidth_append_eq_or, BitVec.or_assoc]

/-! ### Commands that write one register or none -/

section
variable {s : State} {i : Instr} {P : State → Prop}

/-- A command that is a write of a register has that write's frame. -/
theorem completes_of_regWrite {r : Reg} {v : Word} {u : State} {res : Result}
    (hw : s.regWrite r v = u) (hr : r ≠ .dmaAbort) (hx : exec i s = .next { u with last := res })
    (hP : P { u with last := res }) : Completes i s r.changed 0 P := by
  subst hw
  exact ⟨_, hx, (s.regWrite_frame hr v).setLast res, hP⟩

theorem completes_of_record {res : Result} (hx : exec i s = .next { s with last := res })
    (hP : P { s with last := res }) : Completes i s [] 0 P :=
  ⟨_, hx, .record [] noBytes s res, hP⟩

end

/-! ### The EdgeCounter's commands -/

/-- A new EdgeCounter shows in its own registers and in EN_MASK. -/
theorem State.setEc_frame (s : State) (c : EdgeCounter) (r : Result) :
    Frame [.ecPin, .ecCtrl, .enMask, .ecWrap, .ecCtr] noBytes 0 s
      { s with ec := c, last := r } where
  regs q hq := by
    cases q
    case ecPin | ecCtrl | enMask | ecWrap | ecCtr => simp at hq
    all_goals rfl
  pending _ _ := rfl
  ram _ _ := rfl
  clock := rfl
  levels := rfl
  faultMark := rfl
  params := rfl
  program := rfl
  pc := rfl
  t0 := rfl
  inFlight := rfl
  schedule := rfl

/-- A stopped counter leaves only the GateTimer's enable in EN_MASK. -/
theorem State.regRead_enMask_of_stopped {s t : State} (hec : t.ec.en = false) (hgt : t.gt = s.gt) :
    t.regRead .enMask = s.regRead .enMask &&& 0x2#32 := by
  simp only [State.regRead, hec, hgt]
  cases s.gt.en <;> cases s.ec.en <;> rfl

theorem exec_ecConfigure_of_pinOk {s : State} {pin : BitVec 8} (pol : Polarity)
    (h : s.params.ecPinOk pin = true) : exec (.ecConfigure pin pol) s =
      .next { s with ec := ⟨false, pol, 0#16, 0xFFFF#16, pin⟩, last := okResult 0#32 false } := by
  simp only [exec, execEcConfigure, if_pos h]
  rfl

theorem ecConfigure_fails {s : State} {pin : BitVec 8} (pol : Polarity)
    (h : ¬ s.params.ecPinOk pin = true) : Fails (.ecConfigure pin pol) s 1#8 := by
  simp only [Fails, exec, execEcConfigure, if_neg h]
  rfl

/-- Settles O19: the command puts a fresh EdgeCounter in the place of the old one where the pin is legal. -/
theorem ecConfigureSelectsPinAndPolarity : Obligations.EcConfigureSelectsPinAndPolarity := by
  unfold Obligations.EcConfigureSelectsPinAndPolarity
  refine ⟨fun pin pol => ?_, reservedIllegal_of_row rfl rfl, fun s pin pol => ?_⟩
  · have hword := decode_encode (.ecConfigure pin pol)
    rw [encode, word0P_eq_or] at hword
    cases pol <;> exact hword
  · rw [← Params.ecPinOk_iff]
    refine ⟨fun h => ?_, ecConfigure_fails pol⟩
    refine ⟨_, exec_ecConfigure_of_pinOk pol h, s.setEc_frame _ _, rfl, rfl, ?ctrl,
      State.regRead_enMask_of_stopped rfl rfl, rfl, rfl⟩
    case ctrl =>
      refine BitVec.eq_of_toNat_eq ((State.regRead_toNat _ .ecCtrl).trans ?_)
      cases pol <;> rfl

/-- Settles O20: the command is a write of 0 to EC_CTR. -/
theorem ecResetZeroesTheCount : Obligations.EcResetZeroesTheCount := by
  unfold Obligations.EcResetZeroesTheCount
  refine ⟨decode_encode .ecReset, reservedIllegal_of_row rfl rfl, fun s => ?_⟩
  exact completes_of_regWrite (r := .ecCtr) (v := 0#32) rfl nofun rfl ⟨rfl, rfl⟩

theorem EdgeCounter.ctrlWord_bits (c : EdgeCounter) :
    c.ctrlWord.getLsbD 0 = c.en ∧ Polarity.ofBit (c.ctrlWord.getLsbD 1) = c.pol := by
  rw [EdgeCounter.ctrlWord]
  cases c.en <;> cases c.pol <;> decide

/-- A write of EC_CTRL sets what the written word shows of a counter. -/
theorem State.regWrite_ecCtrl (s : State) (c : EdgeCounter) :
    s.regWrite .ecCtrl c.ctrlWord = { s with ec := { s.ec with en := c.en, pol := c.pol } } := by
  obtain ⟨hen, hpol⟩ := c.ctrlWord_bits
  rw [State.regWrite, hen, hpol]

theorem State.regWrite_ecWrap (s : State) (w : BitVec 16) :
    s.regWrite .ecWrap (w.setWidth 32) = { s with ec := { s.ec with wrap := w } } := by
  simp only [State.regWrite, BitVec.extractLsb'_setWidth_of_le (show 0 + 16 ≤ 32 by decide),
    BitVec.extractLsb'_eq_self]

/-- Settles O21: the two commands are writes of EC_CTRL, with POL as it stands, and of EC_WRAP. -/
theorem ecSetEnabledAndSetWrapWriteTheirField : Obligations.EcSetEnabledAndSetWrapWriteTheirField := by
  unfold Obligations.EcSetEnabledAndSetWrapWriteTheirField
  refine ⟨fun b => ?_, reservedIllegal_of_row rfl rfl, fun w => ?_, reservedIllegal_of_row rfl rfl,
    fun s b => ?enabled, fun s w => ?wrap⟩
  · cases b
    · exact decode_encode (.ecSetEnabled false)
    · exact decode_encode (.ecSetEnabled true)
  · have hword := decode_encode (.ecSetWrap w)
    rw [encode, word0H_eq_or] at hword
    exact hword
  case enabled =>
    exact completes_of_regWrite (s.regWrite_ecCtrl { s.ec with en := b }) nofun rfl
      ⟨rfl, rfl, rfl, rfl⟩
  case wrap => exact completes_of_regWrite (s.regWrite_ecWrap w) nofun rfl ⟨rfl, rfl⟩

/-- Settles O22: the two commands change their result record alone. -/
theorem ecReadAndGetTagReturnAndChangeNothing : Obligations.EcReadAndGetTagReturnAndChangeNothing := by
  unfold Obligations.EcReadAndGetTagReturnAndChangeNothing
  refine ⟨decode_encode .ecRead, reservedIllegal_of_row rfl rfl, decode_encode .ecGetTag,
    reservedIllegal_of_row rfl rfl, fun s => ?_, fun s => ?_⟩
  · exact completes_of_record rfl ⟨rfl, BitVec.toNat_setWidth_of_le (by decide), rfl⟩
  · exact completes_of_record rfl rfl

/-! ### An edge of a pin -/

section
variable {s : State} {p : BitVec 8} {acc : BitVec 16}

theorem State.level_toggle (s : State) (p q : BitVec 8) :
    (s.toggle p).level q = if q = p then !s.level q else s.level q := by
  simp only [State.level, State.toggle, BitVec.getLsbD_xor, BitVec.getLsbD_twoPow, p.isLt,
    decide_true, Bool.true_and, BitVec.toNat_inj, eq_comm (a := p)]
  split <;> simp [*]

/-- The model's test for a counted edge is R75's: a rising edge starts from level 0. -/
theorem State.qualifies_iff : s.qualifies p = true ↔ p = s.ec.pin ∧ s.ec.en = true ∧
    ((s.level p = false ∧ s.ec.pol = .rising) ∨ (s.level p = true ∧ s.ec.pol = .falling)) := by
  have hdir : s.level p = s.ec.pol.bit ↔
      (s.level p = false ∧ s.ec.pol = .rising) ∨ (s.level p = true ∧ s.ec.pol = .falling) := by
    cases s.ec.pol <;> simp [Polarity.bit]
  simp only [State.qualifies, Bool.and_eq_true, beq_iff_eq, hdir, and_assoc]

theorem State.edge_of_not_qualifies (hq : ¬ s.qualifies p = true) :
    s.edge p acc = .ok (s.toggle p) := by
  unfold State.edge
  exact if_neg hq

theorem State.edge_below_wrap (hq : s.qualifies p = true) (hw : s.ec.ctr ≠ s.ec.wrap) :
    s.edge p acc = .ok { s.toggle p with ec := { s.ec with ctr := s.ec.ctr + 1#16 } } := by
  simp [State.edge, hq, EdgeCounter.countEdge, EdgeCounter.atWrap, hw]

theorem State.edge_at_wrap (hq : s.qualifies p = true) (hw : s.ec.ctr = s.ec.wrap) :
    s.edge p acc = State.emit { s.toggle p with ec := { s.ec with ctr := 0#16 } } 0#6 acc := by
  simp [State.edge, hq, EdgeCounter.countEdge, EdgeCounter.atWrap, hw, ecTag]

end

section
variable {s : State} {p : BitVec 8} {acc : BitVec 16} (hp : p.toNat < s.params.pinCount)
include hp

theorem State.agentEnabled_edge : s.agentEnabled (.edge p acc) = true := decide_eq_true hp

theorem State.agentStep_edge_uncounted (hq : ¬ s.qualifies p = true) :
    s.agentStep (.edge p acc) = s.toggle p :=
  State.agentStep_of_act (State.agentEnabled_edge hp) (State.edge_of_not_qualifies hq)

theorem State.agentStep_edge_below_wrap (hq : s.qualifies p = true) (hw : s.ec.ctr ≠ s.ec.wrap) :
    s.agentStep (.edge p acc) =
      { s.toggle p with ec := { s.ec with ctr := s.ec.ctr + 1#16 } } :=
  State.agentStep_of_act (State.agentEnabled_edge hp) (State.edge_below_wrap hq hw)

/-- The event reads the channels and the parameters alone, which the toggle and the count leave. -/
theorem State.agentStep_edge_overrun (hq : s.qualifies p = true) (hw : s.ec.ctr = s.ec.wrap)
    (ho : WouldOverrun 0#6 acc s) :
    s.agentStep (.edge p acc) = { s with faultMark := some .dreqOverrun } :=
  State.agentStep_of_fault (State.agentEnabled_edge hp)
    ((State.edge_at_wrap hq hw).trans (State.emit_of_overrun ho))

theorem State.agentStep_edge_event (hq : s.qualifies p = true) (hw : s.ec.ctr = s.ec.wrap)
    (ho : ¬ WouldOverrun 0#6 acc s) :
    Delivered 0#6 acc s (s.agentStep (.edge p acc)) ∧ s.agentStep (.edge p acc) =
      { s.toggle p with
        ec := { s.ec with ctr := 0#16 }, dma := (s.agentStep (.edge p acc)).dma } := by
  obtain ⟨t, he⟩ := State.emit_of_not_overrun
    (s := { s.toggle p with ec := { s.ec with ctr := 0#16 } }) ho
  obtain ⟨_, hframe, _⟩ := State.emit_ok he
  rw [State.agentStep_of_act (State.agentEnabled_edge hp) ((State.edge_at_wrap hq hw).trans he)]
  exact ⟨(State.emit_delivered he :), hframe⟩

/-- Whether it counts or not, an edge that does not overrun toggles its pin, and leaves all but the
counter and the channels. -/
theorem State.agentStep_edge_toggles
    (h : ¬ (s.qualifies p = true ∧ s.ec.ctr = s.ec.wrap ∧ WouldOverrun 0#6 acc s)) :
    ∃ c d, s.agentStep (.edge p acc) = { s.toggle p with ec := c, dma := d } := by
  by_cases hq : s.qualifies p = true
  · by_cases hw : s.ec.ctr = s.ec.wrap
    · obtain ⟨_, hframe⟩ := State.agentStep_edge_event hp hq hw fun ho => h ⟨hq, hw, ho⟩
      exact ⟨_, _, hframe⟩
    · exact ⟨_, _, State.agentStep_edge_below_wrap hp hq hw⟩
  · exact ⟨_, _, State.agentStep_edge_uncounted hp hq⟩

end

/-- Settles O44: the clauses are the step's four outcomes, and the first one what three of them share. -/
theorem edgeTogglesAndCounts : Obligations.EdgeTogglesAndCounts := by
  unfold Obligations.EdgeTogglesAndCounts
  rintro s t p acc counted hp rfl hcounted
  obtain rfl : counted = (s.qualifies p = true) := propext (hcounted.trans State.qualifies_iff.symm)
  refine ⟨fun h => ?toggles, fun hq => ?uncounted, fun hq hw => ?below, fun hq hw ho => ?event,
    State.agentStep_edge_overrun hp⟩
  case toggles =>
    obtain ⟨c, d, he⟩ := State.agentStep_edge_toggles hp h
    rw [he]
    exact ⟨(s.level_toggle p p).trans (if_pos rfl), fun q hq => (s.level_toggle p q).trans (if_neg hq),
      rfl⟩
  case uncounted =>
    rw [State.agentStep_edge_uncounted hp hq]
    exact ⟨rfl, rfl⟩
  case below =>
    rw [State.agentStep_edge_below_wrap hp hq hw]
    exact ⟨rfl, rfl⟩
  case event =>
    obtain ⟨hdelivered, hframe⟩ := State.agentStep_edge_event hp hq hw ho
    exact ⟨congrArg State.ec hframe, hdelivered⟩

end Sys2Proof.Machine
end

