-- ==== Sys2Proof/Proofs/CounterExtender.lean ====
section
/-! PROOFS. The CounterExtender's commands (42_counter_extender.md R84 to R87): what an update of one channel
changes, what an agent's turn can do to a channel, and the four commands. -/

namespace Sys2Proof.Machine

/-! ### Frames -/

/-- Two changes one after the other. -/
theorem Frame.trans {rs : List Reg} {stored : Nat → Prop} {j k : Nat} {s t u : State}
    (h : Frame rs stored j s t) (h' : Frame rs stored k t u) : Frame rs stored (j + k) s u where
  regs r hr := (h'.regs r hr).trans (h.regs r hr)
  pending ch hch := (h'.pending ch hch).trans (h.pending ch hch)
  ram a ha := (h'.ram a ha).trans (h.ram a ha)
  clock := h'.clock.trans h.clock
  levels := h'.levels.trans h.levels
  faultMark := h'.faultMark.trans h.faultMark
  params := h'.params.trans h.params
  program := h'.program.trans h.program
  pc := h'.pc.trans h.pc
  t0 := h'.t0.trans h.t0
  inFlight := h'.inFlight.trans h.inFlight
  schedule := by rw [h'.schedule, h.schedule, List.drop_drop]

/-- The end of a start command: the turns it took are gone, and no command is in flight, as before it. -/
theorem Frame.land {rs : List Reg} {stored : Nat → Prop} {s t : State} (h : Frame rs stored 0 s t)
    (hm : s.inFlight = none) (k : Nat) (r : Result) : Frame rs stored k s
      { t with inFlight := none, schedule := s.schedule.drop k, last := r } :=
  { h with inFlight := hm.symm, schedule := rfl }

section
variable {s : State} {ch : ChanNo} {c : DmaChannel} {rs : List Reg}

/-- A new channel in the place of `ch` shows in those of the channel's registers that read otherwise. -/
theorem State.setChan_frame
    (hregs : ∀ q, Reg.dma ch q ∉ rs → c.readReg q = (s.chan ch).readReg q)
    (hpending : Reg.dma ch .pending ∉ rs → c.pending = (s.chan ch).pending) :
    Frame rs noBytes 0 s (s.setChan ch c) where
  regs r hr := by
    cases r
    case dma d q =>
      simp only [State.regRead, State.chan_setChan]
      split
      next e => exact e ▸ hregs q (e ▸ hr)
      next => rfl
    all_goals rfl
  pending d hd := by
    rw [State.chan_setChan]
    split
    next e => exact e ▸ hpending (e ▸ hd)
    next => rfl
  ram _ _ := rfl
  clock := rfl
  levels := rfl
  faultMark := rfl
  params := rfl
  program := rfl
  pc := rfl
  t0 := rfl
  inFlight := rfl
  schedule := rfl

/-- A new channel shows in the channel's registers at most. -/
theorem State.setChan_frame_channelRegs :
    Frame (channelRegs ch) noBytes 0 s (s.setChan ch c) :=
  State.setChan_frame (fun q hq => absurd (mem_channelRegs ch q) hq)
    fun hq => absurd (mem_channelRegs ch .pending) hq

end

/-! ### What an agent's turn does to a channel -/

section
variable {s t : State} {ch : ChanNo}

/-- An event changes a channel's PENDING at most. -/
theorem State.emit_chan {tag : BitVec 6} {acc : BitVec 16} (he : s.emit tag acc = .ok t)
    (ch : ChanNo) : ∃ p, t.chan ch = { s.chan ch with pending := p } := by
  by_cases h : Accepts tag acc s ch
  · exact ⟨_, State.emit_chan_of_accepts he h⟩
  · exact ⟨_, State.emit_chan_of_not_accepts he h⟩

/-- An agent's step changes a channel's PENDING at most, unless it is a transfer of that channel, which
serves a request or fails (40_bus_dma.md R68 to R70). -/
theorem State.agentAct_chan {a : Turn} (hp : s.params.Legal) (ha : s.agentAct a = .ok t) (ch : ChanNo) :
    (∃ p, t.chan ch = { s.chan ch with pending := p }) ∨
      (a = .transfer ch ∧ (t.chan ch = (s.chan ch).busFail ∨ t.chan ch = (s.chan ch).served)) := by
  have hsame {u : State} (h : u.chan ch = s.chan ch) :
      ∃ p, u.chan ch = { s.chan ch with pending := p } := ⟨(s.chan ch).pending, h⟩
  cases a with
  | control => cases ha; exact .inl (hsame rfl)
  | edge p acc =>
    rcases State.edge_ok ha with ⟨_, rfl⟩ | ⟨_, _, rfl⟩ | ⟨_, _, he⟩
    · exact .inl (hsame rfl)
    · exact .inl (hsame rfl)
    · exact .inl (State.emit_chan he ch)
  | tick acc =>
    rcases State.gtTick_ok ha with ⟨_, rfl⟩ | ⟨_, he⟩
    · exact .inl (hsame rfl)
    · exact .inl (State.emit_chan he ch)
  | transfer d =>
    by_cases hd : ch = d
    · subst hd
      refine .inr ⟨rfl, ?_⟩
      obtain ⟨_, ⟨_, rfl⟩ | ⟨v, u, _, _, rfl⟩⟩ := State.transfer_ok ha
      · exact .inl (s.chan_setChan_self ch _)
      · exact .inr (u.chan_setChan_self ch _)
    · exact .inl (hsame (State.transfer_chan_ne hp ha hd))
  | clock => cases ha; exact .inl (hsame rfl)

theorem State.agentStep_chan (hp : s.params.Legal) (a : Turn) (ch : ChanNo) :
    (∃ p, (s.agentStep a).chan ch = { s.chan ch with pending := p }) ∨
      (s.agentEnabled (.transfer ch) = true ∧
        ((s.agentStep a).chan ch = (s.chan ch).busFail ∨
          (s.agentStep a).chan ch = (s.chan ch).served)) := by
  rcases s.agentStep_cases a with ⟨_, e⟩ | ⟨hen, t, ha, e⟩ | ⟨_, f, _, e⟩ <;> rw [e]
  · exact .inl ⟨(s.chan ch).pending, rfl⟩
  · rcases State.agentAct_chan hp ha ch with h | ⟨rfl, h⟩
    · exact .inl h
    · exact .inr ⟨hen, h⟩
  · exact .inl ⟨(s.chan ch).pending, rfl⟩

/-- A paused channel makes no transfer (40_bus_dma.md R69). -/
theorem State.agentStep_chan_of_paused (hp : s.params.Legal) (hpaused : (s.chan ch).en = false)
    (a : Turn) : ∃ p, (s.agentStep a).chan ch = { s.chan ch with pending := p } := by
  rcases State.agentStep_chan hp a ch with h | ⟨hen, _⟩
  · exact h
  · obtain ⟨_, he, _⟩ := State.agentEnabled_transfer_iff.mp hen
    exact absurd (hpaused.symm.trans he) Bool.false_ne_true

theorem State.runTurns_chan_of_paused (hp : s.params.Legal) (hpaused : (s.chan ch).en = false)
    (ts : List Turn) : ∃ p, (State.runTurns ts s).chan ch = { s.chan ch with pending := p } := by
  induction ts generalizing s with
  | nil => exact ⟨(s.chan ch).pending, rfl⟩
  | cons a ts ih =>
    cases hf : s.faultMark with
    | some f => rw [State.runTurns_faulted hf]; exact ⟨(s.chan ch).pending, rfl⟩
    | none =>
      obtain ⟨p, hstep⟩ := State.agentStep_chan_of_paused hp hpaused a
      obtain ⟨p', hrest⟩ := ih ((s.agentStep_keeps a).params ▸ hp) (by rw [hstep]; exact hpaused)
      rw [State.runTurns_cons hf, hrest, hstep]
      exact ⟨p', rfl⟩

end

/-! ### CX_INIT -/

theorem word0C_eq_or (opc : BitVec 8) (ch : ChanNo) :
    word0C opc ch = opc.setWidth 32 <<< 24 ||| ch.setWidth 32 :=
  (word0C_eq opc ch).trans (word0_eq_or (by decide) opc ch)

/-- The model's test is R122's: some other component is bound to the channel. -/
theorem State.ownedByOther_iff {s : State} {c : Component} {ch : ChanNo} :
    s.ownedByOther c ch = true ↔
      ∃ d, d ≠ c ∧ (s.binding d).bound = true ∧ (s.binding d).ch = ch := by
  have hall (d : Component) : d ∈ [Component.cx, .gc, .ts] := by cases d <;> decide
  simp only [State.ownedByOther, List.any_eq_true, hall, true_and, Bool.and_eq_true, bne_iff_ne,
    State.owns_iff]

theorem State.ownedByOther_cx_iff {s : State} {ch : ChanNo} : s.ownedByOther .cx ch = true ↔
    (s.gc.bound = true ∧ s.gc.ch = ch) ∨ (s.ts.bound = true ∧ s.ts.ch = ch) := by
  rw [State.ownedByOther_iff]
  constructor
  · rintro ⟨d, hd, h⟩
    cases d with
    | cx => exact absurd rfl hd
    | gc => exact .inl h
    | ts => exact .inr h
  · rintro (h | h)
    · exact ⟨.gc, nofun, h⟩
    · exact ⟨.ts, nofun, h⟩

theorem Params.hasChannel_iff {p : Params} {ch : ChanNo} :
    p.hasChannel ch = true ↔ ch.toNat < p.dmaChannels := decide_eq_true_iff

/-- What binding leaves of CTRL: BUSY and ERR, under the operand bits of the init command. -/
theorem DmaChannel.ctrlWord_bindTo (c : DmaChannel) (src dst : Word) (iw : Bool) (tag : BitVec 6) :
    (c.bindTo src dst iw tag).ctrlWord = (c.ctrlWord &&& 0x21000000#32) |||
      (0#22 ++ (tag ++ (BitVec.ofBool iw ++ (0#1 ++ (1#1 ++ 0#1))))) := by
  have hmask : 0x21000000#32 = 0x84000#22 ++ 0#10 := by decide
  have hhigh : c.ctrlHigh &&& 0x84000#22 = c.ctrlHigh := by
    unfold DmaChannel.ctrlHigh
    cases c.err <;> cases c.busy <;> decide
  rw [DmaChannel.ctrlWord_eq_append, DmaChannel.ctrlWord_eq_append c, hmask, BitVec.and_append, hhigh,
    BitVec.and_zero, BitVec.or_append, BitVec.or_zero, BitVec.zero_or]
  rfl

/-- BIND above the CounterExtender's part. -/
def State.bindHigh (s : State) : BitVec 27 :=
  0#11 ++ (BitVec.ofBool s.ts.bound ++ (s.ts.ch ++ (0#3 ++ (BitVec.ofBool s.gc.bound ++
    (s.gc.ch ++ 0#3)))))

theorem State.bindWord_eq_append (s : State) :
    s.bindWord = s.bindHigh ++ (BitVec.ofBool s.cx.bound ++ s.cx.ch) := by
  rw [← BitVec.toNat_inj, State.bindWord, State.bindHigh]
  simp only [toNat_append_eq_add, BitVec.toNat_ofNat]
  omega

theorem State.bindWord_bindCx (s : State) (ch : ChanNo) : (s.bindCx ch).bindWord =
    (s.bindWord &&& 0xFFFFFFE0#32) ||| 0x10#32 ||| ch.setWidth 32 := by
  have hmask : 0xFFFFFFE0#32 = BitVec.allOnes 27 ++ 0#5 := by decide
  have hlow : 0x10#32 ||| ch.setWidth 32 = 0#27 ++ (BitVec.ofBool true ++ ch) := by
    revert ch
    decide
  rw [BitVec.or_assoc, hlow, State.bindWord_eq_append, State.bindWord_eq_append s, hmask,
    BitVec.and_append, BitVec.or_append, BitVec.and_allOnes, BitVec.and_zero, BitVec.or_zero,
    BitVec.zero_or]
  rfl

/-- Binding the channel writes its addresses and its control, the counter's limit and count, and BIND. -/
theorem State.bindCx_frame (s : State) (ch : ChanNo) (r : Result) :
    Frame [.ecWrap, .ecCtr, .dma ch .readAddr, .dma ch .writeAddr, .dma ch .ctrl, .bind] noBytes 0 s
      { s.bindCx ch with last := r } := by
  have hchan := State.setChan_frame (s := s) (ch := ch)
    (c := (s.chan ch).bindTo (s.params.regAddr .cxScratch) (s.params.regAddr .cxScratch) false ecTag)
    (rs := [.ecWrap, .ecCtr, .dma ch .readAddr, .dma ch .writeAddr, .dma ch .ctrl, .bind])
    (fun q hq => by cases q <;> simp at hq <;> rfl) fun _ => rfl
  refine { hchan with regs := fun q hq => ?_ }
  rw [← hchan.regs q hq]
  cases q
  case ecWrap | ecCtr | bind => simp at hq
  all_goals rfl

/-- What the binding command leaves in its channel, as the bus reads it. -/
theorem State.regRead_bindCx_dma (s : State) (ch : ChanNo) (q : DmaReg) :
    (s.bindCx ch).regRead (.dma ch q) = ((s.chan ch).bindTo (s.params.regAddr .cxScratch)
      (s.params.regAddr .cxScratch) false ecTag).readReg q :=
  congrArg (DmaChannel.readReg · q) (s.chan_setChan_self ch _)

theorem cxInit_fails_of_absent {s : State} {ch : ChanNo} (h : s.params.hasChannel ch = false) :
    Fails (.cxInit ch) s 6#8 := by
  simp only [Fails, exec, execCxInit, if_pos h]
  rfl

theorem cxInit_fails_of_owned {s : State} {ch : ChanNo} (hch : s.params.hasChannel ch = true)
    (h : s.ownedByOther .cx ch = true) : Fails (.cxInit ch) s 7#8 := by
  simp only [Fails, exec, execCxInit, hch, if_pos h]
  rfl

theorem exec_cxInit_of_free {s : State} {ch : ChanNo} (hch : s.params.hasChannel ch = true)
    (hfree : ¬ s.ownedByOther .cx ch = true) :
    exec (.cxInit ch) s = .next { s.bindCx ch with last := okResult 0#32 false } := by
  simp only [exec, execCxInit, hch, if_neg hfree]
  rfl

/-- Settles O27: the two checks in their order, then the binding. -/
theorem cxInitBindsTheChannel : Obligations.CxInitBindsTheChannel := by
  unfold Obligations.CxInitBindsTheChannel
  refine ⟨fun ch => ?_, reservedIllegal_of_row rfl rfl, fun s ch => ?_⟩
  · have hword := decode_encode (.cxInit ch)
    rw [encode, word0C_eq_or] at hword
    exact hword
  · refine ⟨fun h => ?absent, fun hlt h => ?owned, fun hlt hgc hts => ?bound⟩
    case absent =>
      exact cxInit_fails_of_absent (decide_eq_false (Nat.not_lt.mpr h))
    case owned =>
      exact cxInit_fails_of_owned (decide_eq_true hlt) (State.ownedByOther_cx_iff.mpr h)
    case bound =>
      have hfree : ¬ s.ownedByOther .cx ch = true := fun h =>
        (State.ownedByOther_cx_iff.mp h).elim hgc hts
      exact ⟨_, exec_cxInit_of_free (decide_eq_true hlt) hfree, s.bindCx_frame ch _, rfl, rfl, rfl,
        s.regRead_bindCx_dma ch .readAddr, s.regRead_bindCx_dma ch .writeAddr,
        (s.regRead_bindCx_dma ch .ctrl).trans (DmaChannel.ctrlWord_bindTo _ _ _ _ _),
        s.bindWord_bindCx ch⟩

/-! ### CX_START without another agent's step -/

/-- Arming an idle channel starts a sequence of the given length, with no request yet. -/
theorem DmaChannel.arm_of_idle {c : DmaChannel} (hb : c.busy = false) {v : Word} (hv : v ≠ 0#32) :
    c.arm v = { c with en := true, reload := v, count := v, busy := true, pending := 0 } :=
  DmaChannel.trigger_fresh (c := { c with en := true, reload := v }) rfl hb hv

/-- CX_START as a whole: the channel aborted and armed with UINT32_MAX, and the command at its end. -/
def State.cxStarted (s : State) : State :=
  { s.setChan s.cx.ch ((s.chan s.cx.ch).abort.arm uint32Max) with
    inFlight := none, last := okResult 0#32 false }

/-- With no other agent's step between its two micro-steps, the command ends as `cxStarted` says. -/
theorem finish_cxAbortStep {s : State} (hf : s.faultMark = none) (hq : Quiet 1 s) :
    State.finish 1 (s.cxAbortStep s.cx.ch) =
      .next { s.cxStarted with schedule := s.schedule.drop 1 } := by
  have harm : State.cxArmStep { s.cxAbortStep s.cx.ch with schedule := s.schedule.drop 1 } s.cx.ch =
      { s.cxStarted with schedule := s.schedule.drop 1 } := by
    simp [State.cxStarted, State.cxArmStep, State.cxAbortStep, State.setChan, State.chan, State.ret,
      okResult, Status.code]
  exact (State.finish_micro (s := s.cxAbortStep s.cx.ch) hf hq rfl 0).trans
    (congrArg Host.Outcome.next harm)

theorem exec_cxStart_of_bound {s : State} (hb : s.cx.bound = true) :
    exec .cxStart s = .next (s.cxAbortStep s.cx.ch) := by
  simp only [exec, execCxStart, hb]
  rfl

/-- Settles O28: the first micro-step is `cxAbortStep`, the whole command `cxStarted`. -/
theorem cxStartAbortsAndArmsTheChannel : Obligations.CxStartAbortsAndArmsTheChannel := by
  unfold Obligations.CxStartAbortsAndArmsTheChannel
  refine ⟨decode_encode .cxStart, reservedIllegal_of_row rfl rfl, fun s hb => ?unbound,
    fun s => exec_cxStart_of_bound, fun s hb hf hm hq => ?quiet⟩
  case unbound =>
    simp only [Fails, exec, execCxStart, if_pos hb]
    rfl
  case quiet =>
    refine ⟨_, _, exec_cxStart_of_bound hb, finish_cxAbortStep hf hq,
      State.setChan_frame_channelRegs.land hm 1 _, rfl, ?_⟩
    exact (s.chan_setChan_self s.cx.ch _).trans (DmaChannel.arm_of_idle rfl (by decide))

/-! ### CX_VALUE and CX_STOP -/

theorem exec_cxValue_of_bound {s : State} (hb : s.cx.bound = true) :
    exec .cxValue s = .next { s with
      last := okResult (uint32Max - (s.chan s.cx.ch).count) ((s.chan s.cx.ch).count == 0#32) } := by
  simp only [exec, execCxValue, hb]
  rfl

/-- Settles O29: the command changes its result record alone. -/
theorem cxValueReturnsTheExtendedCount : Obligations.CxValueReturnsTheExtendedCount := by
  unfold Obligations.CxValueReturnsTheExtendedCount
  refine ⟨decode_encode .cxValue, reservedIllegal_of_row rfl rfl, fun s hb => ?unbound,
    fun s hb => ?bound⟩
  case unbound =>
    simp only [Fails, exec, execCxValue, if_pos hb]
    rfl
  case bound =>
    refine completes_of_record (exec_cxValue_of_bound hb) ⟨rfl, ?_, ?_⟩
    · have hlt := (s.chan s.cx.ch).count.isLt
      have hle : (s.chan s.cx.ch).count ≤ uint32Max := by
        rw [BitVec.le_def, BitVec.toNat_ofNat]
        omega
      exact BitVec.toNat_sub_of_le hle
    · simp [okResult, ← BitVec.toNat_inj]

/-- What CX_STOP leaves of a bound channel: the channel paused. -/
def State.cxPaused (s : State) : State := s.setChan s.cx.ch { s.chan s.cx.ch with en := false }

theorem State.chan_cxPaused (s : State) :
    s.cxPaused.chan s.cx.ch = { s.chan s.cx.ch with en := false } :=
  s.chan_setChan_self s.cx.ch _

theorem State.cxPaused_frame (s : State) : Frame [.dma s.cx.ch .ctrl] noBytes 0 s s.cxPaused :=
  State.setChan_frame (fun q hq => by cases q <;> simp at hq <;> rfl) fun _ => rfl

theorem exec_cxStop_of_bound {s : State} (hb : s.cx.bound = true) :
    exec .cxStop s = .next { s.cxPaused with last := okResult 0#32 false } := by
  simp only [exec, execCxStop, hb]
  rfl

/-- CX_VALUE reads the binding and the channel's COUNT alone. -/
theorem exec_cxValue_congr {s t : State} (hb : s.cx.bound = true) (hcx : t.cx = s.cx)
    (hcount : (t.chan s.cx.ch).count = (s.chan s.cx.ch).count) :
    ∃ u w, exec .cxValue s = .next u ∧ exec .cxValue t = .next w ∧ w.last = u.last := by
  refine ⟨_, _, exec_cxValue_of_bound hb, exec_cxValue_of_bound (hcx ▸ hb), ?_⟩
  rw [hcx, hcount]

/-- Settles O30: the command pauses its channel, and a paused channel's COUNT rests under every run of the
agents. -/
theorem cxStopPausesTheChannel : Obligations.CxStopPausesTheChannel := by
  unfold Obligations.CxStopPausesTheChannel
  refine ⟨decode_encode .cxStop, reservedIllegal_of_row rfl rfl, fun s hb => ?unbound,
    fun s hb => ?bound⟩
  case unbound =>
    have hexec : exec .cxStop s = .next { s with last := okResult 0#32 false } := by
      simp only [exec, execCxStop, hb]
      rfl
    exact completes_of_record hexec rfl
  case bound =>
    refine ⟨_, exec_cxStop_of_bound hb, s.cxPaused_frame.setLast _, rfl, s.chan_cxPaused,
      fun hp ts _ => ?_⟩
    have hpaused := congrArg DmaChannel.en s.chan_cxPaused
    have hcount := congrArg DmaChannel.count s.chan_cxPaused
    obtain ⟨p, hrun⟩ := State.runTurns_chan_of_paused
      (s := { s.cxPaused with last := okResult 0#32 false }) hp hpaused ts
    exact exec_cxValue_congr hb (State.runTurns_keeps ts _).cx
      ((congrArg DmaChannel.count hrun).trans hcount)

end Sys2Proof.Machine
end

