-- ==== Sys2Proof/Proofs/ExtensionLaw.lean ====
section
/-! PROOFS. The extension law (42_counter_extender.md R88). The channel that counts for the extender takes
one request for each event and serves each by one transfer, so COUNT, the requests not yet served and the
events always add up; at COUNT 0 the channel rests. -/

namespace Sys2Proof.Machine

/-! ### A transfer between two registers -/

section
variable {s : State} {ch : ChanNo} {r q : Reg}

/-- A register below the channels' that is not DMA_ABORT is no DMA register (40_bus_dma.md R69). -/
theorem Params.dmaRegister_regAddr {p : Params} (hp : p.Legal) (hlt : q.offset < 0x100)
    (hne : q.offset ≠ 0x03C) : p.dmaRegister (p.regAddr q) = false := by
  rw [Bool.eq_false_iff, ne_eq, Params.dmaRegister_iff hp, Params.regAddr_toNat hp]
  omega

/-- A transfer of 32 bits from one register to another one outside the DMA's own is a write of what the
first one reads (40_bus_dma.md R69). -/
theorem State.transfer_of_regs (hp : s.params.Legal) (hr : s.params.hasReg r = true)
    (hq : s.params.hasReg q = true) (hd : s.params.dmaRegister (s.params.regAddr q) = false)
    (hsize : (s.chan ch).size = true) (hread : (s.chan ch).readAddr = s.params.regAddr r)
    (hwrite : (s.chan ch).writeAddr = s.params.regAddr q) :
    s.transfer ch = .ok ((s.regWrite q (s.regRead r)).setChan ch (s.chan ch).served) := by
  have hword : (s.chan ch).accessSize = .word := if_pos hsize
  refine State.transfer_of_move (v := s.regRead r) (hwrite ▸ hd) ?_ ?_
  · rw [hread, hword]
    exact State.memRead_reg hp hr
  · rw [hwrite, hword]
    exact State.memWrite_reg hp hq _

end

/-! ### The counting channel -/

/-- The channel is enabled and busy, and set as CX_INIT sets it: each event of the EdgeCounter is a request,
each transfer copies the scratch word to itself (42_counter_extender.md R84, R85). -/
structure State.Counting (s : State) (ch : ChanNo) : Prop where
  en : (s.chan ch).en = true
  busy : (s.chan ch).busy = true
  treq : (s.chan ch).treq = 0#6
  size : (s.chan ch).size = true
  incrRead : (s.chan ch).incrRead = false
  incrWrite : (s.chan ch).incrWrite = false
  readAddr : (s.chan ch).readAddr = s.params.regAddr .cxScratch
  writeAddr : (s.chan ch).writeAddr = s.params.regAddr .cxScratch

section
variable {s t : State} {ch : ChanNo}

/-- The channel counts on while only COUNT and PENDING change. -/
theorem State.Counting.congr (h : s.Counting ch) (hp : t.params = s.params) {n : Word} {k : Nat}
    (hc : t.chan ch = { s.chan ch with count := n, pending := k }) : t.Counting ch := by
  obtain ⟨hen, hbusy, htreq, hsize, hir, hiw, hra, hwa⟩ := h
  constructor
  all_goals rw [hc]
  case readAddr => exact hra.trans (hp ▸ rfl)
  case writeAddr => exact hwa.trans (hp ▸ rfl)
  all_goals assumption

/-- A request served, and not the last one of the sequence. -/
theorem State.Counting.served_eq (h : s.Counting ch) (hne : (s.chan ch).count ≠ 1#32) :
    (s.chan ch).served = { s.chan ch with
      count := (s.chan ch).count - 1#32, pending := (s.chan ch).pending - 1 } := by
  simp [DmaChannel.served_eq h.busy, h.incrRead, h.incrWrite, h.busy, hne]

theorem State.Counting.transfer (h : s.Counting ch) (hp : s.params.Legal) :
    s.transfer ch = .ok ((s.regWrite .cxScratch s.cxScratch).setChan ch (s.chan ch).served) :=
  State.transfer_of_regs (r := .cxScratch) (q := .cxScratch) hp rfl rfl
    (Params.dmaRegister_regAddr hp (by decide) (by decide)) h.size h.readAddr h.writeAddr

end

/-! ### One turn -/

section
variable {s : State} {ch : ChanNo}

/-- What one turn `a` leaves in the counting channel: one request more at an event, one request served at
its own transfer, and nothing changed otherwise. -/
inductive CountTurn (s : State) (ch : ChanNo) (a : Turn) (t : State) : Prop
  | event (he : s.emitsEc a = true)
      (hc : t.chan ch = { s.chan ch with pending := (s.chan ch).pending + 1 })
  | rest (he : s.emitsEc a = false) (hc : t.chan ch = s.chan ch)
  | transfer (he : s.emitsEc a = false) (hpos : 0 < (s.chan ch).pending)
      (hc : t.chan ch = (s.chan ch).served)

/-- An edge emits exactly where it counts at the wrap limit (41_edge_counter.md R76). -/
theorem State.emitsEc_edge_iff {p : BitVec 8} {acc : BitVec 16} (hpin : p.toNat < s.params.pinCount) :
    s.emitsEc (.edge p acc) = true ↔ s.qualifies p = true ∧ s.ec.ctr = s.ec.wrap := by
  simp [State.emitsEc, State.countsEdge, EdgeCounter.atWrap, hpin]

theorem State.Counting.edge (h : s.Counting ch) (hch : s.params.hasChannel ch = true) {p : BitVec 8}
    {acc : BitVec 16} (hpin : p.toNat < s.params.pinCount)
    (hf : (s.agentStep (.edge p acc)).faultMark = none) :
    CountTurn s ch (.edge p acc) (s.agentStep (.edge p acc)) := by
  have hnot (hn : ¬ (s.qualifies p = true ∧ s.ec.ctr = s.ec.wrap)) :
      s.emitsEc (.edge p acc) = false :=
    Bool.eq_false_iff.mpr (mt (State.emitsEc_edge_iff hpin).mp hn)
  by_cases hq : s.qualifies p = true
  · by_cases hw : s.ec.ctr = s.ec.wrap
    · by_cases ho : WouldOverrun 0#6 acc s
      · rw [State.agentStep_edge_overrun hpin hq hw ho] at hf
        cases hf
      · have hacc : Accepts 0#6 acc s ch :=
          ⟨Params.hasChannel_iff.mp hch, h.treq, h.busy, .inl h.en⟩
        obtain ⟨hdelivered, _⟩ := State.agentStep_edge_event hpin hq hw ho
        obtain ⟨haccepted, _⟩ := hdelivered ch
        exact .event ((State.emitsEc_edge_iff hpin).mpr ⟨hq, hw⟩) (haccepted hacc)
    · refine .rest (hnot fun hn => hw hn.2) ?_
      rw [State.agentStep_edge_below_wrap hpin hq hw]
      rfl
  · refine .rest (hnot fun hn => hq hn.1) ?_
    rw [State.agentStep_edge_uncounted hpin hq]
    rfl

/-- The GateTimer's event is another one than the channel's. -/
theorem State.Counting.tick (h : s.Counting ch) {acc : BitVec 16} {t : State}
    (ht : s.gtTick acc = .ok t) : t.chan ch = s.chan ch := by
  rcases State.gtTick_ok ht with ⟨_, rfl⟩ | ⟨_, he⟩
  · rfl
  · have htreq : (s.chan ch).treq ≠ gtTag := by
      rw [h.treq]
      decide
    exact State.emit_chan_of_not_takes (s := { s with gt := s.gt.tick }) he
      (DmaChannel.takes_eq_false _ (.inr htreq))

/-- A turn without a model fault. -/
theorem State.Counting.agentStep (h : s.Counting ch) (hp : s.params.Legal)
    (hch : s.params.hasChannel ch = true) {a : Turn} (hf : (s.agentStep a).faultMark = none) :
    CountTurn s ch a (s.agentStep a) := by
  rcases s.agentStep_cases a with ⟨hen, e⟩ | ⟨hen, t, ha, e⟩ | ⟨_, f, _, e⟩
  · refine .rest ?_ (congrArg (State.chan · ch) e)
    cases a with
    | edge p acc => exact congrArg (· && s.qualifies p && s.ec.atWrap) hen
    | _ => rfl
  · cases a with
    | control => cases hen
    | edge p acc => exact h.edge hch (of_decide_eq_true hen) hf
    | tick acc => exact .rest rfl ((congrArg (State.chan · ch) e).trans (h.tick ha))
    | transfer d =>
      by_cases hd : ch = d
      · subst hd
        obtain ⟨_, _, _, hpos⟩ := State.agentEnabled_transfer_iff.mp hen
        obtain rfl := Except.ok.inj ((h.transfer hp).symm.trans ha)
        exact .transfer rfl hpos
          ((congrArg (State.chan · ch) e).trans (State.chan_setChan_self _ ch _))
      · exact .rest rfl ((congrArg (State.chan · ch) e).trans (State.transfer_chan_ne hp ha hd))
    | clock =>
      obtain rfl := Except.ok.inj ha
      rw [e]
      exact .rest rfl rfl
  · rw [e] at hf
    cases hf

end

/-! ### The sum of COUNT, the events and the open requests -/

/-- After `n` events from `c` transfers left: the channel counts, and COUNT with the events makes `c` with
the requests not yet served; or COUNT has reached 0 and the channel rests. -/
def Extended (ch : ChanNo) (c n : Nat) (s : State) : Prop :=
  (s.Counting ch ∧ 1 ≤ (s.chan ch).count.toNat ∧
    (s.chan ch).count.toNat + n = c + (s.chan ch).pending) ∨
  ((s.chan ch).busy = false ∧ (s.chan ch).count = 0#32 ∧ c ≤ n)

section
variable {s : State} {ch : ChanNo} {c n : Nat}

/-- A request served is a transfer less; the last one ends the sequence with at least `c` events. -/
theorem Extended.served {t : State} (h : s.Counting ch) (hpos : 1 ≤ (s.chan ch).count.toNat)
    (hsum : (s.chan ch).count.toNat + n = c + (s.chan ch).pending) (hreq : 0 < (s.chan ch).pending)
    (hp : t.params = s.params) (hc : t.chan ch = (s.chan ch).served) : Extended ch c n t := by
  by_cases hlast : (s.chan ch).count = 1#32
  · right
    rw [hc, DmaChannel.served_eq h.busy, if_pos hlast, hlast]
    rw [hlast] at hsum
    have hone : (1#32).toNat = 1 := rfl
    exact ⟨rfl, rfl, by omega⟩
  · left
    have hc' := hc.trans (h.served_eq hlast)
    have hne : (s.chan ch).count.toNat ≠ 1 := fun e => hlast (BitVec.eq_of_toNat_eq e)
    have hcount : ((s.chan ch).count - 1#32).toNat = (s.chan ch).count.toNat - 1 :=
      BitVec.toNat_sub_of_le (BitVec.le_def.mpr hpos)
    refine ⟨h.congr hp hc', ?_⟩
    rw [hc']
    dsimp only
    omega

/-- Every turn without a model fault keeps the sum, with its event counted. -/
theorem Extended.agentStep (h : Extended ch c n s) (hp : s.params.Legal)
    (hch : s.params.hasChannel ch = true) {a : Turn} (hf : (s.agentStep a).faultMark = none) :
    Extended ch c (n + if s.emitsEc a then 1 else 0) (s.agentStep a) := by
  have hparams := (s.agentStep_keeps a).params
  rcases h with ⟨hcount, hpos, hsum⟩ | ⟨hidle, hzero, hle⟩
  · cases hcount.agentStep hp hch hf with
    | event he hc =>
      left
      rw [hc, if_pos he]
      exact ⟨hcount.congr hparams hc, hpos, by dsimp only; omega⟩
    | rest he hc =>
      left
      rw [hc, he]
      exact ⟨hcount.congr hparams hc, hpos, hsum⟩
    | transfer he hreq hc =>
      rw [he]
      exact .served hcount hpos hsum hreq hparams hc
  · right
    rw [State.agentStep_chan_of_idle hp hidle a]
    exact ⟨hidle, hzero, hle.trans (Nat.le_add_right n _)⟩

theorem Extended.runTurns {ts : List Turn} (h : Extended ch c n s) (hp : s.params.Legal)
    (hch : s.params.hasChannel ch = true) (hf : (State.runTurns ts s).faultMark = none) :
    Extended ch c (n + countTurns State.emitsEc ts s) (State.runTurns ts s) := by
  induction ts generalizing s n with
  | nil => exact h
  | cons a ts ih =>
    have hstart := State.faultMark_of_runTurns hf
    rw [State.runTurns_cons hstart] at hf ⊢
    have hparams := (s.agentStep_keeps a).params
    have hstep := h.agentStep hp hch (State.faultMark_of_runTurns hf)
    rw [countTurns, ← Nat.add_assoc]
    exact ih hstep (hparams ▸ hp) (hparams ▸ hch) hf

/-- Where every request is served, COUNT is what the events have left of `c`. -/
theorem Extended.count_toNat (h : Extended ch c n s) (hserved : (s.chan ch).pending = 0) :
    (s.chan ch).count.toNat = c - n := by
  rcases h with ⟨_, _, hsum⟩ | ⟨_, hzero, hle⟩
  · omega
  · rw [hzero, Nat.sub_eq_zero_of_le hle]
    rfl

end

/-- UINT32_MAX less a COUNT of `c - n`, with nothing left exactly at `n = c`. -/
theorem extendedValue_eq {c n : Nat} {r : Word} (hr : r.toNat = c - n) (hc : c < 2 ^ 32) (hn : n ≤ c) :
    uint32Max - r = BitVec.ofNat 32 (4294967295 - c + n) ∧ (r == 0#32) = (n == c) := by
  constructor
  · refine BitVec.eq_of_toNat_eq ?_
    rw [toNat_sub_eq, BitVec.toNat_ofNat, BitVec.toNat_ofNat]
    omega
  · rw [Bool.eq_iff_iff, beq_iff_eq, beq_iff_eq, ← BitVec.toNat_inj, BitVec.toNat_ofNat]
    omega

/-- Settles O51: where no request is open, the sum gives COUNT, and COUNT is what CX_VALUE reads. -/
theorem extendedCountIsTheNumberOfEvents : Obligations.ExtendedCountIsTheNumberOfEvents := by
  unfold Obligations.ExtendedCountIsTheNumberOfEvents
  rintro s t ch ts c n hp hch hcx hen hbusy hcount hc hpending htreq hsize hir hiw hra hwa _ rfl hf rfl
    hserved
  have hstart : Extended ch c 0 s :=
    .inl ⟨⟨hen, hbusy, htreq, hsize, hir, hiw, hra, hwa⟩, hcount.symm ▸ hc, by omega⟩
  have hend := hstart.runTurns hp hch hf
  rw [Nat.zero_add] at hend
  have hbind : (State.runTurns ts s).cx = ⟨ch, true⟩ := (State.runTurns_keeps ts s).cx.trans hcx
  have hvalue := exec_cxValue_of_bound (congrArg Binding.bound hbind)
  rw [show (State.runTurns ts s).cx.ch = ch from congrArg Binding.ch hbind] at hvalue
  have hleft := hend.count_toNat hserved
  have hlt : c < 2 ^ 32 := hcount ▸ (s.chan ch).count.isLt
  refine ⟨fun hn => ?upTo, fun hn => ?saturated⟩
  case upTo =>
    obtain ⟨hval, hflag⟩ := extendedValue_eq hleft hlt hn
    rw [hvalue, hval, hflag]
  case saturated =>
    have hzero : ((State.runTurns ts s).chan ch).count = 0#32 :=
      BitVec.eq_of_toNat_eq (hleft.trans (Nat.sub_eq_zero_of_le hn))
    rw [hvalue, hzero]
    rfl

end Sys2Proof.Machine
end

