-- ==== Sys2Proof/Proofs/StartCommands.lean ====
section
/-! PROOFS. The three start commands with no other agent's step between their micro-steps
(42_counter_extender.md R85, 44_gate_controller.md R100, 45_timestamp_capture.md R107): what each leaves as a
whole, and that a second run of it leaves the same. -/

namespace Sys2Proof.Machine

/-! ### Micro-steps where no turn is scheduled -/

theorem Quiet.of_nil {s : State} (hs : s.schedule = []) (k : Nat) : Quiet k s := by
  intro t ht
  rw [hs, List.take_nil] at ht
  cases ht

theorem State.drop_schedule_of_nil {s : State} (hs : s.schedule = []) :
    { s with schedule := s.schedule.drop 1 } = s := by
  rw [show s.schedule.drop 1 = s.schedule by rw [hs]; rfl]

/-- One micro-step of a control thread that goes on alone. -/
theorem State.finish_alone {s : State} {m : InFlight} (hf : s.faultMark = none) (hs : s.schedule = [])
    (hm : s.inFlight = some m) (n : Nat) :
    State.finish (n + 1) s = State.finish n (s.microStep m) := by
  rw [State.finish_micro hf (.of_nil hs 1) hm, State.drop_schedule_of_nil hs]

/-- An abort and a fresh sequence of the same length again change nothing. -/
theorem DmaChannel.arm_abort_arm {c : DmaChannel} (hb : c.busy = false) (he : c.err = false)
    {v : Word} (hv : v ≠ 0#32) : (c.arm v).abort.arm v = c.arm v := by
  rw [DmaChannel.arm_of_idle hb hv, DmaChannel.arm_of_idle rfl hv]
  simp [DmaChannel.abort, he]

/-! ### CX_START -/

theorem State.cxStarted_cxStarted (s : State) : s.cxStarted.cxStarted = s.cxStarted := by
  have hchan : s.cxStarted.chan s.cx.ch = (s.chan s.cx.ch).abort.arm uint32Max :=
    s.chan_setChan_self s.cx.ch _
  have hrearm : (s.cxStarted.chan s.cx.ch).abort.arm uint32Max =
      (s.chan s.cx.ch).abort.arm uint32Max := by
    rw [hchan]
    exact DmaChannel.arm_abort_arm rfl rfl (by decide)
  rw [State.cxStarted, show s.cxStarted.cx = s.cx from rfl, hrearm]
  simp [State.cxStarted, State.setChan]

theorem finish_cxAbortStep_alone {s : State} (hf : s.faultMark = none) (hs : s.schedule = []) :
    State.finish 1 (s.cxAbortStep s.cx.ch) = .next s.cxStarted :=
  (finish_cxAbortStep hf (.of_nil hs 1)).trans
    (congrArg Host.Outcome.next (State.drop_schedule_of_nil (s := s.cxStarted) hs))

/-! ### GC_START -/

/-- GC_START as a whole: the channel aborted and armed for one transfer, the counts, the tally and the sample
zeroed, both counters enabled and the gate Running. -/
def State.gcStarted (s : State) : State :=
  { s.setChan s.gc.ch ((s.chan s.gc.ch).abort.arm 1#32) with
    ec := { s.ec with en := true, ctr := 0#16 }
    gt := { s.gt with en := true, ctr := 0#16, dir := false }
    gcPrevSample := 0#16, gcOvfTally := 0#32, gcState := .running
    inFlight := none, last := okResult 0#32 false }

theorem exec_gcStart_of_bound {s : State} (hg : s.gcState ≠ .idle) :
    exec .gcStart s = .next (s.gcStopStep s.gc.ch) := by
  simp only [exec, execGcStart, if_neg hg]

theorem finish_gcStopStep_alone {s : State} (hf : s.faultMark = none) (hs : s.schedule = []) :
    State.finish 4 (s.gcStopStep s.gc.ch) = .next s.gcStarted := by
  let s2 := (s.gcStopStep s.gc.ch).gcAbortStep s.gc.ch
  let s3 := s2.gcZeroStep s.gc.ch
  have hend : (s3.gcArmStep s.gc.ch).gcEnableStep = s.gcStarted := by
    simp [s3, s2, State.gcStarted, State.gcEnableStep, State.gcArmStep, State.gcZeroStep,
      State.gcAbortStep, State.gcStopStep, State.setEnables, State.setChan, State.chan, State.ret,
      okResult, Status.code]
  calc State.finish 4 (s.gcStopStep s.gc.ch)
      = State.finish 3 s2 := State.finish_alone (s := s.gcStopStep s.gc.ch) hf hs rfl 3
    _ = State.finish 2 s3 := State.finish_alone (s := s2) hf hs rfl 2
    _ = State.finish 1 (s3.gcArmStep s.gc.ch) := State.finish_alone (s := s3) hf hs rfl 1
    _ = .next (s3.gcArmStep s.gc.ch).gcEnableStep :=
      State.finish_alone (s := s3.gcArmStep s.gc.ch) hf hs rfl 0
    _ = .next s.gcStarted := congrArg Host.Outcome.next hend

theorem State.gcStarted_gcStarted (s : State) : s.gcStarted.gcStarted = s.gcStarted := by
  have hchan : s.gcStarted.chan s.gc.ch = (s.chan s.gc.ch).abort.arm 1#32 :=
    s.chan_setChan_self s.gc.ch _
  have hrearm : (s.gcStarted.chan s.gc.ch).abort.arm 1#32 = (s.chan s.gc.ch).abort.arm 1#32 := by
    rw [hchan]
    exact DmaChannel.arm_abort_arm rfl rfl (by decide)
  rw [State.gcStarted, show s.gcStarted.gc = s.gc from rfl, hrearm]
  simp [State.gcStarted, State.setChan]

/-! ### The buffer -/

/-- RAM with the first `n` slots of the buffer at `a` zeroed, in the order TS_START takes them
(45_timestamp_capture.md R107). -/
def Memory.zeroSlots (m : Memory) (a : Nat) : Nat → Memory
  | 0 => m
  | n + 1 => (m.zeroSlots a n).write32 (a + 4 * n) 0#32

theorem Memory.wf_zeroSlots {m : Memory} (h : m.wf = true) (a n : Nat) :
    (m.zeroSlots a n).wf = true := by
  induction n with
  | zero => exact h
  | succ n ih => exact Memory.wf_write32 ih _ _

/-- The slots' bytes are 0, and every other byte is as before. -/
theorem Memory.read_zeroSlots {m : Memory} (h : m.wf = true) (a n x : Nat) :
    (m.zeroSlots a n).read x = if a ≤ x ∧ x < a + 4 * n then 0#8 else m.read x := by
  induction n with
  | zero => rw [if_neg (by omega), Memory.zeroSlots]
  | succ n ih =>
    rw [Memory.zeroSlots, Memory.read_write32 (Memory.wf_zeroSlots h a n), ih]
    by_cases hlast : a + 4 * n ≤ x ∧ x < a + 4 * n + 4
    · rw [if_pos hlast, if_pos (by omega)]
      simp
    · rw [if_neg hlast]
      by_cases hin : a ≤ x ∧ x < a + 4 * n
      · rw [if_pos hin, if_pos (by omega)]
      · rw [if_neg hin, if_neg (by omega)]

theorem Memory.zeroSlots_zeroSlots {m : Memory} (h : m.wf = true) (a n : Nat) :
    (m.zeroSlots a n).zeroSlots a n = m.zeroSlots a n := by
  have hwf := Memory.wf_zeroSlots h a n
  refine Memory.ext_of_wfFrom (Memory.wf_zeroSlots hwf a n) hwf fun x => ?_
  rw [Memory.read_zeroSlots hwf, Memory.read_zeroSlots h]
  split <;> rfl

/-- What TS_START does once it has zeroed `i` slots: the next slot, or the count after the last one. -/
def InFlight.tsFrom (ts : ChanNo) (base cap : Word) (i : Nat) : InFlight :=
  if i < cap.toNat then .tsZero ts base cap i else .tsReset ts base cap

theorem Params.cap_pos_of_bufferOk {p : Params} {base cap : Word} (h : p.bufferOk base cap = true) :
    0 < cap.toNat := by
  simp only [Params.bufferOk, Bool.and_eq_true, bne_iff_ne, ne_eq] at h
  obtain ⟨⟨⟨hne, _⟩, _⟩, _⟩ := h
  exact Nat.pos_of_ne_zero hne

theorem Params.cap_ne_zero_of_bufferOk {p : Params} {base cap : Word}
    (h : p.bufferOk base cap = true) : cap ≠ 0#32 := by
  rintro rfl
  exact absurd (Params.cap_pos_of_bufferOk h) (Nat.lt_irrefl 0)

section
variable {s : State} {ts : ChanNo} {base cap : Word}

/-- Zeroing a slot of a legal buffer stores in RAM alone. -/
theorem State.tsZeroStep_eq (hp : s.params.Legal) (hb : s.params.bufferOk base cap = true) {i : Nat}
    (hi : i < cap.toNat) : s.tsZeroStep ts base cap i =
      { s with
        mem := s.mem.write32 (base.toNat + 4 * i) 0#32
        inFlight := some (.tsFrom ts base cap (i + 1)) } := by
  rw [State.tsZeroStep, (State.zeroSlot_ram hp hb hi).2]
  rfl

/-- The machine with `i` slots zeroed. -/
def State.zeroed (s : State) (ts : ChanNo) (base cap : Word) (i : Nat) : State :=
  { s with
    mem := s.mem.zeroSlots base.toNat i, inFlight := some (.tsFrom ts base cap i) }

theorem State.finish_zeroed (hf : s.faultMark = none) (hs : s.schedule = []) (hp : s.params.Legal)
    (hb : s.params.bufferOk base cap = true) (n : Nat) {i d : Nat} (hd : i + d = cap.toNat) :
    State.finish (n + d) (s.zeroed ts base cap i) = State.finish n (s.zeroed ts base cap cap.toNat) := by
  induction d generalizing i with
  | zero => rw [← hd]; rfl
  | succ d ih =>
    have hi : i < cap.toNat := by omega
    have hfrom : InFlight.tsFrom ts base cap i = .tsZero ts base cap i := if_pos hi
    have hstep : (s.zeroed ts base cap i).tsZeroStep ts base cap i = s.zeroed ts base cap (i + 1) :=
      State.tsZeroStep_eq (s := s.zeroed ts base cap i) hp hb hi
    rw [← Nat.add_assoc, State.finish_alone (s := s.zeroed ts base cap i) hf hs (congrArg some hfrom),
      State.microStep, hstep]
    exact ih (by omega)

end

/-! ### TS_START -/

/-- TS_START's channel aborted, then armed at the buffer's base for as many transfers as there are slots. -/
def State.tsArmed (s : State) : DmaChannel :=
  DmaChannel.arm { (s.chan s.ts.ch).abort with writeAddr := s.tsBase } s.tsCapacity

theorem State.tsArmed_eq (s : State) (hc : s.tsCapacity ≠ 0#32) : s.tsArmed =
    { s.chan s.ts.ch with
      writeAddr := s.tsBase, en := true, busy := true, pending := 0, err := false
      count := s.tsCapacity, reload := s.tsCapacity } :=
  DmaChannel.arm_of_idle rfl hc

/-- TS_START as a whole: the buffer and the count zeroed, the channel armed afresh and the counter
enabled. -/
def State.tsStarted (s : State) : State :=
  { s.setChan s.ts.ch s.tsArmed with
    mem := s.mem.zeroSlots s.tsBase.toNat s.tsCapacity.toNat
    ec := { s.ec with en := true, ctr := 0#16 }
    inFlight := none, last := okResult 0#32 false }

/-- The command's first step is its first micro-step. -/
theorem exec_tsStart_of_bound {s : State} (hb : s.ts.bound = true) :
    exec .tsStart s = .next (s.microStep (.tsFrom s.ts.ch s.tsBase s.tsCapacity 0)) := by
  simp only [exec, execTsStart, hb, InFlight.tsFrom]
  rw [if_neg (by decide)]
  by_cases hc : s.tsCapacity = 0#32
  · rw [if_pos hc, if_neg (by simp [hc])]
    rfl
  · have hpos : 0 < s.tsCapacity.toNat := Nat.pos_of_ne_zero fun e => hc (BitVec.eq_of_toNat_eq e)
    rw [if_neg hc, if_pos hpos]
    rfl

theorem exec_tsStart_of_buffer {s : State} (hb : s.ts.bound = true) (hp : s.params.Legal)
    (hbuf : s.params.bufferOk s.tsBase s.tsCapacity = true) :
    exec .tsStart s = .next (s.zeroed s.ts.ch s.tsBase s.tsCapacity 1) := by
  have hpos := Params.cap_pos_of_bufferOk hbuf
  rw [exec_tsStart_of_bound hb, InFlight.tsFrom, if_pos hpos, State.microStep,
    State.tsZeroStep_eq hp hbuf hpos]
  rfl

theorem finish_tsStart_alone {s : State} (hf : s.faultMark = none) (hs : s.schedule = [])
    (hp : s.params.Legal) (hbuf : s.params.bufferOk s.tsBase s.tsCapacity = true) :
    State.finish (s.tsCapacity.toNat + 3) (s.zeroed s.ts.ch s.tsBase s.tsCapacity 1) =
      .next s.tsStarted := by
  have hpos := Params.cap_pos_of_bufferOk hbuf
  let s0 := s.zeroed s.ts.ch s.tsBase s.tsCapacity s.tsCapacity.toNat
  let s1 := s0.tsResetStep s.ts.ch s.tsBase s.tsCapacity
  let s2 := s1.tsAbortStep s.ts.ch s.tsBase s.tsCapacity
  let s3 := s2.tsArmStep s.ts.ch s.tsBase s.tsCapacity
  have hreset : InFlight.tsFrom s.ts.ch s.tsBase s.tsCapacity s.tsCapacity.toNat =
      .tsReset s.ts.ch s.tsBase s.tsCapacity := if_neg (Nat.lt_irrefl _)
  have hend : s3.tsEnableStep = s.tsStarted := by
    simp [s3, s2, s1, s0, State.tsStarted, State.tsArmed, State.tsEnableStep,
      State.tsArmStep, State.tsAbortStep, State.tsResetStep, State.zeroed, State.setChan, State.chan,
      State.ret, okResult, Status.code]
  calc State.finish (s.tsCapacity.toNat + 3) (s.zeroed s.ts.ch s.tsBase s.tsCapacity 1)
      = State.finish (4 + (s.tsCapacity.toNat - 1)) (s.zeroed s.ts.ch s.tsBase s.tsCapacity 1) := by
        rw [show s.tsCapacity.toNat + 3 = 4 + (s.tsCapacity.toNat - 1) by omega]
    _ = State.finish 4 s0 := State.finish_zeroed hf hs hp hbuf 4 (by omega)
    _ = State.finish 3 s1 := State.finish_alone (s := s0) hf hs (congrArg some hreset) 3
    _ = State.finish 2 s2 := State.finish_alone (s := s1) hf hs rfl 2
    _ = State.finish 1 s3 := State.finish_alone (s := s2) hf hs rfl 1
    _ = .next s3.tsEnableStep := State.finish_alone (s := s3) hf hs rfl 0
    _ = .next s.tsStarted := congrArg Host.Outcome.next hend

theorem State.tsStarted_tsStarted {s : State} (hwf : s.mem.wf = true) (hc : s.tsCapacity ≠ 0#32) :
    s.tsStarted.tsStarted = s.tsStarted := by
  have hchan : s.tsStarted.chan s.ts.ch = s.tsArmed := s.chan_setChan_self s.ts.ch _
  have hrearm : s.tsStarted.tsArmed = s.tsArmed := by
    rw [s.tsStarted.tsArmed_eq hc, show s.tsStarted.chan s.tsStarted.ts.ch = _ from hchan,
      s.tsArmed_eq hc]
    rfl
  rw [State.tsStarted, hrearm]
  simp [State.tsStarted, State.setChan, Memory.zeroSlots_zeroSlots hwf]

/-- Settles O55: each start leaves what its `Started` says, which is the same after the second one. -/
theorem startingTwiceIsStartingOnce : Obligations.StartingTwiceIsStartingOnce := by
  unfold Obligations.StartingTwiceIsStartingOnce
  refine ⟨fun s hb hf _ hs => ?cx, fun s hg hf _ hs => ?gc, fun s hb hf _ hs hok => ?ts⟩
  case cx =>
    refine ⟨_, s.cxStarted, _, exec_cxStart_of_bound hb, finish_cxAbortStep_alone hf hs,
      exec_cxStart_of_bound (s := s.cxStarted) hb, ?_⟩
    exact (finish_cxAbortStep_alone (s := s.cxStarted) hf hs).trans
      (congrArg Host.Outcome.next s.cxStarted_cxStarted)
  case gc =>
    refine ⟨_, s.gcStarted, _, exec_gcStart_of_bound hg, finish_gcStopStep_alone hf hs,
      exec_gcStart_of_bound (s := s.gcStarted) nofun, ?_⟩
    exact (finish_gcStopStep_alone (s := s.gcStarted) hf hs).trans
      (congrArg Host.Outcome.next s.gcStarted_gcStarted)
  case ts =>
    have hp := hok.params_legal
    have hbuf := hok.ts_buffer hb
    have hcap := Params.cap_ne_zero_of_bufferOk hbuf
    refine ⟨_, s.tsStarted, _, exec_tsStart_of_buffer hb hp hbuf, finish_tsStart_alone hf hs hp hbuf,
      exec_tsStart_of_buffer (s := s.tsStarted) hb hp hbuf, ?_⟩
    exact (finish_tsStart_alone (s := s.tsStarted) hf hs hp hbuf).trans
      (congrArg Host.Outcome.next (State.tsStarted_tsStarted hok.mem_wf hcap))

end Sys2Proof.Machine
end

