-- ==== Sys2Proof/Proofs/Interleaving.lean ====
section
/-! PROOFS. The start commands with other agents' steps between their micro-steps (20_memory.md R47, R49;
42_counter_extender.md R85, 44_gate_controller.md R100, 45_timestamp_capture.md R107). A property of the
state for each micro-step still to come, kept by every agent's turn and handed on by each micro-step, holds
at the end of the command, wherever the turns fall. -/

namespace Sys2Proof.Machine

/-! ### The command in flight among other agents' turns -/

/-- How many micro-steps a command in flight has left. -/
def InFlight.left : InFlight → Nat
  | .cxArm _ => 1
  | .gcAbort _ => 4
  | .gcZero _ => 3
  | .gcArm _ => 2
  | .gcEnable => 1
  | .tsZero _ _ cap i => cap.toNat - (i + 1) + 5
  | .tsReset _ _ _ => 4
  | .tsAbort _ _ _ => 3
  | .tsArm _ _ _ => 2
  | .tsEnable => 1

theorem InFlight.left_pos (m : InFlight) : 1 ≤ m.left := by
  cases m <;> simp [InFlight.left]

/-- A micro-step that does not end the command leaves one fewer. -/
theorem State.microStep_left {s : State} {m m' : InFlight} (h : (s.microStep m).inFlight = some m') :
    m'.left + 1 = m.left := by
  cases m
  case tsZero ts base cap i =>
    have h' : some (if i + 1 < cap.toNat then InFlight.tsZero ts base cap (i + 1)
        else .tsReset ts base cap) = some m' := h
    obtain rfl := Option.some.inj h'
    split
    · simp only [InFlight.left]
      omega
    · simp only [InFlight.left]
      omega
  all_goals cases h <;> rfl

/-- `Φ m` is what holds of the state while `m` is the next micro-step: no change of the schedule and no
agent's turn ends it, each micro-step hands it on to the next one, and the last one makes `P` of it. -/
structure KeptInFlight (Φ : InFlight → State → Prop) (P : State → Prop) : Prop where
  turn : ∀ m s ts, Φ m s → Φ m { s with schedule := ts }
  agent : ∀ m s a, Φ m s → Φ m (s.agentStep a)
  micro : ∀ m s, Φ m s →
    (s.microStep m).inFlight.elim (P (s.microStep m)) fun m' => Φ m' (s.microStep m)

section
variable {Φ : InFlight → State → Prop} {P Q : State → Prop} {s : State} {m : InFlight} {k : Nat}

theorem State.finish_faulted {f : Fault} (hf : s.faultMark = some f) (hm : s.inFlight = some m) (n : Nat) :
    State.finish (n + 1) s = .fault f := by
  simp [State.finish, hm, step, hf]

/-- `Ends`, with enough steps allowed, in the words of its two outcomes. -/
def EndsWithin (n : Nat) (s : State) (P : State → Prop) : Prop :=
  (∃ f, State.finish n s = .fault f) ∨
    ∃ u, State.finish n s = .next u ∧ u.inFlight = none ∧ u.last = okResult 0#32 false ∧ P u

theorem ends_iff : Ends k s P ↔ EndsWithin (s.schedule.length + k) s P := by
  unfold Ends EndsWithin
  cases State.finish (s.schedule.length + k) s with
  | next u => simp [okResult]
  | fault f => simp
  | refused r => simp

theorem Ends.mono (h : Ends k s P) (hPQ : ∀ u, P u → Q u) : Ends k s Q := by
  rw [ends_iff] at h ⊢
  exact h.imp_right fun ⟨u, hu, hm, hl, hP⟩ => ⟨u, hu, hm, hl, hPQ u hP⟩

/-- What holds at the end, and what holds there under a further premise. -/
theorem Ends.and_of_imp {A : Prop} (hP : Ends k s P) (hQ : A → Ends k s Q) :
    Ends k s fun u => P u ∧ (A → Q u) := by
  rw [ends_iff] at hP ⊢
  refine hP.imp_right fun ⟨u, hu, hm, hl, hPu⟩ => ⟨u, hu, hm, hl, hPu, fun a => ?_⟩
  rcases ends_iff.mp (hQ a) with ⟨f, hf⟩ | ⟨v, hv, _, _, hQv⟩
  · cases hu.symm.trans hf
  · obtain rfl := Host.Outcome.next.inj (hu.symm.trans hv)
    exact hQv

/-- The command in flight reaches its end with `P`, or a model fault stops the machine: each step takes a
turn of the schedule or one of the micro-steps left. -/
theorem KeptInFlight.endsWithin (h : KeptInFlight Φ P) {n : Nat} (hΦ : Φ m s) (hm : s.inFlight = some m)
    (hn : s.schedule.length + m.left ≤ n) : EndsWithin n s P := by
  induction n generalizing s m with
  | zero => exact absurd m.left_pos (by omega)
  | succ n ih =>
    cases hf : s.faultMark with
    | some f => exact .inl ⟨f, State.finish_faulted hf hm n⟩
    | none =>
      unfold EndsWithin
      rcases quiet_or_agent s with hq | ⟨a, ts, hs, ha⟩
      · rw [State.finish_micro hf hq hm]
        have hstep := h.micro m _ (h.turn m s (s.schedule.drop 1) hΦ)
        rcases State.microStep_inFlight { s with schedule := s.schedule.drop 1 } m with
          ⟨m', hm', _⟩ | ⟨hnone, hlast⟩
        · rw [hm'] at hstep
          refine ih hstep hm' ?_
          have hleft := State.microStep_left hm'
          rw [(State.microStep_keeps _ m).schedule]
          simp only [List.length_drop]
          omega
        · rw [hnone] at hstep
          exact .inr ⟨_, State.finish_none hnone n, hnone, hlast, hstep⟩
      · rw [State.finish_succ hm (step_agent hf hs ha)]
        have hkeeps := State.agentStep_keeps { s with schedule := ts } a
        refine ih (h.agent m _ a (h.turn m s ts hΦ)) (hkeeps.inFlight.trans hm) ?_
        rw [hkeeps.schedule]
        rw [hs, List.length_cons] at hn
        dsimp only
        omega

theorem KeptInFlight.ends (h : KeptInFlight Φ P) (hΦ : Φ m s) (hm : s.inFlight = some m)
    (hk : m.left = k) : Ends k s P :=
  ends_iff.mpr (h.endsWithin hΦ hm (by omega))

/-- The same, where the command's first step is one of the micro-steps. -/
theorem KeptInFlight.ends_microStep (h : KeptInFlight Φ P) (hΦ : Φ m s) (hk : m.left = k + 1) :
    Ends k (s.microStep m) P := by
  have hstep := h.micro m s hΦ
  rcases s.microStep_inFlight m with ⟨m', hm', _⟩ | ⟨hnone, hlast⟩
  · rw [hm'] at hstep
    have hleft := State.microStep_left hm'
    exact h.ends hstep hm' (by omega)
  · rw [hnone] at hstep
    exact ends_iff.mpr (.inr ⟨_, State.finish_none hnone _, hnone, hlast, hstep⟩)

end

/-! ### What rests under the agents -/

section
variable {s t : State}

/-- No agent's turn changes a channel's enable or RELOAD (40_bus_dma.md R68 to R70). -/
theorem State.agentStep_chan_setup (hp : s.params.Legal) (a : Turn) (ch : ChanNo) :
    ((s.agentStep a).chan ch).en = (s.chan ch).en ∧
      ((s.agentStep a).chan ch).reload = (s.chan ch).reload := by
  rcases s.agentStep_chan hp a ch with ⟨p, h⟩ | ⟨_, h | h⟩ <;> rw [h] <;> exact ⟨rfl, rfl⟩

/-- A stopped counter counts no edge (41_edge_counter.md R75). -/
theorem State.edge_of_stopped {p : BitVec 8} {acc : BitVec 16} (h : s.ec.en = false) :
    s.edge p acc = .ok (s.toggle p) :=
  State.edge_of_not_qualifies (by simp [State.qualifies, h])

/-- The counter is stopped, no channel has a request, and none can get one: a busy channel waits for the
counter's event, or for that of a stopped GateTimer. -/
def State.Calm (s : State) : Prop :=
  s.ec.en = false ∧ ∀ d, (s.chan d).busy = true →
    (s.chan d).pending = 0 ∧ ((s.chan d).treq = gtTag → s.gt.en = false)

/-- What a turn leaves of a calm machine. -/
structure CalmKeeps (s t : State) : Prop where
  params : t.params = s.params
  ec : t.ec = s.ec
  mem : t.mem = s.mem
  chan : ∀ d, t.chan d = s.chan d
  gt_en : t.gt.en = s.gt.en
  gt : s.gt.en = false → t.gt = s.gt

theorem State.Calm.congr (h : s.Calm) (k : CalmKeeps s t) : t.Calm := by
  unfold State.Calm
  simp only [k.ec, k.chan, k.gt_en]
  exact h

/-- A calm machine stays calm when one channel changes, if that one cannot transfer either. -/
theorem State.Calm.of_chan (h : s.Calm) {ch : ChanNo} (hec : t.ec.en = s.ec.en)
    (hgt : t.gt.en = s.gt.en) (hne : ∀ d, d ≠ ch → t.chan d = s.chan d)
    (hch : (t.chan ch).busy = true →
      (t.chan ch).pending = 0 ∧ ((t.chan ch).treq = gtTag → s.gt.en = false)) : t.Calm := by
  refine ⟨hec.trans h.1, fun d hb => ?_⟩
  rw [hgt]
  by_cases hd : d = ch
  · subst hd
    exact hch hb
  · rw [hne d hd] at hb ⊢
    exact h.2 d hb

theorem State.Calm.gtTick (h : s.Calm) (hen : s.gt.en = true) {acc : BitVec 16}
    (ht : s.gtTick acc = .ok t) : CalmKeeps s t := by
  have hgt : s.gt.tick.en = s.gt.en := s.gt.tick_keeps.1
  have hstopped {P : Prop} (hoff : s.gt.en = false) : P :=
    absurd (hen.symm.trans hoff) nofun
  rcases State.gtTick_ok ht with ⟨_, rfl⟩ | ⟨_, he⟩
  · exact ⟨rfl, rfl, rfl, fun _ => rfl, hgt, hstopped⟩
  · obtain ⟨_, hframe, _⟩ := State.emit_ok he
    refine ⟨by rw [hframe], by rw [hframe], by rw [hframe], fun d => ?_, by rw [hframe]; exact hgt,
      hstopped⟩
    refine State.emit_chan_of_not_takes (s := { s with gt := s.gt.tick }) he
      (DmaChannel.takes_eq_false _ ?_)
    cases hb : (s.chan d).busy with
    | false => exact .inl hb
    | true => exact .inr fun htreq => hstopped ((h.2 d hb).2 htreq)

theorem State.Calm.agentAct (h : s.Calm) {a : Turn} (hen : s.agentEnabled a = true)
    (ha : s.agentAct a = .ok t) : CalmKeeps s t := by
  cases a with
  | control => cases hen
  | edge p acc =>
    obtain rfl := Except.ok.inj ((State.edge_of_stopped h.1).symm.trans ha)
    exact ⟨rfl, rfl, rfl, fun _ => rfl, rfl, fun _ => rfl⟩
  | tick acc => exact h.gtTick hen ha
  | transfer d =>
    obtain ⟨_, _, hbusy, hpos⟩ := State.agentEnabled_transfer_iff.mp hen
    exact absurd (h.2 d hbusy).1 (Nat.ne_of_gt hpos)
  | clock =>
    obtain rfl := Except.ok.inj ha
    exact ⟨rfl, rfl, rfl, fun _ => rfl, rfl, fun _ => rfl⟩

/-- Under the agents' turns a calm machine's counter, channels and RAM rest. -/
theorem State.Calm.agentStep (h : s.Calm) (a : Turn) : CalmKeeps s (s.agentStep a) := by
  rcases s.agentStep_cases a with ⟨_, e⟩ | ⟨hen, t, ha, e⟩ | ⟨_, f, _, e⟩ <;> rw [e]
  · exact ⟨rfl, rfl, rfl, fun _ => rfl, rfl, fun _ => rfl⟩
  · exact h.agentAct hen ha
  · exact ⟨rfl, rfl, rfl, fun _ => rfl, rfl, fun _ => rfl⟩

end

/-! ### CX_START -/

/-- Between its micro-steps CX_START's channel rests as the abort left it. -/
def CxStarting (ch : ChanNo) (c : DmaChannel) : InFlight → State → Prop
  | .cxArm d, t => d = ch ∧ t.params.Legal ∧ t.chan ch = c.abort
  | _, _ => False

theorem cxStarting_kept (ch : ChanNo) (c : DmaChannel) :
    KeptInFlight (CxStarting ch c) fun u => u.chan ch = c.abort.arm uint32Max where
  turn m s ts h := by
    cases m
    case cxArm => exact h
    all_goals exact h.elim
  agent m s a h := by
    cases m
    case cxArm d =>
      obtain ⟨hd, hp, hc⟩ := h
      have hrest := State.agentStep_chan_of_idle hp (congrArg DmaChannel.busy hc) a
      exact ⟨hd, (s.agentStep_keeps a).params ▸ hp, hrest.trans hc⟩
    all_goals exact h.elim
  micro m s h := by
    cases m
    case cxArm d =>
      obtain ⟨rfl, _, hc⟩ := h
      exact (s.chan_setChan_self d _).trans (congrArg (DmaChannel.arm · uint32Max) hc)
    all_goals exact h.elim

theorem cxStart_ends {s : State} (hp : s.params.Legal) :
    Ends 1 (s.cxAbortStep s.cx.ch) fun u =>
      u.chan s.cx.ch = (s.chan s.cx.ch).abort.arm uint32Max :=
  (cxStarting_kept s.cx.ch (s.chan s.cx.ch)).ends (m := .cxArm s.cx.ch)
    ⟨rfl, hp, s.chan_setChan_self s.cx.ch _⟩ rfl rfl

/-! ### GC_START, whatever the other channels do -/

/-- What GC_START's micro-steps have written that no agent writes. -/
def GcStarting (ch : ChanNo) : InFlight → State → Prop
  | .gcAbort d, t => d = ch ∧ t.params.Legal
  | .gcZero d, t => d = ch ∧ t.params.Legal
  | .gcArm d, t => d = ch ∧ t.params.Legal ∧ t.gcOvfTally = 0#32 ∧ t.gcPrevSample = 0#16
  | .gcEnable, t => t.params.Legal ∧ t.gcOvfTally = 0#32 ∧ t.gcPrevSample = 0#16 ∧
      (t.chan ch).reload = 1#32 ∧ (t.chan ch).en = true
  | _, _ => False

/-- Arming sets the enable and RELOAD, whether it starts a sequence or not. -/
theorem DmaChannel.arm_setup (c : DmaChannel) (v : Word) : (c.arm v).reload = v ∧ (c.arm v).en = true := by
  rcases DmaChannel.trigger_cases { c with en := true, reload := v } with
    ⟨_, _, _, e⟩ | ⟨_, _, _, e⟩ | ⟨_, e⟩
  all_goals
    rw [DmaChannel.arm, DmaChannel.writeTrig, e]
    exact ⟨rfl, rfl⟩

theorem gcStarting_kept (ch : ChanNo) : KeptInFlight (GcStarting ch) fun u =>
    u.ec.en = true ∧ u.gt.en = true ∧ u.gcState = .running ∧ u.gcOvfTally = 0#32 ∧
      u.gcPrevSample = 0#16 ∧ (u.chan ch).reload = 1#32 ∧ (u.chan ch).en = true where
  turn m s ts h := by
    cases m
    case gcAbort | gcZero | gcArm | gcEnable => exact h
    all_goals exact h.elim
  agent m s a h := by
    have hk := s.agentStep_keeps a
    cases m
    case gcAbort | gcZero => exact ⟨h.1, hk.params ▸ h.2⟩
    case gcArm =>
      obtain ⟨hd, hp, htally, hprev⟩ := h
      exact ⟨hd, hk.params ▸ hp, hk.gcOvfTally.trans htally, hk.gcPrevSample.trans hprev⟩
    case gcEnable =>
      obtain ⟨hp, htally, hprev, hreload, hen⟩ := h
      obtain ⟨hen', hreload'⟩ := State.agentStep_chan_setup hp a ch
      exact ⟨hk.params ▸ hp, hk.gcOvfTally.trans htally, hk.gcPrevSample.trans hprev,
        hreload'.trans hreload, hen'.trans hen⟩
    all_goals exact h.elim
  micro m s h := by
    cases m
    case gcAbort => exact h
    case gcZero => exact ⟨h.1, h.2, rfl, rfl⟩
    case gcArm d =>
      obtain ⟨rfl, hp, htally, hprev⟩ := h
      have hchan : (s.gcArmStep d).chan d = (s.chan d).arm 1#32 := s.chan_setChan_self d _
      refine ⟨hp, htally, hprev, ?_⟩
      rw [State.microStep, hchan]
      exact (s.chan d).arm_setup 1#32
    case gcEnable =>
      obtain ⟨_, htally, hprev, hchan⟩ := h
      exact ⟨rfl, rfl, rfl, htally, hprev, hchan⟩
    all_goals exact h.elim

/-! ### GC_START where no other channel is busy -/

/-- No other channel is busy, and the gate channel is as GC_INIT left it, with a stop value that stops the
counter (44_gate_controller.md R99). -/
structure State.GateReady (s : State) (ch : ChanNo) : Prop where
  others : ∀ d, d ≠ ch → (s.chan d).busy = false
  treq : (s.chan ch).treq = 1#6
  size : (s.chan ch).size = true
  incrRead : (s.chan ch).incrRead = false
  incrWrite : (s.chan ch).incrWrite = false
  readAddr : (s.chan ch).readAddr = s.params.regAddr .gcStopval
  writeAddr : (s.chan ch).writeAddr = s.params.regAddr .ecCtrl
  stops : s.gcStopval.getLsbD 0 = false

/-- `d` is `c` after some of its sequence: only the count, the requests and the sequence's flags differ. -/
def DmaChannel.Advanced (c d : DmaChannel) : Prop :=
  ∃ n b p e, d = { c with count := n, busy := b, pending := p, err := e }

theorem DmaChannel.Advanced.trans {c d e : DmaChannel} (h : c.Advanced d) (h' : d.Advanced e) :
    c.Advanced e := by
  obtain ⟨_, _, _, _, rfl⟩ := h
  obtain ⟨n, b, p, e, rfl⟩ := h'
  exact ⟨n, b, p, e, rfl⟩

theorem DmaChannel.advanced_served {c : DmaChannel} (hr : c.incrRead = false)
    (hw : c.incrWrite = false) : c.Advanced c.served := by
  refine ⟨c.served.count, c.served.busy, c.served.pending, c.err, ?_⟩
  simp [DmaChannel.served, hr, hw]

/-- An abort and a fresh sequence leave no trace of what was served before. -/
theorem DmaChannel.Advanced.arm_abort {c d : DmaChannel} (h : c.Advanced d) {v : Word} (hv : v ≠ 0#32) :
    d.abort.arm v = c.abort.arm v := by
  obtain ⟨n, b, p, e, rfl⟩ := h
  rw [DmaChannel.arm_of_idle rfl hv, DmaChannel.arm_of_idle rfl hv]
  rfl

section
variable {s t : State} {ch : ChanNo}

/-- What a turn leaves of a gate that is ready, with both counters stopped: its channel may transfer the stop
value, which stops the counter again. -/
structure GateKeeps (s t : State) (ch : ChanNo) : Prop where
  ec_en : t.ec.en = false
  gt : t.gt = s.gt
  params : t.params = s.params
  gcStopval : t.gcStopval = s.gcStopval
  others : ∀ d, d ≠ ch → t.chan d = s.chan d
  advanced : (s.chan ch).Advanced (t.chan ch)

theorem State.GateReady.congr (h : s.GateReady ch) (k : GateKeeps s t ch) : t.GateReady ch := by
  obtain ⟨hothers, htreq, hsize, hir, hiw, hra, hwa, hstop⟩ := h
  obtain ⟨n, b, p, e, hc⟩ := k.advanced
  refine ⟨fun d hd => k.others d hd ▸ hothers d hd, ?_, ?_, ?_, ?_, ?_, ?_, k.gcStopval ▸ hstop⟩
  all_goals rw [hc]
  · exact htreq
  · exact hsize
  · exact hir
  · exact hiw
  · exact hra.trans (k.params ▸ rfl)
  · exact hwa.trans (k.params ▸ rfl)

/-- A turn that leaves the channels, the GateTimer and the stop value. -/
theorem GateKeeps.of_rest (hec : t.ec.en = false) (hgt : t.gt = s.gt) (hp : t.params = s.params)
    (hstop : t.gcStopval = s.gcStopval) (hd : t.dma = s.dma) : GateKeeps s t ch where
  ec_en := hec
  gt := hgt
  params := hp
  gcStopval := hstop
  others d _ := State.chan_eq_of_dma hd d
  advanced := by
    rw [State.chan_eq_of_dma hd]
    exact ⟨_, _, _, _, rfl⟩

/-- The gate channel's transfer writes the stop value to EC_CTRL. -/
theorem State.GateReady.transfer (h : s.GateReady ch) (hp : s.params.Legal)
    (ht : s.transfer ch = .ok t) : GateKeeps s t ch := by
  have hd := Params.dmaRegister_regAddr (q := .ecCtrl) hp (by decide) (by decide)
  obtain rfl := Except.ok.inj ((State.transfer_of_regs (r := .gcStopval) (q := .ecCtrl) hp rfl rfl hd
    h.size h.readAddr h.writeAddr).symm.trans ht)
  refine ⟨h.stops, rfl, rfl, rfl, fun d hd => State.chan_setChan_ne _ _ hd, ?_⟩
  rw [State.chan_setChan_self]
  exact DmaChannel.advanced_served h.incrRead h.incrWrite

theorem State.GateReady.agentStep (h : s.GateReady ch) (hp : s.params.Legal) (hec : s.ec.en = false)
    (hgt : s.gt.en = false) (a : Turn) : GateKeeps s (s.agentStep a) ch := by
  rcases s.agentStep_cases a with ⟨_, e⟩ | ⟨hen, t, ha, e⟩ | ⟨_, f, _, e⟩ <;> rw [e]
  · exact .of_rest hec rfl rfl rfl rfl
  · cases a with
    | control => cases hen
    | edge p acc =>
      obtain rfl := Except.ok.inj ((State.edge_of_stopped hec).symm.trans ha)
      exact .of_rest hec rfl rfl rfl rfl
    | tick acc => exact absurd (hgt.symm.trans hen) nofun
    | transfer d =>
      by_cases hd : d = ch
      · subst hd
        exact h.transfer hp ha
      · exact absurd ((State.not_agentEnabled_of_idle (h.others d hd)).symm.trans hen) nofun
    | clock =>
      obtain rfl := Except.ok.inj ha
      exact .of_rest hec rfl rfl rfl rfl
  · exact .of_rest hec rfl rfl rfl rfl

end

/-- From the stop of both counters on: until the abort the gate is ready, and afterwards the machine is
calm; `c` and `g` are the channel and the GateTimer before the command. -/
def GateStarting (ch : ChanNo) (c : DmaChannel) (g : GateTimer) : InFlight → State → Prop
  | .gcAbort d, t => d = ch ∧ t.params.Legal ∧ t.GateReady ch ∧ t.ec.en = false ∧
      t.gt = { g with en := false } ∧ c.Advanced (t.chan ch)
  | .gcZero d, t => d = ch ∧ t.Calm ∧ t.gt = { g with en := false } ∧
      (t.chan ch).arm 1#32 = c.abort.arm 1#32
  | .gcArm d, t => d = ch ∧ t.Calm ∧ t.gt = { g with en := false, ctr := 0#16, dir := false } ∧
      t.ec.ctr = 0#16 ∧ (t.chan ch).arm 1#32 = c.abort.arm 1#32
  | .gcEnable, t => t.Calm ∧ t.gt = { g with en := false, ctr := 0#16, dir := false } ∧
      t.ec.ctr = 0#16 ∧ t.chan ch = c.abort.arm 1#32
  | _, _ => False

theorem gateStarting_kept (ch : ChanNo) (c : DmaChannel) (g : GateTimer) :
    KeptInFlight (GateStarting ch c g) fun u =>
      u.chan ch = c.abort.arm 1#32 ∧ u.ec.ctr = 0#16 ∧
        u.gt = { g with en := true, ctr := 0#16, dir := false } where
  turn m s ts h := by
    cases m
    case gcAbort =>
      obtain ⟨hd, hp, hready, hec, hrest⟩ := h
      exact ⟨hd, hp, hready.congr (.of_rest hec rfl rfl rfl rfl), hec, hrest⟩
    case gcZero | gcArm | gcEnable => exact h
    all_goals exact h.elim
  agent m s a h := by
    cases m
    case gcAbort =>
      obtain ⟨hd, hp, hready, hec, hgt, hadv⟩ := h
      have hk := hready.agentStep hp hec (congrArg GateTimer.en hgt) a
      exact ⟨hd, hk.params ▸ hp, hready.congr hk, hk.ec_en, hk.gt.trans hgt, hadv.trans hk.advanced⟩
    case gcZero =>
      obtain ⟨hd, hcalm, hgt, harm⟩ := h
      have hk := hcalm.agentStep a
      refine ⟨hd, hcalm.congr hk, (hk.gt (congrArg GateTimer.en hgt)).trans hgt, ?_⟩
      rwa [hk.chan]
    case gcArm =>
      obtain ⟨hd, hcalm, hgt, hrest⟩ := h
      have hk := hcalm.agentStep a
      refine ⟨hd, hcalm.congr hk, (hk.gt (congrArg GateTimer.en hgt)).trans hgt, ?_⟩
      rwa [hk.chan, hk.ec]
    case gcEnable =>
      obtain ⟨hcalm, hgt, hrest⟩ := h
      have hk := hcalm.agentStep a
      refine ⟨hcalm.congr hk, (hk.gt (congrArg GateTimer.en hgt)).trans hgt, ?_⟩
      rwa [hk.chan, hk.ec]
    all_goals exact h.elim
  micro m s h := by
    cases m
    case gcAbort d =>
      obtain ⟨rfl, hp, hready, hec, hgt, hadv⟩ := h
      have hchan : (s.gcAbortStep d).chan d = (s.chan d).abort := s.chan_setChan_self d _
      refine ⟨rfl, ⟨hec, fun x hb => absurd hb ?_⟩, hgt, ?_⟩
      · by_cases hx : x = d
        · rw [State.microStep, hx, hchan]
          exact Bool.false_ne_true
        · rw [State.microStep, State.chan_gcAbortStep, if_neg hx, hready.others x hx]
          exact Bool.false_ne_true
      · rw [State.microStep, hchan]
        exact hadv.arm_abort (by decide)
    case gcZero d =>
      obtain ⟨rfl, hcalm, hgt, harm⟩ := h
      have hzeroed := congrArg (fun g : GateTimer => { g with ctr := 0#16, dir := false }) hgt
      exact ⟨rfl, ⟨hcalm.1, hcalm.2⟩, hzeroed, rfl, harm⟩
    case gcArm d =>
      obtain ⟨rfl, hcalm, hgt, hctr, harm⟩ := h
      have hchan : (s.gcArmStep d).chan d = c.abort.arm 1#32 :=
        (s.chan_setChan_self d _).trans harm
      refine ⟨hcalm.of_chan (ch := d) rfl rfl (fun x hx => State.chan_setChan_ne _ _ hx) fun _ => ?_,
        hgt, hctr, hchan⟩
      rw [State.microStep, hchan]
      exact ⟨congrArg DmaChannel.pending (DmaChannel.arm_of_idle rfl (by decide)),
        fun _ => congrArg GateTimer.en hgt⟩
    case gcEnable =>
      obtain ⟨hcalm, hgt, hctr, hchan⟩ := h
      exact ⟨hchan, hctr, congrArg (fun g : GateTimer => { g with en := true }) hgt⟩
    all_goals exact h.elim

/-- GC_START among other agents' turns: the base claims, and the gate armed where it was ready. -/
theorem gcStart_ends {s : State} (hp : s.params.Legal) :
    Ends 4 (s.gcStopStep s.gc.ch) fun u =>
      (u.ec.en = true ∧ u.gt.en = true ∧ u.gcState = .running ∧ u.gcOvfTally = 0#32 ∧
        u.gcPrevSample = 0#16 ∧ (u.chan s.gc.ch).reload = 1#32 ∧ (u.chan s.gc.ch).en = true) ∧
      (s.GateReady s.gc.ch → u.chan s.gc.ch = (s.chan s.gc.ch).abort.arm 1#32 ∧ u.ec.ctr = 0#16 ∧
        u.gt = { s.gt with en := true, ctr := 0#16, dir := false }) := by
  refine Ends.and_of_imp ?_ fun hready => ?_
  · exact (gcStarting_kept s.gc.ch).ends (m := .gcAbort s.gc.ch) ⟨rfl, hp⟩ rfl rfl
  · have hstopped : State.GateReady (s.gcStopStep s.gc.ch) s.gc.ch := { hready with }
    exact (gateStarting_kept s.gc.ch (s.chan s.gc.ch) s.gt).ends (m := .gcAbort s.gc.ch)
      ⟨rfl, hp, hstopped, rfl, rfl, _, _, _, _, rfl⟩ rfl rfl

/-! ### TS_START, whatever the channels do -/

/-- TS_START's values stay those it began with, and once it has armed its channel no agent changes the
enable or RELOAD. -/
def TsStarting (ch : ChanNo) (cap : Word) : InFlight → State → Prop
  | .tsZero d _ n _, t => d = ch ∧ n = cap ∧ t.params.Legal
  | .tsReset d _ n, t => d = ch ∧ n = cap ∧ t.params.Legal
  | .tsAbort d _ n, t => d = ch ∧ n = cap ∧ t.params.Legal
  | .tsArm d _ n, t => d = ch ∧ n = cap ∧ t.params.Legal
  | .tsEnable, t => (t.chan ch).en = true ∧ (t.chan ch).reload = cap ∧ t.params.Legal
  | _, _ => False

theorem tsStarting_kept (ch : ChanNo) (cap : Word) : KeptInFlight (TsStarting ch cap) fun u =>
    u.ec.en = true ∧ (u.chan ch).en = true ∧ (u.chan ch).reload = cap where
  turn m s ts h := by
    cases m
    case tsZero | tsReset | tsAbort | tsArm | tsEnable => exact h
    all_goals exact h.elim
  agent m s a h := by
    have hk := s.agentStep_keeps a
    cases m
    case tsZero | tsReset | tsAbort | tsArm =>
      obtain ⟨hd, hn, hp⟩ := h
      exact ⟨hd, hn, hk.params ▸ hp⟩
    case tsEnable =>
      obtain ⟨hen, hreload, hp⟩ := h
      obtain ⟨hen', hreload'⟩ := State.agentStep_chan_setup hp a ch
      exact ⟨hen'.trans hen, hreload'.trans hreload, hk.params ▸ hp⟩
    all_goals exact h.elim
  micro m s h := by
    cases m
    case tsZero d base n i =>
      have hp := (s.zeroSlot_keeps base i).params
      obtain ⟨hd, hn, hlegal⟩ := h
      rw [State.microStep, State.tsZeroStep_inFlight, Option.elim_some]
      split <;> exact ⟨hd, hn, hp ▸ hlegal⟩
    case tsReset | tsAbort => exact h
    case tsArm d base n =>
      obtain ⟨rfl, rfl, hp⟩ := h
      have hchan : (s.tsArmStep d base n).chan d =
          DmaChannel.arm { s.chan d with writeAddr := base } n := s.chan_setChan_self d _
      obtain ⟨hreload, hen⟩ := DmaChannel.arm_setup { s.chan d with writeAddr := base } n
      exact ⟨(congrArg DmaChannel.en hchan).trans hen,
        (congrArg DmaChannel.reload hchan).trans hreload, hp⟩
    case tsEnable =>
      obtain ⟨hen, hreload, _⟩ := h
      exact ⟨rfl, hen, hreload⟩
    all_goals exact h.elim

/-! ### TS_START where no channel is busy and the counter is stopped -/

/-- Within TS_START from the state `s`: the machine is calm, RAM is that of `s` with the first `n` slots
zeroed, and the channel is `c`. -/
def BufferStage (s : State) (n : Nat) (c : DmaChannel) (t : State) : Prop :=
  t.Calm ∧ t.mem = s.mem.zeroSlots s.tsBase.toNat n ∧ t.chan s.ts.ch = c

/-- TS_START's micro-steps carry the values it began with. -/
def State.IsBuffer (s : State) (ch : ChanNo) (base cap : Word) : Prop :=
  ch = s.ts.ch ∧ base = s.tsBase ∧ cap = s.tsCapacity

/-- The stage at each micro-step of TS_START from the state `s`. -/
def BufferStarting (s : State) : InFlight → State → Prop
  | .tsZero d base cap i, t => s.IsBuffer d base cap ∧ i < cap.toNat ∧ t.params = s.params ∧
      BufferStage s i (s.chan s.ts.ch) t
  | .tsReset d base cap, t => s.IsBuffer d base cap ∧
      BufferStage s s.tsCapacity.toNat (s.chan s.ts.ch) t
  | .tsAbort d base cap, t => s.IsBuffer d base cap ∧ t.ec.ctr = 0#16 ∧
      BufferStage s s.tsCapacity.toNat (s.chan s.ts.ch) t
  | .tsArm d base cap, t => s.IsBuffer d base cap ∧ t.ec.ctr = 0#16 ∧
      BufferStage s s.tsCapacity.toNat (s.chan s.ts.ch).abort t
  | .tsEnable, t => t.ec.ctr = 0#16 ∧ BufferStage s s.tsCapacity.toNat s.tsArmed t
  | _, _ => False

section
variable {s t : State} {n : Nat} {c : DmaChannel}

theorem BufferStage.chan (h : BufferStage s n c t) : t.chan s.ts.ch = c := h.2.2

theorem BufferStage.agentStep (h : BufferStage s n c t) (a : Turn) :
    BufferStage s n c (t.agentStep a) ∧ (t.agentStep a).ec.ctr = t.ec.ctr := by
  obtain ⟨hcalm, hmem, hchan⟩ := h
  have hk := hcalm.agentStep a
  exact ⟨⟨hcalm.congr hk, hk.mem.trans hmem, (hk.chan _).trans hchan⟩, congrArg EdgeCounter.ctr hk.ec⟩

/-- A micro-step that puts `d` in the place of the channel, where `d` cannot transfer either. -/
theorem BufferStage.setChan {d : DmaChannel} {u : State} (h : BufferStage s n c t)
    (hu : u = { t.setChan s.ts.ch d with inFlight := u.inFlight })
    (hd : d.busy = true → d.pending = 0 ∧ d.treq ≠ gtTag) : BufferStage s n d u := by
  obtain ⟨hcalm, hmem, _⟩ := h
  have hchan : u.chan s.ts.ch = d := by
    rw [hu]
    exact t.chan_setChan_self s.ts.ch d
  refine ⟨hcalm.of_chan (ch := s.ts.ch) (by rw [hu]; rfl) (by rw [hu]; rfl) (fun x hx => ?_) ?_, ?_,
    hchan⟩
  · rw [hu]
    exact t.chan_setChan_ne d hx
  · rw [hchan]
    exact fun hb => ⟨(hd hb).1, fun htreq => absurd htreq (hd hb).2⟩
  · rw [hu]
    exact hmem

end

theorem bufferStarting_kept {s : State} (hp : s.params.Legal)
    (hbuf : s.params.bufferOk s.tsBase s.tsCapacity = true) (htreq : (s.chan s.ts.ch).treq = 0#6) :
    KeptInFlight (BufferStarting s) fun u => u.chan s.ts.ch = s.tsArmed ∧ u.ec.ctr = 0#16 ∧
      u.mem = s.mem.zeroSlots s.tsBase.toNat s.tsCapacity.toNat where
  turn m t ts h := by
    cases m
    case tsZero | tsReset | tsAbort | tsArm | tsEnable => exact h
    all_goals exact h.elim
  agent m t a h := by
    cases m
    case tsZero =>
      obtain ⟨hv, hi, hparams, hstage⟩ := h
      exact ⟨hv, hi, (t.agentStep_keeps a).params.trans hparams, (hstage.agentStep a).1⟩
    case tsReset =>
      obtain ⟨hv, hstage⟩ := h
      exact ⟨hv, (hstage.agentStep a).1⟩
    case tsAbort | tsArm =>
      obtain ⟨hv, hctr, hstage⟩ := h
      obtain ⟨hstage', hctr'⟩ := hstage.agentStep a
      exact ⟨hv, hctr'.trans hctr, hstage'⟩
    case tsEnable =>
      obtain ⟨hctr, hstage⟩ := h
      obtain ⟨hstage', hctr'⟩ := hstage.agentStep a
      exact ⟨hctr'.trans hctr, hstage'⟩
    all_goals exact h.elim
  micro m t h := by
    cases m
    case tsZero d base cap i =>
      obtain ⟨⟨rfl, rfl, rfl⟩, hi, hparams, hcalm, hmem, hchan⟩ := h
      rw [State.microStep, State.tsZeroStep_eq (hparams ▸ hp) (hparams ▸ hbuf) hi, hmem, Option.elim_some,
        InFlight.tsFrom]
      split
      next hnext => exact ⟨⟨rfl, rfl, rfl⟩, hnext, hparams, hcalm, rfl, hchan⟩
      next hend =>
        have hlast : i + 1 = s.tsCapacity.toNat := by omega
        exact ⟨⟨rfl, rfl, rfl⟩, hcalm, congrArg (s.mem.zeroSlots s.tsBase.toNat) hlast, hchan⟩
    case tsReset =>
      obtain ⟨hv, hcalm, hmem, hchan⟩ := h
      exact ⟨hv, rfl, ⟨hcalm.1, hcalm.2⟩, hmem, hchan⟩
    case tsAbort =>
      obtain ⟨⟨rfl, rfl, rfl⟩, hctr, hstage⟩ := h
      refine ⟨⟨rfl, rfl, rfl⟩, hctr, hstage.setChan (d := (s.chan s.ts.ch).abort) ?_ nofun⟩
      rw [State.microStep, State.tsAbortStep, hstage.chan]
    case tsArm =>
      obtain ⟨⟨rfl, rfl, rfl⟩, hctr, hstage⟩ := h
      refine ⟨hctr, hstage.setChan (d := s.tsArmed) ?_ fun _ => ?_⟩
      · rw [State.microStep, State.tsArmStep, hstage.chan]
        rfl
      · rw [s.tsArmed_eq (Params.cap_ne_zero_of_bufferOk hbuf)]
        exact ⟨rfl, htreq.trans_ne (by decide)⟩
    case tsEnable =>
      obtain ⟨hctr, _, hmem, hchan⟩ := h
      exact ⟨hchan, hctr, hmem⟩
    all_goals exact h.elim

theorem InFlight.left_tsFrom (ts : ChanNo) (base cap : Word) :
    (InFlight.tsFrom ts base cap 0).left = cap.toNat + 4 := by
  unfold InFlight.tsFrom
  split
  · simp only [InFlight.left]
    omega
  · simp only [InFlight.left]
    omega

/-- TS_START among other agents' turns: the base claims, and the capture armed where no channel was busy and
the counter was stopped. -/
theorem tsStart_ends {s : State} (hp : s.params.Legal) :
    Ends (s.tsCapacity.toNat + 3) (s.microStep (.tsFrom s.ts.ch s.tsBase s.tsCapacity 0)) fun u =>
      (u.ec.en = true ∧ (u.chan s.ts.ch).en = true ∧ (u.chan s.ts.ch).reload = s.tsCapacity) ∧
      ((∀ d, (s.chan d).busy = false) ∧ s.ec.en = false ∧ (s.chan s.ts.ch).treq = 0#6 ∧
          s.params.bufferOk s.tsBase s.tsCapacity = true →
        u.chan s.ts.ch = s.tsArmed ∧ u.ec.ctr = 0#16 ∧
          u.mem = s.mem.zeroSlots s.tsBase.toNat s.tsCapacity.toNat) := by
  have hleft := InFlight.left_tsFrom s.ts.ch s.tsBase s.tsCapacity
  refine Ends.and_of_imp ?_ fun ⟨hidle, hec, htreq, hbuf⟩ => ?_
  · refine (tsStarting_kept s.ts.ch s.tsCapacity).ends_microStep ?_ hleft
    unfold InFlight.tsFrom
    split <;> exact ⟨rfl, rfl, hp⟩
  · refine (bufferStarting_kept hp hbuf htreq).ends_microStep ?_ hleft
    have hpos := Params.cap_pos_of_bufferOk hbuf
    have hcalm : s.Calm := ⟨hec, fun d hb => absurd ((hidle d).symm.trans hb) nofun⟩
    rw [InFlight.tsFrom, if_pos hpos]
    exact ⟨⟨rfl, rfl, rfl⟩, hpos, rfl, hcalm, rfl, rfl⟩

/-- Settles O54: each start is a kept property, and each further clause one more. -/
theorem interleavedStartsEndArmed : Obligations.InterleavedStartsEndArmed := by
  unfold Obligations.InterleavedStartsEndArmed
  refine ⟨fun s hp hb _ _ => ?cx, fun s hp hg _ _ => ?gc, fun s hp hb _ _ => ?ts⟩
  case cx =>
    refine ⟨_, exec_cxStart_of_bound hb, (cxStart_ends hp).mono fun u hu => hu.trans ?_⟩
    exact DmaChannel.arm_of_idle rfl (by decide)
  case gc =>
    refine ⟨_, exec_gcStart_of_bound hg, (gcStart_ends hp).mono fun u hu => ?_⟩
    obtain ⟨⟨hec, hgt, hstate, htally, hprev, hreload, hen⟩, harmed⟩ := hu
    refine ⟨hec, hgt, hstate, htally, hprev, hreload, hen,
      fun hothers htreq hsize hir hiw hra hwa hstop => ?_⟩
    obtain ⟨hchan, hcounters⟩ := harmed ⟨hothers, htreq, hsize, hir, hiw, hra, hwa, hstop⟩
    exact ⟨hchan.trans (DmaChannel.arm_of_idle rfl (by decide)), hcounters⟩
  case ts =>
    refine ⟨_, exec_tsStart_of_bound hb, (tsStart_ends hp).mono fun u hu => ?_⟩
    obtain ⟨⟨hec, hen, hreload⟩, harmed⟩ := hu
    refine ⟨hec, hen, hreload, fun hidle hoff htreq hwf hbuf => ?_⟩
    obtain ⟨hchan, hctr, hmem⟩ := harmed ⟨hidle, hoff, htreq, hbuf⟩
    refine ⟨hchan.trans (s.tsArmed_eq (Params.cap_ne_zero_of_bufferOk hbuf)), hctr, fun a ha => ?_⟩
    rw [hmem, Memory.read_zeroSlots hwf]
    exact if_pos ha

end Sys2Proof.Machine
end

