-- ==== Sys2Proof/Proofs/GateTimer.lean ====
section
/-! PROOFS. The GateTimer's commands (43_gate_timer.md R91 to R96): the period that GT_CONFIGURE derives is
the requested one rounded down to whole steps, a step being PRESCALE × (PH_CORRECT + 1) input-clock cycles;
three of the five commands put a new GateTimer in the place of the old one, two change the result record
alone. -/

namespace Sys2Proof.Machine

/-! ### Word 0 of GT_CONFIGURE -/

theorem word0T_eq_or (opc : BitVec 8) (prescale pin : BitVec 8) : word0T opc prescale pin =
    opc.setWidth 32 <<< 24 ||| prescale.setWidth 32 <<< 8 ||| pin.setWidth 32 := by
  rw [word0T_eq, word0_eq_or (by decide), setWidth_append_eq_or, BitVec.or_assoc]

/-! ### The derived period -/

/-- PH_CORRECT + 1, the ticks of one step of the limit. -/
theorem toNat_add_one_eq_ite (b : Bool) : b.toNat + 1 = if b then 2 else 1 := by
  cases b <;> rfl

section
variable {prescale period : Nat} {ph : Bool} {wrap : BitVec 16}

theorem derivePeriod_eq_none_iff : derivePeriod prescale period = none ↔
    period / prescale = 0 ∨ 131072 < period / prescale := by
  unfold derivePeriod
  dsimp only
  split
  next h => exact iff_of_true rfl h
  next h => exact iff_of_false (by split <;> nofun) h

/-- The refused periods, as bounds on the request: less than one tick, or 131073 ticks and more. -/
theorem derivePeriod_eq_none_iff_period (hpos : 0 < prescale) : derivePeriod prescale period = none ↔
    period < prescale ∨ 131073 * prescale ≤ period := by
  rw [derivePeriod_eq_none_iff, Nat.div_eq_zero_iff_lt hpos, ← Nat.le_div_iff_mul_le hpos,
    Nat.succ_le_iff]

/-- An accepted period is phase-correct above 65536 ticks, and WRAP + 1 is its number of whole steps. -/
theorem derivePeriod_eq_some (h : derivePeriod prescale period = some (ph, wrap)) :
    (ph = true ↔ 65536 < period / prescale) ∧
      wrap.toNat + 1 = period / prescale / (ph.toNat + 1) := by
  unfold derivePeriod at h
  dsimp only at h
  generalize period / prescale = ticks at h ⊢
  split at h
  next => cases h
  next hrange =>
    split at h
    next hplain =>
      cases h
      refine ⟨iff_of_false nofun (Nat.not_lt.mpr hplain), ?_⟩
      rw [BitVec.toNat_ofNat, Bool.toNat_false, Nat.zero_add, Nat.div_one]
      omega
    next hplain =>
      cases h
      refine ⟨iff_of_true rfl (Nat.not_le.mp hplain), ?_⟩
      rw [BitVec.toNat_ofNat, Bool.toNat_true]
      omega

/-- The period obtained: the whole steps of the request (43_gate_timer.md R91). -/
theorem periodCycles_of_derivePeriod (h : derivePeriod prescale period = some (ph, wrap)) :
    periodCycles prescale ph wrap =
      prescale * (ph.toNat + 1) * (period / (prescale * (ph.toNat + 1))) := by
  obtain ⟨_, hwrap⟩ := derivePeriod_eq_some h
  rw [periodCycles, hwrap, Nat.div_div_eq_div_mul, Nat.mul_right_comm]

theorem periodCycles_le_of_derivePeriod (h : derivePeriod prescale period = some (ph, wrap)) :
    periodCycles prescale ph wrap ≤ period :=
  periodCycles_of_derivePeriod h ▸ Nat.mul_div_le _ _

end

/-- Settles O24: the period obtained is the request less its remainder by the step. -/
theorem derivedPeriodIsJustBelowTheRequest : Obligations.DerivedPeriodIsJustBelowTheRequest := by
  unfold Obligations.DerivedPeriodIsJustBelowTheRequest
  intro prescale period hpos _
  refine ⟨derivePeriod_eq_none_iff, fun ph wrap h => ?_⟩
  obtain ⟨hmode, hwrap⟩ := derivePeriod_eq_some h
  have hstep : 0 < prescale * (ph.toNat + 1) := Nat.mul_pos hpos (Nat.succ_pos _)
  refine ⟨hmode, ?wrap, periodCycles_le_of_derivePeriod h, ?shortfall⟩
  case wrap => cases ph <;> exact Nat.eq_sub_of_add_eq (hwrap.trans (by simp))
  case shortfall =>
    rw [periodCycles_of_derivePeriod h, ← toNat_add_one_eq_ite]
    exact Nat.lt_mul_div_succ period hstep

/-! ### The GateTimer in State -/

/-- A new GateTimer shows in those of its registers and of EN_MASK that read otherwise. -/
theorem State.setGt_frame {s : State} {c : GateTimer} {rs : List Reg} (r : Result)
    (hregs : ∀ q, q ∉ rs → ({ s with gt := c } : State).regRead q = s.regRead q) :
    Frame rs noBytes 0 s { s with gt := c, last := r } where
  regs := hregs
  pending _ _ := rfl
  ram _ _ := rfl
  clock := rfl
  levels := rfl
  faultMark := rfl
  params := rfl
  program := rfl
  pc := rfl
  t0 := rfl
  inFlight := rfl
  schedule := rfl

/-! ### GT_CONFIGURE -/

section
variable {s : State} {pin prescale : BitVec 8} {period : Word}

theorem gtConfigure_fails_of_pin (h : s.params.gtPinOk pin = false) :
    Fails (.gtConfigure pin prescale period) s 1#8 := by
  simp only [Fails, exec, execGtConfigure, if_pos h]
  rfl

theorem gtConfigure_fails_of_prescale (hpin : s.params.gtPinOk pin = true) (h : prescale = 0#8) :
    Fails (.gtConfigure pin prescale period) s 6#8 := by
  simp only [Fails, exec, execGtConfigure, hpin, if_pos h]
  rfl

theorem gtConfigure_fails_of_period (hpin : s.params.gtPinOk pin = true) (hpre : prescale ≠ 0#8)
    (h : derivePeriod prescale.toNat period.toNat = none) :
    Fails (.gtConfigure pin prescale period) s 2#8 := by
  simp only [Fails, exec, execGtConfigure, hpin, if_neg hpre, h]
  rfl

theorem exec_gtConfigure_of_derived (hpin : s.params.gtPinOk pin = true) (hpre : prescale ≠ 0#8)
    {ph : Bool} {wrap : BitVec 16}
    (h : derivePeriod prescale.toNat period.toNat = some (ph, wrap)) :
    exec (.gtConfigure pin prescale period) s = .next { s with
      gt := ⟨false, ph, false, 0#16, wrap, prescale, pin⟩
      last := okResult (BitVec.ofNat 32 (periodCycles prescale.toNat ph wrap)) false } := by
  simp only [exec, execGtConfigure, hpin, if_neg hpre, h]
  rfl

/-- The value returned is the period obtained, which fits a word, being at most the one in the command. -/
theorem toNat_ofNat_periodCycles {ph : Bool} {wrap : BitVec 16}
    (h : derivePeriod prescale.toNat period.toNat = some (ph, wrap)) :
    (BitVec.ofNat 32 (periodCycles prescale.toNat ph wrap)).toNat =
      prescale.toNat * (wrap.toNat + 1) * (if ph then 2 else 1) := by
  rw [← toNat_add_one_eq_ite]
  exact Nat.mod_eq_of_lt ((periodCycles_le_of_derivePeriod h).trans_lt period.isLt)

end

/-- Settles O23: the three checks in their order, then a stopped timer with the derived mode and limit. -/
theorem gtConfigureDerivesTheGate : Obligations.GtConfigureDerivesTheGate := by
  unfold Obligations.GtConfigureDerivesTheGate
  refine ⟨fun pin prescale period => ?_, reservedIllegal_of_row rfl rfl, fun s pin prescale period => ?_⟩
  · have hword := decode_encode (.gtConfigure pin prescale period)
    rw [encode, word0T_eq_or] at hword
    exact hword
  have hpos (h : prescale ≠ 0#8) : 0 < prescale.toNat :=
    Nat.pos_of_ne_zero fun h0 => h (BitVec.eq_of_toNat_eq h0)
  refine ⟨fun h => ?noPin, fun hlt h => ?noPrescale, fun hlt hpre h => ?refused,
    fun hlt hpre hlo hhi => ?derived⟩
  case noPin => exact gtConfigure_fails_of_pin (decide_eq_false (Nat.not_lt.mpr h))
  case noPrescale => exact gtConfigure_fails_of_prescale (decide_eq_true hlt) h
  case refused =>
    exact gtConfigure_fails_of_period (decide_eq_true hlt) hpre
      ((derivePeriod_eq_none_iff_period (hpos hpre)).mpr h)
  case derived =>
    have hsome : derivePeriod prescale.toNat period.toNat ≠ none := fun hnone =>
      ((derivePeriod_eq_none_iff_period (hpos hpre)).mp hnone).elim (Nat.not_lt.mpr hlo)
        (Nat.not_le.mpr hhi)
    obtain ⟨⟨ph, wrap⟩, h⟩ := Option.ne_none_iff_exists'.mp hsome
    obtain ⟨hmode, hwrap⟩ := derivePeriod_eq_some h
    refine ⟨_, exec_gtConfigure_of_derived (decide_eq_true hlt) hpre h,
      State.setGt_frame _ fun q hq => ?regs, rfl, rfl, rfl, rfl, rfl, rfl, rfl, ?mode, ?plain,
      ?phCorrect, ?value⟩
    case regs => cases q <;> simp at hq <;> rfl
    case mode => rwa [← Nat.le_div_iff_mul_le (hpos hpre), Nat.succ_le_iff]
    case plain =>
      rintro rfl
      exact hwrap.trans (Nat.div_one _)
    case phCorrect =>
      rintro rfl
      exact hwrap
    case value => exact toNat_ofNat_periodCycles h

/-! ### The commands without operands to check -/

/-- Settles O25: the count shows in GT_CTR, DIR and EN in GT_CTRL, and EN in EN_MASK too. -/
theorem gtResetAndSetEnabledWriteTheirFields : Obligations.GtResetAndSetEnabledWriteTheirFields := by
  unfold Obligations.GtResetAndSetEnabledWriteTheirFields
  refine ⟨decode_encode .gtReset, reservedIllegal_of_row rfl rfl, fun b => ?_,
    reservedIllegal_of_row rfl rfl, fun s => ?reset, fun s b => ?enabled⟩
  · cases b
    · exact decode_encode (.gtSetEnabled false)
    · exact decode_encode (.gtSetEnabled true)
  case reset =>
    refine ⟨_, rfl, State.setGt_frame _ fun q hq => ?_, rfl, rfl, rfl, rfl, rfl⟩
    cases q <;> simp at hq <;> rfl
  case enabled =>
    refine ⟨_, rfl, State.setGt_frame _ fun q hq => ?_, rfl, rfl, rfl, rfl, rfl⟩
    cases q <;> simp at hq <;> rfl

/-- Settles O26: the two commands change their result record alone. -/
theorem gtReadAndGetTagReturnAndChangeNothing : Obligations.GtReadAndGetTagReturnAndChangeNothing := by
  unfold Obligations.GtReadAndGetTagReturnAndChangeNothing
  refine ⟨decode_encode .gtRead, reservedIllegal_of_row rfl rfl, decode_encode .gtGetTag,
    reservedIllegal_of_row rfl rfl, fun s => ?_, fun s => ?_⟩
  · exact completes_of_record rfl ⟨rfl, BitVec.toNat_setWidth_of_le (by decide), rfl⟩
  · exact completes_of_record rfl rfl

end Sys2Proof.Machine
end

