-- ==== Sys2Proof/Proofs/GateTimerTick.lean ====
section
/-! PROOFS. The GateTimer's tick (43_gate_timer.md R89, R90): its six cases, its expiry event, and the cycle
of its count. The phase is the number of ticks since the count last started up from 0; it goes round the
cycle one tick at a time, and the tick that ends the cycle is the one that expires. -/

namespace Sys2Proof.Machine

/-! ### One tick of the count -/

section
variable {c : GateTimer}

theorem GateTimer.tick_plain_at_wrap (hm : c.phCorrect = false) (hw : c.ctr = c.wrap) :
    c.tick = { c with ctr := 0#16 } := by
  rw [GateTimer.tick, if_pos hm, if_pos hw]

theorem GateTimer.tick_plain_below_wrap (hm : c.phCorrect = false) (hw : c.ctr ≠ c.wrap) :
    c.tick = { c with ctr := c.ctr + 1#16 } := by
  rw [GateTimer.tick, if_pos hm, if_neg hw]

theorem GateTimer.tick_up_at_wrap (hm : c.phCorrect = true) (hd : c.dir = false)
    (hw : c.ctr = c.wrap) : c.tick = { c with dir := true } := by
  rw [GateTimer.tick, if_neg (ne_false_of_eq_true hm), if_pos hd, if_pos hw]

theorem GateTimer.tick_up_below_wrap (hm : c.phCorrect = true) (hd : c.dir = false)
    (hw : c.ctr ≠ c.wrap) : c.tick = { c with ctr := c.ctr + 1#16 } := by
  rw [GateTimer.tick, if_neg (ne_false_of_eq_true hm), if_pos hd, if_neg hw]

theorem GateTimer.tick_down_at_zero (hm : c.phCorrect = true) (hd : c.dir = true)
    (h0 : c.ctr = 0#16) : c.tick = { c with dir := false } := by
  rw [GateTimer.tick, if_neg (ne_false_of_eq_true hm), if_neg (ne_false_of_eq_true hd), if_pos h0]

theorem GateTimer.tick_down_above_zero (hm : c.phCorrect = true) (hd : c.dir = true)
    (h0 : c.ctr ≠ 0#16) : c.tick = { c with ctr := c.ctr - 1#16 } := by
  rw [GateTimer.tick, if_neg (ne_false_of_eq_true hm), if_neg (ne_false_of_eq_true hd), if_neg h0]

/-- The model's test for the expiry event is R89's. -/
theorem GateTimer.expires_iff : c.expires = true ↔
    (c.phCorrect = false ∧ c.ctr = c.wrap) ∨ (c.phCorrect = true ∧ c.dir = true ∧ c.ctr = 0#16) := by
  unfold GateTimer.expires
  cases c.phCorrect <;> simp

end

/-! ### One tick of the machine -/

theorem State.gtTick_of_not_expires {s : State} {acc : BitVec 16} (hx : ¬ s.gt.expires = true) :
    s.gtTick acc = .ok { s with gt := s.gt.tick } := by
  unfold State.gtTick
  exact if_neg hx

theorem State.gtTick_of_expires {s : State} {acc : BitVec 16} (hx : s.gt.expires = true) :
    s.gtTick acc = State.emit { s with gt := s.gt.tick } 1#6 acc := by
  unfold State.gtTick
  exact if_pos hx

section
variable {s : State} {acc : BitVec 16} (hen : s.gt.en = true)
include hen

theorem State.agentEnabled_tick : s.agentEnabled (.tick acc) = true := hen

theorem State.agentStep_tick_quiet (hx : ¬ s.gt.expires = true) :
    s.agentStep (.tick acc) = { s with gt := s.gt.tick } :=
  State.agentStep_of_act (State.agentEnabled_tick hen) (State.gtTick_of_not_expires hx)

/-- The event reads the channels and the parameters alone, which the count leaves. -/
theorem State.agentStep_tick_overrun (hx : s.gt.expires = true) (ho : WouldOverrun 1#6 acc s) :
    s.agentStep (.tick acc) = { s with faultMark := some .dreqOverrun } :=
  State.agentStep_of_fault (State.agentEnabled_tick hen)
    ((State.gtTick_of_expires hx).trans (State.emit_of_overrun ho))

theorem State.agentStep_tick_event (hx : s.gt.expires = true) (ho : ¬ WouldOverrun 1#6 acc s) :
    Delivered 1#6 acc s (s.agentStep (.tick acc)) ∧ s.agentStep (.tick acc) =
      { s with gt := s.gt.tick, dma := (s.agentStep (.tick acc)).dma } := by
  obtain ⟨t, he⟩ := State.emit_of_not_overrun (s := { s with gt := s.gt.tick }) ho
  obtain ⟨_, hframe, _⟩ := State.emit_ok he
  rw [State.agentStep_of_act (State.agentEnabled_tick hen) ((State.gtTick_of_expires hx).trans he)]
  exact ⟨(State.emit_delivered he :), hframe⟩

theorem State.gt_agentStep_tick (h : ¬ (s.gt.expires = true ∧ WouldOverrun 1#6 acc s)) :
    (s.agentStep (.tick acc)).gt = s.gt.tick := by
  by_cases hx : s.gt.expires = true
  · obtain ⟨_, hframe⟩ := State.agentStep_tick_event hen hx fun ho => h ⟨hx, ho⟩
    exact congrArg State.gt hframe
  · exact congrArg State.gt (State.agentStep_tick_quiet hen hx)

end

/-- Settles O45: the step's three outcomes, and the count of the two that do not overrun. -/
theorem gateTimerTicks : Obligations.GateTimerTicks := by
  unfold Obligations.GateTimerTicks
  refine ⟨fun _ _ => rfl, ?_⟩
  rintro s t acc g expiry rfl hen rfl hexpiry
  obtain rfl : expiry = (s.gt.expires = true) :=
    propext (hexpiry.trans GateTimer.expires_iff.symm)
  refine ⟨State.agentStep_tick_overrun hen, fun hx ho => ?event, fun hx => ?quiet, fun h => ?count⟩
  case event =>
    obtain ⟨hdelivered, hframe⟩ := State.agentStep_tick_event hen hx ho
    refine ⟨hdelivered, ?_⟩
    rwa [State.gt_agentStep_tick hen fun h => ho h.2]
  case quiet => rw [State.agentStep_tick_quiet hen hx]
  case count =>
    rw [State.gt_agentStep_tick hen h]
    exact ⟨GateTimer.tick_plain_at_wrap, GateTimer.tick_plain_below_wrap, GateTimer.tick_up_at_wrap,
      GateTimer.tick_up_below_wrap, GateTimer.tick_down_at_zero, GateTimer.tick_down_above_zero⟩

/-! ### The cycle of the count -/

/-- The ticks from one expiry to the next (43_gate_timer.md R90). -/
def GateTimer.cycle (c : GateTimer) : Nat := (c.wrap.toNat + 1) * (if c.phCorrect then 2 else 1)

/-- The ticks since the count last started up from 0; in plain mode DIR is not read. -/
def GateTimer.phase (c : GateTimer) : Nat :=
  if c.phCorrect = true ∧ c.dir = true then 2 * c.wrap.toNat + 1 - c.ctr.toNat else c.ctr.toNat

section
variable {c : GateTimer}

theorem GateTimer.cycle_of_plain (hm : c.phCorrect = false) : c.cycle = c.wrap.toNat + 1 := by
  simp [GateTimer.cycle, hm]

theorem GateTimer.cycle_of_phCorrect (hm : c.phCorrect = true) :
    c.cycle = (c.wrap.toNat + 1) * 2 := by
  simp [GateTimer.cycle, hm]

theorem GateTimer.phase_of_plain (hm : c.phCorrect = false) : c.phase = c.ctr.toNat := by
  simp [GateTimer.phase, hm]

theorem GateTimer.phase_of_up (hd : c.dir = false) : c.phase = c.ctr.toNat := by
  simp [GateTimer.phase, hd]

theorem GateTimer.phase_of_down (hm : c.phCorrect = true) (hd : c.dir = true) :
    c.phase = 2 * c.wrap.toNat + 1 - c.ctr.toNat :=
  if_pos ⟨hm, hd⟩

theorem GateTimer.cycle_tick (c : GateTimer) : c.tick.cycle = c.cycle := by
  obtain ⟨_, hmode, hwrap, _⟩ := c.tick_keeps
  rw [GateTimer.cycle, GateTimer.cycle, hmode, hwrap]

/-- A count within the limit stays there. -/
theorem GateTimer.ctr_tick_le_wrap (h : c.ctr.toNat ≤ c.wrap.toNat) :
    c.tick.ctr.toNat ≤ c.tick.wrap.toNat := by
  unfold GateTimer.tick
  split_ifs <;> bv_omega

/-- Everything a tick can do to the phase: it moves on within the cycle, or, expiring, starts the next. -/
theorem GateTimer.phase_tick_cases (h : c.ctr.toNat ≤ c.wrap.toNat) :
    (c.expires = true ∧ c.phase + 1 = c.cycle ∧ c.tick.phase = 0) ∨
    (c.expires = false ∧ c.phase + 1 < c.cycle ∧ c.tick.phase = c.phase + 1) := by
  rw [← Bool.not_eq_true, GateTimer.expires_iff]
  cases hm : c.phCorrect with
  | false =>
    by_cases hw : c.ctr = c.wrap
    · simp [GateTimer.tick_plain_at_wrap hm hw, GateTimer.phase_of_plain,
        GateTimer.cycle_of_plain hm, hm, hw]
    · simp [GateTimer.tick_plain_below_wrap hm hw, GateTimer.phase_of_plain,
        GateTimer.cycle_of_plain hm, hm, hw]
      bv_omega
  | true =>
    cases hd : c.dir with
    | false =>
      by_cases hw : c.ctr = c.wrap
      · simp [GateTimer.tick_up_at_wrap hm hd hw, GateTimer.phase_of_up, GateTimer.phase_of_down,
          GateTimer.cycle_of_phCorrect hm, hm, hd]
        bv_omega
      · simp [GateTimer.tick_up_below_wrap hm hd hw, GateTimer.phase_of_up,
          GateTimer.cycle_of_phCorrect hm, hd]
        bv_omega
    | true =>
      by_cases h0 : c.ctr = 0#16
      · simp [GateTimer.tick_down_at_zero hm hd h0, GateTimer.phase_of_down, GateTimer.phase_of_up,
          GateTimer.cycle_of_phCorrect hm, hm, hd, h0]
        omega
      · simp [GateTimer.tick_down_above_zero hm hd h0, GateTimer.phase_of_down,
          GateTimer.cycle_of_phCorrect hm, hm, hd, h0]
        bv_omega

/-- The expiring tick is the one that starts the cycle again. -/
theorem GateTimer.expires_iff_phase_tick (h : c.ctr.toNat ≤ c.wrap.toNat) :
    c.expires = true ↔ c.tick.phase = 0 := by
  rcases GateTimer.phase_tick_cases h with ⟨hx, _, hphase⟩ | ⟨hx, _, hphase⟩ <;> simp [hx, hphase]

theorem GateTimer.phase_tick (h : c.ctr.toNat ≤ c.wrap.toNat) :
    c.tick.phase = (c.phase + 1) % c.cycle := by
  rcases GateTimer.phase_tick_cases h with ⟨_, hlast, hphase⟩ | ⟨_, hlt, hphase⟩
  · rw [hphase, hlast, Nat.mod_self]
  · rw [hphase, Nat.mod_eq_of_lt hlt]

/-- From 0, counting up, the phase after `n` ticks is what `n` leaves by the cycle. -/
theorem GateTimer.phase_iterate_tick (h0 : c.ctr = 0#16) (hd : c.dir = false) (n : Nat) :
    (GateTimer.tick^[n] c).ctr.toNat ≤ (GateTimer.tick^[n] c).wrap.toNat ∧
      (GateTimer.tick^[n] c).cycle = c.cycle ∧ (GateTimer.tick^[n] c).phase = n % c.cycle := by
  induction n with
  | zero => simp [GateTimer.phase, h0, hd]
  | succ n ih =>
    obtain ⟨hle, hcycle, hphase⟩ := ih
    rw [Function.iterate_succ_apply']
    refine ⟨GateTimer.ctr_tick_le_wrap hle, (GateTimer.cycle_tick _).trans hcycle, ?_⟩
    rw [GateTimer.phase_tick hle, hcycle, hphase, Nat.mod_add_mod]

end

/-- Settles O46: the tick after `n` ticks expires where it brings the phase, `(n + 1) % period`, to 0. -/
theorem expiryComesEveryPeriod : Obligations.ExpiryComesEveryPeriod := by
  unfold Obligations.ExpiryComesEveryPeriod
  rintro g period h0 hd rfl
  refine ⟨fun n => ?expires, ?cycles⟩
  case expires =>
    obtain ⟨hle, _, _⟩ := GateTimer.phase_iterate_tick h0 hd n
    obtain ⟨_, _, hphase⟩ := GateTimer.phase_iterate_tick h0 hd (n + 1)
    rw [GateTimer.expires_iff_phase_tick hle, ← Function.iterate_succ_apply' GateTimer.tick, hphase]
    exact (Nat.dvd_iff_mod_eq_zero ..).symm
  case cycles => rw [GateTimer.gatePeriodCycles, periodCycles, toNat_add_one_eq_ite, Nat.mul_assoc]

end Sys2Proof.Machine
end

