-- ==== Sys2Proof/Proofs/GateController.lean ====
section
/-! PROOFS. The GateController's commands (44_gate_controller.md R99 to R103): the binding of GC_INIT,
GC_START without another agent's step, and the three commands that read or write the controller's own
registers. -/

namespace Sys2Proof.Machine

/-! ### GC_INIT -/

theorem State.ownedByOther_gc_iff {s : State} {ch : ChanNo} : s.ownedByOther .gc ch = true ↔
    (s.cx.bound = true ∧ s.cx.ch = ch) ∨ (s.ts.bound = true ∧ s.ts.ch = ch) := by
  simp [State.ownedByOther, State.owns, State.binding]

/-- BIND above the GateController's part. -/
def State.bindAboveGc (s : State) : BitVec 19 :=
  0#11 ++ (BitVec.ofBool s.ts.bound ++ (s.ts.ch ++ 0#3))

/-- BIND below the GateController's part. -/
def State.bindBelowGc (s : State) : BitVec 8 :=
  0#3 ++ (BitVec.ofBool s.cx.bound ++ s.cx.ch)

theorem State.bindWord_eq_append_gc (s : State) : s.bindWord =
    s.bindAboveGc ++ ((BitVec.ofBool s.gc.bound ++ s.gc.ch) ++ s.bindBelowGc) := by
  rw [← BitVec.toNat_inj, State.bindWord, State.bindAboveGc, State.bindBelowGc]
  simp only [toNat_append_eq_add, BitVec.toNat_ofNat]
  omega

theorem State.bindWord_bindGc (s : State) (ch : ChanNo) : (s.bindGc ch).bindWord =
    (s.bindWord &&& 0xFFFFE0FF#32) ||| 0x1000#32 ||| (ch.setWidth 32 <<< 8) := by
  have hmask : 0xFFFFE0FF#32 = BitVec.allOnes 19 ++ (0#5 ++ BitVec.allOnes 8) := by decide
  have hgc : 0x1000#32 ||| (ch.setWidth 32 <<< 8) = 0#19 ++ ((BitVec.ofBool true ++ ch) ++ 0#8) := by
    revert ch
    decide
  rw [BitVec.or_assoc, hgc, State.bindWord_eq_append_gc, State.bindWord_eq_append_gc s, hmask,
    BitVec.and_append, BitVec.and_append, BitVec.or_append, BitVec.or_append]
  simp only [BitVec.and_allOnes, BitVec.and_zero, BitVec.or_zero, BitVec.zero_or]
  rfl

/-- The gate channel as GC_INIT leaves it (44_gate_controller.md R99). -/
def State.gateChannel (s : State) (ch : ChanNo) : DmaChannel :=
  { (s.chan ch).bindTo (s.params.regAddr .gcStopval) (s.params.regAddr .ecCtrl) false gtTag with
    reload := 1#32 }

theorem State.chan_bindGc (s : State) (ch : ChanNo) : (s.bindGc ch).chan ch = s.gateChannel ch :=
  s.chan_setChan_self ch _

/-- Of CTRL, BUSY and ERR stay; SIZE and the GateTimer's tag are set. -/
theorem State.ctrlWord_gateChannel (s : State) (ch : ChanNo) : (s.gateChannel ch).ctrlWord =
    ((s.chan ch).ctrlWord &&& 0x21000000#32) ||| 0x12#32 :=
  (s.chan ch).ctrlWord_bindTo (s.params.regAddr .gcStopval) (s.params.regAddr .ecCtrl) false gtTag

/-- Binding the channel writes its addresses, its control and its RELOAD, the stop value, BIND and
GC_STATE. -/
theorem State.bindGc_frame (s : State) (ch : ChanNo) (r : Result) :
    Frame [.gcStopval, .dma ch .readAddr, .dma ch .writeAddr, .dma ch .ctrl, .dma ch .reload, .bind,
      .gcState] noBytes 0 s { s.bindGc ch with last := r } := by
  have hchan := State.setChan_frame (s := s) (ch := ch) (c := s.gateChannel ch)
    (rs := [.gcStopval, .dma ch .readAddr, .dma ch .writeAddr, .dma ch .ctrl, .dma ch .reload, .bind,
      .gcState])
    (fun q hq => by cases q <;> simp at hq <;> rfl) fun _ => rfl
  refine { hchan with regs := fun q hq => ?_ }
  rw [← hchan.regs q hq]
  cases q
  case gcStopval | bind | gcState => simp at hq
  all_goals rfl

/-- What the binding command leaves in its channel, as the bus reads it. -/
theorem State.regRead_bindGc_dma (s : State) (ch : ChanNo) (q : DmaReg) :
    (s.bindGc ch).regRead (.dma ch q) = (s.gateChannel ch).readReg q :=
  congrArg (DmaChannel.readReg · q) (s.chan_bindGc ch)

section
variable {s : State} {ch : ChanNo}

theorem gcInit_fails_of_absent (h : s.params.hasChannel ch = false) : Fails (.gcInit ch) s 6#8 := by
  simp only [Fails, exec, execGcInit, if_pos h]
  rfl

theorem gcInit_fails_of_owned (hch : s.params.hasChannel ch = true)
    (h : s.ownedByOther .gc ch = true) : Fails (.gcInit ch) s 7#8 := by
  simp only [Fails, exec, execGcInit, hch, if_pos h]
  rfl

theorem exec_gcInit_of_free (hch : s.params.hasChannel ch = true)
    (hfree : ¬ s.ownedByOther .gc ch = true) :
    exec (.gcInit ch) s = .next { s.bindGc ch with last := okResult 0#32 false } := by
  simp only [exec, execGcInit, hch, if_neg hfree]
  rfl

end

/-- Settles O31: the two checks in their order, then the binding. -/
theorem gcInitCapturesTheStopValue : Obligations.GcInitCapturesTheStopValue := by
  unfold Obligations.GcInitCapturesTheStopValue
  refine ⟨fun ch => ?_, reservedIllegal_of_row rfl rfl, fun s ch => ?_⟩
  · have hword := decode_encode (.gcInit ch)
    rw [encode, word0C_eq_or] at hword
    exact hword
  · refine ⟨fun h => ?absent, fun hlt h => ?owned, fun hlt hcx hts => ?bound⟩
    case absent =>
      exact gcInit_fails_of_absent (decide_eq_false (Nat.not_lt.mpr h))
    case owned =>
      exact gcInit_fails_of_owned (decide_eq_true hlt) (State.ownedByOther_gc_iff.mpr h)
    case bound =>
      have hfree : ¬ s.ownedByOther .gc ch = true := fun h =>
        (State.ownedByOther_gc_iff.mp h).elim hcx hts
      exact ⟨_, exec_gcInit_of_free (decide_eq_true hlt) hfree, s.bindGc_frame ch _, rfl, rfl,
        s.regRead_bindGc_dma ch .readAddr,
        (s.regRead_bindGc_dma ch .writeAddr).trans (BitVec.add_zero _),
        (s.regRead_bindGc_dma ch .ctrl).trans (s.ctrlWord_gateChannel ch),
        s.regRead_bindGc_dma ch .reload, rfl, s.bindWord_bindGc ch⟩

/-! ### GC_START without another agent's step -/

/-- With no other agent's step between its five micro-steps, the command ends as `gcStarted` says. -/
theorem finish_gcStopStep {s : State} (hf : s.faultMark = none) (hq : Quiet 4 s) :
    State.finish 4 (s.gcStopStep s.gc.ch) =
      .next { s.gcStarted with schedule := s.schedule.drop 4 } := by
  let s1 := s.gcStopStep s.gc.ch
  let s2 := State.gcAbortStep { s1 with schedule := s1.schedule.drop 1 } s.gc.ch
  let s3 := State.gcZeroStep { s2 with schedule := s2.schedule.drop 1 } s.gc.ch
  let s4 := State.gcArmStep { s3 with schedule := s3.schedule.drop 1 } s.gc.ch
  have hq2 : Quiet 3 s2 := hq.drop rfl
  have hq3 : Quiet 2 s3 := hq2.drop rfl
  have hq4 : Quiet 1 s4 := hq3.drop rfl
  have hend : State.gcEnableStep { s4 with schedule := s4.schedule.drop 1 } =
      { s.gcStarted with schedule := s.schedule.drop 4 } := by
    simp [s4, s3, s2, s1, State.gcStarted, State.gcEnableStep, State.gcArmStep, State.gcZeroStep,
      State.gcAbortStep, State.gcStopStep, State.setEnables, State.setChan, State.chan, State.ret,
      okResult, Status.code]
  calc State.finish 4 s1
      = State.finish 3 s2 := State.finish_micro (s := s1) hf (hq.mono (by decide) rfl) rfl 3
    _ = State.finish 2 s3 := State.finish_micro (s := s2) hf (hq2.mono (by decide) rfl) rfl 2
    _ = State.finish 1 s4 := State.finish_micro (s := s3) hf (hq3.mono (by decide) rfl) rfl 1
    _ = .next (State.gcEnableStep { s4 with schedule := s4.schedule.drop 1 }) :=
      State.finish_micro (s := s4) hf hq4 rfl 0
    _ = .next { s.gcStarted with schedule := s.schedule.drop 4 } := congrArg Host.Outcome.next hend

/-- The gate channel as GC_START leaves it: aborted, then armed for one transfer. -/
theorem State.chan_gcStarted (s : State) : s.gcStarted.chan s.gc.ch = { s.chan s.gc.ch with
    en := true, busy := true, pending := 0, err := false, count := 1#32, reload := 1#32 } :=
  (s.chan_setChan_self s.gc.ch _).trans (DmaChannel.arm_of_idle rfl (by decide))

/-- The registers GC_START writes beside its channel's. -/
def gcStartRegs : List Reg :=
  [.ecCtrl, .gtCtrl, .enMask, .ecCtr, .gtCtr, .gcPrevSample, .gcOvfTally, .gcState]

theorem State.gcStarted_frame {s : State} (hm : s.inFlight = none) :
    Frame (channelRegs s.gc.ch ++ gcStartRegs) noBytes 0 s s.gcStarted := by
  have hchan := (State.setChan_frame_channelRegs (s := s) (ch := s.gc.ch)
    (c := (s.chan s.gc.ch).abort.arm 1#32)).mono
      (List.subset_append_left (channelRegs s.gc.ch) gcStartRegs)
  refine { hchan with regs := fun q hq => ?_, inFlight := hm.symm }
  rw [← hchan.regs q hq]
  cases q
  case ecCtrl | gtCtrl | enMask | ecCtr | gtCtr | gcPrevSample | gcOvfTally | gcState =>
    simp [gcStartRegs] at hq
  all_goals rfl

/-- Before GC_INIT GC_START fails. -/
theorem gcStart_fails {s : State} (hg : s.gcState = .idle) : Fails .gcStart s 8#8 := by
  simp only [Fails, exec, execGcStart, if_pos hg]
  rfl

/-- Settles O32: the first micro-step is `gcStopStep`, the whole command `gcStarted`. -/
theorem gcStartOpensTheGate : Obligations.GcStartOpensTheGate := by
  unfold Obligations.GcStartOpensTheGate
  refine ⟨decode_encode .gcStart, reservedIllegal_of_row rfl rfl, fun s => gcStart_fails,
    fun s => exec_gcStart_of_bound, fun s hg hf hm hq => ?quiet⟩
  exact ⟨_, _, exec_gcStart_of_bound hg, finish_gcStopStep hf hq,
    { s.gcStarted_frame hm with schedule := rfl }, rfl, s.chan_gcStarted, rfl, rfl, rfl, rfl, rfl⟩

/-! ### The polls -/

/-- The controller's state, tally and sample show in their own registers alone. -/
theorem State.setGc_frame {s : State} {g : GcState} {tally : Word} {prev : BitVec 16} {rs : List Reg}
    (r : Result) (hregs : ∀ q, q ∉ rs →
      ({ s with gcState := g, gcOvfTally := tally, gcPrevSample := prev } : State).regRead q =
        s.regRead q) :
    Frame rs noBytes 0 s
      { s with gcState := g, gcOvfTally := tally, gcPrevSample := prev, last := r } where
  regs := hregs
  pending _ _ := rfl
  ram _ _ := rfl
  clock := rfl
  levels := rfl
  faultMark := rfl
  params := rfl
  program := rfl
  pc := rfl
  t0 := rfl
  inFlight := rfl
  schedule := rfl

/-- GC_STATE after a poll that finds BUSY `b` (44_gate_controller.md R101). -/
def GcState.polled (g : GcState) (b : Bool) : GcState :=
  if b = false ∧ g = .running then .expired else g

theorem GcState.code_polled (g : GcState) (b : Bool) : (g.polled b).code.setWidth 32 =
    if b = false ∧ g.code.setWidth 32 = 2#32 then 3#32 else g.code.setWidth 32 := by
  cases g <;> cases b <;> decide

section
variable {s : State}

theorem gcIsBusy_fails (hg : s.gcState = .idle) : Fails .gcIsBusy s 8#8 := by
  simp only [Fails, exec, execGcIsBusy, if_pos hg]
  rfl

theorem exec_gcIsBusy_of_bound (hg : s.gcState ≠ .idle) : exec .gcIsBusy s = .next { s with
    gcState := s.gcState.polled (s.chan s.gc.ch).busy
    last := okResult ((BitVec.ofBool (s.chan s.gc.ch).busy).setWidth 32) false } := by
  simp only [exec, execGcIsBusy, if_neg hg]
  rfl

theorem gcRead_fails (hg : s.gcState = .idle) : Fails .gcRead s 8#8 := by
  simp only [Fails, exec, execGcRead, if_pos hg]
  rfl

theorem exec_gcRead_of_bound (hg : s.gcState ≠ .idle) : exec .gcRead s =
    .next { s with last := okResult (s.ec.ctr.setWidth 32) (validFlag s.gcState) } := by
  simp only [exec, execGcRead, if_neg hg]
  rfl

/-- The tally after a sample of the count (44_gate_controller.md R103). -/
def State.sampledTally (s : State) : Word :=
  if s.ec.ctr.toNat < s.gcPrevSample.toNat then tallyUp s.gcOvfTally else s.gcOvfTally

theorem gcPollOverflow_fails (hg : s.gcState = .idle) : Fails .gcPollOverflow s 8#8 := by
  simp only [Fails, exec, execGcPollOverflow, if_pos hg]
  rfl

theorem exec_gcPollOverflow_of_bound (hg : s.gcState ≠ .idle) : exec .gcPollOverflow s = .next { s with
    gcOvfTally := s.sampledTally, gcPrevSample := s.ec.ctr
    last := okResult s.sampledTally (overflowHint s.sampledTally) } := by
  simp only [exec, execGcPollOverflow, if_neg hg]
  rfl

end

/-- Settles O33: the poll changes GC_STATE as `polled` says, and its result record. -/
theorem gcIsBusyPollsTheGateChannel : Obligations.GcIsBusyPollsTheGateChannel := by
  unfold Obligations.GcIsBusyPollsTheGateChannel
  refine ⟨decode_encode .gcIsBusy, reservedIllegal_of_row rfl rfl, fun s => gcIsBusy_fails,
    fun s hg => ?bound⟩
  refine ⟨_, exec_gcIsBusy_of_bound hg, State.setGc_frame _ fun q hq => ?regs, rfl, rfl, ?value,
    s.gcState.code_polled _⟩
  case regs => cases q <;> simp at hq <;> rfl
  case value => cases (s.chan s.gc.ch).busy <;> rfl

theorem validFlag_iff (g : GcState) : validFlag g = true ↔ g.code.setWidth 32 = 3#32 := by
  cases g <;> decide

/-- Settles O34: the command changes its result record alone. -/
theorem gcReadReturnsTheGatedCount : Obligations.GcReadReturnsTheGatedCount := by
  unfold Obligations.GcReadReturnsTheGatedCount
  refine ⟨decode_encode .gcRead, reservedIllegal_of_row rfl rfl, fun s => gcRead_fails,
    fun s hg => ?bound⟩
  exact completes_of_record (exec_gcRead_of_bound hg)
    ⟨rfl, BitVec.toNat_setWidth_of_le (by decide), validFlag_iff s.gcState⟩

/-- The tally saturates at UINT32_MAX (44_gate_controller.md R103). -/
theorem tallyUp_toNat (tally : Word) : (tallyUp tally).toNat = min (tally.toNat + 1) 4294967295 := by
  unfold tallyUp
  split
  next h => rw [h]; rfl
  next h => bv_omega

theorem State.sampledTally_toNat (s : State) : s.sampledTally.toNat =
    if s.ec.ctr.toNat < s.gcPrevSample.toNat then min (s.gcOvfTally.toNat + 1) 4294967295
      else s.gcOvfTally.toNat := by
  unfold State.sampledTally
  split
  · exact tallyUp_toNat s.gcOvfTally
  · rfl

theorem overflowHint_iff (tally : Word) : overflowHint tally = true ↔ 0 < tally.toNat := by
  simp [overflowHint, ← BitVec.toNat_inj, Nat.pos_iff_ne_zero]

/-- Settles O35: the poll changes the tally and the sample, and returns the new tally. -/
theorem gcPollOverflowSamplesTheCount : Obligations.GcPollOverflowSamplesTheCount := by
  unfold Obligations.GcPollOverflowSamplesTheCount
  refine ⟨decode_encode .gcPollOverflow, reservedIllegal_of_row rfl rfl, fun s => gcPollOverflow_fails,
    fun s hg => ?bound⟩
  refine ⟨_, exec_gcPollOverflow_of_bound hg, State.setGc_frame _ fun q hq => ?regs, rfl,
    s.sampledTally_toNat, rfl, rfl, overflowHint_iff _⟩
  case regs => cases q <;> simp at hq <;> rfl

end Sys2Proof.Machine
end

