-- ==== Sys2Proof/Proofs/GateState.lean ====
section
/-! PROOFS. GC_STATE (44_gate_controller.md R98): what each agent's turn, micro-step, command and line of the
host program can do to it. -/

namespace Sys2Proof.Machine

section
variable {s t : State}

/-- Of the micro-steps only GC_START's last one writes GC_STATE (44_gate_controller.md R100). -/
theorem State.microStep_gcState (s : State) (m : InFlight) :
    (s.microStep m).gcState = s.gcState ∨ (m = .gcEnable ∧ (s.microStep m).gcState = .running) := by
  cases m
  case gcEnable => exact .inr ⟨rfl, rfl⟩
  case tsZero ts base cap i => exact .inl (s.zeroSlot_keeps base i).gcState
  all_goals exact .inl rfl

/-- A GC_INIT that ends with OK has passed both checks and armed the state (44_gate_controller.md R99). -/
theorem exec_gcInit_gcState {ch : ChanNo} (h : exec (.gcInit ch) s = .next t)
    (hok : t.last.status = 0#8) : t.gcState = .armed := by
  have hfailed {code : BitVec 8} (hx : Fails (.gcInit ch) s code) (hne : code ≠ 0#8) :
      t.gcState = .armed := by
    cases hx.symm.trans h
    exact absurd hok hne
  cases hch : s.params.hasChannel ch with
  | false => exact hfailed (gcInit_fails_of_absent hch) (by decide)
  | true =>
    by_cases howned : s.ownedByOther .gc ch = true
    · exact hfailed (gcInit_fails_of_owned hch howned) (by decide)
    · cases (exec_gcInit_of_free hch howned).symm.trans h
      rfl

theorem GcState.polled_cases (g : GcState) (b : Bool) :
    g.polled b = g ∨ (g = .running ∧ b = false ∧ g.polled b = .expired) := by
  cases g <;> cases b <;> decide

/-- Of the commands only GC_INIT and GC_IS_BUSY change GC_STATE in their own step (44_gate_controller.md
R98). -/
theorem exec_gcState {i : Instr} (h : exec i s = .next t) :
    t.gcState = s.gcState ∨ (∃ ch, i = .gcInit ch ∧ t.gcState = .armed) ∨
      (i = .gcIsBusy ∧ s.gcState = .running ∧ (s.chan s.gc.ch).busy = false ∧ t.gcState = .expired) := by
  cases exec_effect h with
  | gcInit _ _ => exact .inr (.inl ⟨_, rfl, rfl⟩)
  | gcIsBusy hg _ =>
    cases (exec_gcIsBusy_of_bound hg).symm.trans h
    exact (s.gcState.polled_cases (s.chan s.gc.ch).busy).imp_right fun hx => .inr ⟨rfl, hx⟩
  | busWr hw => exact .inl (State.memWrite_keeps hw).gcState
  | tsStartSlots _ _ => exact .inl (s.zeroSlot_keeps s.tsBase 0).gcState
  | _ => exact .inl rfl

/-- Of the lines of the host program only those two commands' change GC_STATE. -/
theorem lineStep_gcState (h : lineStep s = .next t) (hne : t.gcState ≠ s.gcState) :
    ∃ ws i n, s.fetch = some (.command ws) ∧ decode ws = .command i n ∧
      ((∃ ch, i = .gcInit ch ∧ t.gcState = .armed) ∨
        (i = .gcIsBusy ∧ s.gcState = .running ∧ (s.chan s.gc.ch).busy = false ∧
          t.gcState = .expired)) := by
  rcases lineStep_cases h with ⟨_, rfl⟩ | ⟨o, _, rfl⟩ | ⟨ws, i, n, hf, hd, hx⟩ | ⟨_, _, _, _, _, rfl⟩
  · exact absurd rfl hne
  · rw [s.hostOp_frame o] at hne
    exact absurd rfl hne
  · exact ⟨ws, i, n, hf, hd, (exec_gcState hx).resolve_left hne⟩
  · exact absurd rfl hne

/-- The last micro-step of GC_START is one of a bound GateController, which is not Idle (10_state.md R25). -/
theorem StateOk.gcState_ne_idle_of_gcEnable (h : StateOk s) (hm : s.inFlight = some .gcEnable) :
    s.gcState ≠ .idle :=
  h.gc_bound.mp (h.in_flight .gcEnable hm)

end

/-- Settles O36: a step is an agent's, which leaves GC_STATE, a micro-step or a line's. -/
theorem onlyTheTableChangesGcState : Obligations.OnlyTheTableChangesGcState := by
  unfold Obligations.OnlyTheTableChangesGcState
  refine ⟨fun s t ch => exec_gcInit_gcState, fun s hf hq hm => ⟨_, step_micro hf hq hm, rfl, rfl, rfl⟩,
    fun s t hrun hidle h => ?expires, fun s t h hne => ?step⟩
  case expires =>
    cases (exec_gcIsBusy_of_bound (by rw [hrun]; nofun)).symm.trans h
    exact if_pos ⟨hidle, hrun⟩
  case step =>
    obtain ⟨_, ⟨a, ts, _, _, rfl⟩ | ⟨_, m, hm, rfl⟩ | ⟨_, hm, hl⟩⟩ := step_cases h
    · exact absurd (State.agentStep_keeps _ a).gcState hne
    · obtain ⟨rfl, hrun⟩ := (State.microStep_gcState _ m).resolve_left hne
      exact .inl ⟨hm, hrun, fun hok => hok.gcState_ne_idle_of_gcEnable hm⟩
    · exact .inr ⟨hm, (lineStep_gcState hl hne :)⟩

end Sys2Proof.Machine
end

