-- ==== Sys2Proof/Proofs/GateLaw.lean ====
section
/-! PROOFS. The gate law (44_gate_controller.md R104). While the gate is open the state is the start state
with three things moved on: the count by the edges counted, the GateTimer by its ticks, and the gate channel's
PENDING by the periods passed. The channel's transfer then stops the counter and leaves no channel busy, so
the machine is calm and the count rests. -/

namespace Sys2Proof.Machine

/-! ### A calm machine over a run -/

theorem CalmKeeps.refl (s : State) : CalmKeeps s s :=
  ⟨rfl, rfl, rfl, fun _ => rfl, rfl, fun _ => rfl⟩

theorem CalmKeeps.trans {s t u : State} (h : CalmKeeps s t) (h' : CalmKeeps t u) : CalmKeeps s u where
  params := h'.params.trans h.params
  ec := h'.ec.trans h.ec
  mem := h'.mem.trans h.mem
  chan d := (h'.chan d).trans (h.chan d)
  gt_en := h'.gt_en.trans h.gt_en
  gt hoff := (h'.gt (h.gt_en.trans hoff)).trans (h.gt hoff)

/-- Under every run of the agents a calm machine's counter, channels and RAM rest. -/
theorem State.Calm.runTurns {s : State} (h : s.Calm) (ts : List Turn) :
    CalmKeeps s (State.runTurns ts s) := by
  induction ts generalizing s with
  | nil => exact .refl s
  | cons a ts ih =>
    cases hf : s.faultMark with
    | some f => rw [State.runTurns_faulted hf]; exact .refl s
    | none =>
      have hstep := h.agentStep a
      rw [State.runTurns_cons hf]
      exact hstep.trans (ih (h.congr hstep))

/-! ### The counters of an open gate -/

/-- With EC_WRAP at its largest, the counter is the number of counted edges modulo 65536
(41_edge_counter.md R76). -/
theorem EdgeCounter.countEdge_of_full_wrap {c : EdgeCounter} (hw : c.wrap = 0xFFFF#16) :
    c.countEdge = { c with ctr := c.ctr + 1#16 } := by
  unfold EdgeCounter.countEdge EdgeCounter.atWrap
  split
  next h =>
    have hmax : c.ctr = 0xFFFF#16 := (beq_iff_eq.mp h).trans hw
    rw [hmax]
    rfl
  next => rfl

theorem GateTimer.en_iterate_tick (c : GateTimer) (n : Nat) : (GateTimer.tick^[n] c).en = c.en := by
  induction n with
  | zero => rfl
  | succ n ih =>
    rw [Function.iterate_succ_apply']
    exact (GateTimer.tick_keeps _).1.trans ih

theorem GateTimer.cycle_pos (c : GateTimer) : 0 < c.cycle :=
  Nat.mul_pos (Nat.succ_pos _) (by split <;> decide)

theorem GateTimer.expires_iterate_tick {c : GateTimer} (h0 : c.ctr = 0#16) (hd : c.dir = false) (n : Nat) :
    (GateTimer.tick^[n] c).expires = true ↔ c.cycle ∣ n + 1 :=
  (expiryComesEveryPeriod c c.cycle h0 hd rfl).1 n

/-! ### Turns that an agent passes over -/

section
variable {s t : State} {a : Turn}

theorem State.countsEdge_of_disabled (h : s.agentEnabled a = false) : s.countsEdge a = false := by
  cases a with
  | edge p acc => exact congrArg (· && s.qualifies p) h
  | _ => rfl

theorem State.ticks_of_disabled (h : s.agentEnabled a = false) : s.ticks a = false := by
  cases a with
  | tick acc => exact h
  | _ => rfl

end

/-! ### The open gate -/

/-- The gate as GC_START's last step leaves it, with EC_WRAP at its largest and no other channel in flight
(44_gate_controller.md R100, R104). -/
structure State.GateOpened (s : State) (ch : ChanNo) : Prop extends s.GateReady ch where
  legal : s.params.Legal
  exists_ch : s.params.hasChannel ch = true
  en : (s.chan ch).en = true
  busy : (s.chan ch).busy = true
  count : (s.chan ch).count = 1#32
  pending : (s.chan ch).pending = 0
  gt_en : s.gt.en = true
  gt_ctr : s.gt.ctr = 0#16
  gt_dir : s.gt.dir = false
  ec_en : s.ec.en = true
  ec_ctr : s.ec.ctr = 0#16
  ec_wrap : s.ec.wrap = 0xFFFF#16

/-- The state `t` of the gate opened in `s`, `e` counted edges and `k` ticks later, with no request served
yet. -/
structure GateAfter (s : State) (ch : ChanNo) (e k : Nat) (t : State) : Prop where
  params : t.params = s.params
  gcStopval : t.gcStopval = s.gcStopval
  ec : t.ec = { s.ec with ctr := BitVec.ofNat 16 e }
  gt : t.gt = GateTimer.tick^[k] s.gt
  chan_self : t.chan ch = { s.chan ch with pending := k / s.gt.cycle }
  chan_ne : ∀ d, d ≠ ch → t.chan d = s.chan d

section
variable {s t u : State} {ch : ChanNo} {e k : Nat}

theorem State.GateOpened.after_zero (h : s.GateOpened ch) : GateAfter s ch 0 0 s where
  params := rfl
  gcStopval := rfl
  ec := by rw [← h.ec_ctr]
  gt := rfl
  chan_self := by rw [Nat.zero_div, ← h.pending]
  chan_ne _ _ := rfl

/-- A step that leaves the GateTimer, the stop value and every channel, and counts `n` edges. -/
theorem GateAfter.of_rest (h : GateAfter s ch e k t) {n : Nat} (hp : u.params = t.params)
    (hv : u.gcStopval = t.gcStopval) (hec : u.ec = { t.ec with ctr := t.ec.ctr + BitVec.ofNat 16 n })
    (hgt : u.gt = t.gt) (hchan : ∀ d, u.chan d = t.chan d) : GateAfter s ch (e + n) k u where
  params := hp.trans h.params
  gcStopval := hv.trans h.gcStopval
  ec := by rw [hec, h.ec, BitVec.ofNat_add]
  gt := hgt.trans h.gt
  chan_self := (hchan ch).trans h.chan_self
  chan_ne d hd := (hchan d).trans (h.chan_ne d hd)

/-- No channel takes the EdgeCounter's event: the gate channel waits for the GateTimer's, and the others are
idle. -/
theorem GateAfter.not_takes_ecTag (h : GateAfter s ch e k t) (ho : s.GateOpened ch) (acc : BitVec 16)
    (d : ChanNo) : (t.chan d).takes ecTag (acc.getLsbD d.toNat) = false := by
  refine DmaChannel.takes_eq_false _ ?_
  by_cases hd : d = ch
  · subst hd
    rw [h.chan_self]
    exact .inr (ho.treq.trans_ne (by decide))
  · rw [h.chan_ne d hd]
    exact .inl (ho.others d hd)

/-- An edge moves the count on where it qualifies, and leaves the rest of the gate (41_edge_counter.md R75,
R76). -/
theorem GateAfter.edge (h : GateAfter s ch e k t) (ho : s.GateOpened ch) {p : BitVec 8}
    {acc : BitVec 16} (ht : t.edge p acc = .ok u) :
    GateAfter s ch (e + if t.qualifies p then 1 else 0) k u := by
  have hcount : t.ec.countEdge = { t.ec with ctr := t.ec.ctr + 1#16 } :=
    EdgeCounter.countEdge_of_full_wrap (by rw [h.ec]; exact ho.ec_wrap)
  rcases State.edge_ok ht with ⟨hq, rfl⟩ | ⟨hq, _, rfl⟩ | ⟨hq, _, he⟩
  · rw [hq]
    exact ⟨h.params, h.gcStopval, h.ec, h.gt, h.chan_self, h.chan_ne⟩
  · rw [if_pos hq]
    exact h.of_rest rfl rfl hcount rfl fun _ => rfl
  · rw [if_pos hq]
    obtain ⟨_, hframe, _⟩ := State.emit_ok he
    refine h.of_rest (by rw [hframe]; rfl) (by rw [hframe]; rfl) (by rw [hframe]; exact hcount)
      (by rw [hframe]; rfl) fun d => ?_
    exact State.emit_chan_of_not_takes (s := { t.toggle p with ec := t.ec.countEdge }) he
      (h.not_takes_ecTag ho acc d)

/-- The gate channel takes the GateTimer's event (40_bus_dma.md R68). -/
theorem GateAfter.accepts_gtTag (h : GateAfter s ch e k t) (ho : s.GateOpened ch) (acc : BitVec 16) :
    Accepts gtTag acc t ch := by
  unfold Accepts
  rw [h.params, h.chan_self]
  exact ⟨Params.hasChannel_iff.mp ho.exists_ch, ho.treq, ho.busy, .inl ho.en⟩

/-- A tick that ends a period is a request of the gate channel, which no other channel takes; any other tick
is none (43_gate_timer.md R90). -/
theorem GateAfter.tick (h : GateAfter s ch e k t) (ho : s.GateOpened ch) {acc : BitVec 16}
    (ht : t.gtTick acc = .ok u) : GateAfter s ch e (k + 1) u := by
  have htick : t.gt.tick = GateTimer.tick^[k + 1] s.gt := by
    rw [Function.iterate_succ_apply', h.gt]
  have hx : t.gt.expires = true ↔ s.gt.cycle ∣ k + 1 :=
    h.gt ▸ GateTimer.expires_iterate_tick ho.gt_ctr ho.gt_dir k
  rcases State.gtTick_ok ht with ⟨hno, rfl⟩ | ⟨hyes, he⟩
  · have hdiv : (k + 1) / s.gt.cycle = k / s.gt.cycle := by
      rw [Nat.succ_div, if_neg (mt hx.mpr (by simp [hno])), Nat.add_zero]
    exact ⟨h.params, h.gcStopval, h.ec, htick, hdiv.symm ▸ h.chan_self, h.chan_ne⟩
  · have hdiv : (k + 1) / s.gt.cycle = k / s.gt.cycle + 1 := by
      rw [Nat.succ_div, if_pos (hx.mp hyes)]
    have hself := State.emit_chan_of_accepts (s := { t with gt := t.gt.tick }) he
      (h.accepts_gtTag ho acc)
    have hne (d : ChanNo) (hd : d ≠ ch) : u.chan d = t.chan d :=
      State.emit_chan_of_idle (s := { t with gt := t.gt.tick }) he
        ((congrArg DmaChannel.busy (h.chan_ne d hd)).trans (ho.others d hd))
    obtain ⟨_, hframe, _⟩ := State.emit_ok he
    refine ⟨by rw [hframe]; exact h.params, by rw [hframe]; exact h.gcStopval,
      by rw [hframe]; exact h.ec, by rw [hframe]; exact htick, ?_, fun d hd => ?_⟩
    · rw [hself, hdiv]
      exact congrArg (fun c : DmaChannel => { c with pending := c.pending + 1 }) h.chan_self
    · exact (hne d hd).trans (h.chan_ne d hd)

/-- Every turn without a model fault moves the edges and the ticks on, unless it is a transfer of the gate
channel where a period has passed. -/
theorem GateAfter.agentStep (h : GateAfter s ch e k t) (ho : s.GateOpened ch) {a : Turn}
    (hf : (t.agentStep a).faultMark = none) (ha : a = .transfer ch → k < s.gt.cycle) :
    GateAfter s ch (e + if t.countsEdge a then 1 else 0) (k + if t.ticks a then 1 else 0)
      (t.agentStep a) := by
  rcases t.agentStep_cases a with ⟨hen, hstep⟩ | ⟨hen, u, hact, hstep⟩ | ⟨_, f, _, hstep⟩ <;>
    rw [hstep] at hf ⊢
  · rw [State.countsEdge_of_disabled hen, State.ticks_of_disabled hen]
    exact h
  · cases a with
    | control => cases hen
    | edge p acc =>
      have hcounts : t.countsEdge (.edge p acc) = t.qualifies p :=
        (congrArg (· && t.qualifies p) hen).trans (Bool.true_and _)
      rw [hcounts]
      exact h.edge ho hact
    | tick acc =>
      have hticks : t.ticks (.tick acc) = true := hen
      rw [hticks]
      exact h.tick ho hact
    | transfer d =>
      obtain ⟨_, _, hbusy, hpos⟩ := State.agentEnabled_transfer_iff.mp hen
      by_cases hd : d = ch
      · subst hd
        rw [h.chan_self] at hpos
        exact absurd hpos (Nat.not_lt.mpr (Nat.div_eq_of_lt (ha rfl)).le)
      · rw [h.chan_ne d hd] at hbusy
        exact absurd ((ho.others d hd).symm.trans hbusy) Bool.false_ne_true
    | clock =>
      obtain rfl := Except.ok.inj hact
      exact ⟨h.params, h.gcStopval, h.ec, h.gt, h.chan_self, h.chan_ne⟩
  · cases hf

/-- A run moves the edges and the ticks on by those among its turns. -/
theorem GateAfter.runTurns {ts : List Turn} (h : GateAfter s ch e k t) (ho : s.GateOpened ch)
    (hf : (State.runTurns ts t).faultMark = none)
    (hts : Turn.transfer ch ∈ ts → k + countTurns State.ticks ts t < s.gt.cycle) :
    GateAfter s ch (e + countTurns State.countsEdge ts t) (k + countTurns State.ticks ts t)
      (State.runTurns ts t) := by
  induction ts generalizing t e k with
  | nil => exact h
  | cons a ts ih =>
    have hstart := State.faultMark_of_runTurns hf
    rw [State.runTurns_cons hstart] at hf ⊢
    rw [countTurns, ← Nat.add_assoc] at hts
    have hstep := h.agentStep ho (a := a) (State.faultMark_of_runTurns hf) fun ha => by
      have hlt := hts (ha ▸ List.mem_cons_self)
      omega
    rw [countTurns, countTurns, ← Nat.add_assoc, ← Nat.add_assoc]
    exact ih hstep hf fun hm => hts (List.mem_cons_of_mem a hm)

/-! ### The gate transfer -/

/-- The last transfer of a sequence ends it (40_bus_dma.md R69). -/
theorem DmaChannel.served_busy_of_last {c : DmaChannel} (h : c.count = 1#32) : c.served.busy = false := by
  simp [DmaChannel.served, h]

/-- Once a period has passed, the gate channel holds a request, and its transfer writes the stop value: the
counter stops at its count, and no channel is left busy (40_bus_dma.md R69, 44_gate_controller.md R104). -/
theorem GateAfter.transfer (h : GateAfter s ch e k t) (ho : s.GateOpened ch) (hk : s.gt.cycle ≤ k) :
    (t.agentStep (.transfer ch)).Calm ∧ ((t.agentStep (.transfer ch)).chan ch).busy = false ∧
      (t.agentStep (.transfer ch)).ec = { t.ec with
        en := s.gcStopval.getLsbD 0, pol := Polarity.ofBit (s.gcStopval.getLsbD 1) } := by
  have hp : t.params.Legal := h.params ▸ ho.legal
  have hen : t.agentEnabled (.transfer ch) = true := by
    rw [State.agentEnabled_transfer_iff, h.chan_self, h.params]
    exact ⟨Params.hasChannel_iff.mp ho.exists_ch, ho.en, ho.busy, Nat.div_pos hk s.gt.cycle_pos⟩
  have hact : t.transfer ch =
      .ok ((t.regWrite .ecCtrl t.gcStopval).setChan ch (t.chan ch).served) := by
    refine State.transfer_of_regs (r := .gcStopval) (q := .ecCtrl) hp rfl rfl
      (Params.dmaRegister_regAddr hp (by decide) (by decide)) ?_ ?_ ?_ <;> rw [h.chan_self]
    · exact ho.size
    · exact ho.readAddr.trans (h.params ▸ rfl)
    · exact ho.writeAddr.trans (h.params ▸ rfl)
  have hlast : (t.chan ch).served.busy = false :=
    DmaChannel.served_busy_of_last ((congrArg DmaChannel.count h.chan_self).trans ho.count)
  rw [State.agentStep_of_act hen hact, ← h.gcStopval]
  have hidle (d : ChanNo) :
      (((t.regWrite .ecCtrl t.gcStopval).setChan ch (t.chan ch).served).chan d).busy = false := by
    rw [State.chan_setChan]
    split
    · exact hlast
    next hd => exact (congrArg DmaChannel.busy (h.chan_ne d hd)).trans (ho.others d hd)
  refine ⟨⟨?_, fun d hb => absurd ((hidle d).symm.trans hb) Bool.false_ne_true⟩, hidle ch, rfl⟩
  exact h.gcStopval ▸ ho.stops

end

/-- Settles O52: the count, the requests and the ticks of `GateAfter` up to the transfer, and the calm after
it. -/
theorem gateCountsTheEdgesOfOnePeriod : Obligations.GateCountsTheEdgesOfOnePeriod := by
  unfold Obligations.GateCountsTheEdgesOfOnePeriod
  rintro s ch period hp hch hen hbusy hcount hpending htreq hsize hir hiw hra hwa hstop hgt hgtctr hdir hec
    hctr hwrap hothers rfl
  have ho : s.GateOpened ch := ⟨⟨hothers, htreq, hsize, hir, hiw, hra, hwa, hstop⟩, hp, hch, hen, hbusy,
    hcount, hpending, hgt, hgtctr, hdir, hec, hctr, hwrap⟩
  refine ⟨?before, ?after⟩
  case before =>
    rintro pre t _ rfl hf hlt
    have hpre := ho.after_zero.runTurns ho hf fun _ => by rwa [Nat.zero_add]
    rw [Nat.zero_add, Nat.zero_add] at hpre
    rw [hpre.chan_self, hpre.ec]
    exact ⟨hbusy, Nat.div_eq_of_lt hlt, hec, rfl⟩
  case after =>
    rintro pre post t u _ _ hnot rfl hle rfl hf
    rw [State.runTurns_append] at hf ⊢
    have hfpre := State.faultMark_of_runTurns hf
    have hpre := ho.after_zero.runTurns ho hfpre fun hm => absurd hm hnot
    rw [Nat.zero_add, Nat.zero_add] at hpre
    obtain ⟨hcalm, hidle, hstopped⟩ := hpre.transfer ho hle
    have hrest := hcalm.runTurns post
    rw [State.runTurns_cons hfpre, hrest.chan, hrest.ec, hstopped, hpre.chan_self, hpre.ec]
    exact ⟨Nat.div_pos hle s.gt.cycle_pos, hidle, hstop, rfl, rfl⟩

end Sys2Proof.Machine
end

