-- ==== Sys2Proof/Proofs/TimestampCapture.lean ====
section
/-! PROOFS. The EdgeTimestampCapture commands (45_timestamp_capture.md R106 to R110): the binding of TS_INIT,
TS_START without another agent's step, and the three commands that stop the counter or read the buffer. -/

namespace Sys2Proof.Machine

/-! ### The buffer in RAM -/

section
variable {p : Params} {base cap : Word}

/-- The model's buffer check is R106's. -/
theorem Params.bufferOk_iff : p.bufferOk base cap = true ↔ cap.toNat ≠ 0 ∧ base.toNat % 4 = 0 ∧
    p.ramBase.toNat ≤ base.toNat ∧ base.toNat + 4 * cap.toNat ≤ p.ramBase.toNat + p.ramSize := by
  simp [Params.bufferOk, and_assoc]

/-- A slot of a legal buffer is an aligned word of RAM. -/
theorem Params.slotAddr_in_ram {i : Nat} (hp : p.Legal) (hb : p.bufferOk base cap = true)
    (hi : i < cap.toNat) : (slotAddr base i).toNat = base.toNat + 4 * i ∧
      p.ramBase.toNat ≤ (slotAddr base i).toNat ∧
      (slotAddr base i).toNat + 4 ≤ p.ramBase.toNat + p.ramSize ∧ (slotAddr base i).toNat % 4 = 0 := by
  obtain ⟨_, halign, hlo, hhi⟩ := Params.bufferOk_iff.mp hb
  have hbus := hp.ram_in_bus
  have haddr : (slotAddr base i).toNat = base.toNat + 4 * i := by
    rw [slotAddr, BitVec.toNat_add, BitVec.toNat_ofNat]
    omega
  omega

end

/-! ### TS_INIT -/

theorem State.ownedByOther_ts_iff {s : State} {ch : ChanNo} : s.ownedByOther .ts ch = true ↔
    (s.cx.bound = true ∧ s.cx.ch = ch) ∨ (s.gc.bound = true ∧ s.gc.ch = ch) := by
  simp [State.ownedByOther, State.owns, State.binding]

/-- BIND below the EdgeTimestampCapture's part. -/
def State.bindBelowTs (s : State) : BitVec 16 :=
  0#3 ++ (BitVec.ofBool s.gc.bound ++ (s.gc.ch ++ (0#3 ++ (BitVec.ofBool s.cx.bound ++ s.cx.ch))))

theorem State.bindWord_eq_append_ts (s : State) : s.bindWord =
    0#11 ++ ((BitVec.ofBool s.ts.bound ++ s.ts.ch) ++ s.bindBelowTs) := by
  rw [← BitVec.toNat_inj, State.bindWord, State.bindBelowTs]
  simp only [toNat_append_eq_add, BitVec.toNat_ofNat]
  omega

theorem State.bindWord_bindTs (s : State) (ch : ChanNo) (base cap : Word) :
    (s.bindTs ch base cap).bindWord =
      (s.bindWord &&& 0xFFE0FFFF#32) ||| 0x100000#32 ||| (ch.setWidth 32 <<< 16) := by
  have hmask : 0xFFE0FFFF#32 = BitVec.allOnes 11 ++ (0#5 ++ BitVec.allOnes 16) := by decide
  have hts : 0x100000#32 ||| (ch.setWidth 32 <<< 16) = 0#11 ++ ((BitVec.ofBool true ++ ch) ++ 0#16) := by
    revert ch
    decide
  rw [BitVec.or_assoc, hts, State.bindWord_eq_append_ts, State.bindWord_eq_append_ts s, hmask,
    BitVec.and_append, BitVec.and_append, BitVec.or_append, BitVec.or_append]
  simp only [BitVec.and_allOnes, BitVec.and_zero, BitVec.or_zero, BitVec.zero_or]
  rfl

/-- The capture channel as TS_INIT leaves it (45_timestamp_capture.md R106). -/
def State.captureChannel (s : State) (ch : ChanNo) (base cap : Word) : DmaChannel :=
  { (s.chan ch).bindTo s.params.clockAddr base true ecTag with reload := cap }

theorem State.chan_bindTs (s : State) (ch : ChanNo) (base cap : Word) :
    (s.bindTs ch base cap).chan ch = s.captureChannel ch base cap :=
  s.chan_setChan_self ch _

/-- Of CTRL, BUSY and ERR stay; SIZE and INCR_WRITE are set. -/
theorem State.ctrlWord_captureChannel (s : State) (ch : ChanNo) (base cap : Word) :
    (s.captureChannel ch base cap).ctrlWord = ((s.chan ch).ctrlWord &&& 0x21000000#32) ||| 0xA#32 :=
  (s.chan ch).ctrlWord_bindTo s.params.clockAddr base true ecTag

/-- The registers TS_INIT writes. -/
def tsInitRegs (ch : ChanNo) : List Reg :=
  [.ecWrap, .dma ch .readAddr, .dma ch .writeAddr, .dma ch .ctrl, .dma ch .reload, .tsBase, .tsCapacity,
    .bind]

theorem State.bindTs_frame (s : State) (ch : ChanNo) (base cap : Word) (r : Result) :
    Frame (tsInitRegs ch) noBytes 0 s { s.bindTs ch base cap with last := r } := by
  have hchan := State.setChan_frame (s := s) (c := s.captureChannel ch base cap) (rs := tsInitRegs ch)
    (fun q hq => by cases q <;> simp [tsInitRegs] at hq <;> rfl) fun _ => rfl
  refine { hchan with regs := fun q hq => ?_ }
  rw [← hchan.regs q hq]
  cases q
  case ecWrap | tsBase | tsCapacity | bind => simp [tsInitRegs] at hq
  all_goals rfl

/-- What the binding command leaves in its channel, as the bus reads it. -/
theorem State.regRead_bindTs_dma (s : State) (ch : ChanNo) (base cap : Word) (q : DmaReg) :
    (s.bindTs ch base cap).regRead (.dma ch q) = (s.captureChannel ch base cap).readReg q :=
  congrArg (DmaChannel.readReg · q) (s.chan_bindTs ch base cap)

section
variable {s : State} {ch : ChanNo} {base cap : Word}

theorem tsInit_fails_of_absent (h : s.params.hasChannel ch = false) :
    Fails (.tsInit ch base cap) s 6#8 := by
  simp only [Fails, exec, execTsInit, if_pos h]
  rfl

theorem tsInit_fails_of_owned (hch : s.params.hasChannel ch = true)
    (h : s.ownedByOther .ts ch = true) : Fails (.tsInit ch base cap) s 7#8 := by
  simp only [Fails, exec, execTsInit, hch, if_pos h]
  rfl

theorem tsInit_fails_of_buffer (hch : s.params.hasChannel ch = true)
    (hfree : ¬ s.ownedByOther .ts ch = true) (h : ¬ s.params.bufferOk base cap = true) :
    Fails (.tsInit ch base cap) s 6#8 := by
  simp only [Fails, exec, execTsInit, hch, if_neg hfree, if_pos (Bool.eq_false_iff.mpr h)]
  rfl

theorem exec_tsInit_of_free (hch : s.params.hasChannel ch = true)
    (hfree : ¬ s.ownedByOther .ts ch = true) (h : s.params.bufferOk base cap = true) :
    exec (.tsInit ch base cap) s =
      .next { s.bindTs ch base cap with last := okResult 0#32 false } := by
  simp only [exec, execTsInit, hch, if_neg hfree, h]
  rfl

end

/-- Settles O37: the three checks in their order, then the binding. -/
theorem tsInitBindsTheBuffer : Obligations.TsInitBindsTheBuffer := by
  unfold Obligations.TsInitBindsTheBuffer
  refine ⟨fun ch base cap => ?_, reservedIllegal_of_row rfl rfl, fun s ch base cap => ?_⟩
  · have hword := decode_encode (.tsInit ch base cap)
    rw [encode, word0C_eq_or] at hword
    exact hword
  · have hfree (hcx : ¬ (s.cx.bound = true ∧ s.cx.ch = ch))
        (hgc : ¬ (s.gc.bound = true ∧ s.gc.ch = ch)) : ¬ s.ownedByOther .ts ch = true :=
      fun h => (State.ownedByOther_ts_iff.mp h).elim hcx hgc
    refine ⟨fun h => ?absent, fun hlt h => ?owned, fun hlt hcx hgc h => ?buffer,
      fun hlt hcx hgc hcap halign hlo hhi => ?bound⟩
    case absent =>
      exact tsInit_fails_of_absent (decide_eq_false (Nat.not_lt.mpr h))
    case owned =>
      exact tsInit_fails_of_owned (decide_eq_true hlt) (State.ownedByOther_ts_iff.mpr h)
    case buffer =>
      refine tsInit_fails_of_buffer (decide_eq_true hlt) (hfree hcx hgc) fun hok => ?_
      obtain ⟨hcap, halign, hlo, hhi⟩ := Params.bufferOk_iff.mp hok
      rcases h with rfl | h | h | h
      · exact hcap rfl
      · exact h halign
      · exact absurd hlo (Nat.not_le.mpr h)
      · exact absurd hhi (Nat.not_le.mpr h)
    case bound =>
      have hne : cap.toNat ≠ 0 := fun e => hcap (BitVec.eq_of_toNat_eq e)
      have hbuf := Params.bufferOk_iff.mpr ⟨hne, halign, hlo, hhi⟩
      exact ⟨_, exec_tsInit_of_free (decide_eq_true hlt) (hfree hcx hgc) hbuf,
        s.bindTs_frame ch base cap _, rfl, rfl, s.regRead_bindTs_dma ch base cap .readAddr,
        s.regRead_bindTs_dma ch base cap .writeAddr,
        (s.regRead_bindTs_dma ch base cap .ctrl).trans (s.ctrlWord_captureChannel ch base cap),
        s.regRead_bindTs_dma ch base cap .reload, rfl, rfl, s.bindWord_bindTs ch base cap⟩

/-! ### TS_START without another agent's step -/

/-- The schedule is no part of what a micro-step reads or writes. -/
theorem State.microStep_with_schedule (s : State) (ts : List Turn) (m : InFlight) :
    State.microStep { s with schedule := ts } m = { s.microStep m with schedule := ts } := by
  cases m
  case tsZero ch base cap i =>
    simp only [State.microStep, State.tsZeroStep, State.zeroSlot, State.memWrite]
    cases s.params.resolve (slotAddr base i) .word with
    | none => rfl
    | some target =>
      cases target
      case reg r => cases r <;> rfl
      all_goals rfl
  all_goals rfl

/-- The micro-step that ends the command is the last one left. -/
theorem State.microStep_left_of_none {s : State} {m : InFlight} (h : (s.microStep m).inFlight = none) :
    m.left = 1 := by
  cases m
  case cxArm | gcEnable | tsEnable => rfl
  all_goals cases h

/-- With no other agent's step between its micro-steps a command ends as where no turn is scheduled, with
the turns it took gone. -/
theorem State.finish_quiet {s u : State} {m : InFlight} {n : Nat} (hf : s.faultMark = none)
    (hm : s.inFlight = some m) (hn : m.left = n) (hq : Quiet n s)
    (h : State.finish n { s with schedule := [] } = .next u) :
    State.finish n s = .next { u with schedule := s.schedule.drop n } := by
  induction n generalizing s m with
  | zero => exact absurd m.left_pos (by omega)
  | succ n ih =>
    have halone : State.finish (n + 1) { s with schedule := [] } =
        State.finish n { s.microStep m with schedule := [] } := by
      rw [State.finish_alone (s := { s with schedule := [] }) hf rfl hm, State.microStep_with_schedule]
    rw [halone] at h
    rw [State.finish_micro hf (hq.mono (by omega) rfl) hm, State.microStep_with_schedule]
    cases hnext : (s.microStep m).inFlight with
    | none =>
      obtain rfl : n = 0 := by
        have hlast := State.microStep_left_of_none hnext
        omega
      obtain rfl := Host.Outcome.next.inj h
      rfl
    | some m' =>
      have hleft := State.microStep_left hnext
      have hrest := ih (s := { s.microStep m with schedule := s.schedule.drop 1 })
        ((s.microStep_keeps m).faultMark.trans hf) hnext (by omega) (hq.drop rfl) h
      rw [hrest, List.drop_drop, Nat.add_comm 1 n]

theorem tsStart_fails {s : State} (hb : s.ts.bound = false) : Fails .tsStart s 8#8 := by
  simp only [Fails, exec, execTsStart, if_pos hb]
  rfl

/-- After the first slot the command has as many micro-steps left as the buffer has slots, and three. -/
theorem InFlight.left_tsFrom_one (ts : ChanNo) (base : Word) {cap : Word} (hpos : 0 < cap.toNat) :
    (InFlight.tsFrom ts base cap 1).left = cap.toNat + 3 := by
  unfold InFlight.tsFrom
  split
  · simp only [InFlight.left]
    omega
  · simp only [InFlight.left]
    omega

theorem finish_tsStart {s : State} (hf : s.faultMark = none) (hp : s.params.Legal)
    (hbuf : s.params.bufferOk s.tsBase s.tsCapacity = true) (hq : Quiet (s.tsCapacity.toNat + 3) s) :
    State.finish (s.tsCapacity.toNat + 3) (s.zeroed s.ts.ch s.tsBase s.tsCapacity 1) =
      .next { s.tsStarted with schedule := s.schedule.drop (s.tsCapacity.toNat + 3) } :=
  State.finish_quiet (s := s.zeroed s.ts.ch s.tsBase s.tsCapacity 1)
    (u := State.tsStarted { s with schedule := [] }) hf rfl
    (InFlight.left_tsFrom_one _ _ (Params.cap_pos_of_bufferOk hbuf)) hq
    (finish_tsStart_alone (s := { s with schedule := [] }) hf rfl hp hbuf)

/-- The registers TS_START writes beside its channel's. -/
def tsStartRegs : List Reg := [.ecCtr, .ecCtrl, .enMask]

theorem State.tsStarted_frame {s : State} (hm : s.inFlight = none) (hwf : s.mem.wf = true) :
    Frame (channelRegs s.ts.ch ++ tsStartRegs) (bufferBytes s.tsBase s.tsCapacity) 0 s s.tsStarted := by
  have hchan := (State.setChan_frame_channelRegs (s := s) (ch := s.ts.ch) (c := s.tsArmed)).mono
    (List.subset_append_left (channelRegs s.ts.ch) tsStartRegs)
  refine { hchan with regs := fun q hq => ?_, ram := fun a ha => ?_, inFlight := hm.symm }
  · rw [← hchan.regs q hq]
    cases q
    case ecCtr | ecCtrl | enMask => simp [tsStartRegs] at hq
    all_goals rfl
  · exact (Memory.read_zeroSlots hwf _ _ a).trans (if_neg ha)

/-- Settles O38: the first micro-step is the first slot's, the whole command `tsStarted`. -/
theorem tsStartZeroesAndArmsTheBuffer : Obligations.TsStartZeroesAndArmsTheBuffer := by
  unfold Obligations.TsStartZeroesAndArmsTheBuffer
  refine ⟨decode_encode .tsStart, reservedIllegal_of_row rfl rfl, fun s => tsStart_fails,
    fun s hb hok => ?first, fun s hb hf hm hok hq => ?quiet⟩
  case first =>
    exact ⟨_, exec_tsStart_of_buffer hb hok.params_legal (hok.ts_buffer hb), rfl, nofun,
      fun a => Memory.read_zeroSlots hok.mem_wf s.tsBase.toNat 1 a⟩
  case quiet =>
    have hbuf := hok.ts_buffer hb
    refine ⟨_, _, exec_tsStart_of_buffer hb hok.params_legal hbuf,
      finish_tsStart hf hok.params_legal hbuf hq,
      { State.tsStarted_frame hm hok.mem_wf with schedule := rfl }, rfl, fun a ha => ?zeroed, ?armed,
      rfl, rfl⟩
    case zeroed => exact (Memory.read_zeroSlots hok.mem_wf _ _ a).trans (if_pos ha)
    case armed =>
      exact (s.chan_setChan_self s.ts.ch _).trans (s.tsArmed_eq (Params.cap_ne_zero_of_bufferOk hbuf))

/-! ### TS_STOP -/

/-- Settles O39: before TS_INIT the command changes its result record alone, and after it is a write of
EC_CTRL with POL as it stands. -/
theorem tsStopDisablesTheCounter : Obligations.TsStopDisablesTheCounter := by
  unfold Obligations.TsStopDisablesTheCounter
  refine ⟨decode_encode .tsStop, reservedIllegal_of_row rfl rfl, fun s hb => ?unbound,
    fun s hb => ?bound⟩
  case unbound =>
    have hexec : exec .tsStop s = .next { s with last := okResult 0#32 false } := by
      simp only [exec, execTsStop, hb]
      rfl
    exact completes_of_record hexec rfl
  case bound =>
    have hexec : exec .tsStop s =
        .next { s with ec := { s.ec with en := false }, last := okResult 0#32 false } := by
      simp only [exec, execTsStop, hb]
      rfl
    exact completes_of_regWrite (s.regWrite_ecCtrl { s.ec with en := false }) nofun hexec
      ⟨rfl, rfl, rfl, rfl⟩

/-! ### TS_CAPTURED -/

/-- The captured count is the capacity less the remaining count, or 0 where more remains. -/
theorem capturedCount_toNat (cap r : Word) : (capturedCount cap r).toNat = cap.toNat - r.toNat := by
  unfold capturedCount
  split
  next h => exact BitVec.toNat_sub_of_le (BitVec.le_def.mpr h)
  next h => exact (Nat.sub_eq_zero_of_le (Nat.le_of_not_le h)).symm

theorem exec_tsCaptured_of_bound {s : State} (hb : s.ts.bound = true) :
    exec .tsCaptured s = .next { s with last := okResult s.captured false } := by
  simp only [exec, execTsCaptured, hb]
  rfl

/-- Settles O40: the command changes its result record alone. -/
theorem tsCapturedReturnsTheSlotsWritten : Obligations.TsCapturedReturnsTheSlotsWritten := by
  unfold Obligations.TsCapturedReturnsTheSlotsWritten
  refine ⟨decode_encode .tsCaptured, reservedIllegal_of_row rfl rfl, fun s hb => ?unbound,
    fun s hb => ?bound⟩
  case unbound =>
    simp only [Fails, exec, execTsCaptured, if_pos hb]
    rfl
  case bound =>
    exact completes_of_record (exec_tsCaptured_of_bound hb) ⟨rfl, rfl, capturedCount_toNat _ _⟩

/-! ### TS_PERIOD -/

/-- The interval from slot `i` to the next one, modulo 2^32 (45_timestamp_capture.md R110). -/
def Memory.interval (m : Memory) (base i : Nat) : Nat :=
  ((m.read32 (base + 4 * (i + 1))).toNat + 2 ^ 32 - (m.read32 (base + 4 * i)).toNat) % 2 ^ 32

section
variable {s : State}

theorem State.slot_of_buffer (hp : s.params.Legal)
    (hbuf : s.params.bufferOk s.tsBase s.tsCapacity = true) {i : Nat} (hi : i < s.tsCapacity.toNat) :
    s.slot i = s.mem.read32 (s.tsBase.toNat + 4 * i) := by
  obtain ⟨haddr, hlo, hhi, halign⟩ := Params.slotAddr_in_ram hp hbuf hi
  rw [State.slot, State.memRead_ram_word hlo hhi halign, haddr, Option.getD_some]

/-- The model's sum is that of the intervals between the buffer's words. -/
theorem State.intervalSum_eq (hp : s.params.Legal)
    (hbuf : s.params.bufferOk s.tsBase s.tsCapacity = true) {n : Nat} (hn : n < s.tsCapacity.toNat) :
    s.intervalSum n = ∑ i ∈ Finset.range n, s.mem.interval s.tsBase.toNat i := by
  induction n with
  | zero => rfl
  | succ n ih =>
    rw [State.intervalSum, Finset.sum_range_succ, ih (by omega), State.slot_of_buffer hp hbuf hn,
      State.slot_of_buffer hp hbuf (by omega), toNat_sub_eq, Memory.interval]

/-- Each interval is below 2^32, and so is their mean. -/
theorem Memory.sum_interval_div_lt (m : Memory) (base n : Nat) :
    (∑ i ∈ Finset.range n, m.interval base i) / n < 2 ^ 32 := by
  rcases Nat.eq_zero_or_pos n with rfl | hpos
  · simp
  · refine (Nat.div_lt_iff_lt_mul hpos).mpr ?_
    calc ∑ i ∈ Finset.range n, m.interval base i
        < ∑ _i ∈ Finset.range n, 2 ^ 32 :=
          Finset.sum_lt_sum_of_nonempty (Finset.nonempty_range_iff.mpr hpos.ne')
            fun _ _ => Nat.mod_lt _ (by decide)
      _ = 2 ^ 32 * n := by rw [Finset.sum_const, Finset.card_range, smul_eq_mul, Nat.mul_comm]

theorem tsPeriod_fails_of_few (hb : s.ts.bound = true) (h : s.captured.toNat < 2) :
    Fails .tsPeriod s 3#8 := by
  simp only [Fails, exec, execTsPeriod, hb, if_pos h]
  rfl

theorem exec_tsPeriod_of_captured (hb : s.ts.bound = true) (h : ¬ s.captured.toNat < 2) :
    exec .tsPeriod s = .next { s with
      last := okResult
        (BitVec.ofNat 32 (s.intervalSum (s.captured.toNat - 1) / (s.captured.toNat - 1)))
        (frequencyFlag (s.intervalSum (s.captured.toNat - 1))) } := by
  simp only [exec, execTsPeriod, hb, if_neg h]
  rfl

end

theorem frequencyFlag_iff (sum : Nat) : frequencyFlag sum = true ↔ 0 < sum := by
  simp [frequencyFlag, Nat.pos_iff_ne_zero]

/-- Settles O41: the command changes its result record alone, and its sum is that of the buffer's words. -/
theorem tsPeriodReturnsTheMeanInterval : Obligations.TsPeriodReturnsTheMeanInterval := by
  unfold Obligations.TsPeriodReturnsTheMeanInterval
  refine ⟨decode_encode .tsPeriod, reservedIllegal_of_row rfl rfl, fun s hb => ?unbound,
    fun s hb h => ?few, fun s c sum hb hok hc htwo hsum => ?mean⟩
  case unbound =>
    simp only [Fails, exec, execTsPeriod, if_pos hb]
    rfl
  case few =>
    refine tsPeriod_fails_of_few hb ?_
    rw [State.captured, capturedCount_toNat]
    omega
  case mean =>
    obtain rfl : s.captured.toNat = c := (capturedCount_toNat _ _).trans hc.symm
    have hlt : s.captured.toNat - 1 < s.tsCapacity.toNat := by omega
    have hmodel := State.intervalSum_eq hok.params_legal (hok.ts_buffer hb) hlt
    obtain rfl : s.intervalSum (s.captured.toNat - 1) = sum := hmodel.trans hsum.symm
    refine completes_of_record (exec_tsPeriod_of_captured hb (Nat.not_lt.mpr htwo))
      ⟨rfl, (BitVec.toNat_ofNat _ _).trans (Nat.mod_eq_of_lt ?_), frequencyFlag_iff _⟩
    rw [hmodel]
    exact s.mem.sum_interval_div_lt s.tsBase.toNat _

end Sys2Proof.Machine
end

