-- ==== Sys2Proof/Proofs/CaptureLaw.lean ====
section
/-! PROOFS. The capture law (45_timestamp_capture.md R112). After the transfers of a run the capture channel
is the armed one with its address and its COUNT moved on by their number, busy until the buffer is full; the
slots hold the clock at each transfer, and while the channel is busy the transfers and its open requests make
up the edges counted. -/

namespace Sys2Proof.Machine

/-! ### A slot of the buffer -/

theorem slotAddr_add_stride (base : Word) (n : Nat) : slotAddr base n + 4#32 = slotAddr base (n + 1) := by
  rw [slotAddr, slotAddr, Nat.mul_add, BitVec.ofNat_add, BitVec.add_assoc]

/-- RAM lies outside the window of the DMA registers (20_memory.md R36). -/
theorem Params.dmaRegister_of_ram {p : Params} (hp : p.Legal) {a : Word}
    (hlo : p.ramBase.toNat ≤ a.toNat) (hhi : a.toNat + 4 ≤ p.ramBase.toNat + p.ramSize) :
    p.dmaRegister a = false := by
  have hblock := hp.ram_block
  rw [Bool.eq_false_iff, ne_eq, Params.dmaRegister_iff hp]
  omega

theorem Memory.read32_of_zero {m : Memory} {a : Nat} (h : ∀ x, a ≤ x → x < a + 4 → m.read x = 0#8) :
    m.read32 a = 0#32 := by
  rw [Memory.read32, h a (by omega) (by omega), h (a + 1) (by omega) (by omega),
    h (a + 2) (by omega) (by omega), h (a + 3) (by omega) (by omega)]
  rfl

/-! ### The armed capture -/

/-- The capture as TS_START's re-arm step leaves it, with every edge a trigger, a zeroed buffer and no other
channel in flight (45_timestamp_capture.md R107, R112). -/
structure State.CaptureArmed (s : State) (ch : ChanNo) : Prop where
  legal : s.params.Legal
  mem_wf : s.mem.wf = true
  exists_ch : s.params.hasChannel ch = true
  buffer : s.params.bufferOk s.tsBase s.tsCapacity = true
  en : (s.chan ch).en = true
  busy : (s.chan ch).busy = true
  count : (s.chan ch).count = s.tsCapacity
  pending : (s.chan ch).pending = 0
  treq : (s.chan ch).treq = 0#6
  size : (s.chan ch).size = true
  incrRead : (s.chan ch).incrRead = false
  incrWrite : (s.chan ch).incrWrite = true
  readAddr : (s.chan ch).readAddr = s.params.clockAddr
  writeAddr : (s.chan ch).writeAddr = s.tsBase
  zeroed : ∀ a, bufferBytes s.tsBase s.tsCapacity a → s.mem.read a = 0#8
  ec_wrap : s.ec.wrap = 0#16
  ec_ctr : s.ec.ctr = 0#16
  others : ∀ d, d ≠ ch → (s.chan d).busy = false

/-- The capture channel after `n` transfers, with `p` requests open. -/
def State.captureAt (s : State) (ch : ChanNo) (n p : Nat) : DmaChannel :=
  { s.chan ch with
    writeAddr := slotAddr s.tsBase n
    count := s.tsCapacity - BitVec.ofNat 32 n
    busy := decide (n < s.tsCapacity.toNat)
    pending := p }

section
variable {s : State} {ch : ChanNo} {n p : Nat}

theorem State.CaptureArmed.captureAt_zero (h : s.CaptureArmed ch) : s.captureAt ch 0 0 = s.chan ch := by
  have haddr : slotAddr s.tsBase 0 = (s.chan ch).writeAddr := (BitVec.add_zero _).trans h.writeAddr.symm
  have hcount : s.tsCapacity - BitVec.ofNat 32 0 = (s.chan ch).count :=
    (BitVec.sub_zero _).trans h.count.symm
  have hbusy : decide (0 < s.tsCapacity.toNat) = (s.chan ch).busy :=
    (decide_eq_true (Params.cap_pos_of_bufferOk h.buffer)).trans h.busy.symm
  rw [State.captureAt, haddr, hcount, hbusy, ← h.pending]

theorem toNat_sub_ofNat_of_le {cap : Word} (hn : n ≤ cap.toNat) :
    (cap - BitVec.ofNat 32 n).toNat = cap.toNat - n := by
  have hlt := cap.isLt
  rw [toNat_sub_eq, BitVec.toNat_ofNat]
  omega

/-- The transfer that leaves no slot is the one with COUNT at 1. -/
theorem sub_ofNat_eq_one_iff {cap : Word} (hn : n < cap.toNat) :
    cap - BitVec.ofNat 32 n = 1#32 ↔ n + 1 = cap.toNat := by
  rw [← BitVec.toNat_inj, toNat_sub_ofNat_of_le hn.le, BitVec.toNat_ofNat]
  omega

/-- A served request moves the channel to the next slot, and ends the sequence at the last one
(40_bus_dma.md R69). -/
theorem State.CaptureArmed.served_captureAt (h : s.CaptureArmed ch) (hn : n < s.tsCapacity.toNat) :
    (s.captureAt ch n p).served =
      s.captureAt ch (n + 1) (if n + 1 = s.tsCapacity.toNat then 0 else p - 1) := by
  have hword : (s.captureAt ch n p).accessSize = .word := if_pos h.size
  have hbusy : decide (n + 1 < s.tsCapacity.toNat) =
      if n + 1 = s.tsCapacity.toNat then false else true := by
    split
    · exact decide_eq_false (by omega)
    · exact decide_eq_true (by omega)
  have hcount : s.tsCapacity - BitVec.ofNat 32 n - 1#32 = s.tsCapacity - BitVec.ofNat 32 (n + 1) := by
    rw [BitVec.ofNat_add, sub_sub]
  rw [DmaChannel.served_eq (decide_eq_true hn), hword]
  simp only [State.captureAt, h.incrRead, h.incrWrite, sub_ofNat_eq_one_iff hn, hbusy, hcount, if_true,
    Bool.false_eq_true, if_false, BitVec.add_zero, Size.bytes, slotAddr_add_stride]

end

/-! ### The capture under the agents' turns -/

/-- The state `t` of the capture armed in `s`, after `e` counted edges and transfers at the clock values
`clocks`. -/
structure CaptureAfter (s : State) (ch : ChanNo) (e : Nat) (clocks : List Word) (t : State) : Prop where
  params : t.params = s.params
  ec_wrap : t.ec.wrap = 0#16
  ec_ctr : t.ec.ctr = 0#16
  mem_wf : t.mem.wf = true
  length_le : clocks.length ≤ s.tsCapacity.toNat
  slots : ∀ i, i < s.tsCapacity.toNat → t.mem.read32 (s.tsBase.toNat + 4 * i) = clocks.getD i 0#32
  chan_self : ∃ p, t.chan ch = s.captureAt ch clocks.length p ∧
    (clocks.length < s.tsCapacity.toNat → clocks.length + p = e)
  others : ∀ d, d ≠ ch → (t.chan d).busy = false

section
variable {s t u : State} {ch : ChanNo} {e : Nat} {clocks : List Word}

theorem State.CaptureArmed.after_zero (h : s.CaptureArmed ch) : CaptureAfter s ch 0 [] s where
  params := rfl
  ec_wrap := h.ec_wrap
  ec_ctr := h.ec_ctr
  mem_wf := h.mem_wf
  length_le := Nat.zero_le _
  slots i hi := Memory.read32_of_zero fun x hlo hhi => h.zeroed x ⟨by omega, by omega⟩
  chan_self := ⟨0, h.captureAt_zero.symm, fun _ => rfl⟩
  others := h.others

/-- A step that leaves EC_CTR and EC_WRAP, RAM and every channel. -/
theorem CaptureAfter.of_rest (h : CaptureAfter s ch e clocks t) (hp : u.params = t.params)
    (hwrap : u.ec.wrap = t.ec.wrap) (hctr : u.ec.ctr = t.ec.ctr) (hmem : u.mem = t.mem)
    (hchan : ∀ d, u.chan d = t.chan d) : CaptureAfter s ch e clocks u where
  params := hp.trans h.params
  ec_wrap := hwrap.trans h.ec_wrap
  ec_ctr := hctr.trans h.ec_ctr
  mem_wf := hmem ▸ h.mem_wf
  length_le := h.length_le
  slots i hi := hmem ▸ h.slots i hi
  chan_self := by
    rw [hchan]
    exact h.chan_self
  others d hd := (congrArg DmaChannel.busy (hchan d)).trans (h.others d hd)

/-- An event of the EdgeCounter is a request of the capture channel while it is busy, and reaches no channel
after that (40_bus_dma.md R68). -/
theorem CaptureAfter.emit (h : CaptureAfter s ch e clocks t) (ho : s.CaptureArmed ch) {acc : BitVec 16}
    (he : t.emit ecTag acc = .ok u) : CaptureAfter s ch (e + 1) clocks u := by
  obtain ⟨_, hframe, _⟩ := State.emit_ok he
  obtain ⟨p, hself, hsum⟩ := h.chan_self
  refine {
    params := by rw [hframe]; exact h.params
    ec_wrap := by rw [hframe]; exact h.ec_wrap
    ec_ctr := by rw [hframe]; exact h.ec_ctr
    mem_wf := by rw [hframe]; exact h.mem_wf
    length_le := h.length_le
    slots := by rw [hframe]; exact h.slots
    chan_self := ?_
    others := fun d hd => ?_ }
  · by_cases hlt : clocks.length < s.tsCapacity.toNat
    · have hacc : Accepts ecTag acc t ch := by
        rw [Accepts, h.params, hself]
        exact ⟨Params.hasChannel_iff.mp ho.exists_ch, ho.treq, decide_eq_true hlt, .inl ho.en⟩
      refine ⟨p + 1, ?_, fun _ => congrArg (· + 1) (hsum hlt)⟩
      rw [State.emit_chan_of_accepts he hacc, hself]
      rfl
    · have hidle : (t.chan ch).busy = false := by
        rw [hself]
        exact decide_eq_false hlt
      exact ⟨p, (State.emit_chan_of_idle he hidle).trans hself, fun hlt' => absurd hlt' hlt⟩
  · rw [State.emit_chan_of_idle he (h.others d hd)]
    exact h.others d hd

/-- With EC_WRAP and EC_CTR at 0 every counted edge is an event, and the count stays 0
(41_edge_counter.md R76). -/
theorem CaptureAfter.edge (h : CaptureAfter s ch e clocks t) (ho : s.CaptureArmed ch) {p : BitVec 8}
    {acc : BitVec 16} (ht : t.edge p acc = .ok u) :
    CaptureAfter s ch (e + if t.qualifies p then 1 else 0) clocks u := by
  by_cases hq : t.qualifies p = true
  · rw [State.edge_at_wrap hq (h.ec_ctr.trans h.ec_wrap.symm)] at ht
    have hcounted : CaptureAfter s ch e clocks { t.toggle p with ec := { t.ec with ctr := 0#16 } } :=
      h.of_rest rfl rfl h.ec_ctr.symm rfl fun _ => rfl
    rw [if_pos hq]
    exact hcounted.emit ho ht
  · obtain rfl := Except.ok.inj ((State.edge_of_not_qualifies hq).symm.trans ht)
    rw [if_neg hq]
    exact h.of_rest rfl rfl rfl rfl fun _ => rfl

/-- No channel takes the GateTimer's event: the capture channel waits for the EdgeCounter's, and the others
are idle. -/
theorem CaptureAfter.not_takes_gtTag (h : CaptureAfter s ch e clocks t) (ho : s.CaptureArmed ch)
    (acc : BitVec 16) (d : ChanNo) : (t.chan d).takes gtTag (acc.getLsbD d.toNat) = false := by
  refine DmaChannel.takes_eq_false _ ?_
  by_cases hd : d = ch
  · subst hd
    obtain ⟨p, hself, _⟩ := h.chan_self
    rw [hself]
    exact .inr (ho.treq.trans_ne (by decide))
  · exact .inl (h.others d hd)

theorem CaptureAfter.tick (h : CaptureAfter s ch e clocks t) (ho : s.CaptureArmed ch) {acc : BitVec 16}
    (ht : t.gtTick acc = .ok u) : CaptureAfter s ch e clocks u := by
  rcases State.gtTick_ok ht with ⟨_, rfl⟩ | ⟨_, he⟩
  · exact h.of_rest rfl rfl rfl rfl fun _ => rfl
  · obtain ⟨_, hframe, _⟩ := State.emit_ok he
    refine h.of_rest (by rw [hframe]) (by rw [hframe]) (by rw [hframe]) (by rw [hframe]) fun d => ?_
    exact State.emit_chan_of_not_takes (s := { t with gt := t.gt.tick }) he (h.not_takes_gtTag ho acc d)

/-! ### The transfer -/

/-- The capture channel's transfer stores the clock in the next slot (40_bus_dma.md R69,
45_timestamp_capture.md R106). -/
theorem CaptureAfter.transfer_eq (h : CaptureAfter s ch e clocks t) (ho : s.CaptureArmed ch)
    (hlt : clocks.length < s.tsCapacity.toNat) : t.transfer ch = .ok (State.setChan
      { t with mem := t.mem.write32 (s.tsBase.toNat + 4 * clocks.length) t.clock } ch
      (t.chan ch).served) := by
  obtain ⟨haddr, hlo, hhi, halign⟩ := Params.slotAddr_in_ram ho.legal ho.buffer hlt
  rw [← h.params] at hlo hhi
  have hp : t.params.Legal := h.params ▸ ho.legal
  obtain ⟨p, hself, _⟩ := h.chan_self
  have hword : (t.chan ch).accessSize = .word := by
    rw [hself]
    exact if_pos ho.size
  have hread : (t.chan ch).readAddr = t.params.clockAddr := by
    rw [hself, h.params]
    exact ho.readAddr
  have hwrite : (t.chan ch).writeAddr = slotAddr s.tsBase clocks.length :=
    congrArg DmaChannel.writeAddr hself
  refine State.transfer_of_move (v := t.clock) ?_ ?_ ?_
  · rw [hwrite]
    exact Params.dmaRegister_of_ram hp hlo hhi
  · rw [hread, hword]
    exact State.memRead_clock hp
  · rw [hwrite, hword, ← haddr]
    exact State.memWrite_ram_word hlo hhi halign

/-- A word stored in the slot after the last one written leaves the other slots. -/
theorem CaptureAfter.slots_write (h : CaptureAfter s ch e clocks t) (v : Word) {i : Nat}
    (hi : i < s.tsCapacity.toNat) :
    (t.mem.write32 (s.tsBase.toNat + 4 * clocks.length) v).read32 (s.tsBase.toNat + 4 * i) =
      (clocks ++ [v]).getD i 0#32 := by
  rcases Nat.lt_trichotomy i clocks.length with hlt | rfl | hgt
  · rw [Memory.read32_write32_ne h.mem_wf v (by omega), h.slots i hi, List.getD_append _ _ _ _ hlt]
  · rw [Memory.read32_write32_same h.mem_wf, List.getD_append_right _ _ _ _ (Nat.le_refl _),
      Nat.sub_self]
    rfl
  · rw [Memory.read32_write32_ne h.mem_wf v (by omega), h.slots i hi,
      List.getD_eq_default _ _ hgt.le, List.getD_eq_default]
    rw [List.length_append]
    exact hgt

theorem CaptureAfter.transfer (h : CaptureAfter s ch e clocks t) (ho : s.CaptureArmed ch)
    (hen : t.agentEnabled (.transfer ch) = true) (ht : t.transfer ch = .ok u) :
    CaptureAfter s ch e (clocks ++ [t.clock]) u := by
  obtain ⟨_, _, hbusy, hreq⟩ := State.agentEnabled_transfer_iff.mp hen
  obtain ⟨p, hself, hsum⟩ := h.chan_self
  rw [hself] at hbusy hreq
  have hlt : clocks.length < s.tsCapacity.toNat := of_decide_eq_true hbusy
  obtain rfl := Except.ok.inj ((h.transfer_eq ho hlt).symm.trans ht)
  refine {
    params := h.params
    ec_wrap := h.ec_wrap
    ec_ctr := h.ec_ctr
    mem_wf := Memory.wf_write32 h.mem_wf _ _
    length_le := by rw [List.length_append]; exact hlt
    slots := fun i hi => h.slots_write t.clock hi
    chan_self := ⟨if clocks.length + 1 = s.tsCapacity.toNat then 0 else p - 1, ?_, fun hnext => ?_⟩
    others := fun d hd => ?_ }
  · rw [State.chan_setChan_self, hself, ho.served_captureAt hlt, List.length_append]
    rfl
  · have hopen : 0 < p := hreq
    have hedges := hsum hlt
    rw [List.length_append, List.length_singleton] at hnext ⊢
    rw [if_neg hnext.ne]
    omega
  · rw [State.chan_setChan_ne _ _ hd]
    exact h.others d hd

/-! ### A run -/

theorem State.transfers_of_disabled {a : Turn} (hen : t.agentEnabled a = false) :
    t.transfers ch a = false := by
  cases a with
  | transfer d => exact (congrArg ((d == ch) && ·) hen).trans (Bool.and_false _)
  | _ => rfl

/-- Every turn without a model fault moves the counted edges and the clock values of the transfers on. -/
theorem CaptureAfter.agentStep (h : CaptureAfter s ch e clocks t) (ho : s.CaptureArmed ch) {a : Turn}
    (hf : (t.agentStep a).faultMark = none) :
    CaptureAfter s ch (e + if t.countsEdge a then 1 else 0)
      (clocks ++ if t.transfers ch a then [t.clock] else []) (t.agentStep a) := by
  rcases t.agentStep_cases a with ⟨hen, hstep⟩ | ⟨hen, u, hact, hstep⟩ | ⟨_, f, _, hstep⟩ <;>
    rw [hstep] at hf ⊢
  · rw [State.countsEdge_of_disabled hen, State.transfers_of_disabled hen]
    simpa using h
  · cases a with
    | control => cases hen
    | edge p acc =>
      have hcounts : t.countsEdge (.edge p acc) = t.qualifies p :=
        (congrArg (· && t.qualifies p) hen).trans (Bool.true_and _)
      rw [hcounts]
      simpa [State.transfers] using h.edge ho hact
    | tick acc => simpa [State.transfers, State.countsEdge] using h.tick ho hact
    | transfer d =>
      by_cases hd : d = ch
      · subst hd
        have htransfers : t.transfers d (.transfer d) = true := by simp [State.transfers, hen]
        rw [if_pos htransfers]
        exact h.transfer ho hen hact
      · exact absurd ((State.not_agentEnabled_of_idle (h.others d hd)).symm.trans hen) nofun
    | clock =>
      obtain rfl := Except.ok.inj hact
      have hrest : CaptureAfter s ch e clocks t.clockStep := h.of_rest rfl rfl rfl rfl fun _ => rfl
      simpa [State.transfers, State.countsEdge] using hrest
  · cases hf

/-- A run moves them on by those among its turns. -/
theorem CaptureAfter.runTurns {ts : List Turn} (h : CaptureAfter s ch e clocks t)
    (ho : s.CaptureArmed ch) (hf : (State.runTurns ts t).faultMark = none) :
    CaptureAfter s ch (e + countTurns State.countsEdge ts t) (clocks ++ transferClocks ch ts t)
      (State.runTurns ts t) := by
  induction ts generalizing t e clocks with
  | nil =>
    rw [transferClocks, List.append_nil]
    exact h
  | cons a ts ih =>
    have hstart := State.faultMark_of_runTurns hf
    rw [State.runTurns_cons hstart] at hf ⊢
    rw [countTurns, transferClocks, ← Nat.add_assoc, ← List.append_assoc]
    exact ih (h.agentStep ho (State.faultMark_of_runTurns hf)) hf

/-! ### What the capture shows -/

theorem CaptureAfter.count_toNat (h : CaptureAfter s ch e clocks t) :
    (t.chan ch).count.toNat = s.tsCapacity.toNat - clocks.length := by
  obtain ⟨p, hself, _⟩ := h.chan_self
  rw [hself]
  exact toNat_sub_ofNat_of_le h.length_le

/-- The captured count is the number of transfers. -/
theorem CaptureAfter.captured_eq (h : CaptureAfter s ch e clocks t) (hts : t.ts.ch = ch)
    (hcap : t.tsCapacity = s.tsCapacity) : t.captured = BitVec.ofNat 32 clocks.length := by
  have hle := h.length_le
  have hlt := s.tsCapacity.isLt
  refine BitVec.eq_of_toNat_eq ?_
  rw [State.captured, capturedCount_toNat, hts, hcap, h.count_toNat, BitVec.toNat_ofNat,
    Nat.mod_eq_of_lt (by omega), Nat.sub_sub_self hle]

theorem CaptureAfter.busy_eq (h : CaptureAfter s ch e clocks t) :
    (t.chan ch).busy = decide (clocks.length < s.tsCapacity.toNat) := by
  obtain ⟨p, hself, _⟩ := h.chan_self
  exact congrArg DmaChannel.busy hself

/-- While the channel is busy, each counted edge has been served by a transfer or is an open request. -/
theorem CaptureAfter.edges_eq (h : CaptureAfter s ch e clocks t) (hb : (t.chan ch).busy = true) :
    clocks.length + (t.chan ch).pending = e := by
  rw [h.busy_eq] at hb
  obtain ⟨p, hself, hsum⟩ := h.chan_self
  rw [hself]
  exact hsum (of_decide_eq_true hb)

end

/-- Settles O53: each clause is one of the fields of `CaptureAfter` at the end of the run. -/
theorem captureHoldsTheClockOfEachTransfer : Obligations.CaptureHoldsTheClockOfEachTransfer := by
  unfold Obligations.CaptureHoldsTheClockOfEachTransfer
  rintro s t ch ts clocks hp hwf hch hts hbuf hen hbusy hcount hpending htreq hsize hir hiw hra hwa hzero
    hwrap hctr hothers _ rfl hf rfl
  have ho : s.CaptureArmed ch := ⟨hp, hwf, hch, hbuf, hen, hbusy, hcount, hpending, htreq, hsize, hir, hiw,
    hra, hwa, hzero, hwrap, hctr, hothers⟩
  have hend := ho.after_zero.runTurns ho hf
  rw [Nat.zero_add, List.nil_append] at hend
  have hkeeps := State.runTurns_keeps ts s
  have hbind : (State.runTurns ts s).ts = ⟨ch, true⟩ := hkeeps.ts.trans hts
  refine ⟨hend.length_le, hend.count_toNat, ?captured, fun i hi => ?written, fun i hlo hi => ?later, ?full,
    hend.edges_eq⟩
  case captured =>
    rw [exec_tsCaptured_of_bound (congrArg Binding.bound hbind),
      hend.captured_eq (congrArg Binding.ch hbind) hkeeps.tsCapacity]
  case written =>
    rw [hend.slots i (hi.trans_le hend.length_le), List.getD_eq_getElem _ _ hi,
      List.getElem?_eq_getElem hi]
  case later => rw [hend.slots i hi, List.getD_eq_default _ _ hlo]
  case full =>
    rw [hend.busy_eq, decide_eq_false_iff_not, Nat.not_lt]
    exact ⟨fun heq => heq.ge, fun hge => hend.length_le.antisymm hge⟩

end Sys2Proof.Machine
end

