-- ==== Sys2Proof/Proofs/GateTimerLiveness.lean ====
section
/-! PROOFS. The GateTimer's liveness (60_exceptions.md R129, R130): from any register values, a count past the
limit included, the ticks left before the expiring one go down by 1 at each tick. So an expiry comes within
that many ticks, and in a fair run, whose ticks never end, they cannot all pass without one. -/

namespace Sys2Proof.Machine

/-! ### The ticks left before an expiry -/

/-- How many ticks come before the one that expires: up to the limit by the 16-bit difference, which goes
round past 0xFFFF where the count is above the limit; in phase-correct mode also the turn at the limit and
the way down. -/
def GateTimer.ticksLeft (c : GateTimer) : Nat :=
  if c.phCorrect = false then (c.wrap - c.ctr).toNat
  else if c.dir = false then (c.wrap - c.ctr).toNat + (c.wrap.toNat + 1)
  else c.ctr.toNat

section
variable {c : GateTimer}

theorem GateTimer.ticksLeft_of_plain (hm : c.phCorrect = false) :
    c.ticksLeft = (c.wrap - c.ctr).toNat :=
  if_pos hm

theorem GateTimer.ticksLeft_of_up (hm : c.phCorrect = true) (hd : c.dir = false) :
    c.ticksLeft = (c.wrap - c.ctr).toNat + (c.wrap.toNat + 1) := by
  rw [GateTimer.ticksLeft, if_neg (ne_false_of_eq_true hm), if_pos hd]

theorem GateTimer.ticksLeft_of_down (hm : c.phCorrect = true) (hd : c.dir = true) :
    c.ticksLeft = c.ctr.toNat := by
  rw [GateTimer.ticksLeft, if_neg (ne_false_of_eq_true hm), if_neg (ne_false_of_eq_true hd)]

/-- One tick less is left to the limit after a count up below it. -/
theorem toNat_sub_add_one {w x : BitVec 16} (h : x ≠ w) : (w - (x + 1#16)).toNat + 1 = (w - x).toNat := by
  bv_omega

/-- Everything a tick can do to the ticks left: with none left it expires, else one less is left after it. -/
theorem GateTimer.ticksLeft_cases (c : GateTimer) :
    (c.expires = true ∧ c.ticksLeft = 0) ∨
    (c.expires = false ∧ c.tick.ticksLeft + 1 = c.ticksLeft) := by
  rw [← Bool.not_eq_true, GateTimer.expires_iff]
  cases hm : c.phCorrect with
  | false =>
    by_cases hw : c.ctr = c.wrap
    · simp [GateTimer.ticksLeft_of_plain, hm, hw]
    · simp [GateTimer.tick_plain_below_wrap hm hw, GateTimer.ticksLeft_of_plain, hm, hw,
        toNat_sub_add_one hw, -BitVec.toNat_sub]
  | true =>
    cases hd : c.dir with
    | false =>
      by_cases hw : c.ctr = c.wrap
      · simp [GateTimer.tick_up_at_wrap hm hd hw, GateTimer.ticksLeft_of_up hm hd,
          GateTimer.ticksLeft_of_down, hm, hw]
      · simp [GateTimer.tick_up_below_wrap hm hd hw, GateTimer.ticksLeft_of_up, hm, hd,
          ← toNat_sub_add_one hw, -BitVec.toNat_sub]
        omega
    | true =>
      by_cases h0 : c.ctr = 0#16
      · simp [GateTimer.ticksLeft_of_down hm hd, h0]
      · simp [GateTimer.tick_down_above_zero hm hd h0, GateTimer.ticksLeft_of_down, hm, hd, h0]
        bv_omega

theorem GateTimer.ticksLeft_tick_lt (hx : ¬ c.expires = true) : c.tick.ticksLeft < c.ticksLeft := by
  rcases c.ticksLeft_cases with ⟨hexpires, _⟩ | ⟨_, hless⟩
  · exact absurd hexpires hx
  · omega

theorem GateTimer.ticksLeft_lt (c : GateTimer) : c.ticksLeft < 2 ^ 17 := by
  have hup := (c.wrap - c.ctr).isLt
  have hwrap := c.wrap.isLt
  have hctr := c.ctr.isLt
  unfold GateTimer.ticksLeft
  split_ifs <;> omega

/-- The expiry comes with the tick after the ticks left. -/
theorem GateTimer.expires_iterate_ticksLeft (c : GateTimer) :
    (GateTimer.tick^[c.ticksLeft] c).expires = true := by
  induction hn : c.ticksLeft generalizing c with
  | zero =>
    rcases c.ticksLeft_cases with ⟨hexpires, _⟩ | ⟨_, hless⟩
    · exact hexpires
    · omega
  | succ n ih =>
    rcases c.ticksLeft_cases with ⟨_, hzero⟩ | ⟨_, hless⟩
    · omega
    · exact ih c.tick (by omega)

end

/-- Settles O47: the ticks left are at most 2 * 65535 + 1. -/
theorem everyGateTimerExpiresWithinBound : Obligations.EveryGateTimerExpiresWithinBound := by
  unfold Obligations.EveryGateTimerExpiresWithinBound
  intro g
  have hbound := g.ticksLeft_lt
  exact ⟨g.ticksLeft, by omega, g.expires_iterate_ticksLeft⟩

/-! ### Fair runs -/

theorem Turn.sameAgent_tick {acc : BitVec 16} {a : Turn} (h : Turn.sameAgent (.tick acc) a = true) :
    ∃ acc', a = .tick acc' := by
  cases a with
  | tick acc' => exact ⟨acc', rfl⟩
  | _ => cases h

section
variable {st : Nat → State} {turn : Nat → Turn} {n : Nat}

/-- A GateTimer that stays enabled ticks again and again in a fair run. -/
theorem WeaklyFair.exists_tick (hfair : WeaklyFair st turn) (hen : ∀ n, (st n).gt.en = true) (n : Nat) :
    ∃ m, n ≤ m ∧ ∃ acc, turn m = .tick acc := by
  obtain ⟨m, hle, hsame⟩ := hfair (.tick 0#16) rfl n fun m _ => State.agentEnabled_tick (hen m)
  exact ⟨m, hle, Turn.sameAgent_tick hsame⟩

/-- At a tick of the run that expires nothing, the GateTimer's registers make one tick. -/
theorem IsRun.gt_tick (hrun : IsRun st turn) (hf : (st n).faultMark = none) (hen : (st n).gt.en = true)
    {acc : BitVec 16} (ht : turn n = .tick acc) (hx : ¬ (st n).gt.expires = true) :
    (st (n + 1)).gt = (st n).gt.tick := by
  obtain ⟨_, hstep⟩ := hrun n
  rw [ht, step_agent (s := { st n with schedule := [.tick acc] }) hf rfl nofun,
    State.agentStep_tick_quiet (s := { st n with schedule := [] }) hen hx] at hstep
  exact (congrArg State.gt (Host.Outcome.next.inj hstep)).symm

theorem State.emitsGt_tick {s : State} {acc : BitVec 16} (hen : s.gt.en = true) :
    s.emitsGt (.tick acc) = s.gt.expires := by
  simp [State.emitsGt, State.ticks, hen]

end

/-- A fair run of the hardware with a GateTimer that stays enabled and that only its own ticks change
(60_exceptions.md R130). -/
structure FairGateRun (st : Nat → State) (turn : Nat → Turn) : Prop where
  run : IsRun st turn
  fair : WeaklyFair st turn
  hardware : HardwareRun st
  en : ∀ n, (st n).gt.en = true
  alone : ∀ n, (∀ acc, turn n ≠ .tick acc) → (st (n + 1)).gt = (st n).gt

/-- An expiry event comes somewhere in the run. -/
def EmitsExpiry (st : Nat → State) (turn : Nat → Turn) : Prop := ∃ n, (st n).emitsGt (turn n) = true

section
variable {st : Nat → State} {turn : Nat → Turn} (h : FairGateRun st turn)
include h

/-- A tick of the run emits the event or takes one off the ticks left. -/
theorem FairGateRun.tick {n : Nat} {acc : BitVec 16} (ht : turn n = .tick acc) :
    EmitsExpiry st turn ∨ (st (n + 1)).gt.ticksLeft < (st n).gt.ticksLeft := by
  by_cases hx : (st n).gt.expires = true
  · exact .inl ⟨n, by rw [ht, State.emitsGt_tick (h.en n), hx]⟩
  · rw [h.run.gt_tick (h.hardware n) (h.en n) ht hx]
    exact .inr (GateTimer.ticksLeft_tick_lt hx)

/-- Until the event, no turn of the run adds to the ticks left. -/
theorem FairGateRun.ticksLeft_le {n m : Nat} (hle : n ≤ m) :
    EmitsExpiry st turn ∨ (st m).gt.ticksLeft ≤ (st n).gt.ticksLeft := by
  induction m, hle using Nat.le_induction with
  | base => exact .inr le_rfl
  | succ m _ ih =>
    obtain hevent | hkept := ih
    · exact .inl hevent
    by_cases ht : ∃ acc, turn m = .tick acc
    · obtain ⟨acc, ht⟩ := ht
      exact (h.tick ht).imp_right fun hless => hless.le.trans hkept
    · rw [h.alone m fun acc hacc => ht ⟨acc, hacc⟩]
      exact .inr hkept

/-- Until the event, any number of ticks comes at some point, and each takes one off the ticks left. -/
theorem FairGateRun.exists_ticksLeft_add_le (k : Nat) :
    EmitsExpiry st turn ∨ ∃ n, (st n).gt.ticksLeft + k ≤ (st 0).gt.ticksLeft := by
  induction k with
  | zero => exact .inr ⟨0, le_rfl⟩
  | succ k ih =>
    obtain hevent | ⟨n, hn⟩ := ih
    · exact .inl hevent
    obtain ⟨m, hle, acc, ht⟩ := h.fair.exists_tick h.en n
    obtain hevent | hkept := h.ticksLeft_le hle
    · exact .inl hevent
    exact (h.tick ht).imp_right fun hless => ⟨m + 1, by omega⟩

/-- The run cannot hold more ticks without the event than are left at its start. -/
theorem FairGateRun.emitsExpiry : EmitsExpiry st turn := by
  obtain hevent | ⟨n, hn⟩ := h.exists_ticksLeft_add_le ((st 0).gt.ticksLeft + 1)
  · exact hevent
  · omega

end

/-- Settles O60: the statement's premises are those of `FairGateRun`. -/
theorem fairGateTimerExpires : Obligations.FairGateTimerExpires := by
  unfold Obligations.FairGateTimerExpires
  intro st turn hrun hfair hhardware hen halone
  exact FairGateRun.emitsExpiry ⟨hrun, hfair, hhardware, hen, halone⟩

end Sys2Proof.Machine
end

