-- ==== Sys2Proof/Proofs/Exceptions.lean ====
section
/-! PROOFS. Errors (60_exceptions.md R114, R116 to R118, R121). Every command answers a next state: one of its
checks fails, it ends with OK, or it has taken the first of several micro-steps. This is said once for all
commands, in the order of their checks; a faulted machine takes no step at all. -/

namespace Sys2Proof.Machine

/-! ### After a model fault -/

theorem step_faulted {s : State} {f : Fault} (h : s.faultMark = some f) : step s = .fault f := by
  unfold step
  rw [h]

/-- Settles O9: the step answers the fault, and a run of turns takes none. -/
theorem faultedMachineTakesNoStep : Obligations.FaultedMachineTakesNoStep := by
  unfold Obligations.FaultedMachineTakesNoStep
  exact ⟨fun _ _ => step_faulted, fun _ _ ts h => State.runTurns_faulted h ts⟩

/-! ### How a command ends -/

/-- The status codes a command can return (60_exceptions.md R114). -/
def returnedCodes : List (BitVec 8) := [0#8, 1#8, 2#8, 3#8, 6#8, 7#8, 8#8, 9#8]

/-- The three ways a command's first step can end: a check has failed, the command is done, or others of its
micro-steps are left in flight. -/
inductive CommandEnd (s : State) : State → Prop
  | fails {st : Status} (hst : st.code ∈ returnedCodes) : CommandEnd s (s.fail st)
  | returns {u : State} {value : Word} {flag : Bool} (hm : u.inFlight = s.inFlight) :
      CommandEnd s (u.ret value flag)
  | starts {t : State} {m : InFlight} (hm : t.inFlight = some m) (hl : t.last = s.last) : CommandEnd s t

/-- The outcome is a next state, in which the command has ended in one of the three ways. -/
def Answers (s : State) (o : Host.Outcome State Fault Refusal) : Prop :=
  ∃ t, o = .next t ∧ CommandEnd s t

section
variable {s : State}

theorem Answers.fails {st : Status} (hst : st.code ∈ returnedCodes) : Answers s (.next (s.fail st)) :=
  ⟨_, rfl, .fails hst⟩

theorem Answers.returns {u : State} (value : Word) (flag : Bool) (hm : u.inFlight = s.inFlight) :
    Answers s (.next (u.ret value flag)) :=
  ⟨_, rfl, .returns hm⟩

theorem Answers.starts {t : State} {m : InFlight} (hm : t.inFlight = some m) (hl : t.last = s.last) :
    Answers s (.next t) :=
  ⟨t, rfl, .starts hm hl⟩

theorem Answers.ite {p : Prop} [Decidable p] {a b : Host.Outcome State Fault Refusal}
    (ha : Answers s a) (hb : Answers s b) : Answers s (if p then a else b) := by
  split
  · exact ha
  · exact hb

/-- A check, and what comes after it (60_exceptions.md R117). -/
theorem Answers.check {p : Prop} [Decidable p] {st : Status} {o : Host.Outcome State Fault Refusal}
    (hst : st.code ∈ returnedCodes) (ho : Answers s o) :
    Answers s (if p then .next (s.fail st) else o) :=
  .ite (.fails hst) ho

theorem execBusRd_answers (a : Word) (s : State) : Answers s (execBusRd a s) := by
  unfold execBusRd
  split
  · exact .fails (by decide)
  · exact .returns _ _ rfl

theorem execBusWr_answers (a v : Word) (s : State) : Answers s (execBusWr a v s) := by
  unfold execBusWr
  split
  · exact .fails (by decide)
  next hw => exact .returns _ _ (State.memWrite_keeps hw).inFlight

theorem execGtConfigure_answers (pin prescale : BitVec 8) (period : Word) (s : State) :
    Answers s (execGtConfigure pin prescale period s) := by
  unfold execGtConfigure
  refine .check (by decide) (.check (by decide) ?_)
  split
  · exact .fails (by decide)
  · exact .returns _ _ rfl

theorem execTsStart_answers (s : State) : Answers s (execTsStart s) :=
  .check (by decide) (.ite (.starts rfl rfl) (.starts rfl (s.zeroSlot_keeps s.tsBase 0).last))

/-- Every command answers, in every state (60_exceptions.md R116). -/
theorem exec_answers (i : Instr) (s : State) : Answers s (exec i s) := by
  cases i with
  | busRd a => exact execBusRd_answers a s
  | busWr a v => exact execBusWr_answers a v s
  | enMask mask => exact .returns _ _ rfl
  | ecConfigure pin pol => exact .ite (.returns _ _ rfl) (.fails (by decide))
  | ecReset => exact .returns _ _ rfl
  | ecSetEnabled b => exact .returns _ _ rfl
  | ecRead => exact .returns _ _ rfl
  | ecSetWrap imm => exact .returns _ _ rfl
  | ecGetTag => exact .returns _ _ rfl
  | gtConfigure pin prescale period => exact execGtConfigure_answers pin prescale period s
  | gtReset => exact .returns _ _ rfl
  | gtSetEnabled b => exact .returns _ _ rfl
  | gtRead => exact .returns _ _ rfl
  | gtGetTag => exact .returns _ _ rfl
  | cxInit ch => exact .check (by decide) (.check (by decide) (.returns _ _ rfl))
  | cxStart => exact .check (by decide) (.starts rfl rfl)
  | cxValue => exact .check (by decide) (.returns _ _ rfl)
  | cxStop => exact .ite (.returns _ _ rfl) (.returns _ _ rfl)
  | gcInit ch => exact .check (by decide) (.check (by decide) (.returns _ _ rfl))
  | gcStart => exact .check (by decide) (.starts rfl rfl)
  | gcIsBusy => exact .check (by decide) (.returns _ _ rfl)
  | gcRead => exact .check (by decide) (.returns _ _ rfl)
  | gcPollOverflow => exact .check (by decide) (.returns _ _ rfl)
  | tsInit ch base cap =>
    exact .check (by decide) (.check (by decide) (.check (by decide) (.returns _ _ rfl)))
  | tsStart => exact execTsStart_answers s
  | tsStop => exact .ite (.returns _ _ rfl) (.returns _ _ rfl)
  | tsCaptured => exact .check (by decide) (.returns _ _ rfl)
  | tsPeriod => exact .check (by decide) (.check (by decide) (.returns _ _ rfl))

end

/-- Settles O43: a command that answers, in any of the three ways, answers a next state. -/
theorem everyCommandAnswersANextState : Obligations.EveryCommandAnswersANextState := by
  unfold Obligations.EveryCommandAnswersANextState
  intro i s
  obtain ⟨t, hx, _⟩ := exec_answers i s
  exact ⟨t, hx⟩

/-! ### The result record -/

theorem exec_commandEnd {i : Instr} {s t : State} (h : exec i s = .next t) : CommandEnd s t := by
  obtain ⟨u, hu, hend⟩ := exec_answers i s
  obtain rfl : t = u := Host.Outcome.next.inj (h.symm.trans hu)
  exact hend

section
variable {s t : State}

/-- A command that has ended has returned a code of R114's, and changed nothing but the record where the
code is not OK. -/
theorem CommandEnd.of_ended (h : CommandEnd s t) (ht : t.inFlight = none) :
    t.last.status ∈ returnedCodes ∧
      (t.last.status ≠ 0#8 → t = { s with last := ⟨t.last.status, 0#32, false⟩ }) := by
  cases h with
  | fails hst => exact ⟨hst, fun _ => rfl⟩
  | returns hm => exact ⟨List.mem_cons_self, fun hne => absurd rfl hne⟩
  | starts hm hl => exact absurd (hm.symm.trans ht) nofun

theorem CommandEnd.last_of_inFlight (h : CommandEnd s t) (hs : s.inFlight = none)
    (ht : t.inFlight ≠ none) : t.last = s.last := by
  cases h with
  | fails hst => exact absurd hs ht
  | returns hm => exact absurd (hm.trans hs) ht
  | starts hm hl => exact hl

/-- While a command is in flight no step writes the record but the micro-step that ends it, with OK. -/
theorem step_last_of_inFlight (hs : s.inFlight ≠ none) (h : step s = .next t) :
    (t.inFlight ≠ none → t.last = s.last) ∧ (t.inFlight = none → t.last = okResult 0#32 false) := by
  obtain ⟨_, ⟨a, ts, _, _, rfl⟩ | ⟨_, m, _, rfl⟩ | ⟨_, hidle, _⟩⟩ := step_cases h
  case inl =>
    have hkeeps := State.agentStep_keeps { s with schedule := ts } a
    exact ⟨fun _ => hkeeps.last, fun hnone => absurd (hkeeps.inFlight.symm.trans hnone) hs⟩
  case inr.inl =>
    rcases State.microStep_inFlight { s with schedule := s.schedule.drop 1 } m with
      ⟨m', hleft, hlast⟩ | ⟨hended, hlast⟩
    · exact ⟨fun _ => hlast, fun hnone => absurd (hleft.symm.trans hnone) nofun⟩
    · exact ⟨fun hne => absurd hended hne, fun _ => hlast⟩
  case inr.inr => exact absurd hidle hs

end

/-- Settles O42: the first step of a command by how it ends, the later ones by the steps of the machine. -/
theorem failedCommandsChangeNothing : Obligations.FailedCommandsChangeNothing := by
  unfold Obligations.FailedCommandsChangeNothing
  refine ⟨fun i s t hs hx => ?first, fun s t => step_last_of_inFlight⟩
  case first =>
    have hend := exec_commandEnd hx
    exact ⟨hend.of_ended, hend.last_of_inFlight hs⟩

end Sys2Proof.Machine
end

