-- ==== Sys2Proof/Proofs/Reset.lean ====
section
/-! PROOFS. The register values after reset (70_reset_and_hazards.md R135) as one table over the register
map: what a register reads depends on none of the launch inputs of R136. -/

namespace Sys2Proof.Machine

/-- The reset column of R135 by register: the wraps are the largest plain period, the pins are no pin, the
prescale is legal, and all else is 0. -/
def Reg.resetValue : Reg → Word
  | .ecWrap | .gtWrap => 0xFFFF#32
  | .ecPin | .gtPin => 0xFF#32
  | .gtPrescale => 1#32
  | _ => 0#32

theorem DmaChannel.readReg_atReset (q : DmaReg) : DmaChannel.atReset.readReg q = 0#32 := by
  cases q <;> rfl

theorem State.regRead_launch (p : Params) (clock : Word) (levels : BitVec 256) (ram : Memory) (r : Reg) :
    (State.launch p clock levels ram).regRead r = r.resetValue := by
  cases r
  case dma ch q =>
    calc (State.launch p clock levels ram).regRead (.dma ch q)
      _ = DmaChannel.atReset.readReg q :=
        congrArg (DmaChannel.readReg · q) (State.chan_launch p clock levels ram ch)
      _ = 0#32 := DmaChannel.readReg_atReset q
  case ecCtrl | gtCtrl | enMask | bind =>
    exact BitVec.eq_of_toNat_eq (State.regRead_toNat _ _)
  all_goals rfl

/-- Settles O58: the registers by the table, PENDING by the channel at reset. -/
theorem resetLeavesTheListedValues : Obligations.ResetLeavesTheListedValues := by
  unfold Obligations.ResetLeavesTheListedValues
  rintro p clock levels ram _ rfl
  have hreg := State.regRead_launch p clock levels ram
  have hpending (ch : ChanNo) : ((State.launch p clock levels ram).chan ch).pending = 0 :=
    congrArg DmaChannel.pending (State.chan_launch p clock levels ram ch)
  exact ⟨hreg .ecCtrl, hreg .ecCtr, hreg .ecWrap, hreg .ecPin, hreg .gtCtrl, hreg .gtCtr, hreg .gtWrap,
    hreg .gtPrescale, hreg .gtPin, hreg .enMask, hreg .cxScratch, hreg .gcStopval, hreg .gcState,
    hreg .gcOvfTally, hreg .gcPrevSample, hreg .bind, hreg .tsBase, hreg .tsCapacity,
    fun ch q => hreg (.dma ch q), hpending, rfl, rfl, rfl, rfl, rfl⟩

end Sys2Proof.Machine
end
